-- ==== Sys2Proof/Word.lean ====
section
/-! DEFINITION. The words of the machine: the 32-bit word of a descriptor and of the register block, the byte, the
floating-point element, and the complex value. -/

namespace Sys2Proof

/-- A 32-bit word: the unit of the command memory and of the register block (R70, R100). -/
abbrev Word := BitVec 32

/-- A byte of a memory, in the aperture layout (R77). -/
abbrev Byte := BitVec 8

/-- The encoding of one value of `F` (R130). For `binary64` all 64 bits are the interchange encoding; for `binary32` the
low 32 bits are, and the high 32 bits are zero (log 30). -/
abbrev Elem := BitVec 64

/-- A value of `C = F x F` (R14): a complex value as its real and imaginary part. -/
structure Cx where
  re : Elem
  im : Elem
  deriving DecidableEq, Repr, Inhabited

end Sys2Proof
end

