-- ==== Sys2Proof/Config.lean ====
section
/-! DEFINITION. What an implementation fixes (the parameters of R10) and the free values: opaque constants without a body,
of which nothing can be proved but that they are functions of their arguments. -/

namespace Sys2Proof

/-- The floating-point format of an engine instance: the parameter `FMT` (R10, R130). -/
inductive Fmt where
  | binary64
  | binary32
  deriving DecidableEq, Repr

/-- The parameters of R10 that an instance fixes and that a command or the host can observe. -/
structure Params where
  /-- `FMT`, the format of every real value. -/
  fmt : Fmt
  /-- `DMSIZE`, the number of elements of `DM`. -/
  dmSize : Nat
  /-- `CMSIZE`, the number of 32-bit words of `CM`. -/
  cmSize : Nat
  /-- `WCAP`, the capacity of the work memory in complex elements. -/
  wcap : Nat
  /-- `RMAX`, the largest prime radix the butterfly scratch holds. -/
  rmax : Nat
  /-- `HN_DIRECT_MAX`, the largest size whose RMS normaliser is summed directly. -/
  hnDirectMax : Nat
  deriving DecidableEq, Repr

/-- The constraints R10 puts on the open parameters. -/
abbrev Params.Ok (p : Params) : Prop :=
  2 ≤ p.dmSize ∧ p.dmSize ≤ 2 ^ 32 - 1 ∧ p.cmSize % 4 = 0 ∧ 4 ≤ p.cmSize ∧ p.cmSize ≤ 2 ^ 32 - 4 ∧
    2 ≤ p.wcap ∧ 2 ≤ p.rmax ∧ 64 ≤ p.hnDirectMax

/-- The three spaces the host reaches (R70): the register block, the data memory, the command memory. -/
inductive Region where
  | regs
  | dm
  | cm
  deriving DecidableEq, Repr

/-- Which operation produced a NaN: the key of the free sign and payload of a NaN result (R132, log 8). -/
inductive NanSource where
  | add | sub | mul | div | sqrt | log | exp | sin | cos | atan2 | pow
  deriving DecidableEq, Repr

/-- Which bit an `E_ALLOC` leaves open (R287): whether `TW_N`, or `LOGLIM`, takes its new value. -/
inductive AllocChoice where
  | twN
  | loglim
  deriving DecidableEq, Repr

namespace Config

/-- FREE VALUE (R53, R33, R325; log 4): the byte an unlisted memory address gives to the step whose draw index is the
second argument. -/
opaque freeByte : Region → Nat → Nat → Byte

/-- FREE VALUE (R287, U2; log 7): the choice an `E_ALLOC` taken at the given draw index leaves open. -/
opaque freeFlag : AllocChoice → Nat → Bool

/-- FREE VALUE (R132, U8; log 8): the bits the sign and payload of a NaN result are taken from. -/
opaque nanBits : NanSource → Fmt → Elem → Elem → Elem

/-- OPEN (R133, R135; log 9): `flog` outside the named exact values. -/
opaque logOf : Fmt → Elem → Elem

/-- OPEN (R133, R135; log 9): `fexp` outside the named exact values. -/
opaque expOf : Fmt → Elem → Elem

/-- OPEN (R133, R135; log 9): `fsin` outside the named exact values. -/
opaque sinOf : Fmt → Elem → Elem

/-- OPEN (R133, R135; log 9): `fcos` outside the named exact values. -/
opaque cosOf : Fmt → Elem → Elem

/-- OPEN (R133, R135; log 9): `fatan2(y, x)` outside the named exact values. -/
opaque atan2Of : Fmt → Elem → Elem → Elem

/-- OPEN (R133, R135; log 9): `fpow(x, y)` outside the named exact values. -/
opaque powOf : Fmt → Elem → Elem → Elem

/-- OPEN (R145, R146; log 9): the pair `twiddle(n, j)` away from the quarter turns. -/
opaque twiddleOf : Fmt → Nat → Nat → Cx

/-- OPEN (R10, R79; log 29): where the platform maps the register block (`DFE_BASE`) and the two apertures
(`DM_APERTURE`, `CM_APERTURE`) in the host's address space. -/
opaque base : Region → Nat

end Config

end Sys2Proof
end

