-- ==== Sys2Proof/Machine/Ints.lean ====
section
/-! DEFINITION. The integer helpers of R161 to R164, in the unbounded arithmetic of R160. -/

namespace Sys2Proof.Machine

/-- The trial division of R161 from the divisor `d` on; the first argument bounds the number of trials. -/
def spfFrom : Nat → Nat → Nat → Nat
  | 0, n, _ => n
  | fuel + 1, n, d => if d * d ≤ n then (if n % d = 0 then d else spfFrom fuel n (d + 1)) else n

/-- `spf(n)`, the smallest prime factor of `n ≥ 2` (R161). -/
def spf (n : Nat) : Nat := spfFrom n n 2

/-- `lpf` with a bound on the number of prime factors. -/
def lpfFuel : Nat → Nat → Nat
  | 0, _ => 1
  | fuel + 1, n => if n ≤ 1 then 1 else max (spf n) (lpfFuel fuel (n / spf n))

/-- `lpf(n)`, the largest prime factor of `n ≥ 2`, and 1 for `n = 1` (R161). -/
def lpf (n : Nat) : Nat := lpfFuel n n

/-- `ispow2(n)`: exactly one bit of `n` is set (R162). -/
def ispow2 (n : Nat) : Bool := n != 0 && n &&& (n - 1) == 0

/-- `nextpow2(n)`, the smallest power of two that is at least `n ≥ 1` (R162). -/
def nextpow2 (n : Nat) : Nat := if n ≤ 1 then 1 else 2 ^ ((n - 1).log2 + 1)

/-- `fsize(N, NOPAD, MEXP)`, the transform size (R163). -/
def fsize (n : Nat) (nopad : Bool) (mexp : BitVec 4) : Nat :=
  if nopad then n else nextpow2 n <<< mexp.toNat

/-- `rev` with a bound on the number of prime factors of the size. -/
def revFuel : Nat → Nat → Nat → Nat
  | 0, _, _ => 0
  | fuel + 1, k, n =>
    if n ≤ 1 then 0
    else k % spf n * (n / spf n) + revFuel fuel (k / spf n) (n / spf n)

/-- `rev(k, n)`, the generalised digit reversal (R164). -/
def rev (k n : Nat) : Nat := revFuel n k n

/-- Bit reversal of `k` in the `log2 n` bits of a power of two `n` (R164, R181). -/
def bitRevFuel : Nat → Nat → Nat → Nat
  | 0, _, _ => 0
  | fuel + 1, k, n => if n ≤ 1 then 0 else k % 2 * (n / 2) + bitRevFuel fuel (k / 2) (n / 2)

/-- Bit reversal below a power of two (R181). -/
def bitRev (k n : Nat) : Nat := bitRevFuel n k n

end Sys2Proof.Machine
end

