-- ==== Sys2Proof/Syntax.lean ====
section
/-! DEFINITION. The commands of the DFE as syntax: one constructor for each row of the opcode table (R104). A word that
R103 marks ignored is no part of an instruction (R108, log 31). -/

namespace Sys2Proof

/-- The option fields of `HD.DEC` and `HD.DECH` (R101, R103). -/
structure HdOpts where
  nopad : Bool
  mexp  : BitVec 4
  omp   : Bool
  oep   : Bool
  deriving DecidableEq, Repr

/-- The option fields of `MS.DIP`, `MS.PEAK`, `MS.FLAT` and of the two reserved rows (R101, R103). -/
structure MsOpts where
  nopad : Bool
  mexp  : BitVec 4
  pm    : Bool
  pr    : Bool
  deriving DecidableEq, Repr

/-- The commands. `n` is `w1`, `a` is `w2`, `b` is `w3` (R102); for `SETS`, `lo` is `w2` and `hi` is `w3` (R110). -/
inductive Instr where
  /-- `NOP` (R270). -/
  | nop
  /-- `END` (R271). -/
  | endList
  /-- `SETS` (R272): register index, immediate bits 31:0, immediate bits 63:32. -/
  | sets (i : BitVec 4) (lo hi : Word)
  /-- `FFT.FWD` (R177). -/
  | fftFwd (n a : Word)
  /-- `FFT.INV` (R178). -/
  | fftInv (n a : Word)
  /-- `FFT.FWDP2` (R179). -/
  | fftFwdP2 (n a : Word)
  /-- `FFT.INVP2` (R180). -/
  | fftInvP2 (n a : Word)
  /-- `CEP.LOG` (R202). -/
  | cepLog (n a : Word)
  /-- `CEP.FOLD` (R203). -/
  | cepFold (n a : Word)
  /-- `CEP.EXP` (R204). -/
  | cepExp (n a : Word)
  /-- `CEP.POL` (R205). -/
  | cepPol (n a b : Word)
  /-- `CEP.XPH` (R206). -/
  | cepXph (n a b : Word)
  /-- `HD.DEC` (R209). -/
  | hdDec (o : HdOpts) (n a b : Word)
  /-- `HD.DECH` (R210). -/
  | hdDech (o : HdOpts) (n a b : Word)
  /-- `MS.RMS` (R235). -/
  | msRms (n a : Word)
  /-- `MS.DIP` (R244). -/
  | msDip (o : MsOpts) (n a b : Word)
  /-- `MS.PEAK` (R245). -/
  | msPeak (o : MsOpts) (n a b : Word)
  /-- `MS.FLAT` (R246). -/
  | msFlat (o : MsOpts) (n a b : Word)
  /-- The reserved row `MS.DIP` with `CPOL = 1` (R262): its effect is `E_ILLEGAL`. -/
  | msDipLegacy (o : MsOpts) (n a b : Word)
  /-- The reserved row `MS.PEAK` with `CPOL = 1` (R262): its effect is `E_ILLEGAL`. -/
  | msPeakLegacy (o : MsOpts) (n a b : Word)
  deriving DecidableEq, Repr

end Sys2Proof
end

