-- ==== Sys2Proof/WellFormed.lean ====
section
/-! DEFINITION. The field constraints of R107, as a check on an instruction. -/

namespace Sys2Proof

/-- R107 (a): the index of a `SETS` names one of the eleven registers. -/
def sidxOk (i : BitVec 4) : Bool := i.toNat ≤ 10

/-- R107 (b): no oversampling exponent beside `NOPAD`. -/
def padOk (nopad : Bool) (mexp : BitVec 4) : Bool := !nopad || mexp == 0

/-- R107 (c): no phase-reconstruction strategy in linear-phase mode. -/
def phaseOk (pm pr : Bool) : Bool := pm || !pr

/-- The constraints R107 puts on an instruction. A reserved row is subject to none: it is illegal at step (1) of R105,
before the constraints are looked at. -/
def Instr.wellFormed : Instr → Bool
  | .nop => true
  | .endList => true
  | .sets i _ _ => sidxOk i
  | .fftFwd _ _ => true
  | .fftInv _ _ => true
  | .fftFwdP2 _ _ => true
  | .fftInvP2 _ _ => true
  | .cepLog _ _ => true
  | .cepFold _ _ => true
  | .cepExp _ _ => true
  | .cepPol _ _ _ => true
  | .cepXph _ _ _ => true
  | .hdDec o _ _ _ => padOk o.nopad o.mexp
  | .hdDech o _ _ _ => padOk o.nopad o.mexp
  | .msRms _ _ => true
  | .msDip o _ _ _ => padOk o.nopad o.mexp && phaseOk o.pm o.pr
  | .msPeak o _ _ _ => padOk o.nopad o.mexp && phaseOk o.pm o.pr
  | .msFlat o _ _ _ => padOk o.nopad o.mexp && phaseOk o.pm o.pr
  | .msDipLegacy _ _ _ _ => true
  | .msPeakLegacy _ _ _ _ => true

end Sys2Proof
end

