-- ==== Sys2Proof/Decode.lean ====
section
/-! DEFINITION. Decoding a descriptor (R100 to R110), total on any bytes and refusing by name, and the encoder beside it. -/

namespace Sys2Proof

/-! ## Words and bytes -/

/-- The unsigned integer in bits `hi` down to `lo` of a word (R12). -/
def field (w : Word) (hi lo : Nat) : Nat := w.toNat / 2 ^ lo % 2 ^ (hi + 1 - lo)

/-- One bit of a word (R12). -/
def bit (w : Word) (b : Nat) : Bool := field w b b == 1

/-- The number whose little-endian bytes are given: the byte order of a word in an aperture (R77). -/
def leNat : List Byte → Nat
  | [] => 0
  | b :: bs => b.toNat + 256 * leNat bs

/-- The `k` little-endian bytes of a number (R77). -/
def leBytes : Nat → Nat → List Byte
  | 0, _ => []
  | k + 1, v => BitVec.ofNat 8 v :: leBytes k (v / 256)

/-- The word in the first four bytes (R77). -/
def wordOf (bs : List Byte) : Word := BitVec.ofNat 32 (leNat (bs.take 4))

/-! ## The opcode table -/

/-- A row of the opcode table, reserved rows included (R104). -/
inductive Cmd where
  | nop | endList | sets
  | fftFwd | fftInv | fftFwdP2 | fftInvP2
  | cepLog | cepFold | cepExp | cepPol | cepXph
  | hdDec | hdDech
  | msRms | msDip | msPeak | msFlat
  | msDipLegacy | msPeakLegacy
  deriving DecidableEq, Repr

/-- `match` and `mask` of a row over `w0` (R104). -/
structure Row where
  cmd  : Cmd
  pat  : Word
  mask : Word
  deriving DecidableEq, Repr

/-- A control word selects a row when its masked bits are the row's (R104). -/
def Row.selects (r : Row) (w0 : Word) : Bool := (w0 &&& r.mask) == r.pat

/-- The opcode table of R104. -/
def opcodeTable : List Row := [
  ⟨.nop,          0x00000000#32, 0xFFFFFFFF#32⟩,
  ⟨.endList,      0x00000001#32, 0xFFFFFFFF#32⟩,
  ⟨.sets,         0x00000002#32, 0xFFC3FFFF#32⟩,
  ⟨.fftFwd,       0x00000010#32, 0xFFFFFFFF#32⟩,
  ⟨.fftInv,       0x00000011#32, 0xFFFFFFFF#32⟩,
  ⟨.fftFwdP2,     0x00000012#32, 0xFFFFFFFF#32⟩,
  ⟨.fftInvP2,     0x00000013#32, 0xFFFFFFFF#32⟩,
  ⟨.cepLog,       0x00000020#32, 0xFFFFFFFF#32⟩,
  ⟨.cepFold,      0x00000021#32, 0xFFFFFFFF#32⟩,
  ⟨.cepExp,       0x00000022#32, 0xFFFFFFFF#32⟩,
  ⟨.cepPol,       0x00000023#32, 0xFFFFFFFF#32⟩,
  ⟨.cepXph,       0x00000024#32, 0xFFFFFFFF#32⟩,
  ⟨.hdDec,        0x00000028#32, 0xFFFCE0FF#32⟩,
  ⟨.hdDech,       0x00000029#32, 0xFFFCE0FF#32⟩,
  ⟨.msRms,        0x00000030#32, 0xFFFFFFFF#32⟩,
  ⟨.msDip,        0x00000031#32, 0xFFFF80FF#32⟩,
  ⟨.msPeak,       0x00000032#32, 0xFFFF80FF#32⟩,
  ⟨.msFlat,       0x00000033#32, 0xFFFF80FF#32⟩,
  ⟨.msDipLegacy,  0x00008031#32, 0xFFFF80FF#32⟩,
  ⟨.msPeakLegacy, 0x00008032#32, 0xFFFF80FF#32⟩]

/-! ## Decoding -/

/-- Why a descriptor is no instruction. Each is `E_ILLEGAL` when the engine fetches it (R105), but `truncated`, which
only a list of fewer than sixteen bytes gives and a fetch never does. -/
inductive DecodeError where
  /-- Fewer than the sixteen bytes of a descriptor (R100). -/
  | truncated
  /-- No row of R104 matches. -/
  | noRow
  /-- R107 (a): `SETS` of an index above 10. -/
  | noRegister
  /-- R107 (b): `NOPAD` with an oversampling exponent. -/
  | exponentWithoutPad
  /-- R107 (c): a reconstruction strategy in linear-phase mode. -/
  | strategyInLinear
  deriving DecidableEq, Repr

/-- The option fields of an `HD` control word (R101). -/
def hdOptsOf (w0 : Word) : HdOpts :=
  { nopad := bit w0 8, mexp := BitVec.ofNat 4 (field w0 12 9), omp := bit w0 16, oep := bit w0 17 }

/-- The option fields of an `MS` control word (R101). -/
def msOptsOf (w0 : Word) : MsOpts :=
  { nopad := bit w0 8, mexp := BitVec.ofNat 4 (field w0 12 9), pm := bit w0 13, pr := bit w0 14 }

/-- The instruction a row makes of the four words, before the constraints of R107. -/
def Cmd.build (c : Cmd) (w0 w1 w2 w3 : Word) : Instr :=
  match c with
  | .nop => .nop
  | .endList => .endList
  | .sets => .sets (BitVec.ofNat 4 (field w0 21 18)) w2 w3
  | .fftFwd => .fftFwd w1 w2
  | .fftInv => .fftInv w1 w2
  | .fftFwdP2 => .fftFwdP2 w1 w2
  | .fftInvP2 => .fftInvP2 w1 w2
  | .cepLog => .cepLog w1 w2
  | .cepFold => .cepFold w1 w2
  | .cepExp => .cepExp w1 w2
  | .cepPol => .cepPol w1 w2 w3
  | .cepXph => .cepXph w1 w2 w3
  | .hdDec => .hdDec (hdOptsOf w0) w1 w2 w3
  | .hdDech => .hdDech (hdOptsOf w0) w1 w2 w3
  | .msRms => .msRms w1 w2
  | .msDip => .msDip (msOptsOf w0) w1 w2 w3
  | .msPeak => .msPeak (msOptsOf w0) w1 w2 w3
  | .msFlat => .msFlat (msOptsOf w0) w1 w2 w3
  | .msDipLegacy => .msDipLegacy (msOptsOf w0) w1 w2 w3
  | .msPeakLegacy => .msPeakLegacy (msOptsOf w0) w1 w2 w3

/-- R107 (b) on a command with a transform size. -/
def padError (nopad : Bool) (mexp : BitVec 4) : Option DecodeError :=
  if padOk nopad mexp then none else some .exponentWithoutPad

/-- R107 (b) and then (c) on a shaper command. -/
def shaperError (o : MsOpts) : Option DecodeError :=
  (padError o.nopad o.mexp).or (if phaseOk o.pm o.pr then none else some .strategyInLinear)

/-- The constraint of R107 an instruction breaks, if any. -/
def brokenConstraint : Instr → Option DecodeError
  | .nop => none
  | .endList => none
  | .sets i _ _ => if sidxOk i then none else some .noRegister
  | .fftFwd _ _ => none
  | .fftInv _ _ => none
  | .fftFwdP2 _ _ => none
  | .fftInvP2 _ _ => none
  | .cepLog _ _ => none
  | .cepFold _ _ => none
  | .cepExp _ _ => none
  | .cepPol _ _ _ => none
  | .cepXph _ _ _ => none
  | .hdDec o _ _ _ => padError o.nopad o.mexp
  | .hdDech o _ _ _ => padError o.nopad o.mexp
  | .msRms _ _ => none
  | .msDip o _ _ _ => shaperError o
  | .msPeak o _ _ _ => shaperError o
  | .msFlat o _ _ _ => shaperError o
  | .msDipLegacy _ _ _ _ => none
  | .msPeakLegacy _ _ _ _ => none

/-- Decoding the four words of a descriptor (R105): the row, then the constraints of R107. A reserved row decodes to its
own constructor, whose meaning is the `E_ILLEGAL` of R106 (log 19). -/
def decodeWords (w0 w1 w2 w3 : Word) : Except DecodeError Instr :=
  match opcodeTable.find? (fun r => r.selects w0) with
  | none => .error .noRow
  | some r =>
    match brokenConstraint (r.cmd.build w0 w1 w2 w3) with
    | some e => .error e
    | none => .ok (r.cmd.build w0 w1 w2 w3)

/-- Decoding the bytes of a descriptor, each word little-endian (R77), and the bytes after it. -/
def decode (bs : List Byte) : Except DecodeError (Instr × List Byte) :=
  if bs.length < 16 then .error .truncated
  else (decodeWords (wordOf bs) (wordOf (bs.drop 4)) (wordOf (bs.drop 8)) (wordOf (bs.drop 12))).map
    fun i => (i, bs.drop 16)

/-! ## Encoding -/

/-- A control word from its fields (R101). -/
def controlWord (opc : Nat) (nopad : Bool) (mexp : BitVec 4) (pm pr cpol omp oep : Bool) (sidx : BitVec 4) : Word :=
  BitVec.ofNat 32 (opc + 2 ^ 8 * nopad.toNat + 2 ^ 9 * mexp.toNat + 2 ^ 13 * pm.toNat + 2 ^ 14 * pr.toNat +
    2 ^ 15 * cpol.toNat + 2 ^ 16 * omp.toNat + 2 ^ 17 * oep.toNat + 2 ^ 18 * sidx.toNat)

/-- A control word that is an opcode alone (R103). -/
def opcodeWord (opc : Nat) : Word := controlWord opc false 0 false false false false false 0

/-- The control word of an `HD` command (R103). -/
def hdControl (opc : Nat) (o : HdOpts) : Word := controlWord opc o.nopad o.mexp false false false o.omp o.oep 0

/-- The control word of an `MS` command with options (R103). -/
def msControl (opc : Nat) (cpol : Bool) (o : MsOpts) : Word :=
  controlWord opc o.nopad o.mexp o.pm o.pr cpol false false 0

/-- The four words of an instruction (R103, R104); an ignored word is 0 (R113). -/
def encode : Instr → List Word
  | .nop => [opcodeWord 0x00, 0, 0, 0]
  | .endList => [opcodeWord 0x01, 0, 0, 0]
  | .sets i lo hi => [controlWord 0x02 false 0 false false false false false i, 0, lo, hi]
  | .fftFwd n a => [opcodeWord 0x10, n, a, 0]
  | .fftInv n a => [opcodeWord 0x11, n, a, 0]
  | .fftFwdP2 n a => [opcodeWord 0x12, n, a, 0]
  | .fftInvP2 n a => [opcodeWord 0x13, n, a, 0]
  | .cepLog n a => [opcodeWord 0x20, n, a, 0]
  | .cepFold n a => [opcodeWord 0x21, n, a, 0]
  | .cepExp n a => [opcodeWord 0x22, n, a, 0]
  | .cepPol n a b => [opcodeWord 0x23, n, a, b]
  | .cepXph n a b => [opcodeWord 0x24, n, a, b]
  | .hdDec o n a b => [hdControl 0x28 o, n, a, b]
  | .hdDech o n a b => [hdControl 0x29 o, n, a, b]
  | .msRms n a => [opcodeWord 0x30, n, a, 0]
  | .msDip o n a b => [msControl 0x31 false o, n, a, b]
  | .msPeak o n a b => [msControl 0x32 false o, n, a, b]
  | .msFlat o n a b => [msControl 0x33 false o, n, a, b]
  | .msDipLegacy o n a b => [msControl 0x31 true o, n, a, b]
  | .msPeakLegacy o n a b => [msControl 0x32 true o, n, a, b]

/-- The control word of an instruction. -/
def controlOf (i : Instr) : Word := (encode i).headD 0

/-- The bytes of a list of words, each little-endian (R77). -/
def wordBytes (ws : List Word) : List Byte := ws.flatMap fun w => leBytes 4 w.toNat

/-- The sixteen bytes of an instruction. -/
def encodeBytes (i : Instr) : List Byte := wordBytes (encode i)

/-! ## The decoder on a word of the opcode table -/

/-- The sixteen bytes of the descriptor whose low `nbits` bits, counted from bit 0 of `w0`, are those of `w`, and whose
other bits are 0. -/
def tableBytes (nbits w : Nat) : List Byte := leBytes 16 (w % 2 ^ nbits)

/-- The instruction the decoder reads from such a descriptor. -/
def decodeTableWord (nbits w : Nat) : Option Instr :=
  match decode (tableBytes nbits w) with
  | .ok (i, _) => some i
  | .error _ => none

end Sys2Proof
end

