-- ==== Sys2Proof/Machine/Float.lean ====
section
/-! DEFINITION. The two formats of R130 and the five correctly rounded operations of R131, with the special values of R132.

A finite value of a format is a whole number of quanta, the quantum being the smallest positive subnormal, `2 ^ -1074` or
`2 ^ -149`. An operation computes its exact result as a quotient of natural numbers of quanta and rounds once. -/

namespace Sys2Proof.Machine

/-! ## Formats -/

/-- `FW`, the width of an element in bits (R10). -/
def fwidth : Fmt → Nat
  | .binary64 => 64
  | .binary32 => 32

/-- The width of an element in bytes (R77). -/
def fbytes : Fmt → Nat
  | .binary64 => 8
  | .binary32 => 4

/-- The width of the trailing significand field. -/
def fracBits : Fmt → Nat
  | .binary64 => 52
  | .binary32 => 23

/-- The quantum of the format is `2 ^ -(quantumExp f)`. -/
def quantumExp : Fmt → Nat
  | .binary64 => 1074
  | .binary32 => 149

/-- The all-ones exponent field, which marks infinities and NaNs. -/
def expOnes : Fmt → Nat
  | .binary64 => 2047
  | .binary32 => 255

/-- The encoding of an element without its sign bit. -/
def bodyOf (f : Fmt) (x : Elem) : Nat := x.toNat % 2 ^ (fwidth f - 1)

/-- The sign bit. -/
def signOf (f : Fmt) (x : Elem) : Bool := x.getLsbD (fwidth f - 1)

/-- The body of an infinity. -/
def infBody (f : Fmt) : Nat := expOnes f * 2 ^ fracBits f

/-- An element from its sign and body. -/
def pack (f : Fmt) (neg : Bool) (body : Nat) : Elem :=
  BitVec.ofNat 64 (body + if neg then 2 ^ (fwidth f - 1) else 0)

/-- An element of the format from 64 bits: `binary32` uses the low 32 (log 30). -/
def narrow (f : Fmt) (x : Elem) : Elem := BitVec.ofNat 64 (x.toNat % 2 ^ fwidth f)

/-- `+0`. -/
def fzero : Elem := 0

/-- The infinity of a sign. -/
def finf (f : Fmt) (neg : Bool) : Elem := pack f neg (infBody f)

/-- The value 1. -/
def fone : Fmt → Elem
  | .binary64 => 0x3FF0000000000000#64
  | .binary32 => 0x3F800000#64

/-- NaNs are the bodies above infinity. -/
def isNaN (f : Fmt) (x : Elem) : Bool := infBody f < bodyOf f x

/-- Infinite. -/
def isInf (f : Fmt) (x : Elem) : Bool := bodyOf f x == infBody f

/-- Finite. -/
def isFinite (f : Fmt) (x : Elem) : Bool := bodyOf f x < infBody f

/-- `+0` or `-0`. -/
def isZero (f : Fmt) (x : Elem) : Bool := bodyOf f x == 0

/-- The magnitude of a finite value, in quanta. -/
def mag (f : Fmt) (x : Elem) : Nat :=
  let e := bodyOf f x / 2 ^ fracBits f
  let t := bodyOf f x % 2 ^ fracBits f
  if e = 0 then t else (2 ^ fracBits f + t) * 2 ^ (e - 1)

/-- A finite value, in quanta. -/
def quanta (f : Fmt) (x : Elem) : Int := if signOf f x then -(mag f x : Int) else mag f x

/-- A finite value as a rational number. -/
def toRat (f : Fmt) (x : Elem) : ℚ := (quanta f x : ℚ) / 2 ^ quantumExp f

/-- `fneg` flips the sign bit and is exact (R145). -/
def fneg (f : Fmt) (x : Elem) : Elem := pack f (!signOf f x) (bodyOf f x)

/-! ## Rounding -/

/-- The quotient `num / den` to the nearest integer, ties to even. -/
def divNearestEven (num den : Nat) : Nat :=
  let n := num / den
  let r := num % den
  if den < 2 * r ∨ (2 * r = den ∧ n % 2 = 1) then n + 1 else n

/-- How many binary places of a quotient of quanta lie below the last place of the format's significand. -/
def dropBits (f : Fmt) (num den : Nat) : Nat := (num / den).log2 - fracBits f

/-- The body of the positive value `num / den` quanta, rounded to nearest, ties to even, with gradual underflow, and with
overflow to infinity (R131, R132). Adding the rounded significand to the exponent's field carries a significand that
rounds up to a power of two into the exponent. -/
def roundBody (f : Fmt) (num den : Nat) : Nat :=
  let k := dropBits f num den
  min (k * 2 ^ fracBits f + divNearestEven num (den * 2 ^ k)) (infBody f)

/-- The integer square root, two bits at a time. -/
def isqrtFuel : Nat → Nat → Nat
  | 0, _ => 0
  | fuel + 1, n =>
    if n = 0 then 0
    else
      let r := 2 * isqrtFuel fuel (n / 4)
      if (r + 1) * (r + 1) ≤ n then r + 1 else r

/-- The largest `r` with `r * r ≤ n`. -/
def isqrt (n : Nat) : Nat := isqrtFuel (n.log2 / 2 + 1) n

/-! ## NaN results -/

/-- A NaN result: any NaN, its sign and payload free (R132, U8; log 8). -/
def nanOf (f : Fmt) (src : NanSource) (a b : Elem) : Elem :=
  let w := Config.nanBits src f a b
  let t := w.toNat % 2 ^ fracBits f
  pack f (w.getLsbD 63) (infBody f + if t = 0 then 1 else t)

/-! ## The five basic operations (R131, R132) -/

/-- The sum, with a NaN result drawn for `src`. An exact zero sum is `-0` only when both operands are negative, as
round-to-nearest has it (log 25). -/
def addAs (src : NanSource) (f : Fmt) (a b : Elem) : Elem :=
  if isNaN f a || isNaN f b then nanOf f src a b
  else if isInf f a then (if isInf f b && signOf f a != signOf f b then nanOf f src a b else finf f (signOf f a))
  else if isInf f b then finf f (signOf f b)
  else
    let q := quanta f a + quanta f b
    if q = 0 then pack f (signOf f a && signOf f b) 0
    else pack f (q < 0) (roundBody f q.natAbs 1)

/-- `fadd` (R131). -/
def fadd (f : Fmt) (a b : Elem) : Elem := addAs .add f a b

/-- `fsub` (R131): the sum with the negated second operand. -/
def fsub (f : Fmt) (a b : Elem) : Elem := addAs .sub f a (fneg f b)

/-- `fmul` (R131). -/
def fmul (f : Fmt) (a b : Elem) : Elem :=
  let neg := signOf f a != signOf f b
  if isNaN f a || isNaN f b then nanOf f .mul a b
  else if isInf f a || isInf f b then
    (if isZero f a || isZero f b then nanOf f .mul a b else finf f neg)
  else pack f neg (roundBody f (mag f a * mag f b) (2 ^ quantumExp f))

/-- `fdiv` (R131). -/
def fdiv (f : Fmt) (a b : Elem) : Elem :=
  let neg := signOf f a != signOf f b
  if isNaN f a || isNaN f b then nanOf f .div a b
  else if isInf f a then (if isInf f b then nanOf f .div a b else finf f neg)
  else if isInf f b then pack f neg 0
  else if isZero f b then (if isZero f a then nanOf f .div a b else finf f neg)
  else pack f neg (roundBody f (mag f a * 2 ^ quantumExp f) (mag f b))

/-- The root of `n` as twice its integer part, plus one when there is a fractional part. Rounding the half of this number
is rounding the root, since no boundary between two results lies strictly between two halves. -/
def stickyRoot (n : Nat) : Nat :=
  let r := isqrt n
  2 * r + if r * r = n then 0 else 1

/-- `fsqrt` (R131). The root of `-0` is `-0` (log 25). -/
def fsqrt (f : Fmt) (a : Elem) : Elem :=
  if isNaN f a then nanOf f .sqrt a a
  else if isZero f a then pack f (signOf f a) 0
  else if signOf f a then nanOf f .sqrt a a
  else if isInf f a then finf f false
  else pack f false (roundBody f (stickyRoot (mag f a * 2 ^ quantumExp f)) 2)

/-- `i2f`, the conversion of an unsigned integer (R136). -/
def i2f (f : Fmt) (k : Nat) : Elem := pack f false (roundBody f (k * 2 ^ quantumExp f) 1)

/-! ## Comparisons (R14): false whenever an operand is a NaN -/

/-- The order of the non-NaN values: the two zeros are equal. -/
def orderKey (f : Fmt) (x : Elem) : Int := if signOf f x then -(bodyOf f x : Int) else bodyOf f x

/-- Neither operand is a NaN. -/
def ordered (f : Fmt) (a b : Elem) : Bool := !isNaN f a && !isNaN f b

/-- `a < b`. -/
def flt (f : Fmt) (a b : Elem) : Bool := ordered f a b && orderKey f a < orderKey f b

/-- `a <= b`. -/
def fle (f : Fmt) (a b : Elem) : Bool := ordered f a b && orderKey f a ≤ orderKey f b

/-- `a == b`. -/
def feq (f : Fmt) (a b : Elem) : Bool := ordered f a b && orderKey f a == orderKey f b

end Sys2Proof.Machine
end

