-- ==== Sys2Proof/Machine/State.lean ====
section
/-! DEFINITION. The state of the machine: everything R30 lists, as plain data, beside the configuration and the model's own
three fields. -/

namespace Sys2Proof.Machine

/-- The fault codes (R281), and `none` for code 0, "no fault". Codes 6 to 15 are never produced (U15). -/
inductive FCode where
  | none
  | illegal
  | size
  | addr
  | alloc
  | fetch
  deriving DecidableEq, Repr

/-- A memory as its written bytes: (address, byte) pairs, addresses strictly rising. A byte that is not listed holds no
value the spec fixes (R53): it reads as a free value. No entry equals what an unlisted address reads as, since that is no
fixed byte, so this form is canonical (log 4, log 6). -/
abbrev Memory := List Host.Cell

/-- A move of the agents outside the engine, or the engine's turn (R78, R295; log 13). A region's offset is a byte offset
from its base (R47, R77). -/
inductive HostMove where
  /-- The engine takes its next step. -/
  | engine
  /-- The host reads a 32-bit word. -/
  | read (r : Region) (off : Nat)
  /-- The host writes a 32-bit word. -/
  | write (r : Region) (off : Nat) (w : Word)
  /-- The host reads a byte of a byte-addressable bus (R77). -/
  | readByte (r : Region) (off : Nat)
  /-- The host writes a byte of a byte-addressable bus (R77). -/
  | writeByte (r : Region) (off : Nat) (b : Byte)
  /-- The platform asserts and releases reset (R320). -/
  | reset
  deriving DecidableEq, Repr

/-- The state (R30), with the configuration (R10) and the model's own fields. -/
structure State where
  /-- MODEL: the configuration (R10, R30; log 1). No step changes it. -/
  cfg : Params
  /-- The scalar registers `S[0..10]` (R31). -/
  regs : Vector Elem 11
  /-- `CP`, the command pointer (R34). -/
  cp : Word
  /-- `STATUS.RUN` (R37). -/
  run : Bool
  /-- `STATUS.DONE` (R38). -/
  done : Bool
  /-- `STATUS.FAULT` (R39). -/
  fault : Bool
  /-- `STATUS.LOGLIM` (R40). -/
  loglim : Bool
  /-- `STATUS.FCODE` (R39). -/
  fcode : FCode
  /-- `IE` (R42). -/
  ie : Word
  /-- `FAULT_CP` (R43). -/
  faultCp : Word
  /-- `FAULT_INFO` (R43). -/
  faultInfo : Word
  /-- `TW_N`, the size of the cached table of roots of unity; 0 when the cache is empty (R44). -/
  twN : Word
  /-- `SLATCH`, the write latch of the `S` windows (R48). -/
  slatch : Word
  /-- `DM`, as the bytes of its aperture (R50, R77). -/
  dm : Memory
  /-- `CM`, as the bytes of its aperture (R51, R77). -/
  cm : Memory
  /-- MODEL: the index under which this step draws its free values (log 5). -/
  draws : Nat
  /-- MODEL: the moves of the outside agents still to come (log 13). -/
  inbox : List HostMove
  /-- MODEL: the word the host's last read returned (log 13). -/
  hostData : Word
  deriving DecidableEq, Repr

/-- Why the model stops with a fault. The faults of R281 are not among these: they are architectural, and taking one is a
next state. -/
inductive Fault where
  /-- Raised by a host move whose offset lies outside the aperture of `DM` or `CM`: the location does not exist (R70).
  Safe: the model stops where the spec says nothing. -/
  | outsideAperture (r : Region) (off : Nat)
  deriving DecidableEq, Repr

/-- Why the model refuses. No command raises one. -/
inductive Refusal where
  /-- Raised by the dispatch of an instruction that has no meaning yet; no arm does. Safe. -/
  | notModelled (mnemonic : String)
  /-- Raised by a host access to `DM` or `CM` while `RUN = 1`, which R88 and R323 forbid and U6 says to refuse. Safe: the
  model offers no such move. -/
  | memoryAccessDuringRun (r : Region) (off : Nat)
  /-- Raised by a host access to the register block that is not one aligned 32-bit access, whose effect R47 leaves
  unspecified and U7 says to refuse, and by a misaligned word access to an aperture, which R77 does not describe. Safe. -/
  | accessShape (r : Region) (off : Nat)
  deriving DecidableEq, Repr

/-- The configuration of the instance that leaves reset. DESIGN CHOICE (log 1), unsafe for a statement about reset: the
sizes of the programs of 95_test_vectors.md section 3, and the least `HN_DIRECT_MAX`. -/
def resetParams : Params :=
  { fmt := .binary64, dmSize := 64, cmSize := 64, wcap := 16, rmax := 5, hnDirectMax := 64 }

/-- The state after reset (R53, R321). The scalar registers and `SLATCH` hold the values of log 2 and log 3 (DESIGN
CHOICE, unsafe); the memories list nothing. -/
def State.reset : State :=
  { cfg := resetParams
    regs := Vector.replicate 11 0
    cp := 0
    run := false
    done := false
    fault := false
    loglim := false
    fcode := .none
    ie := 0
    faultCp := 0
    faultInfo := 0
    twN := 0
    slatch := 0
    dm := []
    cm := []
    draws := 0
    inbox := []
    hostData := 0 }

end Sys2Proof.Machine
end

