-- ==== Sys2Proof/Machine/Ops.lean ====
section
/-! DEFINITION. The named operations over memory and registers; taking a fault, as one operation, and the return from one
beside it; the frame every command runs in. -/

namespace Sys2Proof.Machine

/-! ## Memory as a canonical list of written bytes (log 6) -/

/-- The byte written at an address, if any. -/
def Memory.get? : Memory → Nat → Option Byte
  | [], _ => none
  | c :: m, a => if c.1 = a then some c.2 else Memory.get? m a

/-- The cells of consecutive bytes from an address. -/
def cellsAt : Nat → List Byte → Memory
  | _, [] => []
  | a, b :: bs => (a, b) :: cellsAt (a + 1) bs

/-- Store consecutive bytes from an address. -/
def Memory.store (m : Memory) (a : Nat) (bs : List Byte) : Memory :=
  m.filter (fun c => c.1 < a) ++ cellsAt a bs ++ m.filter (fun c => a + bs.length ≤ c.1)

/-- Make `n` bytes from an address unspecified. -/
def Memory.forget (m : Memory) (a n : Nat) : Memory :=
  m.filter (fun c => c.1 < a || a + n ≤ c.1)

/-- The canonical form: addresses strictly rising. (An unlisted address reads as no fixed byte, so no entry can equal it.) -/
abbrev Memory.wf (m : Memory) : Prop := m.Pairwise fun c d => c.1 < d.1

/-- Every listed address lies below a bound. -/
abbrev Memory.within (m : Memory) (n : Nat) : Prop := ∀ c ∈ m, c.1 < n

/-- What an unlisted address of a memory reads as: a free byte, drawn afresh by each step (R53, R325; log 4). -/
def State.unlisted (s : State) (r : Region) (x : Nat) : Byte := Config.freeByte r s.draws x

/-! ## The data memory (R71 to R77) -/

/-- A byte of `DM`. -/
def State.dmByte (s : State) (x : Nat) : Byte := (s.dm.get? x).getD (s.unlisted .dm x)

/-- `DM[a]`, one element (R50, R77). -/
def State.dmElem (s : State) (a : Nat) : Elem :=
  BitVec.ofNat 64 (leNat ((List.range (fbytes s.cfg.fmt)).map fun j => s.dmByte (a * fbytes s.cfg.fmt + j)))

/-- `MemRead(a, n)` (R76). -/
def State.signal (s : State) (a n : Nat) : List Elem := (List.range n).map fun i => s.dmElem (a + i)

/-- `ReadC(a, k)` (R74). -/
def State.cxAt (s : State) (a k : Nat) : Cx := ⟨s.dmElem (a + 2 * k), s.dmElem (a + 2 * k + 1)⟩

/-- The complex buffer of `n` values at `a` (R74). -/
def State.cxBuffer (s : State) (a n : Nat) : List Cx := (List.range n).map fun k => s.cxAt a k

/-- The bytes of an element (R77). -/
def elemBytes (f : Fmt) (v : Elem) : List Byte := leBytes (fbytes f) v.toNat

/-- `MemWrite(a, n, v)` (R76). -/
def State.putSignal (s : State) (a : Nat) (vs : List Elem) : State :=
  { s with dm := s.dm.store (a * fbytes s.cfg.fmt) (vs.flatMap (elemBytes s.cfg.fmt)) }

/-- The elements of a complex buffer, interleaved (R74). -/
def interleave (zs : List Cx) : List Elem := zs.flatMap fun z => [z.re, z.im]

/-- `WriteC` of consecutive values from a base (R15, R74). -/
def State.putCx (s : State) (a : Nat) (zs : List Cx) : State := s.putSignal a (interleave zs)

/-- Make the element ranges (base, count) of a memory unspecified (R287; log 7). -/
def forgetRanges (f : Fmt) (m : Memory) (rs : List (Nat × Nat)) : Memory :=
  rs.foldl (fun m r => m.forget (r.1 * fbytes f) (r.2 * fbytes f)) m

/-! ## The command memory (R72, R77) -/

/-- A byte of `CM`. -/
def State.cmByte (s : State) (x : Nat) : Byte := (s.cm.get? x).getD (s.unlisted .cm x)

/-- The sixteen bytes of the descriptor at word address `c` (R100, R77). -/
def State.descriptor (s : State) (c : Nat) : List Byte := (List.range 16).map fun j => s.cmByte (4 * c + j)

/-! ## The scalar registers (R31) -/

/-- The index of a scalar register (R31, R32). -/
abbrev SReg := Fin 11

/-- Register `SRATE` (R31). -/
def regSrate : SReg := 0
/-- Register `FLO` (R31). -/
def regFlo : SReg := 1
/-- Register `FHI` (R31). -/
def regFhi : SReg := 2
/-- Register `WEXP` (R31). -/
def regWexp : SReg := 3
/-- Register `DLGAIN` (R31). -/
def regDlgain : SReg := 4
/-- Register `DLSTART` (R31). -/
def regDlstart : SReg := 5
/-- Register `PLGAIN` (R31). -/
def regPlgain : SReg := 6
/-- Register `PLSTART` (R31). -/
def regPlstart : SReg := 7
/-- Register `NFGAIN` (R31). -/
def regNfgain : SReg := 8
/-- Register `NFFLAT` (R31). -/
def regNfflat : SReg := 9
/-- Register `LEVEL` (R31). -/
def regLevel : SReg := 10

/-- `S[i]` (R31). -/
def State.sreg (s : State) (i : SReg) : Elem := s.regs.get i

/-- `S[i] <- v` (R31). -/
def State.setSreg (s : State) (i : SReg) (v : Elem) : State := { s with regs := s.regs.set i v }

/-! ## Taking a fault (R283) and returning from one (R292) -/

/-- The code of a fault, as `STATUS.FCODE` shows it (R281). -/
def FCode.code : FCode → Nat
  | .none => 0
  | .illegal => 1
  | .size => 2
  | .addr => 3
  | .alloc => 4
  | .fetch => 5

/-- A fault to be raised: `raise E_X(info)` (R15). -/
structure Trap where
  code : FCode
  info : Nat
  deriving DecidableEq, Repr

/-- What an `E_ALLOC` of a command leaves unspecified (R287): the element ranges (base, count) the command would have
written, its transform size, and whether it can set `LOGLIM`. -/
structure Wreck where
  ranges : List (Nat × Nat)
  size : Nat
  canLog : Bool
  deriving DecidableEq, Repr

/-- A command that never raises `E_ALLOC`. -/
def Wreck.none : Wreck := ⟨[], 0, false⟩

/-- Fault entry (R283). -/
def State.raise (s : State) (t : Trap) : State :=
  { s with
    faultCp := s.cp
    faultInfo := BitVec.ofNat 32 t.info
    fcode := t.code
    fault := true
    run := false }

/-- The unspecified state an `E_ALLOC` leaves (R184, R287): the ranges lose their values, `TW_N` keeps its value or takes
the transform size, `LOGLIM` keeps its value or becomes 1 (log 7). -/
def State.wreck (s : State) (w : Wreck) : State :=
  { s with
    dm := forgetRanges s.cfg.fmt s.dm w.ranges
    twN := if Config.freeFlag .twN s.draws then BitVec.ofNat 32 w.size else s.twN
    loglim := s.loglim || (w.canLog && Config.freeFlag .loglim s.draws) }

/-- Taking a fault: the entry of R283, after what R287 leaves unspecified when it is an `E_ALLOC`. -/
def State.takeFault (s : State) (t : Trap) (w : Wreck) : State :=
  (if t.code = .alloc then s.wreck w else s).raise t

/-- Return from a fault: the host's clearing of `FAULT` and `FCODE`, which leaves `FAULT_CP` and `FAULT_INFO` (R39, R292).
There is no return command; the next accepted start continues at `CP`. -/
def State.clearFault (s : State) : State := { s with fault := false, fcode := .none }

/-! ## Commands -/

/-- `CP <- CP + 4` (R35). -/
def State.advance (s : State) : State := { s with cp := s.cp + 4 }

/-- The cache of roots of unity takes the size of a transform (R44, R172). -/
def State.cacheSize (s : State) (n : Nat) : State := { s with twN := BitVec.ofNat 32 n }

/-- The first check that fails (R285): a list of conditions, each with the fault it raises. -/
def firstTrap : List (Bool × Trap) → Option Trap
  | [] => none
  | (failed, t) :: rest => if failed then some t else firstTrap rest

/-- A command: its checks, all before any access, then its effect and `CP <- CP + 4` (R35, R285, R286). -/
def State.command (s : State) (trap : Option Trap) (w : Wreck) (effect : State → State) :
    Host.Outcome State Fault Refusal :=
  match trap with
  | some t => .next (s.takeFault t w)
  | none => .next (effect s).advance

end Sys2Proof.Machine
end

