-- ==== Sys2Proof/Machine/Operands.lean ====
section
/-! DEFINITION. The operand forms: the immediate of `SETS`, and the checks of every data command's operands, in the order
its rule lists them (R285), with sums that never wrap (R160). -/

namespace Sys2Proof.Machine

/-- The immediate of `SETS` (R110). -/
def immediate (f : Fmt) (lo hi : Word) : Elem :=
  match f with
  | .binary64 => BitVec.ofNat 64 (2 ^ 32 * hi.toNat + lo.toNat)
  | .binary32 => BitVec.ofNat 64 lo.toNat

/-- A range of `n` elements at `a` leaves the data memory (R76). -/
def outside (p : Params) (a n : Nat) : Bool := p.dmSize < a + n

/-- The complex base is odd (R75). -/
def oddBase (a : Nat) : Bool := a % 2 == 1

/-- The complex buffers of `n` values at `a` and at `b` intersect (R81, R201). -/
def overlapping (a b n : Nat) : Bool := a < b + 2 * n && b < a + 2 * n

/-- The checks of R171. Those of the power-of-two commands are (1), (2), (3), (4); of the others (1), (3), (4), (5). -/
def fftTrap (pow2 : Bool) (p : Params) (n a : Nat) : Option Trap :=
  firstTrap [
    (n == 0, ⟨.size, n⟩),
    (pow2 && !ispow2 n, ⟨.size, n⟩),
    (oddBase a, ⟨.addr, a⟩),
    (outside p a (2 * n), ⟨.addr, a⟩),
    (!pow2 && p.rmax < lpf n, ⟨.alloc, lpf n⟩)]

/-- The checks of R201 for a stage command with one buffer, and those of `MS.RMS` (R235). -/
def bufferTrap (p : Params) (n a : Nat) : Option Trap :=
  firstTrap [
    (n == 0, ⟨.size, n⟩),
    (oddBase a, ⟨.addr, a⟩),
    (outside p a (2 * n), ⟨.addr, a⟩)]

/-- The checks of R201 for a stage command with two buffers. -/
def twoBufferTrap (p : Params) (n a b : Nat) : Option Trap :=
  firstTrap [
    (n == 0, ⟨.size, n⟩),
    (oddBase a, ⟨.addr, a⟩),
    (outside p a (2 * n), ⟨.addr, a⟩),
    (oddBase b || outside p b (2 * n), ⟨.addr, b⟩),
    (overlapping a b n, ⟨.addr, b⟩)]

/-- The transform size of an `HD` command (R111). -/
def HdOpts.size (o : HdOpts) (n : Nat) : Nat := fsize n o.nopad o.mexp

/-- The transform size of a shaper command (R111). -/
def MsOpts.size (o : MsOpts) (n : Nat) : Nat := fsize n o.nopad o.mexp

/-- The checks of R207. -/
def hdTrap (p : Params) (o : HdOpts) (n a b : Nat) : Option Trap :=
  let fs := HdOpts.size o n
  firstTrap [
    (n == 0, ⟨.size, n⟩),
    (2 ^ 31 ≤ fs, ⟨.size, n⟩),
    (outside p a n, ⟨.addr, a⟩),
    ((o.omp && outside p b n) || (o.oep && outside p b (2 * n)), ⟨.addr, b⟩),
    (p.wcap < 2 * fs, ⟨.alloc, fs⟩),
    (p.rmax < lpf fs, ⟨.alloc, lpf fs⟩)]

/-- The work memory a shaper command needs: `need` of R236. -/
def MsOpts.need (o : MsOpts) (n : Nat) : Nat := if o.pm then 2 * MsOpts.size o n else MsOpts.size o n

/-- The checks of R236. -/
def msTrap (p : Params) (o : MsOpts) (n a b : Nat) : Option Trap :=
  let fs := MsOpts.size o n
  firstTrap [
    (n == 0, ⟨.size, n⟩),
    (2 ^ 31 ≤ fs, ⟨.size, n⟩),
    (outside p a n, ⟨.addr, a⟩),
    (outside p b n, ⟨.addr, b⟩),
    (p.wcap < MsOpts.need o n, ⟨.alloc, fs⟩),
    (p.rmax < lpf fs, ⟨.alloc, lpf fs⟩)]

/-- What an `E_ALLOC` of `FFT.FWD` or `FFT.INV` leaves unspecified (R184): the buffer and `TW_N`. -/
def fftWreck (n a : Nat) : Wreck := ⟨[(a, 2 * n)], n, false⟩

/-- What an `E_ALLOC` of an `HD` command leaves unspecified (R287): the selected outputs, `TW_N`, `LOGLIM`. -/
def hdWreck (o : HdOpts) (n b : Nat) : Wreck :=
  ⟨(if o.omp then [(b, n)] else []) ++ (if o.oep then [(b + n, n)] else []), HdOpts.size o n, true⟩

/-- What an `E_ALLOC` of a shaper command leaves unspecified (R287): the output, `TW_N`, `LOGLIM` (log 7). -/
def msWreck (o : MsOpts) (n b : Nat) : Wreck := ⟨[(b, n)], MsOpts.size o n, true⟩

end Sys2Proof.Machine
end

