-- ==== Sys2Proof/Machine/Num.lean ====
section
/-! DEFINITION. The numerics record `NUM` (R133): the elementary functions with the exact values of R134 and R146, open
elsewhere (log 9); the complex operations R137 to R142; the clamped logarithm R143; the compensated sum R147. -/

namespace Sys2Proof.Machine

/-! ## Constants -/

/-- `MINPOS`, the smallest positive normal value (R144). -/
def minpos : Fmt → Elem
  | .binary64 => 0x0010000000000000#64
  | .binary32 => 0x00800000#64

/-- `GAMMA`, the value nearest to the Euler-Mascheroni constant (R233). -/
def gamma : Fmt → Elem
  | .binary64 => 0x3FE2788CFC6FB619#64
  | .binary32 => 0x3F13C468#64

/-- The value of `F` nearest to π (R134; the encoding for binary32 is log 12). -/
def fpi : Fmt → Elem
  | .binary64 => 0x400921FB54442D18#64
  | .binary32 => 0x40490FDB#64

/-- The largest value whose exponential does not overflow the format (R132, R204; log 32). -/
def expTop : Fmt → Elem
  | .binary64 => 0x40862E42FEFA39EF#64
  | .binary32 => 0x42B17217#64

/-! ## Elementary functions (R133, R134) -/

/-- An open value that accuracy (R135) makes finite: any finite value of the format (log 9). -/
def openFinite (f : Fmt) (v : Elem) : Elem := if isFinite f (narrow f v) then narrow f v else fzero

/-- `flog`, with `P_LOG1` and `P_LOGNEG` (R134); the logarithm of a NaN is a NaN (R132), that of `+inf` is `+inf` (R202). -/
def flog (f : Fmt) (x : Elem) : Elem :=
  if isNaN f x then nanOf f .log x x
  else if isZero f x then finf f true
  else if signOf f x then nanOf f .log x x
  else if isInf f x then finf f false
  else if feq f x (fone f) then fzero
  else openFinite f (Config.logOf f x)

/-- `fexp`, with `P_EXP0` (R134); a large operand overflows to infinity (R132, R204; log 32). -/
def fexp (f : Fmt) (x : Elem) : Elem :=
  if isNaN f x then nanOf f .exp x x
  else if isZero f x then fone f
  else if flt f (expTop f) x then finf f false
  else if isInf f x then narrow f (Config.expOf f x)
  else openFinite f (Config.expOf f x)

/-- `fsin`, with `P_SIN0` (R134). -/
def fsin (f : Fmt) (x : Elem) : Elem :=
  if isNaN f x then nanOf f .sin x x
  else if isZero f x then pack f (signOf f x) 0
  else if isInf f x then narrow f (Config.sinOf f x)
  else openFinite f (Config.sinOf f x)

/-- `fcos`, with `P_COS0` (R134). -/
def fcos (f : Fmt) (x : Elem) : Elem :=
  if isNaN f x then nanOf f .cos x x
  else if isZero f x then fone f
  else if isInf f x then narrow f (Config.cosOf f x)
  else openFinite f (Config.cosOf f x)

/-- The open values of `fatan2`, held in the closed interval from -π to π that R140 gives `carg` (log 10). -/
def atan2Open (f : Fmt) (y x : Elem) : Elem :=
  let v := narrow f (Config.atan2Of f y x)
  if fle f (fneg f (fpi f)) v && fle f v (fpi f) then v else fzero

/-- `fatan2(y, x)`, with `P_ATAN0` and `P_ATANPI` (R134). -/
def fatan2 (f : Fmt) (y x : Elem) : Elem :=
  if isNaN f y || isNaN f x then nanOf f .atan2 y x
  else if isZero f y && !signOf f y && (flt f fzero x || (isZero f x && !signOf f x)) then fzero
  else if isZero f y && signOf f y && flt f fzero x then pack f true 0
  else if isZero f y && !signOf f y && flt f x fzero then fpi f
  else atan2Open f y x

/-- `fpow(x, y)`, with `P_POW` (R134), which holds for NaN operands too (log 11). -/
def fpow (f : Fmt) (x y : Elem) : Elem :=
  if isZero f y || feq f x (fone f) then fone f
  else if isNaN f x || isNaN f y then nanOf f .pow x y
  else narrow f (Config.powOf f x y)

/-! ## Complex operations -/

/-- The complex zero of padding, and of any place no rule reads. -/
def czero : Cx := ⟨fzero, fzero⟩

/-- `cadd` (R137). -/
def cadd (f : Fmt) (z w : Cx) : Cx := ⟨fadd f z.re w.re, fadd f z.im w.im⟩

/-- `csub` (R137). -/
def csub (f : Fmt) (z w : Cx) : Cx := ⟨fsub f z.re w.re, fsub f z.im w.im⟩

/-- `cscale` (R137). -/
def cscale (f : Fmt) (z : Cx) (r : Elem) : Cx := ⟨fmul f z.re r, fmul f z.im r⟩

/-- `cdivr` (R137). -/
def cdivr (f : Fmt) (z : Cx) (r : Elem) : Cx := ⟨fdiv f z.re r, fdiv f z.im r⟩

/-- `cmul` (R138): four products, one difference, one sum, each rounded. -/
def cmul (f : Fmt) (z w : Cx) : Cx :=
  ⟨fsub f (fmul f z.re w.re) (fmul f z.im w.im), fadd f (fmul f z.re w.im) (fmul f z.im w.re)⟩

/-- `cabs` (R139), without scaling. -/
def cabs (f : Fmt) (z : Cx) : Elem := fsqrt f (fadd f (fmul f z.re z.re) (fmul f z.im z.im))

/-- `carg` (R140). -/
def carg (f : Fmt) (z : Cx) : Elem := fatan2 f z.im z.re

/-- `polar` (R142). -/
def polar (f : Fmt) (r t : Elem) : Cx := ⟨fmul f r (fcos f t), fmul f r (fsin f t)⟩

/-- `cexp` (R141). -/
def cexp (f : Fmt) (z : Cx) : Cx := polar f (fexp f z.re) z.im

/-! ## The clamped logarithm -/

/-- `LOGMIN` (R144). -/
def logMin (f : Fmt) : Elem := flog f (minpos f)

/-- `logc` (R143): the value, and whether the notice `LOGLIM` is given. -/
def logc (f : Fmt) (x : Elem) : Elem × Bool := if fle f x fzero then (logMin f, true) else (flog f x, false)

/-! ## Roots of unity -/

/-- `twiddle(n, j)` (R145), exact at the quarter turns (R146). -/
def twiddle (f : Fmt) (n j : Nat) : Cx :=
  if j = 0 then ⟨fone f, fzero⟩
  else if 4 * j = n then ⟨fzero, fone f⟩
  else if 2 * j = n then ⟨fneg f (fone f), fzero⟩
  else if 4 * j = 3 * n then ⟨fzero, fneg f (fone f)⟩
  else ⟨openFinite f (Config.twiddleOf f n j).re, openFinite f (Config.twiddleOf f n j).im⟩

/-- The direction of a transform (R145). -/
inductive Dir where
  | forward
  | inverse
  deriving DecidableEq, Repr

/-- The root `om(dir, j)` of a transform of size `n` (R145). -/
def om (f : Fmt) (dir : Dir) (n j : Nat) : Cx :=
  match dir with
  | .inverse => twiddle f n (j % n)
  | .forward => ⟨(twiddle f n (j % n)).re, fneg f (twiddle f n (j % n)).im⟩

/-! ## Compensated summation -/

/-- One turn of Kahan's recurrence on the pair (sum, compensation) (R147). -/
def ksumStep (f : Fmt) (sc : Elem × Elem) (v : Elem) : Elem × Elem :=
  let y := fsub f v sc.2
  let t := fadd f sc.1 y
  (t, fsub f (fsub f t sc.1) y)

/-- `ksum` (R147). -/
def ksum (f : Fmt) (vs : List Elem) : Elem := (vs.foldl (ksumStep f) (fzero, fzero)).1

end Sys2Proof.Machine
end

