-- ==== Sys2Proof/Machine/Transform.lean ====
section
/-! DEFINITION. The reference datapath of the transforms (R172 to R176) and its radix-2 form (R181), on a buffer held as a
list. A transform takes each group of `p` values of the buffer to the same places, so that reading the group before
writing it is all the order R172 has. -/

namespace Sys2Proof.Machine

/-- Value `i` of a buffer; every index a transform reads is in range. -/
def at0 (buf : List Cx) (i : Nat) : Cx := buf.getD i czero

/-- The polynomial with coefficients `t[0], t[1], …` at `w`, by Horner's rule from the highest coefficient (R173). -/
def horner (f : Fmt) (w : Cx) (t : List Cx) : Cx :=
  match t.reverse with
  | [] => czero
  | top :: rest => rest.foldl (fun acc x => cadd f (cmul f acc w) x) top

/-- `bfly(t, p, k0)` of a transform of size `n` (R173). -/
def bfly (f : Fmt) (dir : Dir) (n p k0 : Nat) (t : List Cx) : Cx :=
  horner f (om f dir n (k0 * (n / p) % n)) t

/-- The group of R172: the values at stride `m` from `j0`. -/
def group (buf : List Cx) (p m j0 : Nat) : List Cx := (List.range p).map fun j1 => at0 buf (j1 * m + j0)

/-- One output of a butterfly with its twiddle factor, always multiplied (R172). -/
def twiddled (f : Fmt) (dir : Dir) (n size p m : Nat) (buf : List Cx) (k0 j0 : Nat) : Cx :=
  cmul f (bfly f dir n p k0 (group buf p m j0)) (om f dir n (j0 * k0 % size * (n / size)))

/-- `rec` of R172 on a block of `size` values of a transform of size `n`: one level of butterflies by the smallest prime
factor, then each of the `p` blocks. The first argument bounds the number of levels. -/
def recBlock (f : Fmt) (dir : Dir) (n : Nat) : Nat → Nat → List Cx → List Cx
  | 0, _, buf => buf
  | fuel + 1, size, buf =>
    if size ≤ 1 then buf
    else
      (List.range (spf size)).flatMap fun k0 =>
        recBlock f dir n fuel (size / spf size)
          ((List.range (size / spf size)).map fun j0 =>
            twiddled f dir n size (spf size) (size / spf size) buf k0 j0)

/-- `permute` (R174): position `k` takes the value from `rev(k, n)`. -/
def permute (n : Nat) (buf : List Cx) : List Cx := (List.range n).map fun k => at0 buf (rev k n)

/-- `xform(buf, n, dir)` (R172); the caller records the size in `TW_N`. -/
def xform (f : Fmt) (dir : Dir) (n : Nat) (buf : List Cx) : List Cx := permute n (recBlock f dir n n n buf)

/-- The division of an inverse transform by its size (R175). -/
def scaleBy (f : Fmt) (n : Nat) (buf : List Cx) : List Cx := buf.map fun z => cdivr f z (i2f f n)

/-- `fwd(buf, n)` (R176). -/
def fwd (f : Fmt) (n : Nat) (buf : List Cx) : List Cx := xform f .forward n buf

/-- `inv(buf, n)` (R176). -/
def inv (f : Fmt) (n : Nat) (buf : List Cx) : List Cx := scaleBy f n (xform f .inverse n buf)

/-! ## The radix-2 datapath (R181) -/

/-- The upper output of a radix-2 butterfly at `j0` of a block with half size `m` (R181). -/
def upper2 (f : Fmt) (dir : Dir) (n m : Nat) (buf : List Cx) (j0 : Nat) : Cx :=
  cmul f (cadd f (cmul f (at0 buf (m + j0)) (om f dir n 0)) (at0 buf j0)) (om f dir n 0)

/-- The lower output of a radix-2 butterfly at `j0` of a block of `size` values with half size `m` (R181). -/
def lower2 (f : Fmt) (dir : Dir) (n size m : Nat) (buf : List Cx) (j0 : Nat) : Cx :=
  cmul f (cadd f (cmul f (at0 buf (m + j0)) (om f dir n (n / 2))) (at0 buf j0)) (om f dir n (j0 * (n / size)))

/-- The levels of the radix-2 transform (R181). -/
def recBlock2 (f : Fmt) (dir : Dir) (n : Nat) : Nat → Nat → List Cx → List Cx
  | 0, _, buf => buf
  | fuel + 1, size, buf =>
    if size ≤ 1 then buf
    else
      recBlock2 f dir n fuel (size / 2) ((List.range (size / 2)).map (upper2 f dir n (size / 2) buf)) ++
        recBlock2 f dir n fuel (size / 2) ((List.range (size / 2)).map (lower2 f dir n size (size / 2) buf))

/-- The radix-2 transform, with bit reversal (R181). -/
def xform2 (f : Fmt) (dir : Dir) (n : Nat) (buf : List Cx) : List Cx :=
  (List.range n).map fun k => at0 (recBlock2 f dir n n n buf) (bitRev k n)

/-- The forward radix-2 transform (R179, R181). -/
def fwd2 (f : Fmt) (n : Nat) (buf : List Cx) : List Cx := xform2 f .forward n buf

/-- The inverse radix-2 transform (R180, R181). -/
def inv2 (f : Fmt) (n : Nat) (buf : List Cx) : List Cx := scaleBy f n (xform2 f .inverse n buf)

end Sys2Proof.Machine
end

