-- ==== Sys2Proof/Machine/Fft.lean ====
section
/-! DEFINITION. The four commands of the FFT Engine (41_fft.md). -/

namespace Sys2Proof.Machine

/-- A transform of the complex buffer of `n` values at `a`, in place, which fills the cache (R44, R172). -/
def State.transform (s : State) (t : Fmt → Nat → List Cx → List Cx) (n a : Nat) : State :=
  (s.putCx a (t s.cfg.fmt n (s.cxBuffer a n))).cacheSize n

/-- `FFT.FWD` (R177). -/
def execFftFwd (n a : Word) (s : State) : Host.Outcome State Fault Refusal :=
  s.command (fftTrap false s.cfg n.toNat a.toNat) (fftWreck n.toNat a.toNat) fun s => s.transform fwd n.toNat a.toNat

/-- `FFT.INV` (R178). -/
def execFftInv (n a : Word) (s : State) : Host.Outcome State Fault Refusal :=
  s.command (fftTrap false s.cfg n.toNat a.toNat) (fftWreck n.toNat a.toNat) fun s => s.transform inv n.toNat a.toNat

/-- `FFT.FWDP2` (R179), on the radix-2 datapath of R181. -/
def execFftFwdP2 (n a : Word) (s : State) : Host.Outcome State Fault Refusal :=
  s.command (fftTrap true s.cfg n.toNat a.toNat) Wreck.none fun s => s.transform fwd2 n.toNat a.toNat

/-- `FFT.INVP2` (R180), on the radix-2 datapath of R181. -/
def execFftInvP2 (n a : Word) (s : State) : Host.Outcome State Fault Refusal :=
  s.command (fftTrap true s.cfg n.toNat a.toNat) Wreck.none fun s => s.transform inv2 n.toNat a.toNat

end Sys2Proof.Machine
end

