-- ==== Sys2Proof/Machine/Flags.lean ====
section
/-! DEFINITION. The flags: the sticky notice `LOGLIM`, the `STATUS` word, the output `IRQ`. The commands of the DFE compute
no other flag (R36, R40, R132). -/

namespace Sys2Proof.Machine

/-- `notice LOGLIM`, when a command's logarithms gave it: sticky (R40). -/
def State.notice (s : State) (given : Bool) : State := { s with loglim := s.loglim || given }

/-- `STATUS` as a word (R36). -/
def State.status (s : State) : Word :=
  BitVec.ofNat 32 (s.run.toNat + 2 * s.done.toNat + 4 * s.fault.toNat + 8 * s.loglim.toNat + 256 * s.fcode.code)

/-- The output `IRQ` (R52, R290). -/
def State.irq (s : State) : Bool :=
  (s.done && bit s.ie 1) || (s.fault && bit s.ie 2) || (s.loglim && bit s.ie 3)

/-- The run states of R294. -/
inductive RunState where
  | idle
  | running
  | faulted
  deriving DecidableEq, Repr

/-- The run state, a function of `RUN` and `FAULT` (R294). -/
def State.runState (s : State) : RunState :=
  if s.run then .running else if s.fault then .faulted else .idle

end Sys2Proof.Machine
end

