-- ==== Sys2Proof/Machine/Cepstral.lean ====
section
/-! DEFINITION. The five cepstral stage commands and the two decompositions (42_cepstral.md). -/

namespace Sys2Proof.Machine

/-! ## The stages, element by element -/

/-- The log-magnitude of a bin (R202). -/
def logBin (f : Fmt) (z : Cx) : Cx := ⟨(logc f (cabs f z)).1, fzero⟩

/-- Whether the log-magnitude of a bin is clamped (R143, R202). -/
def logClamps (f : Fmt) (z : Cx) : Bool := (logc f (cabs f z)).2

/-- The causal window at index `i` of `n` (R203): DC and, for even `n`, Nyquist kept, positive time doubled, negative time
zeroed. -/
def foldValue (f : Fmt) (n i : Nat) (r : Elem) : Elem :=
  if i = 0 then r
  else if n % 2 = 0 ∧ i = n / 2 then r
  else if i ≤ n / 2 then fadd f r r
  else fzero

/-- The folded value at index `i` (R203): the imaginary part is discarded. -/
def foldBin (f : Fmt) (n i : Nat) (z : Cx) : Cx := ⟨foldValue f n i z.re, fzero⟩

/-- `fold(buf, n)` (R203, R208). -/
def fold (f : Fmt) (n : Nat) (zs : List Cx) : List Cx := zs.zipIdx.map fun zi => foldBin f n zi.2 zi.1

/-- The polar recombination of a transformed cepstrum value `a` and a bin `z` of `H` (R205). -/
def polBin (f : Fmt) (a z : Cx) : Cx := polar f (cabs f z) a.im

/-- The excess-phase phasor of a bin `z` of `H` and a bin `w` of `Hmin` (R206). -/
def xphBin (f : Fmt) (z w : Cx) : Cx :=
  let t := fsub f (carg f z) (carg f w)
  ⟨fcos f t, fsin f t⟩

/-! ## The stage commands -/

/-- A stage command on one buffer, in place: its map, and whether the notice is given (R201). -/
def State.stage (s : State) (n a : Nat) (map : List Cx → List Cx) (clamps : Cx → Bool) : State :=
  (s.putCx a (map (s.cxBuffer a n))).notice ((s.cxBuffer a n).any clamps)

/-- `CEP.LOG` (R202). -/
def execCepLog (n a : Word) (s : State) : Host.Outcome State Fault Refusal :=
  s.command (bufferTrap s.cfg n.toNat a.toNat) Wreck.none fun s =>
    s.stage n.toNat a.toNat (List.map (logBin s.cfg.fmt)) (logClamps s.cfg.fmt)

/-- `CEP.FOLD` (R203). -/
def execCepFold (n a : Word) (s : State) : Host.Outcome State Fault Refusal :=
  s.command (bufferTrap s.cfg n.toNat a.toNat) Wreck.none fun s =>
    s.putCx a.toNat (fold s.cfg.fmt n.toNat (s.cxBuffer a.toNat n.toNat))

/-- `CEP.EXP` (R204). -/
def execCepExp (n a : Word) (s : State) : Host.Outcome State Fault Refusal :=
  s.command (bufferTrap s.cfg n.toNat a.toNat) Wreck.none fun s =>
    s.putCx a.toNat ((s.cxBuffer a.toNat n.toNat).map (cexp s.cfg.fmt))

/-- `CEP.POL` (R205). -/
def execCepPol (n a b : Word) (s : State) : Host.Outcome State Fault Refusal :=
  s.command (twoBufferTrap s.cfg n.toNat a.toNat b.toNat) Wreck.none fun s =>
    s.putCx a.toNat (List.zipWith (polBin s.cfg.fmt) (s.cxBuffer a.toNat n.toNat) (s.cxBuffer b.toNat n.toNat))

/-- `CEP.XPH` (R206). -/
def execCepXph (n a b : Word) (s : State) : Host.Outcome State Fault Refusal :=
  s.command (twoBufferTrap s.cfg n.toNat a.toNat b.toNat) Wreck.none fun s =>
    s.putCx a.toNat (List.zipWith (xphBin s.cfg.fmt) (s.cxBuffer a.toNat n.toNat) (s.cxBuffer b.toNat n.toNat))

/-! ## The pipeline (R208) -/

/-- The Signal as a complex buffer of `fs` values, zero-padded (R208 step 1, R237). -/
def padded (fs : Nat) (x : List Elem) : List Cx := (List.range fs).map fun k => ⟨x.getD k fzero, fzero⟩

/-- The real parts of the first `n` values (R208 step 8, R243). -/
def realPart (n : Nat) (zs : List Cx) : List Elem := (zs.take n).map Cx.re

/-- The transformed folded cepstrum of a log-spectrum: `fwd(fold(inv(w)))` (R208 steps 4 to 6, R242). -/
def causalSpectrum (f : Fmt) (fs : Nat) (w : List Cx) : List Cx := fwd f fs (fold f fs (inv f fs w))

/-- `H` of a Signal (R208 step 2). -/
def spectrumOf (f : Fmt) (fs : Nat) (x : List Elem) : List Cx := fwd f fs (padded fs x)

/-- The spectrum `Hmin` of a spectrum `H` (R208 steps 3 to 6), on the Hilbert path or the cepstral one. -/
def minPhaseSpectrum (f : Fmt) (fs : Nat) (hilbert : Bool) (h : List Cx) : List Cx :=
  let c := causalSpectrum f fs (h.map (logBin f))
  if hilbert then List.zipWith (polBin f) c h else c.map (cexp f)

/-- The minimum-phase Signal of `n` samples (R208 step 8). -/
def minPhaseSignal (f : Fmt) (fs n : Nat) (hilbert : Bool) (h : List Cx) : List Elem :=
  realPart n (inv f fs (minPhaseSpectrum f fs hilbert h))

/-- The excess-phase Signal of `n` samples (R208 steps 7 and 8). -/
def excessPhaseSignal (f : Fmt) (fs n : Nat) (hilbert : Bool) (h : List Cx) : List Elem :=
  realPart n (inv f fs (List.zipWith (xphBin f) h (minPhaseSpectrum f fs hilbert h)))

/-- Store a Signal if it is selected. -/
def State.putIf (s : State) (selected : Bool) (a : Nat) (x : List Elem) : State :=
  if selected then s.putSignal a x else s

/-- `hd(N, A, B, FS, OMP, OEP, hilbert)` (R208): the whole input is read before an output is written. -/
def State.decompose (s : State) (o : HdOpts) (hilbert : Bool) (n a b : Nat) : State :=
  let f := s.cfg.fmt
  let fs := HdOpts.size o n
  let h := spectrumOf f fs (s.signal a n)
  let s := s.putIf o.omp b (minPhaseSignal f fs n hilbert h)
  let s := s.putIf o.oep (b + n) (excessPhaseSignal f fs n hilbert h)
  (s.notice (h.any (logClamps f))).cacheSize fs

/-! ## The decompositions -/

/-- `HD.DEC` (R209), the cepstral path. -/
def execHdDec (o : HdOpts) (n a b : Word) (s : State) : Host.Outcome State Fault Refusal :=
  s.command (hdTrap s.cfg o n.toNat a.toNat b.toNat) (hdWreck o n.toNat b.toNat) fun s =>
    s.decompose o false n.toNat a.toNat b.toNat

/-- `HD.DECH` (R210), the Hilbert path. -/
def execHdDech (o : HdOpts) (n a b : Word) (s : State) : Host.Outcome State Fault Refusal :=
  s.command (hdTrap s.cfg o n.toNat a.toNat b.toNat) (hdWreck o n.toNat b.toNat) fun s =>
    s.decompose o true n.toNat a.toNat b.toNat

end Sys2Proof.Machine
end

