-- ==== Sys2Proof/Machine/Level.lean ====
section
/-! DEFINITION. Band-limited RMS (R231 to R234): the band, the weights, the normaliser, the level. -/

namespace Sys2Proof.Machine

/-- The four parameters of a level (R31, R234): `SRATE`, `FLO`, `FHI`, `WEXP`. -/
structure BandParams where
  srate : Elem
  flo : Elem
  fhi : Elem
  wexp : Elem
  deriving DecidableEq, Repr

/-- The bin position of a frequency edge (R231). -/
def binOf (f : Fmt) (fs : Nat) (srate edge : Elem) : Elem := fdiv f (fmul f edge (i2f f fs)) srate

/-- `kLo`: the smallest bin of the lower half at or above the low edge, or one past the half (R231). -/
def bandLow (f : Fmt) (fs : Nat) (p : BandParams) : Nat :=
  ((List.range (fs / 2 + 1)).find? fun k => fle f (binOf f fs p.srate p.flo) (i2f f k)).getD (fs / 2 + 1)

/-- `kHi`: the largest bin of the lower half at or below the high edge; `none` stands for `-1` (R231). -/
def bandHigh (f : Fmt) (fs : Nat) (p : BandParams) : Option Nat :=
  (List.range (fs / 2 + 1)).reverse.find? fun k => fle f (i2f f k) (binOf f fs p.srate p.fhi)

/-- The bins `kLo..kHi` (R231): none when `kLo > kHi`. -/
def bins (kLo : Nat) : Option Nat → List Nat
  | none => []
  | some kHi => List.range' kLo (kHi + 1 - kLo)

/-- `wt(k, w)` (R232). -/
def weight (f : Fmt) (w : Elem) (k : Nat) : Elem :=
  if k = 0 then fone f
  else if feq f w fzero then fone f
  else if feq f w (fone f) then fdiv f (fone f) (i2f f k)
  else fpow f (i2f f k) (fneg f w)

/-- `Hn(n)`, the harmonic number: direct up to 32, its asymptotic expansion above (R233). -/
def harmonic (f : Fmt) (n : Nat) : Elem :=
  if n = 0 then fzero
  else if n ≤ 32 then ksum f ((List.range' 1 n).map fun j => fdiv f (fone f) (i2f f j))
  else
    let x := i2f f n
    let x2 := fmul f x x
    ksum f [flog f x, gamma f, fdiv f (fone f) (fmul f (i2f f 2) x),
      fneg f (fdiv f (fone f) (fmul f (i2f f 12) x2)),
      fdiv f (fone f) (fmul f (i2f f 120) (fmul f x2 x2))]

/-- The asymptotic form of the normaliser on `kLo..kHi` (R233). -/
def denAsymptotic (f : Fmt) (kLo kHi : Nat) : Elem :=
  let lo1 := max kLo 1
  let dc := if kLo = 0 then fone f else fzero
  let hs := if lo1 ≤ kHi then fsub f (harmonic f kHi) (harmonic f (lo1 - 1)) else fzero
  fadd f dc hs

/-- The normaliser `den` on `kLo..kHi` (R233); `direct` is `HN_DIRECT_MAX`. -/
def normaliser (f : Fmt) (direct fs : Nat) (w : Elem) (kLo kHi : Nat) : Elem :=
  if !feq f w (fone f) || fs ≤ direct then ksum f ((bins kLo (some kHi)).map (weight f w))
  else denAsymptotic f kLo kHi

/-- The squared magnitude of a bin, computed directly (R234). -/
def power (f : Fmt) (z : Cx) : Elem := fadd f (fmul f z.re z.re) (fmul f z.im z.im)

/-- The weighted sum of squared magnitudes over `kLo..kHi` (R234). -/
def weightedPower (f : Fmt) (w : Elem) (x : List Cx) (kLo kHi : Nat) : Elem :=
  ksum f ((bins kLo (some kHi)).map fun k => fmul f (weight f w k) (power f (x.getD k czero)))

/-- `blrms(X, FS)` (R234). -/
def blrms (f : Fmt) (direct fs : Nat) (p : BandParams) (x : List Cx) : Elem :=
  match bandHigh f fs p with
  | none => fzero
  | some kHi =>
    let kLo := bandLow f fs p
    if kHi < kLo then fzero
    else
      let den := normaliser f direct fs p.wexp kLo kHi
      if flt f fzero den then fsqrt f (fdiv f (weightedPower f p.wexp x kLo kHi) den) else fzero

end Sys2Proof.Machine
end

