-- ==== Sys2Proof/Machine/Shaper.lean ====
section
/-! DEFINITION. The four commands of the Spectral Magnitude Shaper and the two reserved rows (43_shaper.md). -/

namespace Sys2Proof.Machine

/-! ## The level -/

/-- The band parameters in `S0..S3` (R31). -/
def State.bandParams (s : State) : BandParams :=
  { srate := s.sreg regSrate, flo := s.sreg regFlo, fhi := s.sreg regFhi, wexp := s.sreg regWexp }

/-- `blrms` with the machine's registers and parameters (R234). -/
def State.level (s : State) (fs : Nat) (x : List Cx) : Elem :=
  blrms s.cfg.fmt s.cfg.hnDirectMax fs s.bandParams x

/-- `MS.RMS` (R235). -/
def execMsRms (n a : Word) (s : State) : Host.Outcome State Fault Refusal :=
  s.command (bufferTrap s.cfg n.toNat a.toNat) Wreck.none fun s =>
    s.setSreg regLevel (s.level n.toNat (s.cxBuffer a.toNat n.toNat))

/-! ## The curves -/

/-- The rational blend `u / (1 + u)` (R238, R239). -/
def blend (f : Fmt) (u : Elem) : Elem := fdiv f u (fadd f (fone f) u)

/-- `0 < x < 1` (R238, R239). -/
def insideUnit (f : Fmt) (x : Elem) : Bool := flt f fzero x && flt f x (fone f)

/-- The hard limit of the dip curve (R238). -/
def dipHard (f : Fmt) (m t : Elem) : Elem := if flt f m t then t else m

/-- `dipc(m, T, f)` (R238), with `x` for `DLSTART`. -/
def dipCurve (f : Fmt) (t x m : Elem) : Elem :=
  if insideUnit f x then
    let s := fdiv f t x
    let d := fsub f s t
    if flt f fzero d then
      if flt f m s then fsub f s (fmul f d (blend f (fdiv f (fsub f s m) d))) else m
    else dipHard f m t
  else dipHard f m t

/-- The hard limit of the peak curve (R239). -/
def peakHard (f : Fmt) (m top : Elem) : Elem := if flt f top m then top else m

/-- `peakc(m, M, f)` (R239), with `x` for `PLSTART`. -/
def peakCurve (f : Fmt) (top x m : Elem) : Elem :=
  if insideUnit f x then
    let s := fmul f x top
    let d := fsub f top s
    if flt f fzero d then
      if flt f s m then fadd f s (fmul f d (blend f (fdiv f (fsub f m s) d))) else m
    else peakHard f m top
  else peakHard f m top

/-- `flatc(m)` (R240), with `gain` for `NFGAIN` and `x` for `NFFLAT`. -/
def flatCurve (f : Fmt) (gain x m : Elem) : Elem := fadd f (fmul f x m) (fmul f (fsub f (fone f) x) gain)

/-! ## Reshaping -/

/-- A bin beside its magnitude, its new magnitude, and whether it is reshaped (R237). -/
structure ShapedBin where
  x : Cx
  m : Elem
  m' : Elem
  chg : Bool
  deriving DecidableEq, Repr

/-- A bin under a limiter's curve: reshaped when the curve changes its magnitude, or when that is a NaN (R237). -/
def limitBin (f : Fmt) (curve : Elem → Elem) (x : Cx) : ShapedBin :=
  let m := cabs f x
  { x := x, m := m, m' := curve m, chg := !feq f (curve m) m }

/-- A bin under the flatten curve: always reshaped (R237, R246). -/
def flatBin (f : Fmt) (curve : Elem → Elem) (x : Cx) : ShapedBin :=
  { x := x, m := cabs f x, m' := curve (cabs f x), chg := true }

/-- The linear-phase back end on a bin (R241): a bin that is not reshaped keeps its value. -/
def ShapedBin.linear (f : Fmt) (b : ShapedBin) : Cx := if b.chg then polar f b.m' (carg f b.x) else b.x

/-- The log gain of a bin (R242): `+0`, without a logarithm, when it is not reshaped. -/
def ShapedBin.logGain (f : Fmt) (b : ShapedBin) : Cx :=
  ⟨if b.chg then fsub f (logc f b.m').1 (logc f b.m).1 else fzero, fzero⟩

/-- Whether the log gain of a bin is clamped (R242). -/
def ShapedBin.clamps (f : Fmt) (b : ShapedBin) : Bool := b.chg && ((logc f b.m').2 || (logc f b.m).2)

/-- The cepstral exponential of the gain, multiplied into the bin (R242, `PR = 0`). -/
def ShapedBin.convolve (f : Fmt) (b : ShapedBin) (w : Cx) : Cx := cmul f b.x (cexp f w)

/-- The new magnitude with the phase of the bin and of the gain (R242, `PR = 1`). -/
def ShapedBin.rotate (f : Fmt) (b : ShapedBin) (w : Cx) : Cx := polar f b.m' (fadd f (carg f b.x) w.im)

/-- The reshaped spectrum (R241, R242). -/
def reshape (f : Fmt) (fs : Nat) (o : MsOpts) (bs : List ShapedBin) : List Cx :=
  if o.pm then
    List.zipWith (if o.pr then ShapedBin.rotate f else ShapedBin.convolve f) bs
      (causalSpectrum f fs (bs.map (ShapedBin.logGain f)))
  else bs.map (ShapedBin.linear f)

/-- Whether the minimum-phase back end gives the notice (R242); the linear-phase one never does (R241). -/
def reshapeClamps (f : Fmt) (o : MsOpts) (bs : List ShapedBin) : Bool := o.pm && bs.any (ShapedBin.clamps f)

/-- The effect common to the reshaping commands (R237, R241 to R243): `mk` makes the bins of the spectrum. -/
def State.shape (s : State) (o : MsOpts) (n a b : Nat) (mk : Nat → List Cx → List ShapedBin) : State :=
  let f := s.cfg.fmt
  let fs := MsOpts.size o n
  let bs := mk fs (spectrumOf f fs (s.signal a n))
  ((s.putSignal b (realPart n (inv f fs (reshape f fs o bs)))).notice (reshapeClamps f o bs)).cacheSize fs

/-- The bins of `MS.DIP`: `T = L * DLGAIN`, then the dip curve (R244). -/
def State.dipBins (s : State) (fs : Nat) (x : List Cx) : List ShapedBin :=
  let f := s.cfg.fmt
  let t := fmul f (s.level fs x) (s.sreg regDlgain)
  x.map (limitBin f (dipCurve f t (s.sreg regDlstart)))

/-- The bins of `MS.PEAK`: `M = L * PLGAIN`, then the peak curve (R245). -/
def State.peakBins (s : State) (fs : Nat) (x : List Cx) : List ShapedBin :=
  let f := s.cfg.fmt
  let top := fmul f (s.level fs x) (s.sreg regPlgain)
  x.map (limitBin f (peakCurve f top (s.sreg regPlstart)))

/-- The bins of `MS.FLAT`: the flatten curve (R246). -/
def State.flatBins (s : State) (_fs : Nat) (x : List Cx) : List ShapedBin :=
  x.map (flatBin s.cfg.fmt (flatCurve s.cfg.fmt (s.sreg regNfgain) (s.sreg regNfflat)))

/-! ## The reshaping commands -/

/-- `MS.DIP` (R244). -/
def execMsDip (o : MsOpts) (n a b : Word) (s : State) : Host.Outcome State Fault Refusal :=
  s.command (msTrap s.cfg o n.toNat a.toNat b.toNat) (msWreck o n.toNat b.toNat) fun s =>
    s.shape o n.toNat a.toNat b.toNat s.dipBins

/-- `MS.PEAK` (R245). -/
def execMsPeak (o : MsOpts) (n a b : Word) (s : State) : Host.Outcome State Fault Refusal :=
  s.command (msTrap s.cfg o n.toNat a.toNat b.toNat) (msWreck o n.toNat b.toNat) fun s =>
    s.shape o n.toNat a.toNat b.toNat s.peakBins

/-- `MS.FLAT` (R246). -/
def execMsFlat (o : MsOpts) (n a b : Word) (s : State) : Host.Outcome State Fault Refusal :=
  s.command (msTrap s.cfg o n.toNat a.toNat b.toNat) (msWreck o n.toNat b.toNat) fun s =>
    s.shape o n.toNat a.toNat b.toNat s.flatBins

/-! ## The reserved rows -/

/-- `MS.DIP` with the legacy policy: `E_ILLEGAL(w0)` (R106, R262). -/
def execMsDipLegacy (o : MsOpts) (n a b : Word) (s : State) : Host.Outcome State Fault Refusal :=
  .next (s.takeFault ⟨.illegal, (controlOf (.msDipLegacy o n a b)).toNat⟩ Wreck.none)

/-- `MS.PEAK` with the legacy policy: `E_ILLEGAL(w0)` (R106, R262). -/
def execMsPeakLegacy (o : MsOpts) (n a b : Word) (s : State) : Host.Outcome State Fault Refusal :=
  .next (s.takeFault ⟨.illegal, (controlOf (.msPeakLegacy o n a b)).toNat⟩ Wreck.none)

end Sys2Proof.Machine
end

