-- ==== Sys2Proof/Machine/System.lean ====
section
/-! DEFINITION. The system commands `NOP`, `END`, `SETS` (44_system.md). -/

namespace Sys2Proof.Machine

/-- `NOP` (R270). -/
def execNop (s : State) : Host.Outcome State Fault Refusal := .next s.advance

/-- `END` (R271): the run stops, `DONE` is set, `CP` moves on. -/
def execEndList (s : State) : Host.Outcome State Fault Refusal :=
  .next { s.advance with done := true, run := false }

/-- `SETS` (R272); an index above 10 raises `E_ILLEGAL(w0)`. -/
def execSets (i : BitVec 4) (lo hi : Word) (s : State) : Host.Outcome State Fault Refusal :=
  if h : i.toNat < 11 then
    .next (s.setSreg ⟨i.toNat, h⟩ (immediate s.cfg.fmt lo hi)).advance
  else .next (s.takeFault ⟨.illegal, (controlOf (.sets i lo hi)).toNat⟩ Wreck.none)

end Sys2Proof.Machine
end

