-- ==== Sys2Proof/Machine/Dispatch.lean ====
section
/-! DEFINITION. One meaning for each constructor of `Instr`. -/

namespace Sys2Proof.Machine

def exec (i : Instr) (s : State) : Host.Outcome State Fault Refusal :=
  match i with
  | .nop => Sys2Proof.Machine.execNop s
  | .endList => Sys2Proof.Machine.execEndList s
  | .sets r lo hi => Sys2Proof.Machine.execSets r lo hi s
  | .fftFwd n a => Sys2Proof.Machine.execFftFwd n a s
  | .fftInv n a => Sys2Proof.Machine.execFftInv n a s
  | .fftFwdP2 n a => Sys2Proof.Machine.execFftFwdP2 n a s
  | .fftInvP2 n a => Sys2Proof.Machine.execFftInvP2 n a s
  | .cepLog n a => Sys2Proof.Machine.execCepLog n a s
  | .cepFold n a => Sys2Proof.Machine.execCepFold n a s
  | .cepExp n a => Sys2Proof.Machine.execCepExp n a s
  | .cepPol n a b => Sys2Proof.Machine.execCepPol n a b s
  | .cepXph n a b => Sys2Proof.Machine.execCepXph n a b s
  | .hdDec o n a b => Sys2Proof.Machine.execHdDec o n a b s
  | .hdDech o n a b => Sys2Proof.Machine.execHdDech o n a b s
  | .msRms n a => Sys2Proof.Machine.execMsRms n a s
  | .msDip o n a b => Sys2Proof.Machine.execMsDip o n a b s
  | .msPeak o n a b => Sys2Proof.Machine.execMsPeak o n a b s
  | .msFlat o n a b => Sys2Proof.Machine.execMsFlat o n a b s
  | .msDipLegacy o n a b => Sys2Proof.Machine.execMsDipLegacy o n a b s
  | .msPeakLegacy o n a b => Sys2Proof.Machine.execMsPeakLegacy o n a b s

end Sys2Proof.Machine
end

