-- ==== Sys2Proof/Machine/Fetch.lean ====
section
/-! DEFINITION. Fetch and decode (R295), and the start of a run (R41). -/

namespace Sys2Proof.Machine

/-- A fetch is possible at `CP` (R34, R75). -/
def State.fetchOk (s : State) : Bool := s.cp.toNat % 4 == 0 && decide (s.cp.toNat + 4 ≤ s.cfg.cmSize)

/-- The bytes of the descriptor at `CP`. -/
def State.fetched (s : State) : List Byte := s.descriptor s.cp.toNat

/-- The instruction the engine fetches and decodes, or the fault that stops it: `E_FETCH(CP)`, then `E_ILLEGAL(w0)`
(R105, R285, R295). -/
def State.fetch (s : State) : Except Trap Instr :=
  if s.fetchOk then
    match decode s.fetched with
    | .ok (i, _) => .ok i
    | .error _ => .error ⟨.illegal, (wordOf s.fetched).toNat⟩
  else .error ⟨.fetch, s.cp.toNat⟩

/-- An accepted start (R41): `DONE <- 0`, `RUN <- 1`. -/
def State.start (s : State) : State := { s with done := false, run := true }

/-- The state in which a descriptor's bytes stand where the engine fetches next and the engine runs, with no move of the
outside agents before it: what the host's load of `CM`, its write of `CP` when the one there cannot be fetched from, its
clearing of a fault and its start leave (R322; log 14). -/
def State.loaded (s : State) (bs : List Byte) : State :=
  let cp := if s.fetchOk then s.cp else 0
  { s.clearFault.start with
    cp := cp
    cm := s.cm.store (4 * cp.toNat) bs
    inbox := [] }

end Sys2Proof.Machine
end

