-- ==== Sys2Proof/Machine/HostPort.lean ====
section
/-! DEFINITION. The host's side: the register block (R47), the apertures (R77), reset (R320), and the moves that use
them. -/

namespace Sys2Proof.Machine

/-- The address in the host's space of a region's byte offset (R10, R79; log 29). The moves name region and offset. -/
def hostAddr (r : Region) (off : Nat) : Nat := Config.base r + off

/-! ## The register block: reads (R46 to R48) -/

/-- A configuration value as a 32-bit register shows it (R46). -/
def capWord (v : Nat) : Word := if 2 ^ 32 ≤ v then 0xFFFFFFFF#32 else BitVec.ofNat 32 v

/-- The scalar register whose window an aligned offset lies in, and whether it is the high word (R47). -/
def sWindow (off : Nat) : Option (SReg × Bool) :=
  if h : 0x40 ≤ off ∧ off < 0x98 then some (⟨(off - 0x40) / 8, by omega⟩, off % 8 == 4) else none

/-- The low and the high word of a scalar register (R48). -/
def State.sWord (s : State) (i : SReg) (high : Bool) : Word :=
  if high then
    match s.cfg.fmt with
    | .binary64 => BitVec.ofNat 32 ((s.sreg i).toNat / 2 ^ 32)
    | .binary32 => 0
  else BitVec.ofNat 32 (s.sreg i).toNat

/-- The word at an aligned offset of the register block (R47). An offset of no register reads 0, and so does `CTRL`. -/
def State.regRead (s : State) (off : Nat) : Word :=
  if off = 0x00 then 0x44464501#32
  else if off = 0x08 then s.status
  else if off = 0x0C then s.ie
  else if off = 0x10 then s.cp
  else if off = 0x14 then s.faultCp
  else if off = 0x18 then s.faultInfo
  else if off = 0x1C then s.twN
  else if off = 0x20 then capWord s.cfg.dmSize
  else if off = 0x24 then capWord s.cfg.cmSize
  else if off = 0x28 then capWord s.cfg.wcap
  else if off = 0x2C then capWord s.cfg.rmax
  else if off = 0x30 then (match s.cfg.fmt with | .binary64 => 0 | .binary32 => 1)
  else
    match sWindow off with
    | some (i, high) => s.sWord i high
    | none => 0

/-! ## The register block: writes -/

/-- A write of `CTRL` (R41). -/
def State.writeCtrl (s : State) (w : Word) : State := if bit w 0 && !s.run && !s.fault then s.start else s

/-- A write of `STATUS`: write-1-to-clear of bits 1, 2, 3 (R36, R38 to R40). -/
def State.writeStatus (s : State) (w : Word) : State :=
  let s := if bit w 1 then { s with done := false } else s
  let s := if bit w 2 then s.clearFault else s
  if bit w 3 then { s with loglim := false } else s

/-- A write of a scalar register's window (R48). For `binary64` the low word waits in `SLATCH` and the high word commits
`written word ++ SLATCH`; for `binary32` the low word commits and the high word is ignored. -/
def State.writeWindow (s : State) (i : SReg) (high : Bool) (w : Word) : State :=
  match s.cfg.fmt, high with
  | .binary64, false => { s with slatch := w }
  | .binary64, true => s.setSreg i (immediate .binary64 s.slatch w)
  | .binary32, false => s.setSreg i (BitVec.ofNat 64 w.toNat)
  | .binary32, true => s

/-- A write of an aligned offset of the register block (R47). While `RUN = 1` writes of `CP` and of the `S` windows are
dropped (R54); writes of a read-only register or of no register are ignored. -/
def State.regWrite (s : State) (off : Nat) (w : Word) : State :=
  if off = 0x04 then s.writeCtrl w
  else if off = 0x08 then s.writeStatus w
  else if off = 0x0C then { s with ie := w &&& 0xE#32 }
  else if off = 0x10 then (if s.run then s else { s with cp := w })
  else
    match sWindow off with
    | some (i, high) => if s.run then s else s.writeWindow i high w
    | none => s

/-! ## The apertures (R77) -/

/-- The size in bytes of the data memory's aperture. -/
def Params.dmBytes (p : Params) : Nat := p.dmSize * fbytes p.fmt

/-- The size in bytes of the command memory's aperture. -/
def Params.cmBytes (p : Params) : Nat := p.cmSize * 4

/-- Whether `k` bytes at an offset lie in a region's aperture. The register block has no end that R47 states. -/
def State.inAperture (s : State) (r : Region) (off k : Nat) : Bool :=
  match r with
  | .regs => true
  | .dm => off + k ≤ Params.dmBytes s.cfg
  | .cm => off + k ≤ Params.cmBytes s.cfg

/-- A byte of an aperture. -/
def State.apertureByte (s : State) (r : Region) (off : Nat) : Byte :=
  match r with
  | .regs => 0
  | .dm => s.dmByte off
  | .cm => s.cmByte off

/-- A word of a region. -/
def State.hostWord (s : State) (r : Region) (off : Nat) : Word :=
  match r with
  | .regs => s.regRead off
  | .dm => wordOf ((List.range 4).map fun j => s.dmByte (off + j))
  | .cm => wordOf ((List.range 4).map fun j => s.cmByte (off + j))

/-- Bytes written into an aperture: only those bytes change (R77). -/
def State.putBytes (s : State) (r : Region) (off : Nat) (bs : List Byte) : State :=
  match r with
  | .regs => s
  | .dm => { s with dm := s.dm.store off bs }
  | .cm => { s with cm := s.cm.store off bs }

/-- A word written to a region. -/
def State.putWord (s : State) (r : Region) (off : Nat) (w : Word) : State :=
  match r with
  | .regs => s.regWrite off w
  | .dm => s.putBytes .dm off (leBytes 4 w.toNat)
  | .cm => s.putBytes .cm off (leBytes 4 w.toNat)

/-! ## The moves -/

/-- Reset (R320, R321): every state of R53 at its reset value. The configuration, the host's own word and its moves still
to come stay. The memories list nothing, so what a command cut short left is unspecified too (log 17). -/
def State.afterReset (s : State) : State :=
  { State.reset with cfg := s.cfg, draws := s.draws, inbox := s.inbox, hostData := s.hostData }

/-- The reason a host access cannot be made, in this order: a shape the spec does not describe (R47, U7), an access to a
memory during a run (R88, R323, U6), a place outside the aperture (R70). -/
def State.denied (s : State) (r : Region) (off k : Nat) : Option (Host.Outcome State Fault Refusal) :=
  if off % k ≠ 0 ∨ (r = .regs ∧ k ≠ 4) then some (.refused (.accessShape r off))
  else if r ≠ .regs ∧ s.run = true then some (.refused (.memoryAccessDuringRun r off))
  else if s.inAperture r off k then none
  else some (.fault (.outsideAperture r off))

/-- A host access of `k` bytes: its effect where it can be made. -/
def State.access (s : State) (r : Region) (off k : Nat) (effect : State → State) : Host.Outcome State Fault Refusal :=
  match s.denied r off k with
  | some o => o
  | none => .next (effect s)

/-- A move of an agent outside the engine (R47, R77, R320). The engine's turn is the step's own. -/
def hostMove (m : HostMove) (s : State) : Host.Outcome State Fault Refusal :=
  match m with
  | .engine => .next s
  | .read r off => s.access r off 4 fun s => { s with hostData := s.hostWord r off }
  | .write r off w => s.access r off 4 fun s => s.putWord r off w
  | .readByte r off => s.access r off 1 fun s => { s with hostData := BitVec.ofNat 32 (s.apertureByte r off).toNat }
  | .writeByte r off b => s.access r off 1 fun s => s.putBytes r off [b]
  | .reset => .next s.afterReset

end Sys2Proof.Machine
end

