-- ==== Sys2Proof/Machine/Step.lean ====
section
/-! DEFINITION. One step of the machine: the next move of the outside agents, or one whole command of the engine (R295). -/

namespace Sys2Proof.Machine

/-- A taken step draws its free values afresh: the draw index moves on (log 5). -/
def tick : Host.Outcome State Fault Refusal → Host.Outcome State Fault Refusal
  | .next s => .next { s with draws := s.draws + 1 }
  | .fault r => .fault r
  | .refused r => .refused r

/-- The engine step of R295. -/
def engineStep (s : State) : Host.Outcome State Fault Refusal :=
  match s.fetch with
  | .ok i => exec i s
  | .error t => .next (s.takeFault t Wreck.none)

/-- The engine's turn: while `RUN = 0` it does not fetch, and nothing changes (R301, R321; log 15). -/
def engineTurn (s : State) : Host.Outcome State Fault Refusal :=
  if s.run then tick (engineStep s) else .next s

/-- One step: the first move of the inbox, or, when the outside agents have none to make, the engine's turn (log 13). -/
def step (s : State) : Host.Outcome State Fault Refusal :=
  match s.inbox with
  | [] => engineTurn s
  | .engine :: rest => engineTurn { s with inbox := rest }
  | m :: rest => tick (hostMove m { s with inbox := rest })

/-- The state in which a descriptor of the opcode table stands where `step` fetches its next instruction (log 14). -/
def State.withFetchWord (s : State) (nbits w : Nat) : State := s.loaded (tableBytes nbits w)

end Sys2Proof.Machine
end

