-- ==== Sys2Proof/Safety.lean ====
section
/-! DEFINITION. What the claims are stated in: the invariant of the machine, and the spec's accuracy property and contracts,
each as a proposition with its open parameters (`ULPERR`, `TOL`) as arguments (R16, R135; log 28). -/

namespace Sys2Proof.Safety

open Sys2Proof.Machine

/-! ## The invariant -/

/-- What holds of every state of the machine, reachable or not by a particular program (R10, R30, R36, R38, R39, R42, R50,
R51, R294). -/
structure Inv (s : State) : Prop where
  /-- The parameters obey R10. -/
  params : s.cfg.Ok
  /-- `DM` is in its canonical form, within its `DMSIZE` elements (R50). -/
  dmWf : s.dm.wf
  dmWithin : s.dm.within (s.cfg.dmSize * fbytes s.cfg.fmt)
  /-- `CM` is in its canonical form, within its `CMSIZE` words (R51). -/
  cmWf : s.cm.wf
  cmWithin : s.cm.within (s.cfg.cmSize * 4)
  /-- `RUN = 1` with `FAULT = 1` never occurs (R294). -/
  runNotFaulted : s.run = true → s.fault = false
  /-- `RUN = 1` with `DONE = 1` never occurs (R38, R271). -/
  runNotDone : s.run = true → s.done = false
  /-- `FCODE` is 0 exactly when `FAULT = 0` (R36, R39). -/
  codeOfFault : s.fault = true ↔ s.fcode ≠ .none
  /-- Only bits 3:1 of `IE` can be set (R42). -/
  ieBits : s.ie &&& 0xE#32 = s.ie
  /-- Every scalar register holds one value of the format (R31). -/
  regsNarrow : ∀ i : SReg, (s.sreg i).toNat < 2 ^ fwidth s.cfg.fmt

/-! ## Faults and frames -/

/-- An outcome is the fault `code(info)` of the command at `CP` (R283): the entry's writes, `CP` unchanged, and, but for
an `E_ALLOC`, nothing else changed (R286). -/
def Raises (s : State) (o : Host.Outcome State Fault Refusal) (code : FCode) (info : Nat) : Prop :=
  ∃ t, o = .next t ∧ t.fault = true ∧ t.run = false ∧ t.fcode = code ∧ t.faultInfo = BitVec.ofNat 32 info ∧
    t.faultCp = s.cp ∧ t.cp = s.cp ∧
    (code ≠ .alloc → t = { s with
      faultCp := s.cp, faultInfo := BitVec.ofNat 32 info, fcode := code, fault := true, run := false })

/-- Every byte of `DM` outside the `n` elements at `a` is listed, or not, in `t` as in `s`. (With the draw index
unchanged, it then reads as before.) -/
def BytesKept (s t : State) (a n : Nat) : Prop :=
  ∀ x, (x < a * fbytes s.cfg.fmt ∨ (a + n) * fbytes s.cfg.fmt ≤ x) → t.dm.get? x = s.dm.get? x

/-- A command left the complex values `out k`, `k < n`, at `a`, and changed no other byte of `DM`. -/
def WroteCx (s t : State) (a n : Nat) (out : Nat → Cx) : Prop :=
  (∀ k < n, t.cxAt a k = out k) ∧ BytesKept s t a (2 * n)

/-- A command left the real values `out i`, `i < n`, at `a`. -/
def WroteSignal (t : State) (a n : Nat) (out : Nat → Elem) : Prop := ∀ i < n, t.dmElem (a + i) = out i

/-- Every byte of `DM` outside the selected outputs of an `HD` command is listed, or not, in `t` as in `s`. -/
def OutputsOnly (s t : State) (o : HdOpts) (b n : Nat) : Prop :=
  ∀ x, (o.omp = true → x < b * fbytes s.cfg.fmt ∨ (b + n) * fbytes s.cfg.fmt ≤ x) →
    (o.oep = true → x < (b + n) * fbytes s.cfg.fmt ∨ (b + 2 * n) * fbytes s.cfg.fmt ≤ x) →
    t.dm.get? x = s.dm.get? x

/-- Commands complete one after the other from one state to another, each without a fault (R35). -/
def RunsThrough : List Instr → State → State → Prop
  | [], s, t => t = s
  | i :: is, s, t => ∃ u, exec i s = .next u ∧ u.cp = s.cp + 4 ∧ RunsThrough is u t

/-- The fields an `E_ALLOC` leaves as fault entry does, whatever it makes of `DM`, `TW_N` and `LOGLIM` (R287). -/
def AllocEntry (s t : State) (info : Nat) : Prop :=
  t = { s with
    dm := t.dm, twN := t.twN, loglim := t.loglim
    faultCp := s.cp, faultInfo := BitVec.ofNat 32 info, fcode := .alloc, fault := true, run := false }

/-! ## What happens in a step -/

/-- It is the engine's turn, in a run (R295). -/
def EngineTurn (s : State) : Prop := s.run = true ∧ (s.inbox = [] ∨ s.inbox.head? = some .engine)

/-- The engine takes its turn on a command it fetched and decoded (R295). -/
def EngineRuns (s : State) (i : Instr) : Prop := EngineTurn s ∧ s.fetch = .ok i

/-- The host writes a word of the register block (R47). -/
def HostWrites (s : State) (off : Nat) (w : Word) : Prop := s.inbox.head? = some (.write .regs off w)

/-- The platform asserts reset (R320). -/
def Resets (s : State) : Prop := s.inbox.head? = some .reset

/-- The host starts the engine, and the start is accepted (R41). -/
def AcceptedStart (s : State) : Prop :=
  ∃ w, HostWrites s 0x04 w ∧ bit w 0 = true ∧ s.run = false ∧ s.fault = false

/-! ## Legal control words, by their fields (R103, R106, R107) -/

/-- A control word that some command has, by the fields of R101 and the table of R103, with the constraints of R107. -/
def LegalControl (w : Word) : Prop :=
  let opc := field w 7 0
  let hd := opc = 0x28 ∨ opc = 0x29
  let ms := opc = 0x31 ∨ opc = 0x32 ∨ opc = 0x33
  opc ∈ [0x00, 0x01, 0x02, 0x10, 0x11, 0x12, 0x13, 0x20, 0x21, 0x22, 0x23, 0x24, 0x28, 0x29, 0x30, 0x31, 0x32, 0x33] ∧
    field w 31 22 = 0 ∧ field w 15 15 = 0 ∧
    (if opc = 0x02 then field w 21 18 ≤ 10 else field w 21 18 = 0) ∧
    (¬ hd → field w 17 16 = 0) ∧
    (¬ hd ∧ ¬ ms → field w 12 8 = 0) ∧
    (¬ ms → field w 14 13 = 0) ∧
    (field w 8 8 = 1 → field w 12 9 = 0) ∧
    (field w 13 13 = 0 → field w 14 14 = 0)

/-- One of the two reserved rows (R262). -/
def Legacy (i : Instr) : Prop := (∃ o n a b, i = .msDipLegacy o n a b) ∨ ∃ o n a b, i = .msPeakLegacy o n a b

/-! ## Correct rounding (R131) -/

/-- The magnitude from which a real number rounds to infinity: the largest finite value and half a unit of its last
place. -/
def overflowBound (f : Fmt) : ℚ := (2 ^ (fracBits f + 2) - 1) * 2 ^ (expOnes f - 3) / 2 ^ quantumExp f

/-- An element is a real number rounded to nearest, ties to even: an infinity of its sign from the overflow bound on;
below it, a finite value none is nearer than, with an even significand when another value is as near. -/
def Rounds (f : Fmt) (q : ℝ) (r : Elem) : Prop :=
  if ((overflowBound f : ℚ) : ℝ) ≤ |q| then isInf f r = true ∧ (signOf f r = true ↔ q < 0)
  else isFinite f r = true ∧
    ∀ y, isFinite f y = true →
      |q - (toRat f r : ℝ)| ≤ |q - (toRat f y : ℝ)| ∧
        (|q - (toRat f r : ℝ)| = |q - (toRat f y : ℝ)| → toRat f y ≠ toRat f r → r.toNat % 2 = 0)

/-! ## Accuracy (R135) -/

/-- The unit in the last place of a real number in a format. -/
def IsUlp (f : Fmt) (r u : ℝ) : Prop :=
  u = (2 : ℝ) ^ (max (Int.log 2 |r| - (fracBits f : ℤ)) (-(quantumExp f : ℤ)))

/-- An element lies within `err` units in the last place of a real number. -/
def WithinUlps (err : ℝ) (f : Fmt) (y : Elem) (r : ℝ) : Prop :=
  isFinite f y = true ∧ ∀ u, IsUlp f r u → |((toRat f y : ℚ) : ℝ) - r| ≤ err * u

/-- The largest finite value of a format. -/
def maxFinite (f : Fmt) : Elem := pack f false (infBody f - 1)

/-- `P_ACC` for `ULPERR = err` (R135, R146): every elementary function is within `err` units of the exact result, for
finite operands in its domain whose exact result the format can hold; beyond that, an infinity (R132, R204). R135 does not
say what the domains are. DESIGN CHOICE (log 34): that of `fpow` is the positive bases, with every exponent, and that of
`fatan2` the points off the negative real axis and off the origin. -/
structure PAcc (err : ℝ) (f : Fmt) : Prop where
  log : ∀ x, isFinite f x = true → 0 < toRat f x → WithinUlps err f (flog f x) (Real.log (toRat f x))
  exp : ∀ x, isFinite f x = true → Real.exp (toRat f x) ≤ (toRat f (maxFinite f) : ℝ) →
    WithinUlps err f (fexp f x) (Real.exp (toRat f x))
  expOverflow : ∀ x, isFinite f x = true → ((overflowBound f : ℚ) : ℝ) ≤ Real.exp (toRat f x) → fexp f x = finf f false
  sin : ∀ x, isFinite f x = true → WithinUlps err f (fsin f x) (Real.sin (toRat f x))
  cos : ∀ x, isFinite f x = true → WithinUlps err f (fcos f x) (Real.cos (toRat f x))
  atan2 : ∀ y x, isFinite f y = true → isFinite f x = true → (toRat f y ≠ 0 ∨ 0 < toRat f x) →
    WithinUlps err f (fatan2 f y x) (Complex.arg ⟨(toRat f x : ℝ), (toRat f y : ℝ)⟩)
  pow : ∀ x y, isFinite f x = true → isFinite f y = true → 0 < toRat f x →
    ((toRat f x : ℝ)) ^ ((toRat f y : ℝ)) ≤ (toRat f (maxFinite f) : ℝ) →
    WithinUlps err f (fpow f x y) ((toRat f x : ℝ) ^ (toRat f y : ℝ))
  powOverflow : ∀ x y, isFinite f x = true → isFinite f y = true → 0 < toRat f x →
    ((overflowBound f : ℚ) : ℝ) ≤ ((toRat f x : ℝ)) ^ ((toRat f y : ℝ)) → fpow f x y = finf f false
  twiddle : ∀ n j, 1 ≤ n → j < n →
    WithinUlps err f (twiddle f n j).re (Real.cos (2 * Real.pi * j / n)) ∧
      WithinUlps err f (twiddle f n j).im (Real.sin (2 * Real.pi * j / n))

/-! ## Ideal values (R16, R170) -/

/-- A machine complex value is finite and stands for a complex number. -/
def Represents (f : Fmt) (z : Cx) (c : ℂ) : Prop :=
  isFinite f z.re = true ∧ isFinite f z.im = true ∧ c.re = (toRat f z.re : ℝ) ∧ c.im = (toRat f z.im : ℝ)

/-- A machine buffer of `n` values stands for a complex vector. -/
def RepresentsAll (f : Fmt) (n : Nat) (zs : List Cx) (x : Nat → ℂ) : Prop :=
  zs.length = n ∧ ∀ k < n, Represents f (at0 zs k) (x k)

/-- A tolerance `TOL(n, FMT)`: a function to non-negative reals (R10; log 28). -/
abbrev Tolerance := Nat → Fmt → NNReal

/-- `x ≈[n] y` (R16): the largest deviation is within `TOL` of the larger of 1 and the largest reference magnitude. -/
def Close (tol : Tolerance) (f : Fmt) (n : Nat) (x y : Nat → ℂ) : Prop :=
  ∀ k < n, ∃ j < n, ‖x k - y k‖ ≤ tol n f * max 1 ‖y j‖

/-- `≈[n]` of a machine buffer against a complex vector. -/
def BufferClose (tol : Tolerance) (f : Fmt) (n : Nat) (zs : List Cx) (y : Nat → ℂ) : Prop :=
  ∃ x, RepresentsAll f n zs x ∧ Close tol f n x y

/-- The ideal forward transform (R170). -/
def ForwardDft (n : Nat) (x y : Nat → ℂ) : Prop :=
  ∀ k < n, y k = ∑ j ∈ Finset.range n, x j * Complex.exp (-2 * Real.pi * Complex.I * j * k / n)

/-- The ideal inverse transform (R170). -/
def InverseDft (n : Nat) (y x : Nat → ℂ) : Prop :=
  ∀ j < n, x j = (∑ k ∈ Finset.range n, y k * Complex.exp (2 * Real.pi * Complex.I * j * k / n)) / n

/-! ## Contracts -/

/-- `P_ROUNDTRIP` (R182). -/
def PRoundtrip (tol : Tolerance) (f : Fmt) (rmax : Nat) : Prop :=
  ∀ n zs x, 1 ≤ n → lpf n ≤ rmax → RepresentsAll f n zs x → BufferClose tol f n (inv f n (fwd f n zs)) x

/-- `P_FFT_ACC` (R182). -/
def PFftAcc (tol : Tolerance) (f : Fmt) (rmax : Nat) : Prop :=
  ∀ n zs x y, 1 ≤ n → lpf n ≤ rmax → RepresentsAll f n zs x →
    (ForwardDft n x y → BufferClose tol f n (fwd f n zs) y) ∧ (InverseDft n x y → BufferClose tol f n (inv f n zs) y)

/-- `P_POW2EQ` (R183). -/
def PPow2Eq (tol : Tolerance) (f : Fmt) : Prop :=
  ∀ n zs x y, ispow2 n = true → zs.length = n →
    (RepresentsAll f n (fwd f n zs) x → BufferClose tol f n (fwd2 f n zs) x) ∧
      (RepresentsAll f n (inv f n zs) y → BufferClose tol f n (inv2 f n zs) y)

/-- The whole minimum-phase component, `fs` samples before truncation to `N`, as a complex buffer (R208, R211). -/
def minPhaseFull (f : Fmt) (fs : Nat) (hilbert : Bool) (h : List Cx) : List Cx :=
  padded fs (minPhaseSignal f fs fs hilbert h)

/-- The whole excess-phase component, `fs` samples before truncation to `N`, as a complex buffer (R208, R211). -/
def excessPhaseFull (f : Fmt) (fs : Nat) (hilbert : Bool) (h : List Cx) : List Cx :=
  padded fs (excessPhaseSignal f fs fs hilbert h)

/-- Sample `j` of the circular convolution of two sequences of `n` samples. -/
def circular (n : Nat) (x y : Nat → ℂ) (j : Nat) : ℂ := ∑ i ∈ Finset.range n, x i * y ((j + n - i) % n)

/-- `P_HD_MAG`, `P_HD_AP`, `P_HD_CONV` (R211), of every Signal, its zero bins included: the magnitude spectrum of the
minimum-phase component is the Signal's, that of the excess-phase component is 1 everywhere, and the circular convolution
of the two is the Signal. `xs`, `ms`, `es` are the padded Signal and its two whole components. -/
def PHd (tol : Tolerance) (f : Fmt) (rmax : Nat) (hilbert : Bool) : Prop :=
  ∀ fs x xs ms es sX sM sE, 1 ≤ fs → lpf fs ≤ rmax →
    RepresentsAll f fs (padded fs x) xs → ForwardDft fs xs sX →
    RepresentsAll f fs (minPhaseFull f fs hilbert (spectrumOf f fs x)) ms → ForwardDft fs ms sM →
    RepresentsAll f fs (excessPhaseFull f fs hilbert (spectrumOf f fs x)) es → ForwardDft fs es sE →
    Close tol f fs (fun k => (‖sM k‖ : ℂ)) (fun k => (‖sX k‖ : ℂ)) ∧
      Close tol f fs (fun k => (‖sE k‖ : ℂ)) (fun _ => 1) ∧
      Close tol f fs (circular fs ms es) xs

/-- The reshaped spectrum of a dip or peak command before the final inverse transform (R241, R242, R247). -/
def reshaped (f : Fmt) (fs : Nat) (o : MsOpts) (curve : Elem → Elem) (h : List Cx) : List Cx :=
  reshape f fs o (h.map (limitBin f curve))

/-- `P_LIMIT` (R247), of the spectrum of a Signal, whose log gain is even: after a dip no bin is below the target, zero bins
on the cepstral path excepted, and after a peak none is above the maximum, within `TOL`. (No magnitude lies below a negative
maximum, so the peak half is of the others; the level is never negative, so only a negative `PLGAIN` gives one.) -/
def PLimit (tol : Tolerance) (f : Fmt) (rmax : Nat) : Prop :=
  ∀ fs o x xs t start y, 1 ≤ fs → lpf fs ≤ rmax → RepresentsAll f fs (padded fs x) xs → isFinite f t = true →
    let h := spectrumOf f fs x
    (RepresentsAll f fs (reshaped f fs o (dipCurve f t start) h) y → ∀ k < fs,
      (o.pm = true ∧ o.pr = false → isZero f (cabs f (at0 h k)) = false) →
        (toRat f t : ℝ) - tol fs f * max 1 (toRat f t : ℝ) ≤ ‖y k‖) ∧
    (RepresentsAll f fs (reshaped f fs o (peakCurve f t start) h) y → 0 ≤ toRat f t → ∀ k < fs,
        ‖y k‖ ≤ (toRat f t : ℝ) + tol fs f * max 1 (toRat f t : ℝ))

/-- The ideal dip curve below its start level `s`, with blend range `d` (R238). -/
def IdealDip (s d : ℝ) (c : ℝ → ℝ) : Prop :=
  ∀ m, c m = if m < s then s - d * (((s - m) / d) / (1 + (s - m) / d)) else m

/-- The ideal peak curve above its start level `s`, with blend range `d` (R239). -/
def IdealPeak (s d : ℝ) (c : ℝ → ℝ) : Prop :=
  ∀ m, c m = if s < m then s + d * (((m - s) / d) / (1 + (m - s) / d)) else m

/-- A value of a limiter's curve, six rounded operations on values up to `r`, lies near the ideal one: within four units in
the last place of `r`, and a quantum. -/
def NearCurve (f : Fmt) (r y c : ℝ) : Prop := |y - c| ≤ 4 * r / 2 ^ fracBits f + 1 / 2 ^ quantumExp f

end Sys2Proof.Safety
end

