-- ==== Sys2Proof/Certificates/Slice0/Obligations.lean ====
section
/-! DEFINITION. The statements for the provers. Each docstring says which rule of spec/ it formalises, or from which
sections it is derived, and names the model's own choice where a clause rests on one. -/

open Sys2Proof Sys2Proof.Machine Sys2Proof.Safety

/-! ## The step -/

/-- The step runs the decoded instruction; `tick` is the model's own draw index moving on (DESIGN CHOICE, log 5). -/
def Obligations.StepRunsDecoded : Prop :=
  ∀ (s : State) (i : Instr) (rest : List Byte),
    s.run = true → s.fetchOk = true → decode s.fetched = .ok (i, rest) →
      (s.inbox = [] → step s = tick (exec i s)) ∧
      (∀ moves, s.inbox = .engine :: moves → step s = tick (exec i { s with inbox := moves }))

/-- The engine step of R295, over the words of `CM` as the host's aperture shows them. With no move of the outside agents to
come the machine never stops: no command ends in a fault of the model or a refusal, whatever the data; and while `RUN = 0`
nothing changes (log 15). -/
def Obligations.EngineStep : Prop :=
  (∀ s : State, s.run = true → s.inbox = [] →
      let c := s.cp.toNat
      let w := fun j => s.hostWord .cm (4 * (c + j))
      (c % 4 ≠ 0 ∨ s.cfg.cmSize < c + 4 → step s = tick (.next (s.raise ⟨.fetch, c⟩))) ∧
      (c % 4 = 0 ∧ c + 4 ≤ s.cfg.cmSize →
        match decodeWords (w 0) (w 1) (w 2) (w 3) with
        | .ok i => step s = tick (exec i s)
        | .error _ => step s = tick (.next (s.raise ⟨.illegal, (w 0).toNat⟩)))) ∧
  (∀ s : State, s.inbox = [] → (∃ t, step s = .next t) ∧ (s.run = false → step s = .next s))

/-! ## System commands -/

/-- `NOP` (R270), in a list of them too: a `CM` of zeros runs to `E_FETCH` at its end. -/
def Obligations.NopRule : Prop :=
  (∀ s : State, exec .nop s = .next { s with cp := s.cp + 4 }) ∧
  (∀ w0 w1 w2 w3, decodeWords w0 w1 w2 w3 = .ok .nop ↔ w0 = 0) ∧
  (∀ s : State, s.cfg.cmSize % 4 = 0 → s.cfg.cmSize < 2 ^ 32 → s.run = true → s.inbox = [] → s.cp = 0 →
    (∀ x < 4 * s.cfg.cmSize, s.cm.get? x = some 0) →
    core.run (s.cfg.cmSize / 4 + 1) s = .next { s with
      cp := BitVec.ofNat 32 s.cfg.cmSize
      draws := s.draws + (s.cfg.cmSize / 4 + 1)
      faultCp := BitVec.ofNat 32 s.cfg.cmSize, faultInfo := BitVec.ofNat 32 s.cfg.cmSize
      fcode := .fetch, fault := true, run := false })

/-- `END` (R271): its effect, the interrupt it raises, that nothing else ends a run without a fault (but reset, R320),
and that a second start continues after it. -/
def Obligations.EndRule : Prop :=
  (∀ s : State, exec .endList s = .next { s with cp := s.cp + 4, done := true, run := false }) ∧
  (∀ s t : State, exec .endList s = .next t →
    (bit s.ie 1 = true → t.irq = true) ∧ (t.inbox = [] → step t = .next t) ∧
      (s.fault = false → t.writeCtrl 1 = { s with cp := s.cp + 4, done := false, run := true })) ∧
  (∀ s t : State, step s = .next t → s.run = true → t.run = false → t.fault = false → EngineRuns s .endList ∨ Resets s)

/-- `SETS` (R272): the immediate by format for the indices 0 to 10, `E_ILLEGAL(w0)` for 11 to 15. -/
def Obligations.SetsRule : Prop :=
  ∀ (s : State) (i : BitVec 4) (lo hi : Word),
    (∀ h : i.toNat < 11, exec (.sets i lo hi) s = .next { s with
      regs := s.regs.set i.toNat (match s.cfg.fmt with | .binary64 => hi ++ lo | .binary32 => lo.setWidth 64)
      cp := s.cp + 4 }) ∧
    (11 ≤ i.toNat → Raises s (exec (.sets i lo hi) s) .illegal (2 + 2 ^ 18 * i.toNat))

/-! ## Transforms -/

/-- The four transform commands, where their checks pass: the buffer takes the transform of the reference datapath, or of the
radix-2 datapath for the power-of-two commands, in place; `TW_N` takes the size; nothing else changes. -/
def Obligations.FftCommands : Prop :=
  (∀ (s : State) (n a : Word),
      n ≠ 0 → a.toNat % 2 = 0 → a.toNat + 2 * n.toNat ≤ s.cfg.dmSize → lpf n.toNat ≤ s.cfg.rmax →
        (∃ t, exec (.fftFwd n a) s = .next t ∧
          WroteCx s t a.toNat n.toNat (at0 (fwd s.cfg.fmt n.toNat (s.cxBuffer a.toNat n.toNat))) ∧
          t = { s with dm := t.dm, twN := n, cp := s.cp + 4 }) ∧
        (∃ t, exec (.fftInv n a) s = .next t ∧
          WroteCx s t a.toNat n.toNat (at0 (inv s.cfg.fmt n.toNat (s.cxBuffer a.toNat n.toNat))) ∧
          t = { s with dm := t.dm, twN := n, cp := s.cp + 4 })) ∧
  (∀ (s : State) (n a : Word),
      ispow2 n.toNat = true → a.toNat % 2 = 0 → a.toNat + 2 * n.toNat ≤ s.cfg.dmSize →
        (∃ t, exec (.fftFwdP2 n a) s = .next t ∧
          WroteCx s t a.toNat n.toNat (at0 (fwd2 s.cfg.fmt n.toNat (s.cxBuffer a.toNat n.toNat))) ∧
          t = { s with dm := t.dm, twN := n, cp := s.cp + 4 }) ∧
        (∃ t, exec (.fftInvP2 n a) s = .next t ∧
          WroteCx s t a.toNat n.toNat (at0 (inv2 s.cfg.fmt n.toNat (s.cxBuffer a.toNat n.toNat))) ∧
          t = { s with dm := t.dm, twN := n, cp := s.cp + 4 }))

/-- The checks of R171, in order, and that a command that passes them completes. -/
def Obligations.FftChecks : Prop :=
  ∀ (s : State) (n a : Word),
    (∀ i ∈ [Instr.fftFwd n a, .fftInv n a],
      if n = 0 then Raises s (exec i s) .size 0
      else if a.toNat % 2 ≠ 0 then Raises s (exec i s) .addr a.toNat
      else if s.cfg.dmSize < a.toNat + 2 * n.toNat then Raises s (exec i s) .addr a.toNat
      else if s.cfg.rmax < lpf n.toNat then Raises s (exec i s) .alloc (lpf n.toNat)
      else ∃ t, exec i s = .next t ∧ t.cp = s.cp + 4 ∧ t.fault = s.fault) ∧
    (∀ i ∈ [Instr.fftFwdP2 n a, .fftInvP2 n a],
      if n = 0 then Raises s (exec i s) .size 0
      else if ispow2 n.toNat = false then Raises s (exec i s) .size n.toNat
      else if a.toNat % 2 ≠ 0 then Raises s (exec i s) .addr a.toNat
      else if s.cfg.dmSize < a.toNat + 2 * n.toNat then Raises s (exec i s) .addr a.toNat
      else ∃ t, exec i s = .next t ∧ t.cp = s.cp + 4 ∧ t.fault = s.fault)

/-- The radix-2 datapath and the generic one compute the same function on powers of two, so `P_POW2EQ` holds for every
tolerance (R183). -/
def Obligations.Pow2Equal : Prop :=
  ∀ (f : Fmt) (n : Nat), ispow2 n = true →
    (∀ zs : List Cx, zs.length = n → fwd2 f n zs = fwd f n zs ∧ inv2 f n zs = inv f n zs) ∧
    (∀ tol : Tolerance, PPow2Eq tol f)

/-- `n = 1` (R185): both transforms leave the value, and `TW_N` becomes 1. -/
def Obligations.SizeOne : Prop :=
  (∀ f, lpf 1 = 1 ∧ ∀ z : Cx, fwd f 1 [z] = [z]) ∧
  (∀ (s : State) (a : Word), a.toNat % 2 = 0 → a.toNat + 2 ≤ s.cfg.dmSize → 2 ≤ s.cfg.rmax →
    ∀ i ∈ [Instr.fftFwd 1 a, .fftInv 1 a, .fftFwdP2 1 a, .fftInvP2 1 a],
      ∃ t, exec i s = .next t ∧ t.twN = 1 ∧
        (isNaN s.cfg.fmt (s.cxAt a.toNat 0).re = false → (t.cxAt a.toNat 0).re = (s.cxAt a.toNat 0).re) ∧
        (isNaN s.cfg.fmt (s.cxAt a.toNat 0).im = false → (t.cxAt a.toNat 0).im = (s.cxAt a.toNat 0).im))

/-- On 1, 2 or 4 values with small integer parts every operation is exact: the forward transform is the ideal one of
R170, and the inverse takes it back. -/
def Obligations.SmallTransformsExact : Prop :=
  ∀ (f : Fmt) (n : Nat) (zs : List Cx) (x y : Nat → ℂ), n ∈ [1, 2, 4] →
    (∀ j < n, ∃ u v : ℤ, |u| ≤ 2 ^ 16 ∧ |v| ≤ 2 ^ 16 ∧ x j = ⟨(u : ℝ), (v : ℝ)⟩) →
    RepresentsAll f n zs x → ForwardDft n x y →
      RepresentsAll f n (fwd f n zs) y ∧ InverseDft n y x ∧ RepresentsAll f n (inv f n (fwd f n zs)) x

/-- The transforms of every size, as R172 to R176 compute them. `rec` on a block of `size` values of a transform of size `n`:
one level by the smallest prime factor, each place Horner's evaluation (R173) times its root, then each block of the level;
the permutation by `rev` (R174); the roots of R145, exact at the quarter turns (R146); the forward transform, and the
inverse one with its division by `n` (R175, R176). And for a prime size one evaluation at each root, times the root of
exponent 0. -/
def Obligations.PrimeTransform : Prop :=
  (∀ (f : Fmt) (dir : Dir) (n : Nat), 1 ≤ n →
    let root := fun j =>
      let c := twiddle f n (j % n)
      (match dir with | .inverse => c | .forward => ⟨c.re, fneg f c.im⟩ : Cx)
    ∃ rec : Nat → List Cx → List Cx,
      (∀ t, rec 1 t = t) ∧
      (∀ size t, 2 ≤ size →
        let p := spf size
        let m := size / p
        rec size t = (List.range p).flatMap fun k0 =>
          rec m ((List.range m).map fun j0 =>
            cmul f (horner f (root (k0 * (n / p) % n)) ((List.range p).map fun j1 => at0 t (j1 * m + j0)))
              (root (j0 * k0 % size * (n / size))))) ∧
      ∀ zs, (xform f dir n zs).length = n ∧ ∀ k < n, at0 (xform f dir n zs) k = at0 (rec n zs) (rev k n)) ∧
  (∀ (f : Fmt) (w x y : Cx) (t : List Cx),
    horner f w [x] = x ∧ horner f w (x :: y :: t) = cadd f (cmul f (horner f w (y :: t)) w) x) ∧
  (∀ (f : Fmt) (n j : Nat), j < n →
    (j = 0 → twiddle f n j = ⟨fone f, fzero⟩) ∧ (4 * j = n → twiddle f n j = ⟨fzero, fone f⟩) ∧
    (2 * j = n → twiddle f n j = ⟨fneg f (fone f), fzero⟩) ∧ (4 * j = 3 * n → twiddle f n j = ⟨fzero, fneg f (fone f)⟩)) ∧
  (∀ (f : Fmt) (n : Nat) (zs : List Cx),
    fwd f n zs = xform f .forward n zs ∧ (inv f n zs).length = n ∧
    ∀ k < n,
      let z := at0 (xform f .inverse n zs) k
      at0 (inv f n zs) k = ⟨fdiv f z.re (i2f f n), fdiv f z.im (i2f f n)⟩) ∧
  (∀ (f : Fmt) (dir : Dir) (n : Nat) (zs : List Cx) (k : Nat), n.Prime → zs.length = n → k < n →
    at0 (xform f dir n zs) k = cmul f (horner f (om f dir n k) zs) (om f dir n 0))

/-- The forward transform of a unit impulse, of any size, is 1 in every bin (the sign of a zero part aside). It rests on
the roots of unity being finite (DEDUCED, log 9). -/
def Obligations.ForwardOfImpulse : Prop :=
  ∀ (f : Fmt) (n k : Nat), k < n →
    let x := (List.range n).map fun j => if j = 0 then (⟨fone f, fzero⟩ : Cx) else czero
    (at0 (fwd f n x) k).re = fone f ∧ isZero f (at0 (fwd f n x) k).im = true

/-! ## The cepstral stages -/

/-- The checks of R201, in order; a stage command never raises `E_ALLOC`, never changes `TW_N`, and is element-wise. -/
def Obligations.StageChecks : Prop :=
  (∀ (s : State) (n a : Word), ∀ i ∈ [Instr.cepLog n a, .cepFold n a, .cepExp n a],
    if n = 0 then Raises s (exec i s) .size 0
    else if a.toNat % 2 ≠ 0 then Raises s (exec i s) .addr a.toNat
    else if s.cfg.dmSize < a.toNat + 2 * n.toNat then Raises s (exec i s) .addr a.toNat
    else ∃ t, exec i s = .next t ∧ t.cp = s.cp + 4 ∧ t.fault = s.fault ∧ t.fcode = s.fcode) ∧
  (∀ (s : State) (n a b : Word), ∀ i ∈ [Instr.cepPol n a b, .cepXph n a b],
    if n = 0 then Raises s (exec i s) .size 0
    else if a.toNat % 2 ≠ 0 then Raises s (exec i s) .addr a.toNat
    else if s.cfg.dmSize < a.toNat + 2 * n.toNat then Raises s (exec i s) .addr a.toNat
    else if b.toNat % 2 ≠ 0 ∨ s.cfg.dmSize < b.toNat + 2 * n.toNat then Raises s (exec i s) .addr b.toNat
    else if ¬ (a.toNat + 2 * n.toNat ≤ b.toNat ∨ b.toNat + 2 * n.toNat ≤ a.toNat) then
      Raises s (exec i s) .addr b.toNat
    else ∃ t, exec i s = .next t ∧ t.cp = s.cp + 4 ∧ t.fault = s.fault ∧ t.fcode = s.fcode) ∧
  (∀ (s t s' t' : State) (n a : Word), ∀ i ∈ [Instr.cepLog n a, .cepFold n a, .cepExp n a],
    exec i s = .next t → exec i s' = .next t' → s.cfg = s'.cfg →
      t.twN = s.twN ∧ t.regs = s.regs ∧
      ∀ k < n.toNat, t.cp = s.cp + 4 → t'.cp = s'.cp + 4 →
        s.cxAt a.toNat k = s'.cxAt a.toNat k → t.cxAt a.toNat k = t'.cxAt a.toNat k) ∧
  (∀ (s t s' t' : State) (n a b : Word), ∀ i ∈ [Instr.cepPol n a b, .cepXph n a b],
    exec i s = .next t → exec i s' = .next t' → s.cfg = s'.cfg →
      t.twN = s.twN ∧ t.regs = s.regs ∧
      ∀ k < n.toNat, t.cp = s.cp + 4 → t'.cp = s'.cp + 4 →
        s.cxAt a.toNat k = s'.cxAt a.toNat k → s.cxAt b.toNat k = s'.cxAt b.toNat k →
        t.cxAt a.toNat k = t'.cxAt a.toNat k)

/-- `CEP.LOG`: the clamped log-magnitude of every bin, and the notice exactly when a magnitude is a zero. -/
def Obligations.CepLogRule : Prop :=
  ∀ (s : State) (n a : Word), n ≠ 0 → a.toNat % 2 = 0 → a.toNat + 2 * n.toNat ≤ s.cfg.dmSize →
    let f := s.cfg.fmt
    ∃ t, exec (.cepLog n a) s = .next t ∧
      WroteCx s t a.toNat n.toNat (fun k => ⟨(logc f (cabs f (s.cxAt a.toNat k))).1, fzero⟩) ∧
      (t.loglim = true ↔ s.loglim = true ∨ ∃ k < n.toNat, isZero f (cabs f (s.cxAt a.toNat k)) = true) ∧
      t = { s with dm := t.dm, loglim := t.loglim, cp := s.cp + 4 }

/-- `CEP.FOLD`: the real parts at 0 and, for an even size, at the Nyquist index kept, those of positive time doubled, those
of negative time zeroed; imaginary parts discarded. -/
def Obligations.CepFoldRule : Prop :=
  ∀ (s : State) (n a : Word), n ≠ 0 → a.toNat % 2 = 0 → a.toNat + 2 * n.toNat ≤ s.cfg.dmSize →
    ∃ t, exec (.cepFold n a) s = .next t ∧
      WroteCx s t a.toNat n.toNat (fun k =>
        let r := (s.cxAt a.toNat k).re
        ⟨if k = 0 ∨ 2 * k = n.toNat then r else if 2 * k < n.toNat then fadd s.cfg.fmt r r else fzero, fzero⟩) ∧
      t = { s with dm := t.dm, cp := s.cp + 4 }

/-- `CEP.EXP`: the complex exponential of every value; of `(+0, +0)` it is exactly `(1, +0)`; a large real part overflows to
infinity (710 or more in binary64, 89 or more in binary32, `+inf` included; the exact bound is log 32). -/
def Obligations.CepExpRule : Prop :=
  ∀ (s : State) (n a : Word), n ≠ 0 → a.toNat % 2 = 0 → a.toNat + 2 * n.toNat ≤ s.cfg.dmSize →
    let f := s.cfg.fmt
    let large := i2f f (match f with | .binary64 => 710 | .binary32 => 89)
    ∃ t, exec (.cepExp n a) s = .next t ∧
      WroteCx s t a.toNat n.toNat (fun k =>
        let z := s.cxAt a.toNat k
        ⟨fmul f (fexp f z.re) (fcos f z.im), fmul f (fexp f z.re) (fsin f z.im)⟩) ∧
      (∀ k < n.toNat, s.cxAt a.toNat k = ⟨fzero, fzero⟩ → t.cxAt a.toNat k = ⟨fone f, fzero⟩) ∧
      (∀ k < n.toNat, fle f large (s.cxAt a.toNat k).re = true →
        fexp f (s.cxAt a.toNat k).re = finf f false ∧
          (isZero f (s.cxAt a.toNat k).im = true → (t.cxAt a.toNat k).re = finf f false)) ∧
      t = { s with dm := t.dm, cp := s.cp + 4 }

/-- `CEP.POL`: the magnitude of `H` with the phase in the imaginary part of the buffer at `A`; and `CEP.XPH`: the unit phasor
of the difference of the phases of `H` and `Hmin`. The buffer at `B` is only read. -/
def Obligations.CepPhaseCommands : Prop :=
  (∀ (s : State) (n a b : Word), n ≠ 0 → a.toNat % 2 = 0 → a.toNat + 2 * n.toNat ≤ s.cfg.dmSize →
      b.toNat % 2 = 0 → b.toNat + 2 * n.toNat ≤ s.cfg.dmSize →
      (a.toNat + 2 * n.toNat ≤ b.toNat ∨ b.toNat + 2 * n.toNat ≤ a.toNat) →
      let f := s.cfg.fmt
      ∃ t, exec (.cepPol n a b) s = .next t ∧
        WroteCx s t a.toNat n.toNat (fun k =>
          let r := cabs f (s.cxAt b.toNat k)
          let p := (s.cxAt a.toNat k).im
          ⟨fmul f r (fcos f p), fmul f r (fsin f p)⟩) ∧
        t = { s with dm := t.dm, cp := s.cp + 4 }) ∧
  (∀ (s : State) (n a b : Word), n ≠ 0 → a.toNat % 2 = 0 → a.toNat + 2 * n.toNat ≤ s.cfg.dmSize →
      b.toNat % 2 = 0 → b.toNat + 2 * n.toNat ≤ s.cfg.dmSize →
      (a.toNat + 2 * n.toNat ≤ b.toNat ∨ b.toNat + 2 * n.toNat ≤ a.toNat) →
      let f := s.cfg.fmt
      let arg := fun z : Cx => fatan2 f z.im z.re
      let d := fun k => fsub f (arg (s.cxAt a.toNat k)) (arg (s.cxAt b.toNat k))
      ∃ t, exec (.cepXph n a b) s = .next t ∧
        WroteCx s t a.toNat n.toNat (fun k => ⟨fcos f (d k), fsin f (d k)⟩) ∧
        t = { s with dm := t.dm, cp := s.cp + 4 })

/-! ## The decompositions -/

/-- `HD.DEC` (`hilbert` false) and `HD.DECH` (true): the selected outputs are those of the pipeline on the whole input, which
is read before an output is written, so overlap changes nothing. And the pipeline is the stage commands in order (R215): run
on two buffers that hold the padded Signal, they leave in them the values the outputs are taken from, with the same notice
and the same `TW_N`. -/
def Obligations.HdCommands : Prop :=
  (∀ (s : State) (o : HdOpts) (n a b : Word) (hilbert : Bool),
    let f := s.cfg.fmt
    let fs := fsize n.toNat o.nopad o.mexp
    let h := spectrumOf f fs (s.signal a.toNat n.toNat)
    n ≠ 0 → fs < 2 ^ 31 → a.toNat + n.toNat ≤ s.cfg.dmSize →
    (o.omp = true → b.toNat + n.toNat ≤ s.cfg.dmSize) → (o.oep = true → b.toNat + 2 * n.toNat ≤ s.cfg.dmSize) →
    2 * fs ≤ s.cfg.wcap → lpf fs ≤ s.cfg.rmax →
      ∃ t, exec (if hilbert then .hdDech o n a b else .hdDec o n a b) s = .next t ∧
        (o.omp = true → WroteSignal t b.toNat n.toNat fun i =>
          (at0 (inv f fs (minPhaseSpectrum f fs hilbert h)) i).re) ∧
        (o.oep = true → WroteSignal t (b.toNat + n.toNat) n.toNat fun i =>
          (at0 (inv f fs (List.zipWith (xphBin f) h (minPhaseSpectrum f fs hilbert h))) i).re) ∧
        OutputsOnly s t o b.toNat n.toNat ∧
        (t.loglim = true ↔ s.loglim = true ∨ ∃ k < fs, isZero f (cabs f (at0 h k)) = true) ∧
        t = { s with dm := t.dm, loglim := t.loglim, twN := BitVec.ofNat 32 fs, cp := s.cp + 4 }) ∧
  (∀ (s : State) (x : List Elem) (n a b : Word) (hilbert : Bool),
    let f := s.cfg.fmt
    let fs := n.toNat
    let h := spectrumOf f fs x
    n ≠ 0 → lpf fs ≤ s.cfg.rmax → a.toNat % 2 = 0 → b.toNat % 2 = 0 →
    a.toNat + 2 * fs ≤ s.cfg.dmSize → b.toNat + 2 * fs ≤ s.cfg.dmSize →
    (a.toNat + 2 * fs ≤ b.toNat ∨ b.toNat + 2 * fs ≤ a.toNat) →
    (∀ k < fs, s.cxAt a.toNat k = ⟨x.getD k fzero, fzero⟩ ∧ s.cxAt b.toNat k = ⟨x.getD k fzero, fzero⟩) →
      ∃ t, RunsThrough [.fftFwd n a, .fftFwd n b, .cepLog n b, .fftInv n b, .cepFold n b, .fftFwd n b,
          if hilbert then .cepPol n b a else .cepExp n b, .cepXph n a b, .fftInv n b, .fftInv n a] s t ∧
        t.cxBuffer b.toNat fs = inv f fs (minPhaseSpectrum f fs hilbert h) ∧
        t.cxBuffer a.toNat fs = inv f fs (List.zipWith (xphBin f) h (minPhaseSpectrum f fs hilbert h)) ∧
        (t.loglim = true ↔ s.loglim = true ∨ ∃ k < fs, isZero f (cabs f (at0 h k)) = true) ∧
        t = { s with dm := t.dm, loglim := t.loglim, twN := n, cp := s.cp + 40 })

/-- The checks of R207 and of R236, in order, and that a command that passes them completes. -/
def Obligations.OperandChecks : Prop :=
  (∀ (s : State) (o : HdOpts) (n a b : Word), ∀ i ∈ [Instr.hdDec o n a b, .hdDech o n a b],
      let fs := fsize n.toNat o.nopad o.mexp
      if n = 0 then Raises s (exec i s) .size 0
      else if 2 ^ 31 ≤ fs then Raises s (exec i s) .size n.toNat
      else if s.cfg.dmSize < a.toNat + n.toNat then Raises s (exec i s) .addr a.toNat
      else if (o.omp = true ∧ s.cfg.dmSize < b.toNat + n.toNat) ∨ (o.oep = true ∧ s.cfg.dmSize < b.toNat + 2 * n.toNat) then
        Raises s (exec i s) .addr b.toNat
      else if s.cfg.wcap < 2 * fs then Raises s (exec i s) .alloc fs
      else if s.cfg.rmax < lpf fs then Raises s (exec i s) .alloc (lpf fs)
      else ∃ t, exec i s = .next t ∧ t.cp = s.cp + 4 ∧ t.fault = s.fault) ∧
  (∀ (s : State) (o : MsOpts) (n a b : Word), ∀ i ∈ [Instr.msDip o n a b, .msPeak o n a b, .msFlat o n a b],
      let fs := fsize n.toNat o.nopad o.mexp
      if n = 0 then Raises s (exec i s) .size 0
      else if 2 ^ 31 ≤ fs then Raises s (exec i s) .size n.toNat
      else if s.cfg.dmSize < a.toNat + n.toNat then Raises s (exec i s) .addr a.toNat
      else if s.cfg.dmSize < b.toNat + n.toNat then Raises s (exec i s) .addr b.toNat
      else if s.cfg.wcap < (if o.pm then 2 * fs else fs) then Raises s (exec i s) .alloc fs
      else if s.cfg.rmax < lpf fs then Raises s (exec i s) .alloc (lpf fs)
      else ∃ t, exec i s = .next t ∧ t.cp = s.cp + 4 ∧ t.fault = s.fault)

/-- `P_HD_IDENT` where it is exact (R212): on a unit impulse with a power-of-two size, both commands give the unit impulse
in each selected output (the sign of a zero aside), and no notice. It rests on the roots of unity being finite (DEDUCED,
log 9). -/
def Obligations.HdOfImpulse : Prop :=
  ∀ (s : State) (o : HdOpts) (n a b : Word) (hilbert : Bool),
    let f := s.cfg.fmt
    let fs := fsize n.toNat o.nopad o.mexp
    n ≠ 0 → fs < 2 ^ 31 → ispow2 fs = true → a.toNat + n.toNat ≤ s.cfg.dmSize →
    (o.omp = true → b.toNat + n.toNat ≤ s.cfg.dmSize) → (o.oep = true → b.toNat + 2 * n.toNat ≤ s.cfg.dmSize) →
    2 * fs ≤ s.cfg.wcap → 2 ≤ s.cfg.rmax →
    s.dmElem a.toNat = fone f → (∀ i, 0 < i → i < n.toNat → s.dmElem (a.toNat + i) = fzero) →
      ∃ t, exec (if hilbert then .hdDech o n a b else .hdDec o n a b) s = .next t ∧ t.loglim = s.loglim ∧
        ∀ c, (o.omp = true ∧ c = b.toNat) ∨ (o.oep = true ∧ c = b.toNat + n.toNat) →
          t.dmElem c = fone f ∧ ∀ i, 0 < i → i < n.toNat → isZero f (t.dmElem (c + i)) = true

/-! ## The shaper -/

/-- The checks of R235, in order, and `MS.RMS`: only `LEVEL` and `CP` change. The level it writes (R232 to R234): the weights,
both forms of the normaliser, the harmonic numbers, and the compensated sum of R147 in its recurrence; the band is that of
`BandRule`. -/
def Obligations.RmsCommand : Prop :=
  (∀ (s : State) (n a : Word), n ≠ 0 → a.toNat % 2 = 0 → a.toNat + 2 * n.toNat ≤ s.cfg.dmSize →
    exec (.msRms n a) s = .next { s with
      regs := s.regs.set 10 (blrms s.cfg.fmt s.cfg.hnDirectMax n.toNat
        ⟨s.regs[0], s.regs[1], s.regs[2], s.regs[3]⟩ (s.cxBuffer a.toNat n.toNat))
      cp := s.cp + 4 }) ∧
  (∀ (s : State) (n a : Word),
    (n = 0 → Raises s (exec (.msRms n a) s) .size 0) ∧
    (n ≠ 0 → a.toNat % 2 ≠ 0 ∨ s.cfg.dmSize < a.toNat + 2 * n.toNat → Raises s (exec (.msRms n a) s) .addr a.toNat)) ∧
  (∀ (f : Fmt) (direct fs : Nat) (p : BandParams) (x : List Cx),
    let kLo := bandLow f fs p
    let band := bins kLo (bandHigh f fs p)
    let wt := fun k =>
      if k = 0 ∨ feq f p.wexp fzero = true then fone f
      else if feq f p.wexp (fone f) = true then fdiv f (fone f) (i2f f k)
      else fpow f (i2f f k) (fneg f p.wexp)
    let num := ksum f (band.map fun k =>
      fmul f (wt k) (fadd f (fmul f (at0 x k).re (at0 x k).re) (fmul f (at0 x k).im (at0 x k).im)))
    let den := fun kHi =>
      if feq f p.wexp (fone f) = true ∧ direct < fs then
        fadd f (if kLo = 0 then fone f else fzero)
          (if max kLo 1 ≤ kHi then fsub f (Machine.harmonic f kHi) (Machine.harmonic f (max kLo 1 - 1)) else fzero)
      else ksum f (band.map wt)
    (band = [] → blrms f direct fs p x = fzero) ∧
    (∀ kHi, bandHigh f fs p = some kHi → band ≠ [] → blrms f direct fs p x =
      if flt f fzero (den kHi) = true then fsqrt f (fdiv f num (den kHi)) else fzero)) ∧
  (∀ (f : Fmt) (n : Nat),
    let x := i2f f n
    let x2 := fmul f x x
    let one := fone f
    Machine.harmonic f 0 = fzero ∧
    (1 ≤ n → n ≤ 32 → Machine.harmonic f n = ksum f ((List.range' 1 n).map fun j => fdiv f one (i2f f j))) ∧
    (32 < n → Machine.harmonic f n = ksum f [flog f x,
      match f with | .binary64 => 0x3FE2788CFC6FB619#64 | .binary32 => 0x3F13C468#64,
      fdiv f one (fmul f (i2f f 2) x), fneg f (fdiv f one (fmul f (i2f f 12) x2)),
      fdiv f one (fmul f (i2f f 120) (fmul f x2 x2))])) ∧
  (∀ (f : Fmt) (v : List Elem), ∃ s c : Nat → Elem, s 0 = fzero ∧ c 0 = fzero ∧
    (∀ i (h : i < v.length),
      let y := fsub f v[i] (c i)
      s (i + 1) = fadd f (s i) y ∧ c (i + 1) = fsub f (fsub f (s (i + 1)) (s i)) y) ∧
    ksum f v = s v.length)

/-- The band of R231: `kLo` and `kHi` as the rule gives them, and so exactly the bins of the lower half between the edges;
none for a NaN edge. -/
def Obligations.BandRule : Prop :=
  ∀ (f : Fmt) (fs : Nat) (p : BandParams), fs < 2 ^ 31 →
    let h := fs / 2
    let tLo := fdiv f (fmul f p.flo (i2f f fs)) p.srate
    let tHi := fdiv f (fmul f p.fhi (i2f f fs)) p.srate
    let kLo := bandLow f fs p
    (∀ k ≤ h, k < kLo → fle f tLo (i2f f k) = false) ∧ kLo ≤ h + 1 ∧ (kLo ≤ h → fle f tLo (i2f f kLo) = true) ∧
    (match bandHigh f fs p with
      | none => ∀ k ≤ h, fle f (i2f f k) tHi = false
      | some kHi => kHi ≤ h ∧ fle f (i2f f kHi) tHi = true ∧ ∀ k ≤ h, kHi < k → fle f (i2f f k) tHi = false) ∧
    (∀ k, k ∈ bins kLo (bandHigh f fs p) ↔ k ≤ h ∧ fle f tLo (i2f f k) = true ∧ fle f (i2f f k) tHi = true) ∧
    (isNaN f tLo = true ∨ isNaN f tHi = true → bins kLo (bandHigh f fs p) = [])

/-- The level of a spectrum of ones is 1 when the weight exponent is a zero and the band is not empty. -/
def Obligations.RmsOfOnes : Prop :=
  ∀ (s : State) (n a : Word),
    n ≠ 0 → n.toNat ≤ 2 ^ 24 → a.toNat % 2 = 0 → a.toNat + 2 * n.toNat ≤ s.cfg.dmSize →
    (∀ k < n.toNat, s.cxAt a.toNat k = ⟨fone s.cfg.fmt, fzero⟩) → isZero s.cfg.fmt (s.sreg regWexp) = true →
    bins (bandLow s.cfg.fmt n.toNat s.bandParams) (bandHigh s.cfg.fmt n.toNat s.bandParams) ≠ [] →
      ∃ t, exec (.msRms n a) s = .next t ∧ t.sreg regLevel = fone s.cfg.fmt

/-- The reshaping commands: the output is the first `N` real parts of the inverse transform of the reshaped spectrum, the
bins made by each command's own curve, from the magnitudes of the spectrum of the Signal; `LEVEL` is not written, and the
linear-phase mode never gives the notice. And the reshaped spectrum bin by bin: the linear-phase back end of R241; the log
gain, its causal transform, and the two minimum-phase back ends of R242. -/
def Obligations.ShaperCommands : Prop :=
  (∀ (s : State) (o : MsOpts) (n a b : Word),
    let f := s.cfg.fmt
    let fs := fsize n.toNat o.nopad o.mexp
    let x := spectrumOf f fs (s.signal a.toNat n.toNat)
    let level := blrms f s.cfg.hnDirectMax fs ⟨s.regs[0], s.regs[1], s.regs[2], s.regs[3]⟩ x
    let bin := fun (always : Bool) (curve : Elem → Elem) (z : Cx) =>
      (⟨z, cabs f z, curve (cabs f z), always || !feq f (curve (cabs f z)) (cabs f z)⟩ : ShapedBin)
    n ≠ 0 → fs < 2 ^ 31 → a.toNat + n.toNat ≤ s.cfg.dmSize → b.toNat + n.toNat ≤ s.cfg.dmSize →
    (if o.pm then 2 * fs else fs) ≤ s.cfg.wcap → lpf fs ≤ s.cfg.rmax →
      ∀ p ∈ [(Instr.msDip o n a b, x.map (bin false (dipCurve f (fmul f level s.regs[4]) s.regs[5]))),
          (.msPeak o n a b, x.map (bin false (peakCurve f (fmul f level s.regs[6]) s.regs[7]))),
          (.msFlat o n a b, x.map (bin true (flatCurve f s.regs[8] s.regs[9])))],
        ∃ t, exec p.1 s = .next t ∧
          WroteSignal t b.toNat n.toNat (fun i => (at0 (inv f fs (reshape f fs o p.2)) i).re) ∧
          BytesKept s t b.toNat n.toNat ∧
          (t.loglim = true ↔ s.loglim = true ∨
            (o.pm = true ∧ ∃ c ∈ p.2, c.chg = true ∧ ((logc f c.m').2 = true ∨ (logc f c.m).2 = true))) ∧
          t = { s with dm := t.dm, loglim := t.loglim, twN := BitVec.ofNat 32 fs, cp := s.cp + 4 }) ∧
  (∀ (f : Fmt) (o : MsOpts) (bs : List ShapedBin),
    let fs := bs.length
    let arg := fun z : Cx => fatan2 f z.im z.re
    let pol := fun r p => (⟨fmul f r (fcos f p), fmul f r (fsin f p)⟩ : Cx)
    let gain := bs.map fun c =>
      (⟨if c.chg then fsub f (logc f c.m').1 (logc f c.m).1 else fzero, fzero⟩ : Cx)
    let folded := (List.range fs).map fun i =>
      let r := (at0 (inv f fs gain) i).re
      (⟨if i = 0 ∨ 2 * i = fs then r else if 2 * i < fs then fadd f r r else fzero, fzero⟩ : Cx)
    (reshape f fs o bs).length = fs ∧
    ∀ k (h : k < bs.length),
      let c := bs[k]
      let w := at0 (fwd f fs folded) k
      at0 (reshape f fs o bs) k =
        if o.pm then
          if o.pr then pol c.m' (fadd f (arg c.x) w.im) else cmul f c.x (pol (fexp f w.re) w.im)
        else if c.chg then pol c.m' (arg c.x) else c.x)

/-- `MS.DIP` of an all-zero Signal writes zeros and gives no notice, in all three modes, whatever the registers hold (the
corner case of R244). It rests on finite roots of unity, sines and phases (DEDUCED, logs 9 and 10). -/
def Obligations.DipOfZeros : Prop :=
  ∀ (s : State) (o : MsOpts) (n a b : Word),
    let f := s.cfg.fmt
    let fs := fsize n.toNat o.nopad o.mexp
    n ≠ 0 → fs < 2 ^ 31 → a.toNat + n.toNat ≤ s.cfg.dmSize → b.toNat + n.toNat ≤ s.cfg.dmSize →
    (if o.pm then 2 * fs else fs) ≤ s.cfg.wcap → lpf fs ≤ s.cfg.rmax →
    (∀ i < n.toNat, isZero f (s.dmElem (a.toNat + i)) = true) →
      ∃ t, exec (.msDip o n a b) s = .next t ∧ t.loglim = s.loglim ∧
        ∀ i < n.toNat, isZero f (t.dmElem (b.toNat + i)) = true

/-- The machine's curves. The dip curve (R238) and the peak curve (R239): with the start fraction inside (0, 1) and a positive
range `D`, a magnitude on the far side of the start level `S` is returned bit for bit, one on the near side is the rational
blend, each operation rounded; otherwise the hard limit; a NaN magnitude returns itself, and a NaN bound changes none. The
flatten curve (R240): the blend; 1 keeps a finite magnitude and 0 gives the gain, up to the sign of a zero. -/
def Obligations.ShaperCurves : Prop :=
  (∀ (f : Fmt) (t x m : Elem),
    let inside := flt f fzero x = true ∧ flt f x (fone f) = true
    let s := fdiv f t x
    let d := fsub f s t
    let u := fdiv f (fsub f s m) d
    (inside → flt f fzero d = true →
      (flt f m s = false → dipCurve f t x m = m) ∧
      (flt f m s = true → dipCurve f t x m = fsub f s (fmul f d (fdiv f u (fadd f (fone f) u))))) ∧
    (¬ (inside ∧ flt f fzero d = true) → dipCurve f t x m = if flt f m t = true then t else m) ∧
    (isNaN f m = true ∨ isNaN f t = true → dipCurve f t x m = m)) ∧
  (∀ (f : Fmt) (top x m : Elem),
    let inside := flt f fzero x = true ∧ flt f x (fone f) = true
    let s := fmul f x top
    let d := fsub f top s
    let u := fdiv f (fsub f m s) d
    (inside → flt f fzero d = true →
      (flt f s m = false → peakCurve f top x m = m) ∧
      (flt f s m = true → peakCurve f top x m = fadd f s (fmul f d (fdiv f u (fadd f (fone f) u))))) ∧
    (¬ (inside ∧ flt f fzero d = true) → peakCurve f top x m = if flt f top m = true then top else m) ∧
    (isNaN f m = true ∨ isNaN f top = true → peakCurve f top x m = m)) ∧
  (∀ (f : Fmt) (gain x m : Elem),
    flatCurve f gain x m = fadd f (fmul f x m) (fmul f (fsub f (fone f) x) gain) ∧
    (isFinite f gain = true → isFinite f m = true →
      feq f (flatCurve f gain (fone f) m) m = true ∧ feq f (flatCurve f gain fzero m) gain = true))

/-- The machine's limiter curves follow the ideal ones (R238, R239): on the near side of the start level the dip curve is
finite and within a few units in the last place of the ideal curve, and so is the peak curve where neither its ratio nor its
result overflows. The ideal curves meet the identity at the start level with slope 1 on both sides, and stay on their side
of the bound (R248, in exact arithmetic). -/
def Obligations.CurvesFollowIdeal : Prop :=
  (∀ (f : Fmt) (t x m : Elem) (c : ℝ → ℝ),
    let s := fdiv f t x
    let d := fsub f s t
    isFinite f t = true → isFinite f s = true → flt f fzero x = true → flt f x (fone f) = true → flt f fzero d = true →
    isFinite f m = true → 0 ≤ toRat f m → flt f m s = true → IdealDip (toRat f s) (toRat f d) c →
      isFinite f (dipCurve f t x m) = true ∧
        NearCurve f (toRat f s) (toRat f (dipCurve f t x m)) (c (toRat f m))) ∧
  (∀ (f : Fmt) (top x m : Elem) (c : ℝ → ℝ),
    let s := fmul f x top
    let d := fsub f top s
    isFinite f top = true → flt f fzero x = true → flt f x (fone f) = true → flt f fzero d = true →
    isFinite f m = true → flt f s m = true → isFinite f (fdiv f (fsub f m s) d) = true →
    isFinite f (peakCurve f top x m) = true → IdealPeak (toRat f s) (toRat f d) c →
      NearCurve f (toRat f top) (toRat f (peakCurve f top x m)) (c (toRat f m))) ∧
  (∀ (s d : ℝ) (c : ℝ → ℝ), 0 < d →
    (IdealDip s d c → HasDerivAt c 1 s ∧ (∀ m, s - d < c m) ∧ (∀ m, s ≤ m → c m = m) ∧ ∀ m < s, m < c m) ∧
    (IdealPeak s d c → HasDerivAt c 1 s ∧ (∀ m, c m < s + d) ∧ (∀ m ≤ s, c m = m) ∧ ∀ m, s < m → c m < m))

/-- The two reserved rows raise `E_ILLEGAL(w0)` with the control word that selects them, and change nothing else (R262). -/
def Obligations.ReservedRows : Prop :=
  ∀ (s : State) (o : MsOpts) (n a b : Word),
    Raises s (exec (.msDipLegacy o n a b) s) .illegal (controlOf (.msDipLegacy o n a b)).toNat ∧
    Raises s (exec (.msPeakLegacy o n a b) s) .illegal (controlOf (.msPeakLegacy o n a b)).toNat ∧
    field (controlOf (.msDipLegacy o n a b)) 15 0 =
      0x8031 + 2 ^ 8 * o.nopad.toNat + 2 ^ 9 * o.mexp.toNat + 2 ^ 13 * o.pm.toNat + 2 ^ 14 * o.pr.toNat ∧
    field (controlOf (.msPeakLegacy o n a b)) 15 0 =
      0x8032 + 2 ^ 8 * o.nopad.toNat + 2 ^ 9 * o.mexp.toNat + 2 ^ 13 * o.pm.toNat + 2 ^ 14 * o.pr.toNat

/-! ## Faults -/

/-- What an `E_ALLOC` leaves (R184, R287): the ranges the command would have written, `TW_N` old or new, `LOGLIM` old or 1
for the commands that can set it (log 7), everything else as fault entry leaves it. -/
def Obligations.AllocLeaves : Prop :=
  (∀ (s : State) (n a : Word), ∀ i ∈ [Instr.fftFwd n a, .fftInv n a],
    n ≠ 0 → a.toNat % 2 = 0 → a.toNat + 2 * n.toNat ≤ s.cfg.dmSize → s.cfg.rmax < lpf n.toNat →
      ∃ t, exec i s = .next t ∧ AllocEntry s t (lpf n.toNat) ∧ BytesKept s t a.toNat (2 * n.toNat) ∧
        (t.twN = s.twN ∨ t.twN = n) ∧ t.loglim = s.loglim) ∧
  (∀ (s t : State) (o : HdOpts) (n a b : Word), ∀ i ∈ [Instr.hdDec o n a b, .hdDech o n a b],
    exec i s = .next t → s.fault = false → t.fault = true → t.fcode = .alloc →
      (∃ info, AllocEntry s t info) ∧ OutputsOnly s t o b.toNat n.toNat ∧
        (t.twN = s.twN ∨ t.twN = BitVec.ofNat 32 (fsize n.toNat o.nopad o.mexp)) ∧
        (s.loglim = true → t.loglim = true)) ∧
  (∀ (s t : State) (o : MsOpts) (n a b : Word), ∀ i ∈ [Instr.msDip o n a b, .msPeak o n a b, .msFlat o n a b],
    exec i s = .next t → s.fault = false → t.fault = true → t.fcode = .alloc →
      (∃ info, AllocEntry s t info) ∧ BytesKept s t b.toNat n.toNat ∧
        (t.twN = s.twN ∨ t.twN = BitVec.ofNat 32 (fsize n.toNat o.nopad o.mexp)) ∧
        (s.loglim = true → t.loglim = true))

/-- Fault entry and precision (R283, R286): what taking a fault writes, with its information word and its code as `STATUS`
numbers it; that a step which faults takes one fault in this way, the fetch's own where the fetch fails; that the four
precise faults write nothing else; that the engine then fetches nothing; and the interrupt. -/
def Obligations.FaultEntry : Prop :=
  (∀ (s : State) (p : Trap) (w : Wreck),
    let t := s.takeFault p w
    t.faultCp = s.cp ∧ t.faultInfo.toNat = p.info % 2 ^ 32 ∧ t.fcode = p.code ∧ t.fault = true ∧ t.run = false ∧
    field t.status 11 8 = p.code.code ∧ t.cp = s.cp ∧
    (p.code ≠ .alloc → t = { s with
      faultCp := s.cp, faultInfo := BitVec.ofNat 32 p.info, fcode := p.code, fault := true, run := false })) ∧
  [FCode.none, .illegal, .size, .addr, .alloc, .fetch].map FCode.code = [0, 1, 2, 3, 4, 5] ∧
  (∀ s t : State, s.run = true → s.inbox = [] → s.fault = false → step s = .next t → t.fault = true →
    (∃ p w, p.code ≠ .none ∧ t = { s.takeFault p w with draws := s.draws + 1 } ∧ ∀ q, s.fetch = .error q → p = q) ∧
    t.faultCp = s.cp ∧ t.fcode ≠ .none ∧ t.run = false ∧ t.cp = s.cp ∧
    t.done = s.done ∧ t.ie = s.ie ∧ t.regs = s.regs ∧ t.slatch = s.slatch ∧ t.cm = s.cm ∧
    (t.fcode ≠ .alloc → t = { s with
      draws := s.draws + 1, faultCp := s.cp, faultInfo := t.faultInfo, fcode := t.fcode, fault := true, run := false }) ∧
    step t = .next t ∧ (bit s.ie 2 = true → t.irq = true))

/-- A fault is a function of the descriptor, `CP` and the configuration (R289): two states that agree on these fetch the same
command or take the same fault, and a command takes the same fault or none. -/
def Obligations.FaultsFromDescriptor : Prop :=
  (∀ s s' : State, s.cfg = s'.cfg → s.cp = s'.cp → s.fetched = s'.fetched → s.fetch = s'.fetch) ∧
  (∀ (i : Instr) (s s' t t' : State), s.cfg = s'.cfg → s.cp = s'.cp → s.fault = false → s'.fault = false →
    exec i s = .next t → exec i s' = .next t' →
      t.fault = t'.fault ∧ t.cp = t'.cp ∧
        (t.fault = true → t.fcode = t'.fcode ∧ t.faultInfo = t'.faultInfo ∧ t.faultCp = t'.faultCp))

/-- Return from a fault (R292): the host's write of `STATUS` bit 2 clears `FAULT` and `FCODE` and nothing else, and the next
start is accepted and fetches at the faulting descriptor; before it, a start is ignored. -/
def Obligations.FaultReturn : Prop :=
  ∀ (s : State) (rest : List HostMove), s.fault = true → s.run = false →
    (s.inbox = .write .regs 0x04 1 :: rest → step s = .next { s with inbox := rest, draws := s.draws + 1 }) ∧
    (s.inbox = .write .regs 0x08 4 :: .write .regs 0x04 1 :: rest →
      core.run 2 s = .next { s with
        fault := false, fcode := .none, done := false, run := true, inbox := rest, draws := s.draws + 2 })

/-! ## Whole-machine rules -/

/-- `CP` (R35): every command that completes moves it by 4, a fault leaves it, and nothing but the host (while `RUN = 0`)
and reset sets it to another value. -/
def Obligations.CommandPointer : Prop :=
  ∀ s t : State, step s = .next t →
    (EngineTurn s → s.fault = false → t.cp = if t.fault then s.cp else s.cp + 4) ∧
    (t.cp ≠ s.cp → (EngineTurn s ∧ t.cp = s.cp + 4) ∨ (s.run = false ∧ ∃ w, HostWrites s 0x10 w ∧ t.cp = w) ∨ Resets s)

/-- `RUN` (R37): set by an accepted start, cleared by `END` or a fault (or reset, R320), changed by nothing else. `DONE` (R38):
set by `END`, cleared by an accepted start or by a write of `STATUS` with bit 1 (or reset), changed by nothing else; no
command's result depends on it. -/
def Obligations.RunAndDone : Prop :=
  (∀ s t : State, step s = .next t →
      (s.run = false ∧ t.run = true ↔ AcceptedStart s) ∧
      (s.run = true → t.run = false → EngineRuns s .endList ∨ (EngineTurn s ∧ t.fault = true ∧ t.faultCp = s.cp) ∨ Resets s) ∧
      (EngineRuns s .endList → t.run = false) ∧
      (s.fault = false → t.fault = true → t.run = false)) ∧
  ((∀ s t : State, step s = .next t →
      (s.done = false → t.done = true → EngineRuns s .endList) ∧ (EngineRuns s .endList → t.done = true) ∧
      (s.done = true → t.done = false → AcceptedStart s ∨ (∃ w, HostWrites s 0x08 w ∧ bit w 1 = true) ∨ Resets s) ∧
      (AcceptedStart s → t.done = false) ∧
      (∀ w, HostWrites s 0x08 w → bit w 1 = true → t.done = false)) ∧
    (∀ (i : Instr) (s t : State) (d : Bool), exec i s = .next t →
      ∃ e, exec i { s with done := d } = .next { t with done := e }))

/-- `FAULT` and `FCODE` (R39): set together by a fault, cleared together by a write of `STATUS` with bit 2 (or reset, R320),
which leaves `FAULT_CP` and `FAULT_INFO`; a start is ignored meanwhile. `FAULT_CP` and `FAULT_INFO` (R43): written only by
a fault, kept until the next fault or reset; the host's writes are ignored. No command's result depends on these bits. -/
def Obligations.FaultState : Prop :=
  (∀ s t : State, step s = .next t →
      (s.fault = false → t.fault = true → EngineTurn s ∧ t.fcode ≠ .none ∧ t.faultCp = s.cp) ∧
      (s.fault = true → t.fault = false →
        (t.fcode = .none ∧ t.faultCp = s.faultCp ∧ t.faultInfo = s.faultInfo ∧ ∃ w, HostWrites s 0x08 w ∧ bit w 2 = true) ∨
          Resets s) ∧
      (∀ w, HostWrites s 0x08 w → bit w 2 = true → t.fault = false ∧ t.fcode = .none) ∧
      (∀ w, HostWrites s 0x04 w → s.fault = true → t.run = s.run ∧ t.done = s.done)) ∧
  (∀ s t : State, step s = .next t →
      (t.faultCp ≠ s.faultCp ∨ t.faultInfo ≠ s.faultInfo →
        (EngineTurn s ∧ t.fault = true ∧ t.faultCp = s.cp ∧ t.run = false) ∨ Resets s) ∧
      (∀ off ∈ [0x14, 0x18], ∀ w, HostWrites s off w →
        t = { s with inbox := s.inbox.tail, draws := s.draws + 1 })) ∧
  (∀ (i : Instr) (s t : State) (x : Bool) (c : FCode), exec i s = .next t →
    ∃ y d, exec i { s with fault := x, fcode := c } = .next { t with fault := y, fcode := d })

/-- `LOGLIM` is sticky: only a write of `STATUS` with bit 3, or reset, clears it; only the commands that take a logarithm
set it (a linear-phase one only where an `E_ALLOC` leaves the bit open, log 7). -/
def Obligations.LoglimBit : Prop :=
  ∀ s t : State, step s = .next t →
    (s.loglim = true → t.loglim = false → (∃ w, HostWrites s 0x08 w ∧ bit w 3 = true) ∨ Resets s) ∧
    (∀ w, HostWrites s 0x08 w → bit w 3 = true → t.loglim = false) ∧
    (s.loglim = false → t.loglim = true → ∃ i, EngineRuns s i ∧
      ((∃ n a, i = .cepLog n a) ∨
        (∃ o n a b, i ∈ [Instr.hdDec o n a b, .hdDech o n a b]) ∨
        ∃ o n a b, i ∈ [Instr.msDip o n a b, .msPeak o n a b, .msFlat o n a b] ∧ (o.pm = true ∨ t.fcode = .alloc)))

/-- Nothing a command computes depends on the cache key (R45); and two states that agree on the configuration, `S`, `CP`, `DM`
and the model's own draw index (DESIGN CHOICE, log 5) go to states that agree on `S`, `CP` and `DM`, whatever else they
hold: the status bits (R38 to R40), `CM` (R72), what ran before (R187). -/
def Obligations.CommandsRead : Prop :=
  (∀ (i : Instr) (s t : State) (x : Word), exec i s = .next t →
      ∃ y, exec i { s with twN := x } = .next { t with twN := y }) ∧
  (∀ (i : Instr) (s s' t t' : State),
      s.cfg = s'.cfg → s.regs = s'.regs → s.cp = s'.cp → s.dm = s'.dm → s.draws = s'.draws →
      exec i s = .next t → exec i s' = .next t' → t.regs = t'.regs ∧ t.cp = t'.cp ∧ t.dm = t'.dm)

/-- What no command changes: `CM`, `IE`, `SLATCH`, the configuration and the host's fields; and the one scalar register a
`SETS` or `MS.RMS` names. -/
def Obligations.CommandFrame : Prop :=
  ∀ (i : Instr) (s t : State), exec i s = .next t →
    t.cm = s.cm ∧ t.ie = s.ie ∧ t.slatch = s.slatch ∧ t.cfg = s.cfg ∧
    t.draws = s.draws ∧ t.inbox = s.inbox ∧ t.hostData = s.hostData ∧
    (i ≠ .endList → t.done = s.done) ∧
    (∀ r : SReg, t.sreg r ≠ s.sreg r → (∃ lo hi, i = .sets (BitVec.ofNat 4 r.val) lo hi) ∨ (r = 10 ∧ ∃ n a, i = .msRms n a))

/-- A run ends (R330): with the host silent, every run reaches `RUN = 0` by `END` or a fault within `CMSIZE div 4` commands
and one fetch, `CP` strictly increasing on the way. -/
def Obligations.RunEnds : Prop :=
  ∀ s : State, s.cfg.Ok → s.run = true → s.fault = false → s.inbox = [] →
    (∃ k ≤ s.cfg.cmSize / 4 + 1, ∃ t, core.run k s = .next t ∧ t.run = false ∧ (t.done = true ∨ t.fault = true)) ∧
    (∀ k t u, core.run k s = .next t → step t = .next u → t.run = true → u.fault = false → t.cp.toNat < u.cp.toNat)

/-- Every step keeps the invariant. -/
def Obligations.InvStep : Prop := ∀ s t : State, Inv s → step s = .next t → Inv t

/-- The invariant holds at reset (at the values the model names there, logs 1 to 3). -/
def Obligations.InvReset : Prop := Inv State.reset

/-! ## Encoding -/

/-- Decoding an encoded well-formed instruction gives it back, and the bytes after it. -/
def Obligations.DecodeEncode : Prop :=
  ∀ (i : Instr) (rest : List Byte), i.wellFormed = true → decode (encodeBytes i ++ rest) = .ok (i, rest)

/-- The control words with a meaning are those the table of R103 describes field by field; every other one raises
`E_ILLEGAL(w0)` and changes nothing else (R106, R107). -/
def Obligations.IllegalControlWords : Prop :=
  (∀ w0 w1 w2 w3, LegalControl w0 ↔ ∃ i, decodeWords w0 w1 w2 w3 = .ok i ∧ ¬ Legacy i) ∧
  (∀ (s : State) (w0 : Word), s.run = true → s.inbox = [] → s.fetchOk = true → wordOf s.fetched = w0 → ¬ LegalControl w0 →
    step s = .next { s with
      draws := s.draws + 1
      faultCp := s.cp, faultInfo := w0, fcode := .illegal, fault := true, run := false })

/-- Ignored words (R108): the words R103 marks with a dash never reach the instruction, and `w3` of a `SETS` has no effect
on a binary32 engine. -/
def Obligations.IgnoredWords : Prop :=
  (∀ w0 w1 w2 w3 v1 v2 v3, field w0 7 0 = 0x00 ∨ field w0 7 0 = 0x01 →
    decodeWords w0 w1 w2 w3 = decodeWords w0 v1 v2 v3) ∧
  (∀ w0 w1 w2 w3 v1, field w0 7 0 = 0x02 → decodeWords w0 w1 w2 w3 = decodeWords w0 v1 w2 w3) ∧
  (∀ w0 w1 w2 w3 v3, field w0 7 0 ∈ [0x10, 0x11, 0x12, 0x13, 0x20, 0x21, 0x22, 0x30] →
    decodeWords w0 w1 w2 w3 = decodeWords w0 w1 w2 v3) ∧
  (∀ (s : State) (i : BitVec 4) (lo hi hi' : Word), s.cfg.fmt = .binary32 → i.toNat ≤ 10 →
    exec (.sets i lo hi) s = exec (.sets i lo hi') s)

/-- No control word selects two rows of the opcode table; and the control word of a decoded instruction is the word it was
decoded from, so no bit of it is dropped. -/
def Obligations.OpcodeRows : Prop :=
  (opcodeTable.Pairwise fun r r' => ∀ w : Word, ¬ (r.selects w = true ∧ r'.selects w = true)) ∧
  (∀ w0 w1 w2 w3 i, decodeWords w0 w1 w2 w3 = .ok i → controlOf i = w0)

/-- Words of R114 decode to the commands the table names. -/
def Obligations.WordsDecode : Prop :=
  decodeWords 0x00140002 0 0x00000000 0x3FE00000 = .ok (.sets 5 0 0x3FE00000) ∧
  decodeWords 0x00000013 8 0x00000020 0 = .ok (.fftInvP2 8 0x20) ∧
  decodeWords 0x00030228 4 0 16 = .ok (.hdDec ⟨false, 1, true, true⟩ 4 0 16) ∧
  decodeWords 0x00010129 3 0 8 = .ok (.hdDech ⟨true, 0, true, false⟩ 3 0 8) ∧
  decodeWords 0x00006131 2 0 8 = .ok (.msDip ⟨true, 0, true, true⟩ 2 0 8) ∧
  decodeWords 0x00002033 4 0 0 = .ok (.msFlat ⟨false, 0, true, false⟩ 4 0 0)

/-! ## Numerics -/

/-- The five basic operations on finite operands are the exact results rounded to nearest, ties to even, with gradual
underflow and overflow to infinity (R131). The special values of R132: a NaN operand gives a NaN, in the elementary
functions too (in `fpow` unless the exponent is a zero or the base 1, which R134 decides: DEDUCED, log 11); the invalid operations give a NaN; a finite non-zero value over a zero is an infinity of the product of the
signs. And the other operations on infinities, as IEEE 754 has them (R131). -/
def Obligations.BasicOpsRounded : Prop :=
  (∀ (f : Fmt) (a b : Elem), isFinite f a = true → isFinite f b = true →
      let x : ℝ := (toRat f a : ℝ)
      let y : ℝ := (toRat f b : ℝ)
      Rounds f (x + y) (fadd f a b) ∧ Rounds f (x - y) (fsub f a b) ∧ Rounds f (x * y) (fmul f a b) ∧
        (isZero f b = false → Rounds f (x / y) (fdiv f a b))) ∧
  (∀ (f : Fmt) (a : Elem), isFinite f a = true → 0 ≤ toRat f a → Rounds f (Real.sqrt (toRat f a)) (fsqrt f a)) ∧
  (∀ (f : Fmt) (a b : Elem), isNaN f a = true ∨ isNaN f b = true →
      (∀ op ∈ [fadd f, fsub f, fmul f, fdiv f, fatan2 f], isNaN f (op a b) = true) ∧
      (isZero f b = false → feq f a (fone f) = false → isNaN f (fpow f a b) = true)) ∧
  (∀ (f : Fmt) (a : Elem), isNaN f a = true → ∀ op ∈ [fsqrt f, flog f, fexp f, fsin f, fcos f], isNaN f (op a) = true) ∧
  (∀ (f : Fmt) (a b : Elem), isInf f a = true → isInf f b = true →
      isNaN f (if signOf f a = signOf f b then fsub f a b else fadd f a b) = true ∧ isNaN f (fdiv f a b) = true ∧
      (if signOf f a = signOf f b then fadd f a b else fsub f a b) = finf f (signOf f a) ∧
      fmul f a b = finf f (signOf f a != signOf f b)) ∧
  (∀ (f : Fmt) (a b : Elem), isZero f a = true →
      (isInf f b = true → isNaN f (fmul f a b) = true ∧ isNaN f (fmul f b a) = true) ∧
      (isZero f b = true → isNaN f (fdiv f a b) = true) ∧
      (isFinite f b = true → isZero f b = false → fdiv f b a = finf f (signOf f b != signOf f a))) ∧
  (∀ (f : Fmt) (a : Elem), flt f a fzero = true → isNaN f (fsqrt f a) = true) ∧
  (∀ (f : Fmt) (a b : Elem), isInf f a = true → isFinite f b = true →
      fadd f a b = finf f (signOf f a) ∧ fadd f b a = finf f (signOf f a) ∧
      fsub f a b = finf f (signOf f a) ∧ fsub f b a = finf f (!signOf f a) ∧
      fdiv f a b = finf f (signOf f a != signOf f b) ∧ isZero f (fdiv f b a) = true ∧
      (isZero f b = false →
        fmul f a b = finf f (signOf f a != signOf f b) ∧ fmul f b a = finf f (signOf f a != signOf f b)) ∧
      (signOf f a = false → fsqrt f a = finf f false))

/-- `i2f` (R136): correctly rounded for every 32-bit integer, and exact as far as the rule says. -/
def Obligations.IntegerConversion : Prop :=
  ∀ k : Nat, k < 2 ^ 32 →
    (∀ f, Rounds f (k : ℝ) (i2f f k)) ∧ toRat .binary64 (i2f .binary64 k) = k ∧
      (k ≤ 2 ^ 24 → toRat .binary32 (i2f .binary32 k) = k)

/-- The exact-value properties of R134 (the encoding of the value nearest to π is log 12; the statement is of the value). -/
def Obligations.ExactValues : Prop :=
  ∀ f : Fmt,
    let negZero := pack f true 0
    flog f (fone f) = fzero ∧
    fexp f fzero = fone f ∧ fexp f negZero = fone f ∧
    fcos f fzero = fone f ∧ fcos f negZero = fone f ∧
    fsin f fzero = fzero ∧ fsin f negZero = negZero ∧
    (∀ x, flt f fzero x = true ∨ x = fzero → fatan2 f fzero x = fzero) ∧
    (∀ x, flt f fzero x = true → fatan2 f negZero x = negZero) ∧
    (∀ x, flt f x fzero = true → isFinite f (fatan2 f fzero x) = true ∧
      ∀ y, isFinite f y = true →
        |(toRat f (fatan2 f fzero x) : ℝ) - Real.pi| ≤ |(toRat f y : ℝ) - Real.pi|) ∧
    (∀ x, fpow f x fzero = fone f ∧ fpow f x negZero = fone f ∧ fpow f (fone f) x = fone f) ∧
    (∀ x, flt f x fzero = true → isNaN f (flog f x) = true) ∧
    flog f fzero = finf f true ∧ flog f negZero = finf f true

/-- The clamped logarithm (R143, R144): the notice exactly at the values at or below zero, a NaN's logarithm a NaN without
one, and the clamp at the smallest positive normal value. -/
def Obligations.ClampedLog : Prop :=
  ∀ (f : Fmt) (x : Elem),
    ((logc f x).2 = true ↔ isNaN f x = false ∧ (isZero f x = true ∨ signOf f x = true)) ∧
    ((logc f x).2 = true → (logc f x).1 = flog f (minpos f)) ∧ ((logc f x).2 = false → (logc f x).1 = flog f x) ∧
    (isNaN f x = true → isNaN f (logc f x).1 = true) ∧
    isFinite f (minpos f) = true ∧
    toRat f (minpos f) = (match f with | .binary64 => 1 / 2 ^ 1022 | .binary32 => 1 / 2 ^ 126)

/-- `cmul` (R138): its definition, and that by `1` and by `-1` it gives the value and its negation, up to the sign of a zero
part; `cabs` (R139): its definition, its values at zeros and at `(3, 4)`, and that it is never negative and never `-0`. -/
def Obligations.ComplexNumerics : Prop :=
  (∀ (f : Fmt) (z w : Cx),
      cmul f z w = ⟨fsub f (fmul f z.re w.re) (fmul f z.im w.im), fadd f (fmul f z.re w.im) (fmul f z.im w.re)⟩ ∧
      (isFinite f z.re = true → isFinite f z.im = true →
        feq f (cmul f z ⟨fone f, fzero⟩).re z.re = true ∧ feq f (cmul f z ⟨fone f, fzero⟩).im z.im = true ∧
        feq f (cmul f z ⟨fneg f (fone f), fzero⟩).re (fneg f z.re) = true ∧
        feq f (cmul f z ⟨fneg f (fone f), fzero⟩).im (fneg f z.im) = true)) ∧
  (∀ f : Fmt,
      (∀ z, cabs f z = fsqrt f (fadd f (fmul f z.re z.re) (fmul f z.im z.im))) ∧
      (∀ z : Cx, isZero f z.re = true → isZero f z.im = true → cabs f z = fzero) ∧
      cabs f ⟨i2f f 3, i2f f 4⟩ = i2f f 5 ∧
      (∀ z, isNaN f (cabs f z) = true ∨ signOf f (cabs f z) = false))

/-- `spf`, `lpf` (R161), `ispow2` and `nextpow2` (R162); the transform size, whose two readings give the same number, and the
fault of a command whose transform size reaches `2^31` (R163). -/
def Obligations.IntegerHelpers : Prop :=
  ((∀ n, 2 ≤ n → spf n = n.minFac ∧ (spf n = n ↔ n.Prime) ∧
      lpf n = max (spf n) (lpf (n / spf n)) ∧ (lpf n).Prime ∧ lpf n ∣ n ∧ ∀ p, p.Prime → p ∣ n → p ≤ lpf n) ∧
    lpf 1 = 1 ∧
    (∀ n, ispow2 n = true ↔ ∃ q, n = 2 ^ q) ∧
    (∀ n, 1 ≤ n → ispow2 (nextpow2 n) = true ∧ n ≤ nextpow2 n ∧ ∀ p, ispow2 p = true → n ≤ p → nextpow2 n ≤ p)) ∧
  (∀ (n : Nat) (e : BitVec 4), 1 ≤ n →
      fsize n true e = n ∧ fsize n false e = nextpow2 n * 2 ^ e.toNat ∧ fsize n false e = nextpow2 (n * 2 ^ e.toNat) ∧
        n ≤ fsize n false e ∧ ispow2 (fsize n false e) = true) ∧
  (∀ (s : State) (n a b : Word) (nopad : Bool) (e : BitVec 4) (p q : Bool),
      n ≠ 0 → 2 ^ 31 ≤ fsize n.toNat nopad e →
        ∀ i ∈ [Instr.hdDec ⟨nopad, e, p, q⟩ n a b, .hdDech ⟨nopad, e, p, q⟩ n a b, .msDip ⟨nopad, e, p, q⟩ n a b,
          .msPeak ⟨nopad, e, p, q⟩ n a b, .msFlat ⟨nopad, e, p, q⟩ n a b], Raises s (exec i s) .size n.toNat)

/-- `rev` (R164): its recursion, that it is a permutation, that it is bit reversal for powers of two, and its values for
6. -/
def Obligations.DigitReversal : Prop :=
  (∀ n k, 2 ≤ n → k < n → rev k n = k % spf n * (n / spf n) + rev (k / spf n) (n / spf n)) ∧ rev 0 1 = 0 ∧
  (∀ n, 1 ≤ n → ((List.range n).map fun k => rev k n).Perm (List.range n)) ∧
  (∀ q k b, k < 2 ^ q → b < q → (rev k (2 ^ q)).testBit b = k.testBit (q - 1 - b)) ∧
  (List.range 6).map (fun k => rev k 6) = [0, 3, 1, 4, 2, 5]

/-! ## The host's side -/

/-- `STATUS` (R36): its fields, its zero bits, and the write-1-to-clear of its bits 3 to 1; `IRQ` (R52): the level function of
`STATUS` and `IE`. -/
def Obligations.StatusAndInterrupt : Prop :=
  (∀ (s : State) (w : Word),
      s.regRead 0x08 = s.status ∧
      bit s.status 0 = s.run ∧ bit s.status 1 = s.done ∧ bit s.status 2 = s.fault ∧ bit s.status 3 = s.loglim ∧
      field s.status 7 4 = 0 ∧ field s.status 31 12 = 0 ∧ field s.status 11 8 = s.fcode.code ∧
      s.regWrite 0x08 w = { s with
        done := s.done && !bit w 1
        fault := s.fault && !bit w 2
        fcode := if bit w 2 then .none else s.fcode
        loglim := s.loglim && !bit w 3 }) ∧
  (∀ s : State, s.irq = true ↔ ∃ b ∈ [1, 2, 3], bit s.status b = true ∧ bit s.ie b = true)

/-- `CTRL` (R41): it reads 0, an accepted start clears `DONE` and sets `RUN`, no other write has an effect; the read-only
configuration registers (R46): what they read, and that writes are ignored. And the rest of the block (R47): the reads of
`IE`, `CP`, `FAULT_CP`, `FAULT_INFO` and `TWSIZE`; a write of `IE` keeps bits 3:1 and one of `CP` while `RUN = 0` takes
effect; the others are read-only; an offset of no register reads 0 and ignores writes; and a host's word access is one step
that does this and no more (its draw index apart, log 5). -/
def Obligations.RegisterBlock : Prop :=
  (∀ (s : State) (w : Word),
      s.regRead 0x04 = 0 ∧
      (bit w 0 = true → s.run = false → s.fault = false → s.regWrite 0x04 w = { s with done := false, run := true }) ∧
      (bit w 0 = false ∨ s.run = true ∨ s.fault = true → s.regWrite 0x04 w = s)) ∧
  (∀ (s : State) (w : Word),
      let cap := fun v : Nat => if v < 2 ^ 32 then BitVec.ofNat 32 v else 0xFFFFFFFF#32
      s.regRead 0x00 = 0x44464501 ∧ s.regRead 0x20 = cap s.cfg.dmSize ∧ s.regRead 0x24 = cap s.cfg.cmSize ∧
      s.regRead 0x28 = cap s.cfg.wcap ∧ s.regRead 0x2C = cap s.cfg.rmax ∧
      s.regRead 0x30 = (match s.cfg.fmt with | .binary64 => 0 | .binary32 => 1) ∧
      ∀ off ∈ [0x00, 0x20, 0x24, 0x28, 0x2C, 0x30], s.regWrite off w = s) ∧
  (∀ (s : State) (w : Word),
      s.regRead 0x0C = s.ie ∧ s.regRead 0x10 = s.cp ∧ s.regRead 0x14 = s.faultCp ∧ s.regRead 0x18 = s.faultInfo ∧
      s.regRead 0x1C = s.twN ∧
      s.regWrite 0x0C w = { s with ie := (s.regWrite 0x0C w).ie } ∧
      (∀ b, bit (s.regWrite 0x0C w).ie b = true ↔ bit w b = true ∧ b ∈ [1, 2, 3]) ∧
      (s.run = false → s.regWrite 0x10 w = { s with cp := w }) ∧
      ∀ off ∈ [0x14, 0x18, 0x1C], s.regWrite off w = s) ∧
  (∀ (s : State) (w : Word) (off : Nat), 0x34 ≤ off → off < 0x40 ∨ 0x98 ≤ off → s.regRead off = 0 ∧ s.regWrite off w = s) ∧
  (∀ (s : State) (w : Word) (off : Nat) (rest : List HostMove), off % 4 = 0 →
      (s.inbox = .write .regs off w :: rest →
        step s = .next { s.regWrite off w with inbox := rest, draws := s.draws + 1 }) ∧
      (s.inbox = .read .regs off :: rest →
        step s = .next { s with hostData := s.regRead off, inbox := rest, draws := s.draws + 1 }))

/-- Host writes during a run (R54): those of `CP` and of the `S` windows are dropped, those of `IE` and the
write-1-to-clear of `STATUS` are accepted. Reads return the current values. -/
def Obligations.WritesDuringRun : Prop :=
  ∀ (s : State) (w : Word), s.run = true →
    s.regWrite 0x10 w = s ∧
    (∀ off, 0x40 ≤ off → off < 0x98 → off % 4 = 0 → s.regWrite off w = s) ∧
    s.regWrite 0x0C w = { s with ie := w &&& 0xE#32 } ∧
    (s.regWrite 0x08 w).done = (s.done && !bit w 1) ∧ (s.regWrite 0x08 w).fault = (s.fault && !bit w 2) ∧
    (s.regWrite 0x08 w).loglim = (s.loglim && !bit w 3) ∧
    ∀ off rest, off % 4 = 0 → s.inbox = .read .regs off :: rest →
      step s = .next { s with hostData := s.regRead off, inbox := rest, draws := s.draws + 1 }

/-- The windows of the scalar registers (R48), low word then high word, and their reads. -/
def Obligations.ScalarWindows : Prop :=
  ∀ (s : State) (i : SReg) (lo hi : Word), s.run = false →
    let t := (s.regWrite (0x40 + 8 * i.val) lo).regWrite (0x44 + 8 * i.val) hi
    (s.cfg.fmt = .binary64 →
      s.regWrite (0x40 + 8 * i.val) lo = { s with slatch := lo } ∧
      t = { s with slatch := lo, regs := s.regs.set i.val (hi ++ lo) } ∧
      t.regRead (0x40 + 8 * i.val) = lo ∧ t.regRead (0x44 + 8 * i.val) = hi) ∧
    (s.cfg.fmt = .binary32 →
      t = { s with regs := s.regs.set i.val (lo.setWidth 64) } ∧
      t.regRead (0x40 + 8 * i.val) = lo ∧ t.regRead (0x44 + 8 * i.val) = 0)

/-- The apertures (R77): a word of `CM`, an element of `DM` as one word or as two, low half first, each half changed alone,
bytes little-endian. -/
def Obligations.ApertureLayout : Prop :=
  ∀ (s : State) (w : Word) (c : Nat),
    ((s.putWord .cm (4 * c) w).hostWord .cm (4 * c) = w ∧
      ∀ d, d ≠ c → (s.putWord .cm (4 * c) w).hostWord .cm (4 * d) = s.hostWord .cm (4 * d)) ∧
    (s.cfg.fmt = .binary32 →
      s.hostWord .dm (4 * c) = (s.dmElem c).setWidth 32 ∧
      (s.putWord .dm (4 * c) w).dmElem c = w.setWidth 64 ∧
      ∀ d, d ≠ c → (s.putWord .dm (4 * c) w).dmElem d = s.dmElem d) ∧
    (s.cfg.fmt = .binary64 →
      s.hostWord .dm (8 * c) = (s.dmElem c).extractLsb' 0 32 ∧ s.hostWord .dm (8 * c + 4) = (s.dmElem c).extractLsb' 32 32 ∧
      (s.putWord .dm (8 * c) w).dmElem c = (s.dmElem c).extractLsb' 32 32 ++ w ∧
      (s.putWord .dm (8 * c + 4) w).dmElem c = w ++ (s.dmElem c).extractLsb' 0 32 ∧
      ∀ d, d ≠ c → (s.putWord .dm (8 * c) w).dmElem d = s.dmElem d ∧ (s.putWord .dm (8 * c + 4) w).dmElem d = s.dmElem d) ∧
    ∀ r ∈ [Region.dm, .cm], ∀ j < 4, s.apertureByte r (4 * c + j) = (s.hostWord r (4 * c)).extractLsb' (8 * j) 8

/-- A host's access to a memory, by words and by bytes (R77): where `RUN = 0` and the place exists, a write stores these bytes
and changes no other, and a read returns what stands there, neither with another effect (the draw index apart, log 5);
during a run it is refused (R323). That an access beyond the aperture faults, and a misaligned word access or a byte access
to the register block is refused, is the model's choice (DESIGN CHOICE, log 16). -/
def Obligations.MemoryAccess : Prop :=
  (∀ (s : State) (r : Region) (off : Nat) (w : Word) (rest : List HostMove), r ∈ [Region.dm, .cm] → off % 4 = 0 →
    let size := if r = .dm then s.cfg.dmSize * fbytes s.cfg.fmt else s.cfg.cmSize * 4
    (s.run = true → s.inbox = .write r off w :: rest ∨ s.inbox = .read r off :: rest →
      step s = .refused (.memoryAccessDuringRun r off)) ∧
    (s.run = false → off + 4 ≤ size →
      (s.inbox = .write r off w :: rest →
        step s = .next { s.putWord r off w with inbox := rest, draws := s.draws + 1 }) ∧
      (s.inbox = .read r off :: rest →
        step s = .next { s with hostData := s.hostWord r off, inbox := rest, draws := s.draws + 1 })) ∧
    (s.run = false → size < off + 4 → s.inbox = .write r off w :: rest ∨ s.inbox = .read r off :: rest →
      step s = .fault (.outsideAperture r off))) ∧
  (∀ (s : State) (r : Region) (off : Nat) (b : Byte) (rest : List HostMove), r ∈ [Region.dm, .cm] →
    let size := if r = .dm then s.cfg.dmSize * fbytes s.cfg.fmt else s.cfg.cmSize * 4
    (s.run = true → s.inbox = .writeByte r off b :: rest ∨ s.inbox = .readByte r off :: rest →
      step s = .refused (.memoryAccessDuringRun r off)) ∧
    (s.run = false → off < size →
      (s.inbox = .writeByte r off b :: rest →
        step s = .next { s.putBytes r off [b] with inbox := rest, draws := s.draws + 1 }) ∧
      (s.inbox = .readByte r off :: rest →
        step s = .next { s with
          hostData := (s.apertureByte r off).setWidth 32, inbox := rest, draws := s.draws + 1 })) ∧
    (s.run = false → size ≤ off → s.inbox = .writeByte r off b :: rest ∨ s.inbox = .readByte r off :: rest →
      step s = .fault (.outsideAperture r off))) ∧
  (∀ (s : State) (r : Region) (off : Nat) (w : Word) (b : Byte), r ∈ [Region.dm, .cm] →
    (∀ t ∈ [s.putWord r off w, s.putBytes r off [b]], t = (if r = .dm then { s with dm := t.dm } else { s with cm := t.cm })) ∧
    (s.putWord r off w).hostWord r off = w ∧
    ∀ x,
      (x < off ∨ off + 4 ≤ x → (s.putWord r off w).apertureByte r x = s.apertureByte r x) ∧
      (s.putBytes r off [b]).apertureByte r x = if x = off then b else s.apertureByte r x) ∧
  (∀ (s : State) (r : Region) (off : Nat) (w : Word) (b : Byte) (rest : List HostMove),
    (off % 4 ≠ 0 → s.inbox = .write r off w :: rest ∨ s.inbox = .read r off :: rest →
      step s = .refused (.accessShape r off)) ∧
    (s.inbox = .writeByte .regs off b :: rest ∨ s.inbox = .readByte .regs off :: rest →
      step s = .refused (.accessShape .regs off)))

/-- Reset (R320, R321), at any time, also during a run. That the scalar registers and `SLATCH` then hold zeros and that the
memories list nothing are the model's choices (logs 2, 3, 17). -/
def Obligations.ResetMove : Prop :=
  ∀ (s : State) (rest : List HostMove), s.inbox = .reset :: rest →
    ∃ t, step s = .next t ∧ t.cp = 0 ∧ t.run = false ∧ t.done = false ∧ t.fault = false ∧ t.loglim = false ∧
      t.fcode = .none ∧ t.ie = 0 ∧ t.faultCp = 0 ∧ t.faultInfo = 0 ∧ t.twN = 0 ∧ t.irq = false ∧ t.status = 0 ∧
      t.cfg = s.cfg ∧ t.dm = [] ∧ t.cm = [] ∧ t.slatch = 0 ∧ (∀ i, t.sreg i = 0) ∧ t.inbox = rest
end

