-- ==== Sys2Proof/Laws/Bytes.lean ====
section
/-! SUPPORT. Little-endian bytes and numbers. -/

namespace Sys2Proof

@[simp] theorem length_leBytes (k v : Nat) : (leBytes k v).length = k := by
  induction k generalizing v with
  | zero => rfl
  | succ k ih => simp [leBytes, ih]

/-- The bytes of a number give it back, below their range. -/
theorem leNat_leBytes (k v : Nat) : leNat (leBytes k v) = v % 256 ^ k := by
  induction k generalizing v with
  | zero => simp [leBytes, leNat, Nat.mod_one]
  | succ k ih =>
    simp only [leBytes, leNat, ih, BitVec.toNat_ofNat]
    rw [show 256 ^ (k + 1) = 256 * 256 ^ k from Nat.pow_succ', Nat.mod_mul]

theorem leNat_lt (bs : List Byte) : leNat bs < 256 ^ bs.length := by
  induction bs with
  | nil => simp [leNat]
  | cons b bs ih =>
    have := b.isLt
    simp only [leNat, List.length_cons, Nat.pow_succ']
    omega

/-- A word is the number of its bytes. -/
theorem wordOf_leBytes_append (w : Word) (bs : List Byte) : wordOf (leBytes 4 w.toNat ++ bs) = w := by
  have h : (leBytes 4 w.toNat ++ bs).take 4 = leBytes 4 w.toNat := by
    rw [List.take_append_of_le_length (by simp), List.take_of_length_le (by simp)]
  rw [wordOf, h, leNat_leBytes]
  have := w.isLt
  apply BitVec.eq_of_toNat_eq
  simp only [BitVec.toNat_ofNat]
  omega

/-- Dropping the bytes of a word. -/
theorem drop_leBytes_append (v : Nat) (bs : List Byte) : (leBytes 4 v ++ bs).drop 4 = bs := by
  rw [List.drop_append_of_le_length (by simp), List.drop_of_length_le (by simp), List.nil_append]

/-- Decoding four words laid out in bytes, with any bytes after them. -/
theorem decode_wordBytes (w0 w1 w2 w3 : Word) (rest : List Byte) :
    decode (wordBytes [w0, w1, w2, w3] ++ rest) = (decodeWords w0 w1 w2 w3).map fun i => (i, rest) := by
  have e : wordBytes [w0, w1, w2, w3] ++ rest =
      leBytes 4 w0.toNat ++ (leBytes 4 w1.toNat ++ (leBytes 4 w2.toNat ++ (leBytes 4 w3.toNat ++ rest))) := by
    simp [wordBytes, List.append_assoc]
  have d (bs : List Byte) (n v : Nat) : (leBytes 4 v ++ bs).drop (n + 4) = bs.drop n := by
    rw [Nat.add_comm, ← List.drop_drop, drop_leBytes_append]
  have hl : ¬ (wordBytes [w0, w1, w2, w3] ++ rest).length < 16 := by rw [e]; simp; omega
  rw [decode, if_neg hl, e]
  simp only [wordOf_leBytes_append, d _ 0, d _ 4, d _ 8, d _ 12, List.drop_zero]

end Sys2Proof
end

