-- ==== Sys2Proof/Laws/Float.lean ====
section
/-! SUPPORT. Every operation answers an element of its format: its bits above the format's width are zero. -/

namespace Sys2Proof.Machine

/-- An element of the format: `binary32` uses the low 32 bits only (log 30). -/
abbrev Narrow (f : Fmt) (x : Elem) : Prop := x.toNat < 2 ^ fwidth f

theorem narrow_of_Narrow {f : Fmt} {x : Elem} (h : Narrow f x) : narrow f x = x := by
  apply BitVec.eq_of_toNat_eq
  simp only [narrow, BitVec.toNat_ofNat, Nat.mod_eq_of_lt h]
  exact Nat.mod_eq_of_lt x.isLt

theorem Narrow_narrow (f : Fmt) (x : Elem) : Narrow f (narrow f x) := by
  have h : x.toNat % 2 ^ fwidth f < 2 ^ fwidth f := Nat.mod_lt _ (by positivity)
  exact lt_of_le_of_lt (by simpa [narrow] using Nat.mod_le _ _) h

theorem Narrow_fzero (f : Fmt) : Narrow f fzero := by cases f <;> decide

theorem Narrow_fone (f : Fmt) : Narrow f (fone f) := by cases f <;> decide

theorem Narrow_fpi (f : Fmt) : Narrow f (fpi f) := by cases f <;> decide

theorem bodyOf_lt (f : Fmt) (x : Elem) : bodyOf f x < 2 ^ (fwidth f - 1) := Nat.mod_lt _ (by positivity)

/-- A packed element has its body. -/
theorem bodyOf_pack {f : Fmt} {neg : Bool} {body : Nat} (h : body < 2 ^ (fwidth f - 1)) :
    bodyOf f (pack f neg body) = body := by
  cases f <;> cases neg <;> simp [bodyOf, pack, fwidth] at h ⊢ <;> omega

/-- A packed element has its sign. -/
theorem signOf_pack {f : Fmt} {neg : Bool} {body : Nat} (h : body < 2 ^ (fwidth f - 1)) :
    signOf f (pack f neg body) = neg := by
  cases f <;> cases neg <;>
    simp [signOf, pack, fwidth, BitVec.getLsbD, BitVec.toNat_ofNat, Nat.testBit_eq_decide_div_mod_eq] at h ⊢ <;> omega

@[simp] theorem bodyOf_fneg (f : Fmt) (x : Elem) : bodyOf f (fneg f x) = bodyOf f x := bodyOf_pack (bodyOf_lt f x)

@[simp] theorem signOf_fneg (f : Fmt) (x : Elem) : signOf f (fneg f x) = !signOf f x := signOf_pack (bodyOf_lt f x)

/-- A packed element is one of the format. -/
theorem Narrow_pack {f : Fmt} {neg : Bool} {body : Nat} (h : body < 2 ^ (fwidth f - 1)) : Narrow f (pack f neg body) := by
  cases f <;> cases neg <;> simp [Narrow, pack, fwidth] at h ⊢ <;> omega

theorem infBody_lt (f : Fmt) : infBody f < 2 ^ (fwidth f - 1) := by cases f <;> decide

theorem roundBody_le (f : Fmt) (n d : Nat) : roundBody f n d ≤ infBody f := min_le_right _ _

theorem Narrow_round (f : Fmt) (neg : Bool) (n d : Nat) : Narrow f (pack f neg (roundBody f n d)) :=
  Narrow_pack (lt_of_le_of_lt (roundBody_le f n d) (infBody_lt f))

theorem Narrow_zero (f : Fmt) (neg : Bool) : Narrow f (pack f neg 0) := Narrow_pack (by positivity)

theorem Narrow_finf (f : Fmt) (neg : Bool) : Narrow f (finf f neg) := Narrow_pack (infBody_lt f)

/-- The body of a free NaN: above infinity, below the sign bit. -/
theorem nanBody_lt (f : Fmt) (t : Nat) (h : t < 2 ^ fracBits f) :
    infBody f + (if t = 0 then 1 else t) < 2 ^ (fwidth f - 1) := by
  cases f <;> simp only [infBody, expOnes, fracBits, fwidth] at h ⊢ <;> split <;> omega

theorem Narrow_nanOf (f : Fmt) (src : NanSource) (a b : Elem) : Narrow f (nanOf f src a b) :=
  Narrow_pack (nanBody_lt f _ (Nat.mod_lt _ (by positivity)))

theorem Narrow_fneg (f : Fmt) (x : Elem) : Narrow f (fneg f x) := Narrow_pack (bodyOf_lt f x)

theorem Narrow_addAs (src : NanSource) (f : Fmt) (a b : Elem) : Narrow f (addAs src f a b) := by
  unfold addAs
  split
  · exact Narrow_nanOf ..
  split
  · split
    · exact Narrow_nanOf ..
    · exact Narrow_finf ..
  split
  · exact Narrow_finf ..
  · dsimp only; split
    · exact Narrow_zero ..
    · exact Narrow_round ..

theorem Narrow_fadd (f : Fmt) (a b : Elem) : Narrow f (fadd f a b) := Narrow_addAs ..

theorem Narrow_fsub (f : Fmt) (a b : Elem) : Narrow f (fsub f a b) := Narrow_addAs ..

theorem Narrow_fmul (f : Fmt) (a b : Elem) : Narrow f (fmul f a b) := by
  unfold fmul
  dsimp only
  split
  · exact Narrow_nanOf ..
  split
  · split
    · exact Narrow_nanOf ..
    · exact Narrow_finf ..
  · exact Narrow_round ..

theorem Narrow_fdiv (f : Fmt) (a b : Elem) : Narrow f (fdiv f a b) := by
  unfold fdiv
  dsimp only
  split
  · exact Narrow_nanOf ..
  split
  · split
    · exact Narrow_nanOf ..
    · exact Narrow_finf ..
  split
  · exact Narrow_zero ..
  split
  · split
    · exact Narrow_nanOf ..
    · exact Narrow_finf ..
  · exact Narrow_round ..

theorem Narrow_fsqrt (f : Fmt) (a : Elem) : Narrow f (fsqrt f a) := by
  unfold fsqrt
  split
  · exact Narrow_nanOf ..
  split
  · exact Narrow_zero ..
  split
  · exact Narrow_nanOf ..
  split
  · exact Narrow_finf ..
  · exact Narrow_round ..

theorem Narrow_i2f (f : Fmt) (k : Nat) : Narrow f (i2f f k) := Narrow_round ..

theorem Narrow_openFinite (f : Fmt) (v : Elem) : Narrow f (openFinite f v) := by
  unfold openFinite
  split
  · exact Narrow_narrow ..
  · exact Narrow_fzero f

/-- An open value that accuracy makes finite is finite. -/
theorem isFinite_openFinite (f : Fmt) (v : Elem) : isFinite f (openFinite f v) = true := by
  unfold openFinite
  split
  · assumption
  · cases f <;> decide

theorem Narrow_flog (f : Fmt) (x : Elem) : Narrow f (flog f x) := by
  unfold flog
  split
  · exact Narrow_nanOf ..
  split
  · exact Narrow_finf ..
  split
  · exact Narrow_nanOf ..
  split
  · exact Narrow_finf ..
  split
  · exact Narrow_fzero f
  · exact Narrow_openFinite ..

theorem Narrow_fexp (f : Fmt) (x : Elem) : Narrow f (fexp f x) := by
  unfold fexp
  split
  · exact Narrow_nanOf ..
  split
  · exact Narrow_fone f
  split
  · exact Narrow_finf ..
  split
  · exact Narrow_narrow ..
  · exact Narrow_openFinite ..

/-- The exponential of a finite operand that does not overflow is finite (log 32). -/
theorem isFinite_fexp (f : Fmt) (x : Elem) (hx : isFinite f x = true) (ht : flt f (expTop f) x = false) :
    isFinite f (fexp f x) = true := by
  have hn : isNaN f x = false := by simp only [isFinite, isNaN, decide_eq_true_eq, decide_eq_false_iff_not] at *; omega
  have hi : isInf f x = false := by simp only [isFinite, isInf, decide_eq_true_eq, beq_eq_false_iff_ne] at *; omega
  unfold fexp
  rw [if_neg (by simp [hn])]
  split
  · cases f <;> decide
  rw [if_neg (by simp [ht]), if_neg (by simp [hi])]
  exact isFinite_openFinite ..

theorem Narrow_fsin (f : Fmt) (x : Elem) : Narrow f (fsin f x) := by
  unfold fsin
  split
  · exact Narrow_nanOf ..
  split
  · exact Narrow_zero ..
  split
  · exact Narrow_narrow ..
  · exact Narrow_openFinite ..

theorem Narrow_fcos (f : Fmt) (x : Elem) : Narrow f (fcos f x) := by
  unfold fcos
  split
  · exact Narrow_nanOf ..
  split
  · exact Narrow_fone f
  split
  · exact Narrow_narrow ..
  · exact Narrow_openFinite ..

/-- A complex value of the format. -/
abbrev NarrowCx (f : Fmt) (z : Cx) : Prop := Narrow f z.re ∧ Narrow f z.im

theorem NarrowCx_cmul (f : Fmt) (z w : Cx) : NarrowCx f (cmul f z w) := ⟨Narrow_fsub .., Narrow_fadd ..⟩

theorem NarrowCx_cdivr (f : Fmt) (z : Cx) (r : Elem) : NarrowCx f (cdivr f z r) := ⟨Narrow_fdiv .., Narrow_fdiv ..⟩

theorem NarrowCx_polar (f : Fmt) (r t : Elem) : NarrowCx f (polar f r t) := ⟨Narrow_fmul .., Narrow_fmul ..⟩

theorem NarrowCx_cexp (f : Fmt) (z : Cx) : NarrowCx f (cexp f z) := NarrowCx_polar ..

theorem NarrowCx_czero (f : Fmt) : NarrowCx f czero := ⟨Narrow_fzero f, Narrow_fzero f⟩

/-- The clamped logarithm, with its notice, answers an element of the format. -/
theorem Narrow_logc (f : Fmt) (x : Elem) : Narrow f (logc f x).1 := by
  unfold logc
  split <;> exact Narrow_flog ..

/-- A NaN result is a NaN (R132). -/
theorem isNaN_nanOf (f : Fmt) (src : NanSource) (a b : Elem) : isNaN f (nanOf f src a b) = true := by
  have ht : (Config.nanBits src f a b).toNat % 2 ^ fracBits f < 2 ^ fracBits f := Nat.mod_lt _ (by positivity)
  have hb := nanBody_lt f _ ht
  have hp : infBody f < infBody f +
      (if (Config.nanBits src f a b).toNat % 2 ^ fracBits f = 0 then 1
        else (Config.nanBits src f a b).toNat % 2 ^ fracBits f) := by split <;> omega
  simp only [isNaN, nanOf, bodyOf_pack hb, decide_eq_true_eq]
  exact hp

/-- A comparison with a NaN is false (R14). -/
theorem flt_of_isNaN {f : Fmt} {a b : Elem} (h : isNaN f a = true ∨ isNaN f b = true) : flt f a b = false := by
  rcases h with h | h <;> simp [flt, ordered, h]

end Sys2Proof.Machine
end

