-- ==== Sys2Proof/Laws/Memory.lean ====
section
/-! SUPPORT. The memory as a list of cells: what a store and a forget read back as, and that both keep the canonical
form. -/

namespace Sys2Proof.Machine

/-! ## Reading -/

@[simp] theorem Memory.get?_nil (a : Nat) : Memory.get? [] a = none := rfl

theorem Memory.get?_cons (c : Host.Cell) (m : Memory) (a : Nat) :
    Memory.get? (c :: m) a = if c.1 = a then some c.2 else Memory.get? m a := rfl

/-- Reading an appended list reads the first part, then the second. -/
theorem Memory.get?_append (m k : Memory) (a : Nat) :
    Memory.get? (m ++ k) a = (Memory.get? m a).or (Memory.get? k a) := by
  induction m with
  | nil => simp
  | cons c m ih => by_cases h : c.1 = a <;> simp [Memory.get?_cons, h, ih]

/-- A filter that keeps every cell of an address keeps what it reads as. -/
theorem Memory.get?_filter_of_keep (m : Memory) (p : Nat → Bool) (a : Nat) (h : p a = true) :
    Memory.get? (m.filter fun c => p c.1) a = Memory.get? m a := by
  induction m with
  | nil => rfl
  | cons c m ih =>
    by_cases hc : c.1 = a
    · simp [Memory.get?_cons, hc, h]
    · by_cases hp : p c.1 <;> simp [Memory.get?_cons, hc, hp, ih]

/-- A filter that drops the cells of an address leaves nothing there. -/
theorem Memory.get?_filter_of_drop (m : Memory) (p : Nat → Bool) (a : Nat) (h : p a = false) :
    Memory.get? (m.filter fun c => p c.1) a = none := by
  induction m with
  | nil => rfl
  | cons c m ih =>
    by_cases hp : p c.1
    · have hc : c.1 ≠ a := fun e => by simp [e, h] at hp
      simp [Memory.get?_cons, hc, hp, ih]
    · simp [hp, ih]

/-! ## Consecutive cells -/

theorem Memory.get?_cellsAt (a : Nat) (bs : List Byte) (x : Nat) :
    Memory.get? (cellsAt a bs) x = if a ≤ x then bs[x - a]? else none := by
  induction bs generalizing a with
  | nil => simp [cellsAt]
  | cons b bs ih =>
    by_cases h : a = x
    · subst h; simp [cellsAt, Memory.get?_cons]
    · by_cases hx : a ≤ x
      · have hx' : a + 1 ≤ x := by omega
        have e : x - a = x - (a + 1) + 1 := by omega
        simp [cellsAt, Memory.get?_cons, h, ih, hx, hx', e]
      · have hx' : ¬ a + 1 ≤ x := by omega
        simp [cellsAt, Memory.get?_cons, h, ih, hx, hx']

/-- A cell of consecutive bytes lies in their range. -/
theorem mem_cellsAt {a : Nat} {bs : List Byte} {c : Host.Cell} (h : c ∈ cellsAt a bs) :
    a ≤ c.1 ∧ c.1 < a + bs.length := by
  induction bs generalizing a with
  | nil => simp [cellsAt] at h
  | cons b bs ih =>
    simp only [cellsAt, List.mem_cons] at h
    rcases h with rfl | h
    · simp
    · have := ih h; simp only [List.length_cons]; omega

theorem cellsAt_wf (a : Nat) (bs : List Byte) : (cellsAt a bs).wf := by
  induction bs generalizing a with
  | nil => simp [cellsAt]
  | cons b bs ih =>
    refine List.pairwise_cons.2 ⟨fun c hc => ?_, ih _⟩
    have := mem_cellsAt hc; simp only; omega

/-! ## Stores and forgets -/

/-- A stored byte reads as stored. -/
theorem Memory.get?_store_inside (m : Memory) {a x : Nat} {bs : List Byte} (h : a ≤ x) (h' : x < a + bs.length) :
    (m.store a bs).get? x = bs[x - a]? := by
  have h1 : Memory.get? (m.filter fun c => decide (c.1 < a)) x = none :=
    Memory.get?_filter_of_drop m (fun y => decide (y < a)) x (by simpa using h)
  have hlt : x - a < bs.length := by omega
  simp only [Memory.store, Memory.get?_append, h1, Memory.get?_cellsAt, h, if_true]
  simp [List.getElem?_eq_getElem hlt]

/-- A store leaves every other byte. -/
theorem Memory.get?_store_outside (m : Memory) {a x : Nat} {bs : List Byte} (h : x < a ∨ a + bs.length ≤ x) :
    (m.store a bs).get? x = m.get? x := by
  have hc : (cellsAt a bs).get? x = none := by
    rw [Memory.get?_cellsAt]
    split
    · exact List.getElem?_eq_none (by omega)
    · rfl
  rcases h with h | h
  · have h1 := Memory.get?_filter_of_keep m (fun y => decide (y < a)) x (by simpa using h)
    have h2 := Memory.get?_filter_of_drop m (fun y => decide (a + bs.length ≤ y)) x (by simp; omega)
    simp only [Memory.store, Memory.get?_append, h1, h2, hc]; simp
  · have h1 := Memory.get?_filter_of_drop m (fun y => decide (y < a)) x (by simp; omega)
    have h2 := Memory.get?_filter_of_keep m (fun y => decide (a + bs.length ≤ y)) x (by simpa using h)
    simp only [Memory.store, Memory.get?_append, h1, h2, hc]; simp

/-- A forgotten byte is not listed. -/
theorem Memory.get?_forget_inside (m : Memory) {a n x : Nat} (h : a ≤ x) (h' : x < a + n) :
    (m.forget a n).get? x = none :=
  Memory.get?_filter_of_drop m (fun y => decide (y < a) || decide (a + n ≤ y)) x (by simp; omega)

/-- A forget leaves every other byte. -/
theorem Memory.get?_forget_outside (m : Memory) {a n x : Nat} (h : x < a ∨ a + n ≤ x) :
    (m.forget a n).get? x = m.get? x :=
  Memory.get?_filter_of_keep m (fun y => decide (y < a) || decide (a + n ≤ y)) x (by simp; omega)

/-! ## The canonical form -/

theorem Memory.wf_store {m : Memory} (h : m.wf) (a : Nat) (bs : List Byte) : (m.store a bs).wf := by
  unfold Memory.store Memory.wf
  rw [List.pairwise_append, List.pairwise_append]
  refine ⟨⟨List.Pairwise.filter _ h, cellsAt_wf a bs, ?_⟩, List.Pairwise.filter _ h, ?_⟩
  · intro c hc d hd
    have := mem_cellsAt hd
    have := (List.mem_filter.1 hc).2
    simp only [decide_eq_true_eq] at this; omega
  · intro c hc d hd
    have hd' := (List.mem_filter.1 hd).2
    simp only [decide_eq_true_eq] at hd'
    rcases List.mem_append.1 hc with hc | hc
    · have := (List.mem_filter.1 hc).2
      simp only [decide_eq_true_eq] at this; omega
    · have := mem_cellsAt hc; omega

theorem Memory.wf_forget {m : Memory} (h : m.wf) (a n : Nat) : (m.forget a n).wf := List.Pairwise.filter _ h

theorem Memory.within_store {m : Memory} {n a : Nat} {bs : List Byte} (h : m.within n) (hb : a + bs.length ≤ n) :
    (m.store a bs).within n := by
  intro c hc
  simp only [Memory.store, List.mem_append] at hc
  rcases hc with (hc | hc) | hc
  · exact h c (List.mem_filter.1 hc).1
  · have := mem_cellsAt hc; omega
  · exact h c (List.mem_filter.1 hc).1

theorem Memory.within_forget {m : Memory} {n : Nat} (h : m.within n) (a k : Nat) : (m.forget a k).within n :=
  fun c hc => h c (List.mem_filter.1 hc).1

theorem forgetRanges_wf {f : Fmt} {m : Memory} (h : m.wf) (rs : List (Nat × Nat)) : (forgetRanges f m rs).wf := by
  induction rs generalizing m with
  | nil => exact h
  | cons r rs ih => exact ih (Memory.wf_forget h _ _)

theorem forgetRanges_within {f : Fmt} {m : Memory} {n : Nat} (h : m.within n) (rs : List (Nat × Nat)) :
    (forgetRanges f m rs).within n := by
  induction rs generalizing m with
  | nil => exact h
  | cons r rs ih => exact ih (Memory.within_forget h _ _)

/-- Forgetting ranges leaves every byte outside all of them. -/
theorem get?_forgetRanges_outside {f : Fmt} (m : Memory) {rs : List (Nat × Nat)} {x : Nat}
    (h : ∀ r ∈ rs, x < r.1 * fbytes f ∨ r.1 * fbytes f + r.2 * fbytes f ≤ x) :
    (forgetRanges f m rs).get? x = m.get? x := by
  induction rs generalizing m with
  | nil => rfl
  | cons r rs ih =>
    have hr := ih (m.forget (r.1 * fbytes f) (r.2 * fbytes f)) fun q hq => h q (List.mem_cons_of_mem _ hq)
    exact hr.trans (Memory.get?_forget_outside m (h r (List.mem_cons_self ..)))

end Sys2Proof.Machine
end

