-- ==== Sys2Proof/Laws/State.lean ====
section
/-! SUPPORT. What each update of the state does to each field, and what it leaves. -/

namespace Sys2Proof.Machine

/-! ## `CP <- CP + 4` -/

@[simp] theorem State.advance_cfg (s : State) : s.advance.cfg = s.cfg := rfl
@[simp] theorem State.advance_regs (s : State) : s.advance.regs = s.regs := rfl
@[simp] theorem State.advance_cp (s : State) : s.advance.cp = s.cp + 4 := rfl
@[simp] theorem State.advance_run (s : State) : s.advance.run = s.run := rfl
@[simp] theorem State.advance_done (s : State) : s.advance.done = s.done := rfl
@[simp] theorem State.advance_fault (s : State) : s.advance.fault = s.fault := rfl
@[simp] theorem State.advance_loglim (s : State) : s.advance.loglim = s.loglim := rfl
@[simp] theorem State.advance_fcode (s : State) : s.advance.fcode = s.fcode := rfl
@[simp] theorem State.advance_ie (s : State) : s.advance.ie = s.ie := rfl
@[simp] theorem State.advance_faultCp (s : State) : s.advance.faultCp = s.faultCp := rfl
@[simp] theorem State.advance_faultInfo (s : State) : s.advance.faultInfo = s.faultInfo := rfl
@[simp] theorem State.advance_twN (s : State) : s.advance.twN = s.twN := rfl
@[simp] theorem State.advance_slatch (s : State) : s.advance.slatch = s.slatch := rfl
@[simp] theorem State.advance_dm (s : State) : s.advance.dm = s.dm := rfl
@[simp] theorem State.advance_cm (s : State) : s.advance.cm = s.cm := rfl
@[simp] theorem State.advance_draws (s : State) : s.advance.draws = s.draws := rfl
@[simp] theorem State.advance_inbox (s : State) : s.advance.inbox = s.inbox := rfl
@[simp] theorem State.advance_hostData (s : State) : s.advance.hostData = s.hostData := rfl

/-! ## `TW_N` -/

@[simp] theorem State.cacheSize_cfg (s : State) (n : Nat) : (s.cacheSize n).cfg = s.cfg := rfl
@[simp] theorem State.cacheSize_regs (s : State) (n : Nat) : (s.cacheSize n).regs = s.regs := rfl
@[simp] theorem State.cacheSize_cp (s : State) (n : Nat) : (s.cacheSize n).cp = s.cp := rfl
@[simp] theorem State.cacheSize_run (s : State) (n : Nat) : (s.cacheSize n).run = s.run := rfl
@[simp] theorem State.cacheSize_done (s : State) (n : Nat) : (s.cacheSize n).done = s.done := rfl
@[simp] theorem State.cacheSize_fault (s : State) (n : Nat) : (s.cacheSize n).fault = s.fault := rfl
@[simp] theorem State.cacheSize_loglim (s : State) (n : Nat) : (s.cacheSize n).loglim = s.loglim := rfl
@[simp] theorem State.cacheSize_fcode (s : State) (n : Nat) : (s.cacheSize n).fcode = s.fcode := rfl
@[simp] theorem State.cacheSize_ie (s : State) (n : Nat) : (s.cacheSize n).ie = s.ie := rfl
@[simp] theorem State.cacheSize_faultCp (s : State) (n : Nat) : (s.cacheSize n).faultCp = s.faultCp := rfl
@[simp] theorem State.cacheSize_faultInfo (s : State) (n : Nat) : (s.cacheSize n).faultInfo = s.faultInfo := rfl
@[simp] theorem State.cacheSize_twN (s : State) (n : Nat) : (s.cacheSize n).twN = BitVec.ofNat 32 n := rfl
@[simp] theorem State.cacheSize_slatch (s : State) (n : Nat) : (s.cacheSize n).slatch = s.slatch := rfl
@[simp] theorem State.cacheSize_dm (s : State) (n : Nat) : (s.cacheSize n).dm = s.dm := rfl
@[simp] theorem State.cacheSize_cm (s : State) (n : Nat) : (s.cacheSize n).cm = s.cm := rfl
@[simp] theorem State.cacheSize_draws (s : State) (n : Nat) : (s.cacheSize n).draws = s.draws := rfl
@[simp] theorem State.cacheSize_inbox (s : State) (n : Nat) : (s.cacheSize n).inbox = s.inbox := rfl
@[simp] theorem State.cacheSize_hostData (s : State) (n : Nat) : (s.cacheSize n).hostData = s.hostData := rfl

/-! ## `LOGLIM` -/

@[simp] theorem State.notice_cfg (s : State) (g : Bool) : (s.notice g).cfg = s.cfg := rfl
@[simp] theorem State.notice_regs (s : State) (g : Bool) : (s.notice g).regs = s.regs := rfl
@[simp] theorem State.notice_cp (s : State) (g : Bool) : (s.notice g).cp = s.cp := rfl
@[simp] theorem State.notice_run (s : State) (g : Bool) : (s.notice g).run = s.run := rfl
@[simp] theorem State.notice_done (s : State) (g : Bool) : (s.notice g).done = s.done := rfl
@[simp] theorem State.notice_fault (s : State) (g : Bool) : (s.notice g).fault = s.fault := rfl
@[simp] theorem State.notice_loglim (s : State) (g : Bool) : (s.notice g).loglim = (s.loglim || g) := rfl
@[simp] theorem State.notice_fcode (s : State) (g : Bool) : (s.notice g).fcode = s.fcode := rfl
@[simp] theorem State.notice_ie (s : State) (g : Bool) : (s.notice g).ie = s.ie := rfl
@[simp] theorem State.notice_faultCp (s : State) (g : Bool) : (s.notice g).faultCp = s.faultCp := rfl
@[simp] theorem State.notice_faultInfo (s : State) (g : Bool) : (s.notice g).faultInfo = s.faultInfo := rfl
@[simp] theorem State.notice_twN (s : State) (g : Bool) : (s.notice g).twN = s.twN := rfl
@[simp] theorem State.notice_slatch (s : State) (g : Bool) : (s.notice g).slatch = s.slatch := rfl
@[simp] theorem State.notice_dm (s : State) (g : Bool) : (s.notice g).dm = s.dm := rfl
@[simp] theorem State.notice_cm (s : State) (g : Bool) : (s.notice g).cm = s.cm := rfl
@[simp] theorem State.notice_draws (s : State) (g : Bool) : (s.notice g).draws = s.draws := rfl
@[simp] theorem State.notice_inbox (s : State) (g : Bool) : (s.notice g).inbox = s.inbox := rfl
@[simp] theorem State.notice_hostData (s : State) (g : Bool) : (s.notice g).hostData = s.hostData := rfl

/-! ## `S[i]` -/

@[simp] theorem State.setSreg_cfg (s : State) (i : SReg) (v : Elem) : (s.setSreg i v).cfg = s.cfg := rfl
@[simp] theorem State.setSreg_regs (s : State) (i : SReg) (v : Elem) : (s.setSreg i v).regs = s.regs.set i v := rfl
@[simp] theorem State.setSreg_cp (s : State) (i : SReg) (v : Elem) : (s.setSreg i v).cp = s.cp := rfl
@[simp] theorem State.setSreg_run (s : State) (i : SReg) (v : Elem) : (s.setSreg i v).run = s.run := rfl
@[simp] theorem State.setSreg_done (s : State) (i : SReg) (v : Elem) : (s.setSreg i v).done = s.done := rfl
@[simp] theorem State.setSreg_fault (s : State) (i : SReg) (v : Elem) : (s.setSreg i v).fault = s.fault := rfl
@[simp] theorem State.setSreg_loglim (s : State) (i : SReg) (v : Elem) : (s.setSreg i v).loglim = s.loglim := rfl
@[simp] theorem State.setSreg_fcode (s : State) (i : SReg) (v : Elem) : (s.setSreg i v).fcode = s.fcode := rfl
@[simp] theorem State.setSreg_ie (s : State) (i : SReg) (v : Elem) : (s.setSreg i v).ie = s.ie := rfl
@[simp] theorem State.setSreg_faultCp (s : State) (i : SReg) (v : Elem) : (s.setSreg i v).faultCp = s.faultCp := rfl
@[simp] theorem State.setSreg_faultInfo (s : State) (i : SReg) (v : Elem) : (s.setSreg i v).faultInfo = s.faultInfo := rfl
@[simp] theorem State.setSreg_twN (s : State) (i : SReg) (v : Elem) : (s.setSreg i v).twN = s.twN := rfl
@[simp] theorem State.setSreg_slatch (s : State) (i : SReg) (v : Elem) : (s.setSreg i v).slatch = s.slatch := rfl
@[simp] theorem State.setSreg_dm (s : State) (i : SReg) (v : Elem) : (s.setSreg i v).dm = s.dm := rfl
@[simp] theorem State.setSreg_cm (s : State) (i : SReg) (v : Elem) : (s.setSreg i v).cm = s.cm := rfl
@[simp] theorem State.setSreg_draws (s : State) (i : SReg) (v : Elem) : (s.setSreg i v).draws = s.draws := rfl
@[simp] theorem State.setSreg_inbox (s : State) (i : SReg) (v : Elem) : (s.setSreg i v).inbox = s.inbox := rfl
@[simp] theorem State.setSreg_hostData (s : State) (i : SReg) (v : Elem) : (s.setSreg i v).hostData = s.hostData := rfl

/-! ## `MemWrite` -/

@[simp] theorem State.putSignal_cfg (s : State) (a : Nat) (vs : List Elem) : (s.putSignal a vs).cfg = s.cfg := rfl
@[simp] theorem State.putSignal_regs (s : State) (a : Nat) (vs : List Elem) : (s.putSignal a vs).regs = s.regs := rfl
@[simp] theorem State.putSignal_cp (s : State) (a : Nat) (vs : List Elem) : (s.putSignal a vs).cp = s.cp := rfl
@[simp] theorem State.putSignal_run (s : State) (a : Nat) (vs : List Elem) : (s.putSignal a vs).run = s.run := rfl
@[simp] theorem State.putSignal_done (s : State) (a : Nat) (vs : List Elem) : (s.putSignal a vs).done = s.done := rfl
@[simp] theorem State.putSignal_fault (s : State) (a : Nat) (vs : List Elem) : (s.putSignal a vs).fault = s.fault := rfl
@[simp] theorem State.putSignal_loglim (s : State) (a : Nat) (vs : List Elem) : (s.putSignal a vs).loglim = s.loglim := rfl
@[simp] theorem State.putSignal_fcode (s : State) (a : Nat) (vs : List Elem) : (s.putSignal a vs).fcode = s.fcode := rfl
@[simp] theorem State.putSignal_ie (s : State) (a : Nat) (vs : List Elem) : (s.putSignal a vs).ie = s.ie := rfl
@[simp] theorem State.putSignal_faultCp (s : State) (a : Nat) (vs : List Elem) : (s.putSignal a vs).faultCp = s.faultCp := rfl
@[simp] theorem State.putSignal_faultInfo (s : State) (a : Nat) (vs : List Elem) : (s.putSignal a vs).faultInfo = s.faultInfo := rfl
@[simp] theorem State.putSignal_twN (s : State) (a : Nat) (vs : List Elem) : (s.putSignal a vs).twN = s.twN := rfl
@[simp] theorem State.putSignal_slatch (s : State) (a : Nat) (vs : List Elem) : (s.putSignal a vs).slatch = s.slatch := rfl
@[simp] theorem State.putSignal_dm (s : State) (a : Nat) (vs : List Elem) : (s.putSignal a vs).dm = s.dm.store (a * fbytes s.cfg.fmt) (vs.flatMap (elemBytes s.cfg.fmt)) := rfl
@[simp] theorem State.putSignal_cm (s : State) (a : Nat) (vs : List Elem) : (s.putSignal a vs).cm = s.cm := rfl
@[simp] theorem State.putSignal_draws (s : State) (a : Nat) (vs : List Elem) : (s.putSignal a vs).draws = s.draws := rfl
@[simp] theorem State.putSignal_inbox (s : State) (a : Nat) (vs : List Elem) : (s.putSignal a vs).inbox = s.inbox := rfl
@[simp] theorem State.putSignal_hostData (s : State) (a : Nat) (vs : List Elem) : (s.putSignal a vs).hostData = s.hostData := rfl

/-! ## `WriteC` -/

@[simp] theorem State.putCx_cfg (s : State) (a : Nat) (zs : List Cx) : (s.putCx a zs).cfg = s.cfg := rfl
@[simp] theorem State.putCx_regs (s : State) (a : Nat) (zs : List Cx) : (s.putCx a zs).regs = s.regs := rfl
@[simp] theorem State.putCx_cp (s : State) (a : Nat) (zs : List Cx) : (s.putCx a zs).cp = s.cp := rfl
@[simp] theorem State.putCx_run (s : State) (a : Nat) (zs : List Cx) : (s.putCx a zs).run = s.run := rfl
@[simp] theorem State.putCx_done (s : State) (a : Nat) (zs : List Cx) : (s.putCx a zs).done = s.done := rfl
@[simp] theorem State.putCx_fault (s : State) (a : Nat) (zs : List Cx) : (s.putCx a zs).fault = s.fault := rfl
@[simp] theorem State.putCx_loglim (s : State) (a : Nat) (zs : List Cx) : (s.putCx a zs).loglim = s.loglim := rfl
@[simp] theorem State.putCx_fcode (s : State) (a : Nat) (zs : List Cx) : (s.putCx a zs).fcode = s.fcode := rfl
@[simp] theorem State.putCx_ie (s : State) (a : Nat) (zs : List Cx) : (s.putCx a zs).ie = s.ie := rfl
@[simp] theorem State.putCx_faultCp (s : State) (a : Nat) (zs : List Cx) : (s.putCx a zs).faultCp = s.faultCp := rfl
@[simp] theorem State.putCx_faultInfo (s : State) (a : Nat) (zs : List Cx) : (s.putCx a zs).faultInfo = s.faultInfo := rfl
@[simp] theorem State.putCx_twN (s : State) (a : Nat) (zs : List Cx) : (s.putCx a zs).twN = s.twN := rfl
@[simp] theorem State.putCx_slatch (s : State) (a : Nat) (zs : List Cx) : (s.putCx a zs).slatch = s.slatch := rfl
@[simp] theorem State.putCx_dm (s : State) (a : Nat) (zs : List Cx) : (s.putCx a zs).dm = (s.putSignal a (interleave zs)).dm := rfl
@[simp] theorem State.putCx_cm (s : State) (a : Nat) (zs : List Cx) : (s.putCx a zs).cm = s.cm := rfl
@[simp] theorem State.putCx_draws (s : State) (a : Nat) (zs : List Cx) : (s.putCx a zs).draws = s.draws := rfl
@[simp] theorem State.putCx_inbox (s : State) (a : Nat) (zs : List Cx) : (s.putCx a zs).inbox = s.inbox := rfl
@[simp] theorem State.putCx_hostData (s : State) (a : Nat) (zs : List Cx) : (s.putCx a zs).hostData = s.hostData := rfl

/-! ## the return from a fault -/

@[simp] theorem State.clearFault_cfg (s : State) : s.clearFault.cfg = s.cfg := rfl
@[simp] theorem State.clearFault_regs (s : State) : s.clearFault.regs = s.regs := rfl
@[simp] theorem State.clearFault_cp (s : State) : s.clearFault.cp = s.cp := rfl
@[simp] theorem State.clearFault_run (s : State) : s.clearFault.run = s.run := rfl
@[simp] theorem State.clearFault_done (s : State) : s.clearFault.done = s.done := rfl
@[simp] theorem State.clearFault_fault (s : State) : s.clearFault.fault = false := rfl
@[simp] theorem State.clearFault_loglim (s : State) : s.clearFault.loglim = s.loglim := rfl
@[simp] theorem State.clearFault_fcode (s : State) : s.clearFault.fcode = .none := rfl
@[simp] theorem State.clearFault_ie (s : State) : s.clearFault.ie = s.ie := rfl
@[simp] theorem State.clearFault_faultCp (s : State) : s.clearFault.faultCp = s.faultCp := rfl
@[simp] theorem State.clearFault_faultInfo (s : State) : s.clearFault.faultInfo = s.faultInfo := rfl
@[simp] theorem State.clearFault_twN (s : State) : s.clearFault.twN = s.twN := rfl
@[simp] theorem State.clearFault_slatch (s : State) : s.clearFault.slatch = s.slatch := rfl
@[simp] theorem State.clearFault_dm (s : State) : s.clearFault.dm = s.dm := rfl
@[simp] theorem State.clearFault_cm (s : State) : s.clearFault.cm = s.cm := rfl
@[simp] theorem State.clearFault_draws (s : State) : s.clearFault.draws = s.draws := rfl
@[simp] theorem State.clearFault_inbox (s : State) : s.clearFault.inbox = s.inbox := rfl
@[simp] theorem State.clearFault_hostData (s : State) : s.clearFault.hostData = s.hostData := rfl

/-! ## the accepted start -/

@[simp] theorem State.start_cfg (s : State) : s.start.cfg = s.cfg := rfl
@[simp] theorem State.start_regs (s : State) : s.start.regs = s.regs := rfl
@[simp] theorem State.start_cp (s : State) : s.start.cp = s.cp := rfl
@[simp] theorem State.start_run (s : State) : s.start.run = true := rfl
@[simp] theorem State.start_done (s : State) : s.start.done = false := rfl
@[simp] theorem State.start_fault (s : State) : s.start.fault = s.fault := rfl
@[simp] theorem State.start_loglim (s : State) : s.start.loglim = s.loglim := rfl
@[simp] theorem State.start_fcode (s : State) : s.start.fcode = s.fcode := rfl
@[simp] theorem State.start_ie (s : State) : s.start.ie = s.ie := rfl
@[simp] theorem State.start_faultCp (s : State) : s.start.faultCp = s.faultCp := rfl
@[simp] theorem State.start_faultInfo (s : State) : s.start.faultInfo = s.faultInfo := rfl
@[simp] theorem State.start_twN (s : State) : s.start.twN = s.twN := rfl
@[simp] theorem State.start_slatch (s : State) : s.start.slatch = s.slatch := rfl
@[simp] theorem State.start_dm (s : State) : s.start.dm = s.dm := rfl
@[simp] theorem State.start_cm (s : State) : s.start.cm = s.cm := rfl
@[simp] theorem State.start_draws (s : State) : s.start.draws = s.draws := rfl
@[simp] theorem State.start_inbox (s : State) : s.start.inbox = s.inbox := rfl
@[simp] theorem State.start_hostData (s : State) : s.start.hostData = s.hostData := rfl

/-! ## fault entry -/

@[simp] theorem State.raise_cfg (s : State) (t : Trap) : (s.raise t).cfg = s.cfg := rfl
@[simp] theorem State.raise_regs (s : State) (t : Trap) : (s.raise t).regs = s.regs := rfl
@[simp] theorem State.raise_cp (s : State) (t : Trap) : (s.raise t).cp = s.cp := rfl
@[simp] theorem State.raise_run (s : State) (t : Trap) : (s.raise t).run = false := rfl
@[simp] theorem State.raise_done (s : State) (t : Trap) : (s.raise t).done = s.done := rfl
@[simp] theorem State.raise_fault (s : State) (t : Trap) : (s.raise t).fault = true := rfl
@[simp] theorem State.raise_loglim (s : State) (t : Trap) : (s.raise t).loglim = s.loglim := rfl
@[simp] theorem State.raise_fcode (s : State) (t : Trap) : (s.raise t).fcode = t.code := rfl
@[simp] theorem State.raise_ie (s : State) (t : Trap) : (s.raise t).ie = s.ie := rfl
@[simp] theorem State.raise_faultCp (s : State) (t : Trap) : (s.raise t).faultCp = s.cp := rfl
@[simp] theorem State.raise_faultInfo (s : State) (t : Trap) : (s.raise t).faultInfo = BitVec.ofNat 32 t.info := rfl
@[simp] theorem State.raise_twN (s : State) (t : Trap) : (s.raise t).twN = s.twN := rfl
@[simp] theorem State.raise_slatch (s : State) (t : Trap) : (s.raise t).slatch = s.slatch := rfl
@[simp] theorem State.raise_dm (s : State) (t : Trap) : (s.raise t).dm = s.dm := rfl
@[simp] theorem State.raise_cm (s : State) (t : Trap) : (s.raise t).cm = s.cm := rfl
@[simp] theorem State.raise_draws (s : State) (t : Trap) : (s.raise t).draws = s.draws := rfl
@[simp] theorem State.raise_inbox (s : State) (t : Trap) : (s.raise t).inbox = s.inbox := rfl
@[simp] theorem State.raise_hostData (s : State) (t : Trap) : (s.raise t).hostData = s.hostData := rfl

/-! ## what an `E_ALLOC` leaves -/

@[simp] theorem State.wreck_cfg (s : State) (w : Wreck) : (s.wreck w).cfg = s.cfg := rfl
@[simp] theorem State.wreck_regs (s : State) (w : Wreck) : (s.wreck w).regs = s.regs := rfl
@[simp] theorem State.wreck_cp (s : State) (w : Wreck) : (s.wreck w).cp = s.cp := rfl
@[simp] theorem State.wreck_run (s : State) (w : Wreck) : (s.wreck w).run = s.run := rfl
@[simp] theorem State.wreck_done (s : State) (w : Wreck) : (s.wreck w).done = s.done := rfl
@[simp] theorem State.wreck_fault (s : State) (w : Wreck) : (s.wreck w).fault = s.fault := rfl
@[simp] theorem State.wreck_loglim (s : State) (w : Wreck) : (s.wreck w).loglim = (s.loglim || (w.canLog && Config.freeFlag .loglim s.draws)) := rfl
@[simp] theorem State.wreck_fcode (s : State) (w : Wreck) : (s.wreck w).fcode = s.fcode := rfl
@[simp] theorem State.wreck_ie (s : State) (w : Wreck) : (s.wreck w).ie = s.ie := rfl
@[simp] theorem State.wreck_faultCp (s : State) (w : Wreck) : (s.wreck w).faultCp = s.faultCp := rfl
@[simp] theorem State.wreck_faultInfo (s : State) (w : Wreck) : (s.wreck w).faultInfo = s.faultInfo := rfl
@[simp] theorem State.wreck_twN (s : State) (w : Wreck) : (s.wreck w).twN = (if Config.freeFlag .twN s.draws then BitVec.ofNat 32 w.size else s.twN) := rfl
@[simp] theorem State.wreck_slatch (s : State) (w : Wreck) : (s.wreck w).slatch = s.slatch := rfl
@[simp] theorem State.wreck_dm (s : State) (w : Wreck) : (s.wreck w).dm = forgetRanges s.cfg.fmt s.dm w.ranges := rfl
@[simp] theorem State.wreck_cm (s : State) (w : Wreck) : (s.wreck w).cm = s.cm := rfl
@[simp] theorem State.wreck_draws (s : State) (w : Wreck) : (s.wreck w).draws = s.draws := rfl
@[simp] theorem State.wreck_inbox (s : State) (w : Wreck) : (s.wreck w).inbox = s.inbox := rfl
@[simp] theorem State.wreck_hostData (s : State) (w : Wreck) : (s.wreck w).hostData = s.hostData := rfl

/-! ## Taking a fault -/

@[simp] theorem State.takeFault_cfg (s : State) (t : Trap) (w : Wreck) : (s.takeFault t w).cfg = s.cfg := by
  unfold State.takeFault; split <;> rfl
@[simp] theorem State.takeFault_regs (s : State) (t : Trap) (w : Wreck) : (s.takeFault t w).regs = s.regs := by
  unfold State.takeFault; split <;> rfl
@[simp] theorem State.takeFault_cp (s : State) (t : Trap) (w : Wreck) : (s.takeFault t w).cp = s.cp := by
  unfold State.takeFault; split <;> rfl
@[simp] theorem State.takeFault_run (s : State) (t : Trap) (w : Wreck) : (s.takeFault t w).run = false := by
  unfold State.takeFault; split <;> rfl
@[simp] theorem State.takeFault_done (s : State) (t : Trap) (w : Wreck) : (s.takeFault t w).done = s.done := by
  unfold State.takeFault; split <;> rfl
@[simp] theorem State.takeFault_fault (s : State) (t : Trap) (w : Wreck) : (s.takeFault t w).fault = true := by
  unfold State.takeFault; split <;> rfl
@[simp] theorem State.takeFault_fcode (s : State) (t : Trap) (w : Wreck) : (s.takeFault t w).fcode = t.code := by
  unfold State.takeFault; split <;> rfl
@[simp] theorem State.takeFault_ie (s : State) (t : Trap) (w : Wreck) : (s.takeFault t w).ie = s.ie := by
  unfold State.takeFault; split <;> rfl
@[simp] theorem State.takeFault_faultCp (s : State) (t : Trap) (w : Wreck) : (s.takeFault t w).faultCp = s.cp := by
  unfold State.takeFault; split <;> rfl
@[simp] theorem State.takeFault_faultInfo (s : State) (t : Trap) (w : Wreck) : (s.takeFault t w).faultInfo = BitVec.ofNat 32 t.info := by
  unfold State.takeFault; split <;> rfl
@[simp] theorem State.takeFault_slatch (s : State) (t : Trap) (w : Wreck) : (s.takeFault t w).slatch = s.slatch := by
  unfold State.takeFault; split <;> rfl
@[simp] theorem State.takeFault_cm (s : State) (t : Trap) (w : Wreck) : (s.takeFault t w).cm = s.cm := by
  unfold State.takeFault; split <;> rfl
@[simp] theorem State.takeFault_draws (s : State) (t : Trap) (w : Wreck) : (s.takeFault t w).draws = s.draws := by
  unfold State.takeFault; split <;> rfl
@[simp] theorem State.takeFault_inbox (s : State) (t : Trap) (w : Wreck) : (s.takeFault t w).inbox = s.inbox := by
  unfold State.takeFault; split <;> rfl
@[simp] theorem State.takeFault_hostData (s : State) (t : Trap) (w : Wreck) : (s.takeFault t w).hostData = s.hostData := by
  unfold State.takeFault; split <;> rfl

/-- A fault that is no `E_ALLOC` is precise: it is the entry alone (R286). -/
theorem State.takeFault_of_ne_alloc {s : State} {t : Trap} {w : Wreck} (h : t.code ≠ .alloc) :
    s.takeFault t w = s.raise t := by
  simp [State.takeFault, h]

/-- An `E_ALLOC` is the entry after the unspecified part (R287). -/
theorem State.takeFault_of_alloc {s : State} {t : Trap} {w : Wreck} (h : t.code = .alloc) :
    s.takeFault t w = (s.wreck w).raise t := by
  simp [State.takeFault, h]

/-! ## Scalar registers -/

/-- A register just written holds what was written. -/
@[simp] theorem State.sreg_setSreg_same (s : State) (i : SReg) (v : Elem) : (s.setSreg i v).sreg i = v := by
  simp [State.sreg, State.setSreg, Vector.get_eq_getElem]

/-- Writing a register leaves the others. -/
theorem State.sreg_setSreg_of_ne (s : State) {i j : SReg} (v : Elem) (h : i ≠ j) :
    (s.setSreg i v).sreg j = s.sreg j := by
  have h' : (i : Nat) ≠ j := fun e => h (Fin.ext e)
  simp [State.sreg, State.setSreg, Vector.get_eq_getElem, h']

end Sys2Proof.Machine
end

