-- ==== Sys2Proof/Laws/Ops.lean ====
section
/-! SUPPORT. What the shared operations do, said once: storing elements and reading them, running a command, the first
failing check. -/

namespace Sys2Proof.Machine

/-! ## The bytes of elements -/

theorem fbytes_pos (f : Fmt) : 0 < fbytes f := by cases f <;> decide

theorem pow_fbytes (f : Fmt) : 256 ^ fbytes f = 2 ^ fwidth f := by cases f <;> decide

@[simp] theorem length_elemBytes (f : Fmt) (v : Elem) : (elemBytes f v).length = fbytes f := length_leBytes _ _

@[simp] theorem length_flatMap_elemBytes (f : Fmt) (vs : List Elem) :
    (vs.flatMap (elemBytes f)).length = vs.length * fbytes f := by
  induction vs with
  | nil => simp
  | cons v vs ih => rw [List.flatMap_cons, List.length_append, ih, length_elemBytes, List.length_cons, Nat.succ_mul, Nat.add_comm]

/-- Byte `j` of element `i` of a list of elements. -/
theorem getElem?_flatMap_elemBytes (f : Fmt) (vs : List Elem) (i j : Nat) (hj : j < fbytes f) (hi : i < vs.length) :
    (vs.flatMap (elemBytes f))[i * fbytes f + j]? = (elemBytes f vs[i])[j]? := by
  induction vs generalizing i with
  | nil => simp at hi
  | cons v vs ih =>
    rw [List.flatMap_cons]
    cases i with
    | zero => rw [List.getElem?_append_left (by simpa using hj)]; simp
    | succ i =>
      rw [List.getElem?_append_right (by simp [Nat.succ_mul]; omega)]
      have e : (i + 1) * fbytes f + j - (elemBytes f v).length = i * fbytes f + j := by
        simp [Nat.succ_mul]; omega
      rw [e, ih i (by simpa using hi)]
      simp

/-- An element read from memory is one of the format. -/
theorem Narrow_dmElem (s : State) (a : Nat) : Narrow s.cfg.fmt (s.dmElem a) := by
  have h := leNat_lt ((List.range (fbytes s.cfg.fmt)).map fun j => s.dmByte (a * fbytes s.cfg.fmt + j))
  rw [List.length_map, List.length_range, pow_fbytes] at h
  exact lt_of_le_of_lt (by simpa [State.dmElem] using Nat.mod_le _ _) h

/-! ## Storing and reading elements (R76) -/

/-- A stored element reads as stored. -/
theorem State.dmElem_putSignal_inside (s : State) (a : Nat) (vs : List Elem) (i : Nat) (hi : i < vs.length) :
    (s.putSignal a vs).dmElem (a + i) = narrow s.cfg.fmt vs[i] := by
  have hb : ∀ j ∈ List.range (fbytes s.cfg.fmt),
      some ((s.putSignal a vs).dmByte ((a + i) * fbytes s.cfg.fmt + j)) = (elemBytes s.cfg.fmt vs[i])[j]? := by
    intro j hj
    have hj := List.mem_range.1 hj
    have hle : i * fbytes s.cfg.fmt + j < vs.length * fbytes s.cfg.fmt := by
      have : (i + 1) * fbytes s.cfg.fmt ≤ vs.length * fbytes s.cfg.fmt := Nat.mul_le_mul_right _ hi
      rw [Nat.succ_mul] at this; omega
    have e : (a + i) * fbytes s.cfg.fmt + j - a * fbytes s.cfg.fmt = i * fbytes s.cfg.fmt + j := by
      rw [Nat.add_mul]; omega
    have hg := Memory.get?_store_inside s.dm (a := a * fbytes s.cfg.fmt) (bs := vs.flatMap (elemBytes s.cfg.fmt))
      (x := (a + i) * fbytes s.cfg.fmt + j) (by rw [Nat.add_mul]; omega)
      (by rw [Nat.add_mul, length_flatMap_elemBytes]; omega)
    rw [e, getElem?_flatMap_elemBytes _ _ _ _ hj hi] at hg
    have hlt : j < (elemBytes s.cfg.fmt vs[i]).length := by simpa using hj
    simp only [State.dmByte, State.putSignal_dm, hg, List.getElem?_eq_getElem hlt, Option.getD_some]
  have hl : (List.range (fbytes s.cfg.fmt)).map
      (fun j => (s.putSignal a vs).dmByte ((a + i) * fbytes s.cfg.fmt + j)) = elemBytes s.cfg.fmt vs[i] := by
    apply List.ext_getElem?
    intro j
    by_cases hj : j < fbytes s.cfg.fmt
    · rw [List.getElem?_map, List.getElem?_range hj, ← hb j (List.mem_range.2 hj)]; rfl
    · rw [List.getElem?_eq_none (by simpa using hj), List.getElem?_eq_none (by simpa using hj)]
  simp only [State.dmElem, State.putSignal_cfg, hl, elemBytes, leNat_leBytes, pow_fbytes, narrow]

/-- A store of elements leaves every byte outside them. -/
theorem State.putSignal_get?_outside (s : State) (a : Nat) (vs : List Elem) (x : Nat)
    (h : x < a * fbytes s.cfg.fmt ∨ (a + vs.length) * fbytes s.cfg.fmt ≤ x) :
    (s.putSignal a vs).dm.get? x = s.dm.get? x :=
  Memory.get?_store_outside s.dm (by simpa [Nat.add_mul] using h)

/-- A store of elements leaves every other element. -/
theorem State.dmElem_putSignal_outside (s : State) (a : Nat) (vs : List Elem) (x : Nat)
    (h : x < a ∨ a + vs.length ≤ x) : (s.putSignal a vs).dmElem x = s.dmElem x := by
  have hb : ∀ j ∈ List.range (fbytes s.cfg.fmt),
      (s.putSignal a vs).dmByte (x * fbytes s.cfg.fmt + j) = s.dmByte (x * fbytes s.cfg.fmt + j) := by
    intro j hj
    have hj := List.mem_range.1 hj
    have ho : x * fbytes s.cfg.fmt + j < a * fbytes s.cfg.fmt ∨
        (a + vs.length) * fbytes s.cfg.fmt ≤ x * fbytes s.cfg.fmt + j := by
      rcases h with h | h
      · left
        have : (x + 1) * fbytes s.cfg.fmt ≤ a * fbytes s.cfg.fmt := Nat.mul_le_mul_right _ h
        rw [Nat.succ_mul] at this; omega
      · right
        have : (a + vs.length) * fbytes s.cfg.fmt ≤ x * fbytes s.cfg.fmt := Nat.mul_le_mul_right _ h
        omega
    simp only [State.dmByte, State.putSignal_get?_outside s a vs _ ho]; rfl
  simp only [State.dmElem, State.putSignal_cfg, List.map_congr_left hb]

@[simp] theorem length_interleave (zs : List Cx) : (interleave zs).length = 2 * zs.length := by
  induction zs with
  | nil => rfl
  | cons z zs ih => simp only [interleave, List.flatMap_cons, List.length_append] at ih ⊢; simp [ih]; omega

theorem getElem?_interleave (zs : List Cx) (k : Nat) :
    (interleave zs)[2 * k]? = zs[k]?.map Cx.re ∧ (interleave zs)[2 * k + 1]? = zs[k]?.map Cx.im := by
  induction zs generalizing k with
  | nil => simp [interleave]
  | cons z zs ih =>
    cases k with
    | zero => simp [interleave]
    | succ k => exact ih k

/-- A stored complex value reads as stored (R74). -/
theorem State.cxAt_putCx_inside (s : State) (a : Nat) (zs : List Cx) (k : Nat) (hk : k < zs.length) :
    (s.putCx a zs).cxAt a k = ⟨narrow s.cfg.fmt zs[k].re, narrow s.cfg.fmt zs[k].im⟩ := by
  have h := getElem?_interleave zs k
  rw [List.getElem?_eq_getElem hk, List.getElem?_eq_getElem (by simp; omega),
    List.getElem?_eq_getElem (by simp; omega)] at h
  simp only [Option.map_some, Option.some.injEq] at h
  have h1 := State.dmElem_putSignal_inside s a (interleave zs) (2 * k) (by simp; omega)
  have h2 := State.dmElem_putSignal_inside s a (interleave zs) (2 * k + 1) (by simp; omega)
  rw [h.1] at h1
  rw [h.2] at h2
  simp only [State.cxAt, State.putCx, h1, Nat.add_assoc, h2]

/-- A store of complex values leaves every byte outside them. -/
theorem State.putCx_get?_outside (s : State) (a : Nat) (zs : List Cx) (x : Nat)
    (h : x < a * fbytes s.cfg.fmt ∨ (a + 2 * zs.length) * fbytes s.cfg.fmt ≤ x) :
    (s.putCx a zs).dm.get? x = s.dm.get? x :=
  State.putSignal_get?_outside s a _ x (by simpa using h)

@[simp] theorem State.length_cxBuffer (s : State) (a n : Nat) : (s.cxBuffer a n).length = n := by
  simp [State.cxBuffer]

@[simp] theorem State.getElem_cxBuffer (s : State) (a n k : Nat) (h : k < (s.cxBuffer a n).length) :
    (s.cxBuffer a n)[k] = s.cxAt a k := by
  simp [State.cxBuffer]

@[simp] theorem State.length_signal (s : State) (a n : Nat) : (s.signal a n).length = n := by simp [State.signal]

/-! ## Checks and commands -/

/-- No trap: no check fails. -/
theorem firstTrap_eq_none {cs : List (Bool × Trap)} : firstTrap cs = none ↔ ∀ c ∈ cs, c.1 = false := by
  induction cs with
  | nil => simp [firstTrap]
  | cons c cs ih => rcases c with ⟨b, t⟩; cases b <;> simp [firstTrap, ih]

/-- A trap is that of a failing check. -/
theorem mem_of_firstTrap {cs : List (Bool × Trap)} {t : Trap} (h : firstTrap cs = some t) : (true, t) ∈ cs := by
  induction cs with
  | nil => simp [firstTrap] at h
  | cons c cs ih =>
    rcases c with ⟨b, u⟩
    cases b
    · exact List.mem_cons_of_mem _ (ih (by simpa [firstTrap] using h))
    · simp only [firstTrap, if_true, Option.some.injEq] at h; subst h; exact List.mem_cons_self ..

/-- Everything a command can do: its fault, or its effect and the move of `CP`. -/
theorem State.command_cases {s t : State} {trap : Option Trap} {w : Wreck} {effect : State → State}
    (h : s.command trap w effect = .next t) :
    (∃ f, trap = some f ∧ t = s.takeFault f w) ∨ (trap = none ∧ t = (effect s).advance) := by
  cases trap with
  | none => right; simpa [State.command] using h.symm
  | some f => left; exact ⟨f, rfl, by simpa [State.command] using h.symm⟩

/-- A command always answers a next state. -/
theorem State.command_next (s : State) (trap : Option Trap) (w : Wreck) (effect : State → State) :
    ∃ t, s.command trap w effect = .next t := by
  cases trap <;> exact ⟨_, rfl⟩

@[simp] theorem State.command_none (s : State) (w : Wreck) (effect : State → State) :
    s.command none w effect = .next (effect s).advance := rfl

@[simp] theorem State.command_some (s : State) (f : Trap) (w : Wreck) (effect : State → State) :
    s.command (some f) w effect = .next (s.takeFault f w) := rfl

/-! ## When the checks pass -/

theorem fftTrap_eq_none {pow2 : Bool} {p : Params} {n a : Nat} :
    fftTrap pow2 p n a = none ↔
      n ≠ 0 ∧ (pow2 = true → ispow2 n = true) ∧ a % 2 = 0 ∧ a + 2 * n ≤ p.dmSize ∧
        (pow2 = false → lpf n ≤ p.rmax) := by
  cases pow2 <;> simp [fftTrap, firstTrap_eq_none, oddBase, outside]

theorem bufferTrap_eq_none {p : Params} {n a : Nat} :
    bufferTrap p n a = none ↔ n ≠ 0 ∧ a % 2 = 0 ∧ a + 2 * n ≤ p.dmSize := by
  simp [bufferTrap, firstTrap_eq_none, oddBase, outside]

theorem twoBufferTrap_eq_none {p : Params} {n a b : Nat} :
    twoBufferTrap p n a b = none ↔
      n ≠ 0 ∧ a % 2 = 0 ∧ a + 2 * n ≤ p.dmSize ∧ (b % 2 = 0 ∧ b + 2 * n ≤ p.dmSize) ∧
        (a + 2 * n ≤ b ∨ b + 2 * n ≤ a) := by
  simp [twoBufferTrap, firstTrap_eq_none, oddBase, outside, overlapping]
  intros; omega

theorem hdTrap_eq_none {p : Params} {o : HdOpts} {n a b : Nat} :
    hdTrap p o n a b = none ↔
      n ≠ 0 ∧ HdOpts.size o n < 2 ^ 31 ∧ a + n ≤ p.dmSize ∧
        ((o.omp = true → b + n ≤ p.dmSize) ∧ (o.oep = true → b + 2 * n ≤ p.dmSize)) ∧
        2 * HdOpts.size o n ≤ p.wcap ∧ lpf (HdOpts.size o n) ≤ p.rmax := by
  simp [hdTrap, firstTrap_eq_none, outside]

theorem msTrap_eq_none {p : Params} {o : MsOpts} {n a b : Nat} :
    msTrap p o n a b = none ↔
      n ≠ 0 ∧ MsOpts.size o n < 2 ^ 31 ∧ a + n ≤ p.dmSize ∧ b + n ≤ p.dmSize ∧
        MsOpts.need o n ≤ p.wcap ∧ lpf (MsOpts.size o n) ≤ p.rmax := by
  simp [msTrap, firstTrap_eq_none, outside]

end Sys2Proof.Machine
end

