-- ==== Sys2Proof/Laws/Buffers.lean ====
section
/-! SUPPORT. Complex buffers: what a store leaves in its own buffer and in another, and that the transforms and stages keep
the length of a buffer and the format of its values. -/

namespace Sys2Proof.Machine

/-- Every value of a buffer is one of the format. -/
abbrev NarrowAll (f : Fmt) (zs : List Cx) : Prop := ∀ z ∈ zs, NarrowCx f z

/-! ## Storing a buffer -/

theorem State.NarrowAll_cxBuffer (s : State) (a n : Nat) : NarrowAll s.cfg.fmt (s.cxBuffer a n) := by
  intro z hz
  obtain ⟨k, hk, rfl⟩ := List.getElem_of_mem hz
  rw [State.getElem_cxBuffer]
  exact ⟨Narrow_dmElem s _, Narrow_dmElem s _⟩

/-- A stored buffer reads as stored. -/
theorem State.cxBuffer_putCx_same (s : State) (a : Nat) (zs : List Cx) (hz : NarrowAll s.cfg.fmt zs) :
    (s.putCx a zs).cxBuffer a zs.length = zs := by
  apply List.ext_getElem (by simp)
  intro k _ h
  rw [State.getElem_cxBuffer, State.cxAt_putCx_inside s a zs k h]
  have hk := hz _ (List.getElem_mem h)
  rw [narrow_of_Narrow hk.1, narrow_of_Narrow hk.2]

/-- A store leaves a buffer it does not intersect. -/
theorem State.cxBuffer_putCx_other (s : State) (a b n : Nat) (zs : List Cx)
    (hd : a + 2 * zs.length ≤ b ∨ b + 2 * n ≤ a) : (s.putCx a zs).cxBuffer b n = s.cxBuffer b n := by
  apply List.ext_getElem (by simp)
  intro k h _
  have hk : k < n := by simpa using h
  simp only [State.getElem_cxBuffer, State.cxAt, State.putCx]
  rw [State.dmElem_putSignal_outside _ _ _ _ (by simp; omega), State.dmElem_putSignal_outside _ _ _ _ (by simp; omega)]

/-! ## The transforms -/

theorem NarrowCx_at0 {f : Fmt} {zs : List Cx} (h : NarrowAll f zs) (k : Nat) : NarrowCx f (at0 zs k) := by
  unfold at0
  by_cases hk : k < zs.length
  · rw [List.getD_eq_getElem _ _ hk]; exact h _ (List.getElem_mem hk)
  · rw [List.getD_eq_default _ _ (by omega)]; exact NarrowCx_czero f

theorem NarrowAll_recBlock {f : Fmt} {dir : Dir} {n fuel size : Nat} {zs : List Cx} (h : NarrowAll f zs) :
    NarrowAll f (recBlock f dir n fuel size zs) := by
  induction fuel generalizing size zs with
  | zero => exact h
  | succ fuel ih =>
    unfold recBlock
    split
    · exact h
    · intro z hz
      obtain ⟨k, _, hz⟩ := List.mem_flatMap.1 hz
      refine ih (fun w hw => ?_) z hz
      obtain ⟨j, _, rfl⟩ := List.mem_map.1 hw
      exact NarrowCx_cmul ..

@[simp] theorem length_fwd (f : Fmt) (n : Nat) (zs : List Cx) : (fwd f n zs).length = n := by
  simp [fwd, xform, permute]

@[simp] theorem length_inv (f : Fmt) (n : Nat) (zs : List Cx) : (inv f n zs).length = n := by
  simp [inv, scaleBy, xform, permute]

theorem NarrowAll_fwd {f : Fmt} {n : Nat} {zs : List Cx} (h : NarrowAll f zs) : NarrowAll f (fwd f n zs) := by
  intro z hz
  obtain ⟨k, _, rfl⟩ := List.mem_map.1 hz
  exact NarrowCx_at0 (NarrowAll_recBlock h) _

theorem NarrowAll_inv (f : Fmt) (n : Nat) (zs : List Cx) : NarrowAll f (inv f n zs) := by
  intro z hz
  obtain ⟨w, _, rfl⟩ := List.mem_map.1 hz
  exact NarrowCx_cdivr ..

/-! ## The stages -/

@[simp] theorem length_fold (f : Fmt) (n : Nat) (zs : List Cx) : (fold f n zs).length = zs.length := by simp [fold]

theorem NarrowAll_fold {f : Fmt} {n : Nat} {zs : List Cx} (h : NarrowAll f zs) : NarrowAll f (fold f n zs) := by
  intro z hz
  obtain ⟨⟨w, i⟩, hw, rfl⟩ := List.mem_map.1 hz
  refine ⟨?_, Narrow_fzero f⟩
  show Narrow f (foldValue f n i w.re)
  unfold foldValue
  split
  · exact (h _ (List.fst_mem_of_mem_zipIdx hw)).1
  split
  · exact (h _ (List.fst_mem_of_mem_zipIdx hw)).1
  split
  · exact Narrow_fadd ..
  · exact Narrow_fzero f

theorem NarrowCx_logBin (f : Fmt) (z : Cx) : NarrowCx f (logBin f z) := ⟨Narrow_logc .., Narrow_fzero f⟩

theorem NarrowCx_polBin (f : Fmt) (a z : Cx) : NarrowCx f (polBin f a z) := NarrowCx_polar ..

theorem NarrowCx_xphBin (f : Fmt) (z w : Cx) : NarrowCx f (xphBin f z w) := ⟨Narrow_fcos .., Narrow_fsin ..⟩

end Sys2Proof.Machine
end

