-- ==== Sys2Proof/Laws/Decode.lean ====
section
/-! SUPPORT. The opcode table and the decoder: which row a control word of the encoder selects, and that the decoder's
constraints are well-formedness. -/

namespace Sys2Proof

/-- A well-formed instruction breaks no constraint, and only it breaks none (R107). -/
theorem brokenConstraint_eq_none (i : Instr) : brokenConstraint i = none ↔ i.wellFormed = true := by
  cases i <;>
    simp only [brokenConstraint, Instr.wellFormed, shaperError, padError, Option.or_eq_none_iff, Bool.and_eq_true] <;>
    split <;> simp_all

/-- A decoded instruction obeys R107. -/
theorem wellFormed_of_decodeWords {w0 w1 w2 w3 : Word} {i : Instr} (h : decodeWords w0 w1 w2 w3 = .ok i) :
    i.wellFormed = true := by
  unfold decodeWords at h
  split at h
  · cases h
  · split at h
    · cases h
    · cases h
      exact (brokenConstraint_eq_none _).1 ‹_›

/-- The decoder on a control word whose row is known. -/
theorem decodeWords_of_row {w0 : Word} {r : Row} (h : opcodeTable.find? (fun r => r.selects w0) = some r)
    {w1 w2 w3 : Word} {i : Instr} (hb : r.cmd.build w0 w1 w2 w3 = i) (hw : i.wellFormed = true) :
    decodeWords w0 w1 w2 w3 = .ok i := by
  have hn := (brokenConstraint_eq_none i).2 hw
  simp [decodeWords, h, hb, hn]

/-- The row a control word selects, by its command. -/
def selected (w0 : Word) : Option Cmd := (opcodeTable.find? fun r => r.selects w0).map Row.cmd

theorem decodeWords_of_selected {w0 : Word} {c : Cmd} (h : selected w0 = some c) {w1 w2 w3 : Word} {i : Instr}
    (hb : c.build w0 w1 w2 w3 = i) (hw : i.wellFormed = true) : decodeWords w0 w1 w2 w3 = .ok i := by
  obtain ⟨r, hr, rfl⟩ := Option.map_eq_some_iff.1 h
  exact decodeWords_of_row hr hb hw

/-! ## The control words with options -/

theorem selected_sets : ∀ i : BitVec 4,
    selected (controlWord 0x02 false 0 false false false false false i) = some .sets := by decide +kernel

theorem sidx_sets : ∀ i : BitVec 4,
    BitVec.ofNat 4 (field (controlWord 0x02 false 0 false false false false false i) 21 18) = i := by decide +kernel

theorem selected_hdDec (o : HdOpts) : selected (hdControl 0x28 o) = some .hdDec := by
  have h : ∀ (p : Bool) (e : BitVec 4) (m x : Bool), selected (hdControl 0x28 ⟨p, e, m, x⟩) = some .hdDec := by
    decide +kernel
  exact h ..

theorem selected_hdDech (o : HdOpts) : selected (hdControl 0x29 o) = some .hdDech := by
  have h : ∀ (p : Bool) (e : BitVec 4) (m x : Bool), selected (hdControl 0x29 ⟨p, e, m, x⟩) = some .hdDech := by
    decide +kernel
  exact h ..

theorem hdOptsOf_hdDec (o : HdOpts) : hdOptsOf (hdControl 0x28 o) = o := by
  have h : ∀ (p : Bool) (e : BitVec 4) (m x : Bool), hdOptsOf (hdControl 0x28 ⟨p, e, m, x⟩) = ⟨p, e, m, x⟩ := by
    decide +kernel
  exact h ..

theorem hdOptsOf_hdDech (o : HdOpts) : hdOptsOf (hdControl 0x29 o) = o := by
  have h : ∀ (p : Bool) (e : BitVec 4) (m x : Bool), hdOptsOf (hdControl 0x29 ⟨p, e, m, x⟩) = ⟨p, e, m, x⟩ := by
    decide +kernel
  exact h ..

/-- The row a shaper control word selects. -/
def shaperRow (opc : Nat) (cpol : Bool) : Cmd :=
  if cpol then (if opc = 0x31 then .msDipLegacy else .msPeakLegacy)
  else if opc = 0x31 then .msDip else if opc = 0x32 then .msPeak else .msFlat

theorem selected_ms (o : MsOpts) : ∀ oc ∈ [(0x31, false), (0x32, false), (0x33, false), (0x31, true), (0x32, true)],
    selected (msControl oc.1 oc.2 o) = some (shaperRow oc.1 oc.2) := by
  have h : ∀ (p : Bool) (e : BitVec 4) (m x : Bool),
      ∀ oc ∈ [(0x31, false), (0x32, false), (0x33, false), (0x31, true), (0x32, true)],
        selected (msControl oc.1 oc.2 ⟨p, e, m, x⟩) = some (shaperRow oc.1 oc.2) := by decide +kernel
  exact h o.nopad o.mexp o.pm o.pr

theorem msOptsOf_ms (o : MsOpts) : ∀ oc ∈ [(0x31, false), (0x32, false), (0x33, false), (0x31, true), (0x32, true)],
    msOptsOf (msControl oc.1 oc.2 o) = o := by
  have h : ∀ (p : Bool) (e : BitVec 4) (m x : Bool),
      ∀ oc ∈ [(0x31, false), (0x32, false), (0x33, false), (0x31, true), (0x32, true)],
        msOptsOf (msControl oc.1 oc.2 ⟨p, e, m, x⟩) = ⟨p, e, m, x⟩ := by decide +kernel
  exact h o.nopad o.mexp o.pm o.pr

end Sys2Proof
end

