-- ==== Sys2Proof/Laws/PerInstr.lean ====
section
/-! SUPPORT. One lemma for each constructor of `Instr`: its four words decode to it. -/

namespace Sys2Proof.Laws

open Sys2Proof

/-- The encoder writes four words, and the decoder reads them back as the instruction. -/
def EncodeWords.Statement (i : Instr) : Prop :=
  i.wellFormed = true → ∃ w0 w1 w2 w3, encode i = [w0, w1, w2, w3] ∧ decodeWords w0 w1 w2 w3 = .ok i

theorem EncodeWords.nop : EncodeWords.Statement .nop :=
  fun h => ⟨_, _, _, _, rfl, decodeWords_of_selected (c := .nop) (by decide +kernel) rfl h⟩

theorem EncodeWords.endList : EncodeWords.Statement .endList :=
  fun h => ⟨_, _, _, _, rfl, decodeWords_of_selected (c := .endList) (by decide +kernel) rfl h⟩

theorem EncodeWords.sets (i : BitVec 4) (lo hi : Word) : EncodeWords.Statement (.sets i lo hi) :=
  fun h => ⟨_, _, _, _, rfl, decodeWords_of_selected (selected_sets i) (by rw [Cmd.build, sidx_sets]) h⟩

theorem EncodeWords.fftFwd (n a : Word) : EncodeWords.Statement (.fftFwd n a) :=
  fun h => ⟨_, _, _, _, rfl, decodeWords_of_selected (c := .fftFwd) (by decide +kernel) rfl h⟩

theorem EncodeWords.fftInv (n a : Word) : EncodeWords.Statement (.fftInv n a) :=
  fun h => ⟨_, _, _, _, rfl, decodeWords_of_selected (c := .fftInv) (by decide +kernel) rfl h⟩

theorem EncodeWords.fftFwdP2 (n a : Word) : EncodeWords.Statement (.fftFwdP2 n a) :=
  fun h => ⟨_, _, _, _, rfl, decodeWords_of_selected (c := .fftFwdP2) (by decide +kernel) rfl h⟩

theorem EncodeWords.fftInvP2 (n a : Word) : EncodeWords.Statement (.fftInvP2 n a) :=
  fun h => ⟨_, _, _, _, rfl, decodeWords_of_selected (c := .fftInvP2) (by decide +kernel) rfl h⟩

theorem EncodeWords.cepLog (n a : Word) : EncodeWords.Statement (.cepLog n a) :=
  fun h => ⟨_, _, _, _, rfl, decodeWords_of_selected (c := .cepLog) (by decide +kernel) rfl h⟩

theorem EncodeWords.cepFold (n a : Word) : EncodeWords.Statement (.cepFold n a) :=
  fun h => ⟨_, _, _, _, rfl, decodeWords_of_selected (c := .cepFold) (by decide +kernel) rfl h⟩

theorem EncodeWords.cepExp (n a : Word) : EncodeWords.Statement (.cepExp n a) :=
  fun h => ⟨_, _, _, _, rfl, decodeWords_of_selected (c := .cepExp) (by decide +kernel) rfl h⟩

theorem EncodeWords.cepPol (n a b : Word) : EncodeWords.Statement (.cepPol n a b) :=
  fun h => ⟨_, _, _, _, rfl, decodeWords_of_selected (c := .cepPol) (by decide +kernel) rfl h⟩

theorem EncodeWords.cepXph (n a b : Word) : EncodeWords.Statement (.cepXph n a b) :=
  fun h => ⟨_, _, _, _, rfl, decodeWords_of_selected (c := .cepXph) (by decide +kernel) rfl h⟩

theorem EncodeWords.hdDec (o : HdOpts) (n a b : Word) : EncodeWords.Statement (.hdDec o n a b) :=
  fun h => ⟨_, _, _, _, rfl, decodeWords_of_selected (selected_hdDec o) (by simp [Cmd.build, hdOptsOf_hdDec]) h⟩

theorem EncodeWords.hdDech (o : HdOpts) (n a b : Word) : EncodeWords.Statement (.hdDech o n a b) :=
  fun h => ⟨_, _, _, _, rfl, decodeWords_of_selected (selected_hdDech o) (by simp [Cmd.build, hdOptsOf_hdDech]) h⟩

theorem EncodeWords.msRms (n a : Word) : EncodeWords.Statement (.msRms n a) :=
  fun h => ⟨_, _, _, _, rfl, decodeWords_of_selected (c := .msRms) (by decide +kernel) rfl h⟩

theorem EncodeWords.msDip (o : MsOpts) (n a b : Word) : EncodeWords.Statement (.msDip o n a b) :=
  fun h => ⟨_, _, _, _, rfl, decodeWords_of_selected (selected_ms o (0x31, false) (by simp))
    (by simp [Cmd.build, shaperRow, msOptsOf_ms o (0x31, false)]) h⟩

theorem EncodeWords.msPeak (o : MsOpts) (n a b : Word) : EncodeWords.Statement (.msPeak o n a b) :=
  fun h => ⟨_, _, _, _, rfl, decodeWords_of_selected (selected_ms o (0x32, false) (by simp))
    (by simp [Cmd.build, shaperRow, msOptsOf_ms o (0x32, false)]) h⟩

theorem EncodeWords.msFlat (o : MsOpts) (n a b : Word) : EncodeWords.Statement (.msFlat o n a b) :=
  fun h => ⟨_, _, _, _, rfl, decodeWords_of_selected (selected_ms o (0x33, false) (by simp))
    (by simp [Cmd.build, shaperRow, msOptsOf_ms o (0x33, false)]) h⟩

theorem EncodeWords.msDipLegacy (o : MsOpts) (n a b : Word) : EncodeWords.Statement (.msDipLegacy o n a b) :=
  fun h => ⟨_, _, _, _, rfl, decodeWords_of_selected (selected_ms o (0x31, true) (by simp))
    (by simp [Cmd.build, shaperRow, msOptsOf_ms o (0x31, true)]) h⟩

theorem EncodeWords.msPeakLegacy (o : MsOpts) (n a b : Word) : EncodeWords.Statement (.msPeakLegacy o n a b) :=
  fun h => ⟨_, _, _, _, rfl, decodeWords_of_selected (selected_ms o (0x32, true) (by simp))
    (by simp [Cmd.build, shaperRow, msOptsOf_ms o (0x32, true)]) h⟩

end Sys2Proof.Laws
end

