-- ==== Sys2Proof/Laws/Step.lean ====
section
/-! SUPPORT. What a command, a fetch and a step can do, said once. -/

namespace Sys2Proof.Machine

/-! ## Commands -/

/-- The fields that neither a fault nor the effect of a command changes. -/
structure Kept (s t : State) : Prop where
  cfg : t.cfg = s.cfg
  ie : t.ie = s.ie
  slatch : t.slatch = s.slatch
  cm : t.cm = s.cm
  draws : t.draws = s.draws
  inbox : t.inbox = s.inbox
  hostData : t.hostData = s.hostData

/-- What every command that completes does to the fields of control. -/
structure Completes (i : Instr) (s t : State) : Prop where
  kept : Kept s t
  cp : t.cp = s.cp + 4
  fault : t.fault = s.fault
  fcode : t.fcode = s.fcode
  faultCp : t.faultCp = s.faultCp
  faultInfo : t.faultInfo = s.faultInfo
  run : i ≠ .endList → t.run = s.run
  done : i ≠ .endList → t.done = s.done
  endList : i = .endList → t.run = false ∧ t.done = true

/-- An effect on `DM`, the scalar registers, `TW_N` and `LOGLIM` alone. -/
def Quiet (s u : State) : Prop := u = { s with dm := u.dm, regs := u.regs, twN := u.twN, loglim := u.loglim }

theorem Quiet.trans {s u v : State} (h : Quiet s u) (k : Quiet u v) : Quiet s v := by
  rw [Quiet] at *
  rw [h] at k
  exact k

theorem Quiet.completes {i : Instr} {s u : State} (hi : i ≠ .endList) (h : Quiet s u) : Completes i s u.advance := by
  have e : u = { s with dm := u.dm, regs := u.regs, twN := u.twN, loglim := u.loglim } := h
  exact ⟨⟨(congrArg State.cfg e :), (congrArg State.ie e :), (congrArg State.slatch e :), (congrArg State.cm e :),
    (congrArg State.draws e :), (congrArg State.inbox e :), (congrArg State.hostData e :)⟩,
    (congrArg (fun v : State => v.cp + 4) e :), (congrArg State.fault e :), (congrArg State.fcode e :), (congrArg State.faultCp e :),
    (congrArg State.faultInfo e :), fun _ => (congrArg State.run e :), fun _ => (congrArg State.done e :), fun h => absurd h hi⟩

theorem State.kept_takeFault (s : State) (f : Trap) (w : Wreck) : Kept s (s.takeFault f w) := by
  constructor <;> simp

theorem State.quiet_putIf (s : State) (b : Bool) (a : Nat) (x : List Elem) : Quiet s (s.putIf b a x) := by
  cases b <;> rfl

theorem State.quiet_decompose (s : State) (o : HdOpts) (hilbert : Bool) (n a b : Nat) :
    Quiet s (s.decompose o hilbert n a b) :=
  ((s.quiet_putIf ..).trans (State.quiet_putIf ..)).trans rfl

/-- A check list of codes other than 0 raises none of code 0. -/
theorem firstTrap_code {cs : List (Bool × Trap)} {f : Trap} (hc : ∀ c ∈ cs, c.2.code ≠ .none)
    (h : firstTrap cs = some f) : f.code ≠ .none := hc _ (mem_of_firstTrap h)

theorem fftTrap_code {p2 : Bool} {p : Params} {n a : Nat} {f : Trap} (h : fftTrap p2 p n a = some f) :
    f.code ≠ .none := firstTrap_code (by simp) h

theorem bufferTrap_code {p : Params} {n a : Nat} {f : Trap} (h : bufferTrap p n a = some f) : f.code ≠ .none :=
  firstTrap_code (by simp) h

theorem twoBufferTrap_code {p : Params} {n a b : Nat} {f : Trap} (h : twoBufferTrap p n a b = some f) :
    f.code ≠ .none := firstTrap_code (by simp) h

theorem hdTrap_code {p : Params} {o : HdOpts} {n a b : Nat} {f : Trap} (h : hdTrap p o n a b = some f) :
    f.code ≠ .none := firstTrap_code (by simp) h

theorem msTrap_code {p : Params} {o : MsOpts} {n a b : Nat} {f : Trap} (h : msTrap p o n a b = some f) :
    f.code ≠ .none := firstTrap_code (by simp) h

/-- Every command but `NOP`, `END`, `SETS` and the reserved rows, in the common frame. -/
theorem exec_command (i : Instr) (s : State)
    (hi : ∀ o n a b x lo hi, i ∉ [.nop, .endList, .sets x lo hi, .msDipLegacy o n a b, .msPeakLegacy o n a b]) :
    ∃ trap w effect, exec i s = s.command trap w effect ∧ (∀ f, trap = some f → f.code ≠ .none) ∧ Quiet s (effect s) := by
  cases i with
  | nop => exact absurd (by simp) (hi ⟨false, 0, false, false⟩ 0 0 0 0 0 0)
  | endList => exact absurd (by simp) (hi ⟨false, 0, false, false⟩ 0 0 0 0 0 0)
  | sets x lo h => exact absurd (by simp) (hi ⟨false, 0, false, false⟩ 0 0 0 x lo h)
  | msDipLegacy o n a b => exact absurd (by simp) (hi o n a b 0 0 0)
  | msPeakLegacy o n a b => exact absurd (by simp) (hi o n a b 0 0 0)
  | fftFwd n a =>
    simp only [exec, execFftFwd]
    refine ⟨_, _, _, rfl, fun _ => fftTrap_code, ?_⟩
    exact rfl
  | fftInv n a =>
    simp only [exec, execFftInv]
    refine ⟨_, _, _, rfl, fun _ => fftTrap_code, ?_⟩
    exact rfl
  | fftFwdP2 n a =>
    simp only [exec, execFftFwdP2]
    refine ⟨_, _, _, rfl, fun _ => fftTrap_code, ?_⟩
    exact rfl
  | fftInvP2 n a =>
    simp only [exec, execFftInvP2]
    refine ⟨_, _, _, rfl, fun _ => fftTrap_code, ?_⟩
    exact rfl
  | cepLog n a =>
    simp only [exec, execCepLog]
    refine ⟨_, _, _, rfl, fun _ => bufferTrap_code, ?_⟩
    exact rfl
  | cepFold n a =>
    simp only [exec, execCepFold]
    refine ⟨_, _, _, rfl, fun _ => bufferTrap_code, ?_⟩
    exact rfl
  | cepExp n a =>
    simp only [exec, execCepExp]
    refine ⟨_, _, _, rfl, fun _ => bufferTrap_code, ?_⟩
    exact rfl
  | msRms n a =>
    simp only [exec, execMsRms]
    refine ⟨_, _, _, rfl, fun _ => bufferTrap_code, ?_⟩
    exact rfl
  | cepPol n a b =>
    simp only [exec, execCepPol]
    refine ⟨_, _, _, rfl, fun _ => twoBufferTrap_code, ?_⟩
    exact rfl
  | cepXph n a b =>
    simp only [exec, execCepXph]
    refine ⟨_, _, _, rfl, fun _ => twoBufferTrap_code, ?_⟩
    exact rfl
  | hdDec o n a b =>
    simp only [exec, execHdDec]
    refine ⟨_, _, _, rfl, fun _ => hdTrap_code, ?_⟩
    exact s.quiet_decompose ..
  | hdDech o n a b =>
    simp only [exec, execHdDech]
    refine ⟨_, _, _, rfl, fun _ => hdTrap_code, ?_⟩
    exact s.quiet_decompose ..
  | msDip o n a b =>
    simp only [exec, execMsDip]
    refine ⟨_, _, _, rfl, fun _ => msTrap_code, ?_⟩
    exact rfl
  | msPeak o n a b =>
    simp only [exec, execMsPeak]
    refine ⟨_, _, _, rfl, fun _ => msTrap_code, ?_⟩
    exact rfl
  | msFlat o n a b =>
    simp only [exec, execMsFlat]
    refine ⟨_, _, _, rfl, fun _ => msTrap_code, ?_⟩
    exact rfl

/-- Everything a command can do to the fields of control: its fault, or its completion. -/
theorem exec_cases (i : Instr) (s : State) :
    (∃ f w, f.code ≠ .none ∧ exec i s = .next (s.takeFault f w)) ∨ ∃ t, exec i s = .next t ∧ Completes i s t := by
  by_cases hi : ∀ o n a b x lo hi, i ∉ [.nop, .endList, .sets x lo hi, .msDipLegacy o n a b, .msPeakLegacy o n a b]
  · obtain ⟨trap, w, effect, he, hc, hq⟩ := exec_command i s hi
    rw [he]
    cases trap with
    | some f => exact .inl ⟨f, w, hc f rfl, rfl⟩
    | none => exact .inr ⟨_, rfl, hq.completes fun e => hi ⟨false, 0, false, false⟩ 0 0 0 0 0 0 (by simp [e])⟩
  · push Not at hi
    obtain ⟨o, n, a, b, x, lo, hi', hm⟩ := hi
    simp only [List.mem_cons, List.not_mem_nil, or_false] at hm
    rcases hm with rfl | rfl | rfl | rfl | rfl
    · exact .inr ⟨_, rfl, Quiet.completes (by simp) (u := s) rfl⟩
    · exact .inr ⟨_, rfl, ⟨⟨rfl, rfl, rfl, rfl, rfl, rfl, rfl⟩, rfl, rfl, rfl, rfl, rfl, by simp, by simp, fun _ => ⟨rfl, rfl⟩⟩⟩
    · simp only [exec, execSets]
      split
      · exact .inr ⟨_, rfl, Quiet.completes (by simp) rfl⟩
      · exact .inl ⟨_, _, by simp, rfl⟩
    · exact .inl ⟨_, _, by simp, rfl⟩
    · exact .inl ⟨_, _, by simp, rfl⟩

/-! ## The engine -/

/-- A fetch gives a well-formed instruction, or one of the two faults that leave nothing unspecified. -/
theorem State.fetch_cases (s : State) :
    (∃ i, s.fetch = .ok i ∧ s.fetchOk = true ∧ i.wellFormed = true ∧ ∃ rest, decode s.fetched = .ok (i, rest)) ∨
      ∃ f, s.fetch = .error f ∧ (f.code = .fetch ∨ f.code = .illegal) := by
  unfold State.fetch
  split
  · split
    · rename_i i rest h
      refine .inl ⟨i, rfl, ‹_›, ?_, _, h⟩
      unfold decode at h
      split at h
      · cases h
      · cases hd : decodeWords (wordOf s.fetched) (wordOf (s.fetched.drop 4)) (wordOf (s.fetched.drop 8))
            (wordOf (s.fetched.drop 12)) with
        | error e => rw [hd] at h; cases h
        | ok j => rw [hd] at h; cases h; exact wellFormed_of_decodeWords hd
    · exact .inr ⟨_, rfl, .inr rfl⟩
  · exact .inr ⟨_, rfl, .inl rfl⟩

/-- Everything an engine step can do: a fault, or the completion of the command it fetched. -/
theorem engineStep_cases (s : State) :
    (∃ f w, f.code ≠ .none ∧ engineStep s = .next (s.takeFault f w)) ∨
      ∃ i t, s.fetch = .ok i ∧ engineStep s = .next t ∧ Completes i s t := by
  unfold engineStep
  rcases s.fetch_cases with ⟨i, h, _⟩ | ⟨f, h, hc⟩
  · rw [h]
    rcases exec_cases i s with ⟨f, w, hf, he⟩ | ⟨t, he, ht⟩
    · exact .inl ⟨f, w, hf, he⟩
    · exact .inr ⟨i, t, rfl, he, ht⟩
  · rw [h]
    exact .inl ⟨f, _, by rcases hc with h | h <;> simp [h], rfl⟩

/-- A fetch does not look at the outside agents' moves. -/
theorem State.fetch_inbox (s : State) (m : List HostMove) : State.fetch { s with inbox := m } = s.fetch := rfl

/-! ## The step -/

/-- The engine has the turn: no move of the outside agents is before it. -/
theorem step_of_turn {s : State} (h : s.inbox = [] ∨ s.inbox.head? = some .engine) :
    step s = engineTurn { s with inbox := s.inbox.tail } := by
  unfold step
  cases hb : s.inbox with
  | nil => simp only [List.tail_nil]; rw [← hb]
  | cons m rest =>
    rw [hb] at h
    have hm : m = .engine := by simpa using h
    subst hm
    rfl

/-- A move of the outside agents. -/
theorem step_of_move {s : State} {m : HostMove} {rest : List HostMove} (h : s.inbox = m :: rest) (hm : m ≠ .engine) :
    step s = tick (hostMove m { s with inbox := rest }) := by
  unfold step
  rw [h]
  cases m <;> first | rfl | exact absurd rfl hm

/-- A host access that goes on is its effect. -/
theorem State.access_next {s t : State} {r : Region} {off k : Nat} {effect : State → State}
    (h : s.access r off k effect = .next t) : s.denied r off k = none ∧ t = effect s := by
  unfold State.access at h
  split at h
  · rename_i o ho
    subst h
    unfold State.denied at ho
    split at ho
    · cases ho
    · split at ho
      · cases ho
      · split at ho <;> cases ho
  · cases h; exact ⟨‹_›, rfl⟩

/-- A host's write leaves the draw index. -/
theorem State.putWord_draws (s : State) (r : Region) (off : Nat) (w : Word) : (s.putWord r off w).draws = s.draws := by
  cases r with
  | dm => rfl
  | cm => rfl
  | regs =>
    simp only [State.putWord, State.regWrite, State.writeCtrl, State.writeStatus, State.writeWindow, State.start,
      State.clearFault, State.setSreg]
    split_ifs <;> first | rfl | (split <;> first | rfl | (split <;> rfl))

/-- Everything a step can do: the engine's turn, idle or not; a read; a write; reset. -/
theorem step_cases {s t : State} (h : step s = .next t) :
    ((s.inbox = [] ∨ s.inbox.head? = some .engine) ∧ s.run = true ∧
      ∃ u, engineStep { s with inbox := s.inbox.tail } = .next u ∧ t = { u with draws := u.draws + 1 }) ∨
    ((s.inbox = [] ∨ s.inbox.head? = some .engine) ∧ s.run = false ∧ t = { s with inbox := s.inbox.tail }) ∨
    (∃ r off w, s.inbox.head? = some (.write r off w) ∧ State.denied { s with inbox := s.inbox.tail } r off 4 = none ∧
      t = { State.putWord { s with inbox := s.inbox.tail } r off w with draws := s.draws + 1 }) ∨
    (∃ r off b, s.inbox.head? = some (.writeByte r off b) ∧
      State.denied { s with inbox := s.inbox.tail } r off 1 = none ∧
      t = { State.putBytes { s with inbox := s.inbox.tail } r off [b] with draws := s.draws + 1 }) ∨
    (∃ w, t = { s with inbox := s.inbox.tail, hostData := w, draws := s.draws + 1 } ∧
      ((∃ r off, s.inbox.head? = some (.read r off)) ∨ ∃ r off, s.inbox.head? = some (.readByte r off))) ∨
    (s.inbox.head? = some .reset ∧
      t = { State.afterReset { s with inbox := s.inbox.tail } with draws := s.draws + 1 }) := by
  have tk : ∀ {o : Host.Outcome State Fault Refusal}, tick o = .next t →
      ∃ u, o = .next u ∧ t = { u with draws := u.draws + 1 } := by
    intro o ho
    cases o with
    | next u => cases ho; exact ⟨u, rfl, rfl⟩
    | fault r => cases ho
    | refused r => cases ho
  by_cases ht : s.inbox = [] ∨ s.inbox.head? = some .engine
  · rw [step_of_turn ht] at h
    unfold engineTurn at h
    split at h
    · exact .inl ⟨ht, ‹_›, tk h⟩
    · rename_i hr
      cases h
      exact .inr (.inl ⟨ht, by simpa using hr, rfl⟩)
  · cases hb : s.inbox with
    | nil => simp [hb] at ht
    | cons m rest =>
      have hm : m ≠ .engine := by rintro rfl; simp [hb] at ht
      rw [step_of_move hb hm] at h
      obtain ⟨u, hu, rfl⟩ := tk h
      cases m with
      | engine => exact absurd rfl hm
      | reset =>
        cases hu
        exact .inr (.inr (.inr (.inr (.inr ⟨rfl, rfl⟩))))
      | read r off =>
        simp only [hostMove] at hu
        obtain ⟨_, rfl⟩ := State.access_next hu
        exact .inr (.inr (.inr (.inr (.inl ⟨_, rfl, .inl ⟨r, off, rfl⟩⟩))))
      | readByte r off =>
        simp only [hostMove] at hu
        obtain ⟨_, rfl⟩ := State.access_next hu
        exact .inr (.inr (.inr (.inr (.inl ⟨_, rfl, .inr ⟨r, off, rfl⟩⟩))))
      | write r off w =>
        simp only [hostMove] at hu
        obtain ⟨hd, rfl⟩ := State.access_next hu
        refine .inr (.inr (.inl ⟨r, off, w, rfl, hd, ?_⟩))
        have e := State.putWord_draws { s with inbox := rest } r off w
        exact congrArg (fun d => { State.putWord { s with inbox := rest } r off w with draws := d + 1 }) e
      | writeByte r off b =>
        simp only [hostMove] at hu
        obtain ⟨hd, rfl⟩ := State.access_next hu
        refine .inr (.inr (.inr (.inl ⟨r, off, b, rfl, hd, ?_⟩)))
        cases r <;> rfl

end Sys2Proof.Machine
end

