-- ==== Sys2Proof/Tests/Slice0.lean ====
section
/-! SUPPORT. The model's own tests. Expected values come from 95_test_vectors.md and the examples of the command rules. The
last part shows, for each statement with hypotheses, a state and operands that meet them. -/

namespace Sys2Proof.Tests

set_option Elab.async false

open Sys2Proof.Machine Sys2Proof.Safety

/-! ## Helpers -/

/-- A number of binary64. -/
def n64 (k : Nat) : Elem := i2f .binary64 k

/-- Its negation. -/
def m64 (k : Nat) : Elem := fneg .binary64 (n64 k)

/-- 0.5 in binary64. -/
def half : Elem := 0x3FE0000000000000#64

/-- A reset machine whose data memory begins with the given elements. -/
def mem (vs : List Elem) : State := State.reset.putSignal 0 vs

/-- The same in binary32. -/
def mem32 (vs : List Elem) : State :=
  State.putSignal { State.reset with cfg := { resetParams with fmt := .binary32 } } 0 vs

/-- The complex buffer as elements. -/
def cx (l : List (Elem × Elem)) : List Elem := l.flatMap fun p => [p.1, p.2]

/-- The next state of an outcome, or a state in its place. -/
def after (d : State) : Host.Outcome State Fault Refusal → State
  | .next s => s
  | _ => d

/-- Whether an outcome is a next state. -/
def isNext : Host.Outcome State Fault Refusal → Bool
  | .next _ => true
  | _ => false

theorem eq_next {o : Host.Outcome State Fault Refusal} (d : State) (h : isNext o = true) : o = .next (after d o) := by
  cases o <;> first | rfl | cases h

/-- Elements equal as numbers. -/
def same (f : Fmt) (xs ys : List Elem) : Bool := xs.length == ys.length && (xs.zip ys).all fun p => feq f p.1 p.2

/-- What a command leaves in `n` elements from `a`. -/
def left (i : Instr) (s : State) (a n : Nat) : List Elem := (after s (exec i s)).signal a n

/-- The fault a command takes, as `FCODE` and `FAULT_INFO`. -/
def faultOf (i : Instr) (s : State) : Nat × Word :=
  ((after s (exec i s)).fcode.code, (after s (exec i s)).faultInfo)

/-- The instruction of four words laid out as bytes. -/
def dw (w0 w1 w2 w3 : Nat) : Option Instr := decodeTableWord 128 (w0 + 2 ^ 32 * w1 + 2 ^ 64 * w2 + 2 ^ 96 * w3)

/-! ## Well-formedness: an ill-formed term for each check (R107) -/

theorem test_wf_sets : (Instr.sets 11 0 0).wellFormed = false ∧ (Instr.sets 10 0 0).wellFormed = true := by decide
theorem test_wf_hd_pad : (Instr.hdDec ⟨true, 1, true, true⟩ 4 0 16).wellFormed = false := by decide
theorem test_wf_hdh_pad : (Instr.hdDech ⟨true, 15, false, false⟩ 4 0 16).wellFormed = false := by decide
theorem test_wf_ms_pad : (Instr.msDip ⟨true, 1, true, false⟩ 4 0 16).wellFormed = false := by decide
theorem test_wf_ms_phase : (Instr.msPeak ⟨false, 0, false, true⟩ 4 0 16).wellFormed = false ∧
    (Instr.msFlat ⟨false, 0, false, true⟩ 4 0 16).wellFormed = false := by decide

/-! ## Decoding: words written out from R101, R103, R104 and R114 -/

theorem test_decode_nop : dw 0 0 0 0 = some .nop := by decide +kernel
theorem test_decode_end : dw 1 7 8 9 = some .endList := by decide +kernel
theorem test_decode_sets : dw 0x00140002 0 0 0x3FE00000 = some (.sets 5 0 0x3FE00000) := by decide +kernel
theorem test_decode_fft_fwd : dw 0x10 4 0 0 = some (.fftFwd 4 0) := by decide +kernel
theorem test_decode_fft_inv : dw 0x11 6 2 0 = some (.fftInv 6 2) := by decide +kernel
theorem test_decode_fft_fwdp2 : dw 0x12 2 4 0 = some (.fftFwdP2 2 4) := by decide +kernel
theorem test_decode_fft_invp2 : dw 0x13 8 0x20 0 = some (.fftInvP2 8 0x20) := by decide +kernel
theorem test_decode_cep_log : dw 0x20 8 16 0 = some (.cepLog 8 16) := by decide +kernel
theorem test_decode_cep_fold : dw 0x21 8 16 1 = some (.cepFold 8 16) := by decide +kernel
theorem test_decode_cep_exp : dw 0x22 8 16 0 = some (.cepExp 8 16) := by decide +kernel
theorem test_decode_cep_pol : dw 0x23 8 16 32 = some (.cepPol 8 16 32) := by decide +kernel
theorem test_decode_cep_xph : dw 0x24 8 0 16 = some (.cepXph 8 0 16) := by decide +kernel
theorem test_decode_hd_dec : dw 0x00030228 4 0 16 = some (.hdDec ⟨false, 1, true, true⟩ 4 0 16) := by decide +kernel
theorem test_decode_hd_dech : dw 0x00010129 3 0 8 = some (.hdDech ⟨true, 0, true, false⟩ 3 0 8) := by decide +kernel
theorem test_decode_ms_rms : dw 0x30 8 0 0 = some (.msRms 8 0) := by decide +kernel
theorem test_decode_ms_dip : dw 0x00006131 2 0 8 = some (.msDip ⟨true, 0, true, true⟩ 2 0 8) := by decide +kernel
theorem test_decode_ms_peak : dw 0x00000132 2 0 8 = some (.msPeak ⟨true, 0, false, false⟩ 2 0 8) := by decide +kernel
theorem test_decode_ms_flat : dw 0x00002033 4 0 0 = some (.msFlat ⟨false, 0, true, false⟩ 4 0 0) := by decide +kernel
theorem test_decode_dip_legacy : dw 0x00008031 4 0 0 = some (.msDipLegacy ⟨false, 0, false, false⟩ 4 0 0) := by
  decide +kernel
theorem test_decode_peak_legacy : dw 0x0000C132 4 0 0 = some (.msPeakLegacy ⟨true, 0, false, true⟩ 4 0 0) := by
  decide +kernel

/-- Illegal words: R114's four, an opcode not listed, a reserved bit, a flag of another command, `CPOL` on `MS.FLAT`. -/
theorem test_decode_illegal :
    [0x002C0002, 0x00000331, 0x00004031, 0x00000003, 0x00400000, 0x00010010, 0x00008033, 0x00040028].all
      (fun w => dw w 4 0 8 == none) = true := by decide +kernel

theorem test_encode_words : encodeBytes (.hdDec ⟨false, 1, true, true⟩ 4 0 16) =
    [0x28, 0x02, 0x03, 0, 4, 0, 0, 0, 0, 0, 0, 0, 16, 0, 0, 0] := by decide +kernel

/-! ## One step of each command -/

theorem test_nop : (after State.reset (exec .nop { State.reset with cp := 8 })).cp = 12 := by decide

theorem test_end : (after State.reset (exec .endList { State.reset with cp := 12, run := true })).status = 2 ∧
    (after State.reset (exec .endList { State.reset with cp := 12, run := true })).cp = 16 := by decide +kernel

theorem test_sets : (after State.reset (exec (.sets 5 0 0x3FE00000) State.reset)).sreg regDlstart = half := by decide +kernel
theorem test_sets_11 : faultOf (.sets 11 0 0) State.reset = (1, 0x002C0002) := by decide +kernel

theorem test_fft_fwd : same .binary64
    (left (.fftFwd 4 0) (mem (cx [(n64 1, 0), (n64 2, 0), (n64 3, 0), (n64 4, 0)])) 0 8)
    (cx [(n64 10, 0), (m64 2, n64 2), (m64 2, 0), (m64 2, m64 2)]) = true := by decide +kernel

theorem test_fft_fwd_alloc : faultOf (.fftFwd 7 0) State.reset = (4, 7) := by decide +kernel

theorem test_fft_inv : same .binary64
    (left (.fftInv 4 0) (mem (cx [(n64 10, 0), (m64 2, n64 2), (m64 2, 0), (m64 2, m64 2)])) 0 8)
    (cx [(n64 1, 0), (n64 2, 0), (n64 3, 0), (n64 4, 0)]) = true := by decide +kernel

theorem test_fft_fwdp2 : same .binary64 (left (.fftFwdP2 2 0) (mem (cx [(n64 1, 0), (n64 2, 0)])) 0 4)
    (cx [(n64 3, 0), (m64 1, 0)]) = true := by decide +kernel

theorem test_fft_fwdp2_size : faultOf (.fftFwdP2 6 0) State.reset = (2, 6) := by decide +kernel

theorem test_fft_invp2 : same .binary64 (left (.fftInvP2 2 0) (mem (cx [(n64 3, 0), (m64 1, 0)])) 0 4)
    (cx [(n64 1, 0), (n64 2, 0)]) = true := by decide +kernel

theorem test_fft_invp2_odd : faultOf (.fftInvP2 2 3) State.reset = (3, 3) := by decide +kernel

theorem test_cep_log : left (.cepLog 1 0) (mem (cx [(n64 1, 0)])) 0 2 = [0, 0] := by decide +kernel

theorem test_cep_log_clamp : (after State.reset (exec (.cepLog 1 0) (mem (cx [(0, 0)])))).loglim = true := by decide +kernel

theorem test_cep_fold : left (.cepFold 5 0)
    (mem (cx [(n64 1, n64 9), (n64 2, 0), (n64 3, 0), (n64 4, 0), (n64 5, n64 9)])) 0 10 =
    cx [(n64 1, 0), (n64 4, 0), (n64 6, 0), (0, 0), (0, 0)] := by decide +kernel

theorem test_cep_fold_nyquist : left (.cepFold 4 0)
    (mem (cx [(n64 1, 0), (n64 2, 0), (n64 3, 0), (n64 4, 0)])) 0 8 =
    cx [(n64 1, 0), (n64 4, 0), (n64 3, 0), (0, 0)] := by decide +kernel

theorem test_cep_exp : left (.cepExp 1 0) (mem (cx [(0, 0)])) 0 2 = [n64 1, 0] := by decide +kernel

theorem test_cep_exp_overflow : left (.cepExp 1 0) (mem (cx [(n64 710, 0)])) 0 1 = [finf .binary64 false] := by
  decide +kernel

theorem test_cep_pol : left (.cepPol 1 0 2) (mem (cx [(0x3FD3333333333333#64, 0), (n64 3, n64 4)])) 0 4 =
    [n64 5, 0, n64 3, n64 4] := by decide +kernel

theorem test_cep_pol_overlap : faultOf (.cepPol 2 0 2) State.reset = (3, 2) := by decide +kernel

theorem test_cep_xph : left (.cepXph 1 0 2) (mem (cx [(n64 2, 0), (n64 3, 0)])) 0 4 = [n64 1, 0, n64 3, 0] := by
  decide +kernel

theorem test_hd_dec : same .binary64
    (left (.hdDec ⟨false, 0, true, true⟩ 4 0 8) (mem [n64 1, 0, 0, 0]) 8 8) [n64 1, 0, 0, 0, n64 1, 0, 0, 0] = true := by
  decide +kernel

theorem test_hd_dec_size : faultOf (.hdDec ⟨false, 15, true, false⟩ 0x10001 0 0) State.reset = (2, 0x10001) := by
  decide +kernel

theorem test_hd_dech : same .binary32
    (left (.hdDech ⟨true, 0, false, true⟩ 2 0 4) (mem32 [fone .binary32, 0, 0, 0, 0, 0, 0, 0]) 4 4)
    [0, 0, fone .binary32, 0] = true := by decide +kernel

theorem test_hd_dech_alloc : faultOf (.hdDech ⟨false, 2, true, false⟩ 4 0 8) State.reset = (4, 16) := by decide +kernel

/-- The registers of the examples of R244 and R245: `SRATE 2, FLO 0, FHI 1, WEXP 0`, gains and starts. -/
def shaper : State :=
  (((((mem [n64 1, half]).setSreg 0 (n64 2)).setSreg 2 (n64 1)).setSreg 4 half).setSreg 5 half).setSreg 6 (n64 1)
    |>.setSreg 7 half |>.setSreg 8 (n64 1) |>.setSreg 9 half

theorem test_ms_rms : (after State.reset (exec (.msRms 8 0)
    (((mem (cx (List.replicate 8 (n64 3, n64 4)))).setSreg 0 (n64 8)).setSreg 2 (n64 100)))).sreg regLevel = n64 5 := by
  decide +kernel

theorem test_ms_rms_empty : (after State.reset (exec (.msRms 8 0)
    ((((mem (cx (List.replicate 8 (n64 3, n64 4)))).setSreg 0 (n64 8)).setSreg 1 (n64 3)).setSreg 2 (n64 2)))).sreg
      regLevel = 0 := by decide +kernel

theorem test_ms_dip : left (.msDip ⟨true, 0, false, false⟩ 2 0 8) shaper 8 2 =
    [0x3ff298993b5f9839#64, 0x3fd59d9b12819f1b#64] := by decide +kernel

theorem test_ms_dip_alloc : faultOf (.msDip ⟨false, 3, true, false⟩ 2 0 8) State.reset = (4, 16) := by decide +kernel

theorem test_ms_peak : left (.msPeak ⟨true, 0, false, false⟩ 2 0 8) shaper 8 2 =
    [0x3fe68e2246429f53#64, 0x3fca3889190a7d4c#64] := by decide +kernel

/-- The example values of the dip curve for `T = 1` and of the peak curve for `M = 2`, start fraction 0.5 and 1 (R238,
R239). -/
theorem test_curves :
    [0, half, n64 1, n64 2, n64 3].map (dipCurve .binary64 (n64 1) half) =
      [0x3ff5555555555556#64, 0x3ff6666666666666#64, 0x3ff8000000000000#64, n64 2, n64 3] ∧
    [0, half, n64 1, n64 2].map (dipCurve .binary64 (n64 1) (n64 1)) = [n64 1, n64 1, n64 1, n64 2] ∧
    [0, n64 1, n64 2, n64 3, n64 5].map (peakCurve .binary64 (n64 2) half) =
      [0, n64 1, 0x3ff8000000000000#64, 0x3ffaaaaaaaaaaaaa#64, 0x3ffccccccccccccd#64] ∧
    [n64 2, n64 3].map (peakCurve .binary64 (n64 2) (n64 1)) = [n64 2, n64 2] := by decide +kernel

theorem test_ms_flat : left (.msFlat ⟨true, 0, false, false⟩ 2 0 8) shaper 8 2 = [n64 1, 0x3fd0000000000000#64] := by
  decide +kernel

theorem test_ms_flat_range : faultOf (.msFlat ⟨true, 0, false, false⟩ 2 0 63) State.reset = (3, 63) := by decide +kernel

theorem test_dip_legacy : faultOf (.msDipLegacy ⟨false, 0, false, false⟩ 1 0 0) State.reset = (1, 0x8031) := by
  decide +kernel

theorem test_peak_legacy : faultOf (.msPeakLegacy ⟨false, 0, true, false⟩ 1 0 0) State.reset = (1, 0xA032) := by
  decide +kernel

/-! ## The step and the host -/

/-- A machine that runs, with one descriptor at `CP`. -/
def running (w0 w1 w2 w3 : Nat) : State := State.reset.loaded (leBytes 16 (w0 + 2 ^ 32 * w1 + 2 ^ 64 * w2 + 2 ^ 96 * w3))

theorem test_step_end : (after State.reset (step (State.reset.withFetchWord 32 1))).done = true := by decide +kernel

theorem test_step_fetch_fault : (after State.reset (step { State.reset with run := true, cp := 64 })).status = 0x504 ∧
    (after State.reset (step { State.reset with run := true, cp := 64 })).faultInfo = 64 := by decide +kernel

theorem test_step_illegal : (after State.reset (step (running 0x8033 0 0 0))).status = 0x104 ∧
    (after State.reset (step (running 0x8033 0 0 0))).faultInfo = 0x8033 := by decide +kernel

theorem test_host_window : (((State.reset.regWrite 0x68 7).regWrite 0x6C 9).regRead 0x6C,
    ((State.reset.regWrite 0x68 7).regWrite 0x6C 9).regRead 0x68) = (9, 7) := by decide +kernel

theorem test_host_bytes : ((State.reset.putWord .dm 12 0x3FF00000).putWord .dm 8 0).dmElem 1 = n64 1 := by decide +kernel

/-! ## Witnesses: states and operands that meet the hypotheses of each statement -/

/-- What is next after an outcome, with reset in place of a stop. -/
def nx (o : Host.Outcome State Fault Refusal) : State := after State.reset o

/-- A reset machine with moves to come. -/
def moves (ms : List HostMove) : State := { State.reset with inbox := ms }

/-- A machine in the faulted state. -/
def faulted (ms : List HostMove) : State := { State.reset with inbox := ms, fault := true, fcode := .size, cp := 8 }

theorem witness_StepRunsDecoded :
    let s := running 0x28 4 0 16
    (s.run = true ∧ s.fetchOk = true ∧ s.inbox = [] ∧
      (decode s.fetched).toOption = some (.hdDec ⟨false, 0, false, false⟩ 4 0 16, [])) ∧
    (let s := { s with inbox := [.engine, .reset] };
      s.run = true ∧ s.fetchOk = true ∧ (decode s.fetched).toOption.isSome = true) := by decide +kernel

/-- An unaligned `CP`, one at the end of `CM`, and the last descriptor. -/
theorem witness_EngineStep :
    (2 % 4 ≠ 0 ∧ State.reset.cfg.cmSize < (64 : Word).toNat + 4) ∧
    (let s := { State.reset with run := true, cp := 60 };
      s.run = true ∧ s.inbox = [] ∧ s.cp.toNat % 4 = 0 ∧ s.cp.toNat + 4 ≤ s.cfg.cmSize) := by decide +kernel

/-- A machine whose `CM` of eight words is zero, at its start. -/
def zeroList : State :=
  { State.reset with run := true, cfg := { resetParams with cmSize := 8 }, cm := cellsAt 0 (List.replicate 32 0) }

theorem witness_NopRule : zeroList.cfg.cmSize % 4 = 0 ∧ zeroList.cfg.cmSize < 2 ^ 32 ∧ zeroList.run = true ∧
    zeroList.inbox = [] ∧ zeroList.cp = 0 ∧ ∀ x < 4 * zeroList.cfg.cmSize, zeroList.cm.get? x = some 0 := by decide +kernel

theorem witness_EndRule :
    (∃ t, exec .endList { State.reset with ie := 2 } = .next t ∧ bit 2 1 = true ∧ t.inbox = []) ∧
    (let s := running 1 0 0 0;
      s.run = true ∧ s.fault = false ∧ isNext (step s) = true ∧ (nx (step s)).run = false ∧ (nx (step s)).fault = false) :=
  ⟨⟨_, rfl, by decide +kernel, rfl⟩, by decide +kernel⟩

theorem witness_SetsRule : (10#4).toNat < 11 ∧ 11 ≤ (11#4).toNat := by decide

/-- Operands of the buffer commands at the end of `DM`. -/
theorem witness_FftCommands : (4 : Word) ≠ 0 ∧ (56 : Word).toNat % 2 = 0 ∧
    (56 : Word).toNat + 2 * (4 : Word).toNat ≤ State.reset.cfg.dmSize ∧ lpf (4 : Word).toNat ≤ State.reset.cfg.rmax ∧
    lpf (5 : Word).toNat = State.reset.cfg.rmax ∧ ispow2 (4 : Word).toNat = true ∧ ispow2 (1 : Word).toNat = true := by
  decide +kernel

theorem witness_Pow2Equal : ispow2 1 = true ∧ ispow2 8 = true ∧ [czero].length = 1 ∧ ∃ tol : Tolerance, tol 1 .binary64 = 0 :=
  ⟨by decide, by decide, rfl, fun _ _ => 0, rfl⟩

theorem witness_SizeOne : (62 : Word).toNat % 2 = 0 ∧ (62 : Word).toNat + 2 ≤ (mem [n64 1]).cfg.dmSize ∧
    2 ≤ (mem [n64 1]).cfg.rmax ∧ isNaN .binary64 ((mem [n64 1, 0]).cxAt 0 0).re = false := by decide +kernel

theorem toRat_fone : toRat .binary64 (fone .binary64) = 1 := by
  rw [toRat, show quanta .binary64 (fone .binary64) = 2 ^ quantumExp .binary64 from by decide +kernel]
  push_cast
  exact div_self (by positivity)

theorem witness_SmallTransformsExact :
    let x : Nat → ℂ := fun _ => ⟨((1 : ℤ) : ℝ), ((0 : ℤ) : ℝ)⟩
    (∀ j < 4, ∃ u v : ℤ, |u| ≤ 2 ^ 16 ∧ |v| ≤ 2 ^ 16 ∧ x j = ⟨(u : ℝ), (v : ℝ)⟩) ∧
    RepresentsAll .binary64 4 (List.replicate 4 ⟨fone .binary64, fzero⟩) x ∧ ∃ y, ForwardDft 4 x y := by
  refine ⟨fun j _ => ⟨1, 0, by norm_num, by norm_num, rfl⟩, ⟨rfl, fun k hk => ?_⟩, _, fun k _ => rfl⟩
  have e : at0 (List.replicate 4 (⟨fone .binary64, fzero⟩ : Cx)) k = ⟨fone .binary64, fzero⟩ := by
    interval_cases k <;> rfl
  rw [e]
  refine ⟨by decide +kernel, by decide +kernel, ?_, ?_⟩
  · rw [toRat_fone]; norm_num
  · have : toRat .binary64 fzero = 0 := by
      rw [toRat, show quanta .binary64 fzero = 0 from by decide +kernel]; simp
    rw [this]; norm_num

/-- A prime size, a composite one, and each quarter turn. -/
theorem witness_PrimeTransform : Nat.Prime 3 ∧ [czero, czero, czero].length = 3 ∧ 2 < 3 ∧ 1 ≤ 6 ∧ 2 ≤ 6 ∧ 3 < 6 ∧
    0 < 8 ∧ 4 * 2 = 8 ∧ 2 * 4 = 8 ∧ 4 * 6 = 3 * 8 ∧ 6 < 8 :=
  ⟨Nat.prime_three, rfl, by decide, by decide, by decide, by decide, by decide, rfl, rfl, rfl, by decide⟩

theorem witness_ForwardOfImpulse : 0 < 1 ∧ 5 < 6 := by decide

theorem witness_StageChecks :
    let s := mem (cx [(n64 1, 0), (n64 2, 0)])
    (isNext (exec (.cepFold 1 2) s) = true ∧ (nx (exec (.cepFold 1 2) s)).cp = s.cp + 4) ∧
    (isNext (exec (.cepPol 1 0 2) s) = true ∧ (nx (exec (.cepPol 1 0 2) s)).cp = s.cp + 4) := by decide +kernel

/-- For `CEP.LOG`, `CEP.FOLD`, `CEP.EXP` and `MS.RMS`; and, with the second buffer just behind the first or just before it,
for `CEP.POL` and `CEP.XPH`. -/
theorem witness_stage_operands : (4 : Word) ≠ 0 ∧ (56 : Word).toNat % 2 = 0 ∧
    (56 : Word).toNat + 2 * (4 : Word).toNat ≤ State.reset.cfg.dmSize ∧
    (0 : Word).toNat % 2 = 0 ∧ (8 : Word).toNat % 2 = 0 ∧
    (8 : Word).toNat + 2 * (4 : Word).toNat ≤ State.reset.cfg.dmSize ∧
    (0 : Word).toNat + 2 * (4 : Word).toNat ≤ (8 : Word).toNat := by decide

/-- A value of zeros; a large real part, at the bound and infinite, with a zero imaginary part. -/
theorem witness_CepExpRule : (0 : Nat) < 1 ∧ (mem [0, 0]).cxAt 0 0 = ⟨fzero, fzero⟩ ∧
    fle .binary64 (i2f .binary64 710) ((mem [n64 710, 0]).cxAt 0 0).re = true ∧
    fle .binary64 (i2f .binary64 710) ((mem [finf .binary64 false, 0]).cxAt 0 0).re = true ∧
    isZero .binary64 ((mem [n64 710, 0]).cxAt 0 0).im = true ∧
    fle .binary32 (i2f .binary32 89) ((mem32 [i2f .binary32 89, 0]).cxAt 0 0).re = true := by decide +kernel

/-- Outputs at the end of `DM`, both selected; work memory just enough. -/
theorem witness_HdCommands :
    let fs := fsize (8 : Word).toNat false 0
    (8 : Word) ≠ 0 ∧ fs < 2 ^ 31 ∧ (56 : Word).toNat + (8 : Word).toNat ≤ State.reset.cfg.dmSize ∧
    (48 : Word).toNat + (8 : Word).toNat ≤ State.reset.cfg.dmSize ∧
    (48 : Word).toNat + 2 * (8 : Word).toNat ≤ State.reset.cfg.dmSize ∧
    2 * fs ≤ State.reset.cfg.wcap ∧ lpf fs ≤ State.reset.cfg.rmax := by decide +kernel

/-- Two buffers side by side that hold one padded Signal. -/
theorem witness_HdCommands_stages :
    let x := [n64 1, n64 2, n64 3]
    let s := mem (cx [(n64 1, 0), (n64 2, 0), (n64 3, 0), (0, 0), (n64 1, 0), (n64 2, 0), (n64 3, 0), (0, 0)])
    let fs := (4 : Word).toNat
    (4 : Word) ≠ 0 ∧ lpf fs ≤ s.cfg.rmax ∧ (0 : Word).toNat % 2 = 0 ∧ (8 : Word).toNat % 2 = 0 ∧
    (0 : Word).toNat + 2 * fs ≤ s.cfg.dmSize ∧ (8 : Word).toNat + 2 * fs ≤ s.cfg.dmSize ∧
    (0 : Word).toNat + 2 * fs ≤ (8 : Word).toNat ∧
    ∀ k < fs, s.cxAt (0 : Word).toNat k = ⟨x.getD k fzero, fzero⟩ ∧ s.cxAt (8 : Word).toNat k = ⟨x.getD k fzero, fzero⟩ := by
  decide +kernel

/-- Both outputs at the end of `DM`; the minimum-phase output alone where the other would pass the end. -/
theorem witness_HdOfImpulse :
    let s := mem [n64 1, 0, 0, 0]
    let fs := fsize (4 : Word).toNat false 1
    (4 : Word) ≠ 0 ∧ fs < 2 ^ 31 ∧ ispow2 fs = true ∧ (0 : Word).toNat + (4 : Word).toNat ≤ s.cfg.dmSize ∧
    (56 : Word).toNat + 2 * (4 : Word).toNat ≤ s.cfg.dmSize ∧ (60 : Word).toNat + (4 : Word).toNat ≤ s.cfg.dmSize ∧
    s.cfg.dmSize < (60 : Word).toNat + 2 * (4 : Word).toNat ∧ 2 * fs ≤ s.cfg.wcap ∧ 2 ≤ s.cfg.rmax ∧
    s.dmElem (0 : Word).toNat = fone s.cfg.fmt ∧
    ∀ i < (4 : Word).toNat, 0 < i → s.dmElem ((0 : Word).toNat + i) = fzero := by decide +kernel

/-- Each fault clause of `RmsCommand`: no values, an odd base, a range one past the end. -/
theorem witness_RmsCommand : (0 : Word) = 0 ∧ (1 : Word) ≠ 0 ∧ (1 : Word).toNat % 2 ≠ 0 ∧
    State.reset.cfg.dmSize < (64 : Word).toNat + 2 * (1 : Word).toNat := by decide

/-- The level's cases: an empty band, a band with bins; a harmonic number of each form, at the bound. -/
theorem witness_RmsCommand_level :
    let p : BandParams := ⟨n64 8, n64 1, n64 3, n64 1⟩
    let q : BandParams := ⟨n64 8, n64 3, n64 2, n64 1⟩
    bins (bandLow .binary64 8 q) (bandHigh .binary64 8 q) = [] ∧
    bandHigh .binary64 8 p = some 3 ∧ bins (bandLow .binary64 8 p) (bandHigh .binary64 8 p) = [1, 2, 3] ∧
    1 ≤ 32 ∧ 32 ≤ 32 ∧ 32 < 33 ∧ (0 : Nat) < [n64 1].length := by decide +kernel

theorem witness_BandRule : 2 ^ 31 - 1 < 2 ^ 31 ∧
    isNaN .binary64 (fdiv .binary64 (fmul .binary64 fzero (i2f .binary64 8)) fzero) = true := by
  refine ⟨by decide, ?_⟩
  rw [show fmul .binary64 fzero (i2f .binary64 8) = fzero from by decide +kernel, fdiv]
  simp only [show isNaN .binary64 fzero = false from by decide +kernel,
    show isInf .binary64 fzero = false from by decide +kernel, show isZero .binary64 fzero = true from by decide +kernel,
    Bool.or_self, Bool.false_eq_true, if_false, if_true]
  exact isNaN_nanOf ..

/-- The parameters of the band of `witness_RmsOfOnes`, and its spectrum of ones. -/
def ones : State := ((mem (cx [(n64 1, 0), (n64 1, 0)])).setSreg 0 (n64 1)).setSreg 2 (n64 1)

theorem witness_RmsOfOnes : (2 : Word) ≠ 0 ∧ (2 : Word).toNat ≤ 2 ^ 24 ∧ (0 : Word).toNat % 2 = 0 ∧
    (0 : Word).toNat + 2 * (2 : Word).toNat ≤ ones.cfg.dmSize ∧
    (∀ k < (2 : Word).toNat, ones.cxAt (0 : Word).toNat k = ⟨fone ones.cfg.fmt, fzero⟩) ∧
    isZero ones.cfg.fmt (ones.sreg regWexp) = true ∧
    bins (bandLow ones.cfg.fmt 2 ones.bandParams) (bandHigh ones.cfg.fmt 2 ones.bandParams) ≠ [] := by decide +kernel

/-- Both modes at the end of `DM`, the work memory just enough; and an all-zero Signal. -/
theorem witness_ShaperCommands :
    let fs := fsize (16 : Word).toNat true 0
    let gs := fsize (8 : Word).toNat true 0
    (16 : Word) ≠ 0 ∧ fs < 2 ^ 31 ∧ (48 : Word).toNat + (16 : Word).toNat ≤ State.reset.cfg.dmSize ∧
    fs ≤ State.reset.cfg.wcap ∧ lpf fs ≤ State.reset.cfg.rmax ∧ 2 * gs ≤ State.reset.cfg.wcap ∧
    (∀ i < (8 : Word).toNat, isZero .binary64 ((mem (List.replicate 8 0)).dmElem ((0 : Word).toNat + i)) = true) := by
  decide +kernel

/-- For both curves: a magnitude at the start level and one on its near side; a start fraction that gives the hard limit; a
NaN. -/
theorem witness_ShaperCurves :
    let f := Fmt.binary64
    let nan := 0x7FF8000000000000#64
    flt f fzero half = true ∧ flt f half (fone f) = true ∧
    (let s := fdiv f (n64 1) half;
      flt f fzero (fsub f s (n64 1)) = true ∧ flt f (n64 2) s = false ∧ flt f (n64 1) s = true) ∧
    (let s := fmul f half (n64 2);
      flt f fzero (fsub f (n64 2) s) = true ∧ flt f s (n64 1) = false ∧ flt f s (n64 2) = true) ∧
    flt f (fone f) (fone f) = false ∧ isNaN f nan = true ∧ isFinite f (n64 3) = true := by decide +kernel

theorem toRat_n64_one : toRat .binary64 (n64 1) = 1 := by
  rw [show n64 1 = fone .binary64 from by decide +kernel, toRat_fone]

theorem witness_CurvesFollowIdeal :
    let f := Fmt.binary64
    (let s := fdiv f (n64 1) half;
      let d := fsub f s (n64 1);
      isFinite f (n64 1) = true ∧ isFinite f s = true ∧ flt f fzero half = true ∧ flt f half (fone f) = true ∧
        flt f fzero d = true ∧ 0 ≤ toRat f (n64 1) ∧ flt f (n64 1) s = true ∧ ∃ c, IdealDip (toRat f s) (toRat f d) c) ∧
    (let s := fmul f half (n64 2);
      let d := fsub f (n64 2) s;
      isFinite f (n64 2) = true ∧ flt f fzero d = true ∧ isFinite f (n64 3) = true ∧ flt f s (n64 3) = true ∧
        isFinite f (fdiv f (fsub f (n64 3) s) d) = true ∧ isFinite f (peakCurve f (n64 2) half (n64 3)) = true ∧
        ∃ c, IdealPeak (toRat f s) (toRat f d) c) ∧ (0 : ℝ) < 1 :=
  ⟨⟨by decide +kernel, by decide +kernel, by decide +kernel, by decide +kernel, by decide +kernel,
      by rw [toRat_n64_one]; norm_num, by decide +kernel, _, fun _ => rfl⟩,
    ⟨by decide +kernel, by decide +kernel, by decide +kernel, by decide +kernel, by decide +kernel, by decide +kernel,
      _, fun _ => rfl⟩, one_pos⟩

/-- A transform of size 7 on a machine with `RMAX = 5`; decompositions and reshapings beyond the work memory. -/
theorem witness_AllocLeaves :
    ((7 : Word) ≠ 0 ∧ (50 : Word).toNat % 2 = 0 ∧ (50 : Word).toNat + 2 * (7 : Word).toNat ≤ State.reset.cfg.dmSize ∧
      State.reset.cfg.rmax < lpf (7 : Word).toNat) ∧
    (∀ i ∈ [Instr.hdDec ⟨true, 0, true, true⟩ 9 0 0, .hdDech ⟨true, 0, true, true⟩ 7 0 0,
        .msDip ⟨true, 0, true, false⟩ 9 0 0, .msFlat ⟨true, 0, false, false⟩ 7 0 0],
      isNext (exec i State.reset) = true ∧ State.reset.fault = false ∧ (nx (exec i State.reset)).fault = true ∧
        (nx (exec i State.reset)).fcode = .alloc) := by decide +kernel

/-- A precise fault, at a fetch, and an `E_ALLOC`; with the interrupt enabled. -/
theorem witness_FaultEntry :
    ∀ s ∈ [{ State.reset with run := true, cp := 2, ie := 4 }, { running 0x10 7 0 0 with ie := 4 }],
      s.run = true ∧ s.inbox = [] ∧ s.fault = false ∧ isNext (step s) = true ∧ (nx (step s)).fault = true ∧
        bit s.ie 2 = true := by decide +kernel

theorem witness_FaultsFromDescriptor :
    let s := mem [n64 1]
    let s' := mem [n64 2]
    s ≠ s' ∧ s.cfg = s'.cfg ∧ s.cp = s'.cp ∧ s.fault = false ∧ s'.fault = false ∧
    isNext (exec (.cepFold 0 0) s) = true ∧ isNext (exec (.cepFold 0 0) s') = true ∧
    (nx (exec (.cepFold 0 0) s)).fault = true := by decide +kernel

theorem witness_FaultReturn :
    (faulted [.write .regs 4 1]).fault = true ∧ (faulted [.write .regs 4 1]).run = false ∧
    (faulted [.write .regs 8 4, .write .regs 4 1]).fault = true := by decide

/-- Steps of each kind the whole-machine rules tell apart: a command that completes, a fault, `END`, an accepted start, a
write of `CP`, of `STATUS` and of `FAULT_CP`, reset. -/
theorem witness_steps :
    (∀ s ∈ [running 0 0 0 0, running 0x10 0 0 0, running 1 0 0 0, moves [.write .regs 4 1], moves [.write .regs 0x10 8],
        { moves [.write .regs 8 14] with done := true, fault := true, fcode := .addr, loglim := true },
        moves [.write .regs 0x14 3], { running 0 0 0 0 with inbox := [.reset] }], isNext (step s) = true) ∧
    (nx (step (running 0 0 0 0))).cp = 4 ∧ (nx (step (running 0x10 0 0 0))).fault = true ∧
    (nx (step (running 1 0 0 0))).done = true ∧ (nx (step (moves [.write .regs 4 1]))).run = true ∧
    (nx (step (moves [.write .regs 0x10 8]))).cp = 8 ∧
    (let t := nx (step { moves [.write .regs 8 14] with done := true, fault := true, fcode := .addr, loglim := true });
      t.done = false ∧ t.fault = false ∧ t.fcode = .none ∧ t.loglim = false) ∧
    (nx (step { running 0 0 0 0 with inbox := [.reset] })).run = false := by decide +kernel

theorem witness_events :
    AcceptedStart (moves [.write .regs 4 1]) ∧ EngineRuns (running 1 0 0 0) .endList ∧ Resets (moves [.reset]) ∧
    HostWrites (moves [.write .regs 8 2]) 8 2 ∧ bit 2 1 = true ∧ HostWrites (faulted [.write .regs 4 1]) 4 1 ∧
    EngineTurn (running 0x10 0 0 0) :=
  ⟨⟨1, rfl, by decide +kernel, rfl, rfl⟩, ⟨⟨rfl, .inl rfl⟩, by
    have : (running 1 0 0 0).fetch.toOption = some .endList := by decide +kernel
    cases h : (running 1 0 0 0).fetch with
    | ok i => rw [h] at this; exact congrArg Except.ok (Option.some.inj this)
    | error e => rw [h] at this; cases this⟩, rfl, rfl, by decide +kernel, rfl, ⟨rfl, .inl rfl⟩⟩

/-- A step that sets `LOGLIM`. -/
theorem witness_LoglimBit :
    let s := { running 0x20 1 0 0 with dm := cellsAt 0 (List.replicate 16 0) }
    isNext (step s) = true ∧ s.loglim = false ∧ (nx (step s)).loglim = true := by decide +kernel

theorem witness_CommandsRead :
    let s := mem [n64 1, 0]
    let s' := { s with twN := 9, ie := 14, loglim := true }
    s.cfg = s'.cfg ∧ s.regs = s'.regs ∧ s.cp = s'.cp ∧ s.dm = s'.dm ∧ s.draws = s'.draws ∧
    isNext (exec (.fftFwd 1 0) s) = true ∧ isNext (exec (.fftFwd 1 0) s') = true := by decide +kernel

theorem witness_CommandFrame : isNext (exec (.sets 10 1 2) State.reset) = true ∧
    (nx (exec (.sets 10 1 2) State.reset)).sreg 10 ≠ State.reset.sreg 10 ∧ Instr.sets 10 1 2 ≠ .endList := by
  decide +kernel

theorem witness_RunEnds : (running 0 0 0 0).cfg.Ok ∧ (running 0 0 0 0).run = true ∧ (running 0 0 0 0).fault = false ∧
    (running 0 0 0 0).inbox = [] ∧ core.run 0 (running 0 0 0 0) = .next (running 0 0 0 0) ∧
    isNext (step (running 0 0 0 0)) = true ∧ (nx (step (running 0 0 0 0))).fault = false :=
  ⟨by decide, rfl, rfl, rfl, rfl, by decide +kernel, by decide +kernel⟩

theorem witness_InvStep : Inv (running 0 0 0 0) ∧ isNext (step (running 0 0 0 0)) = true :=
  ⟨⟨by decide, by decide, by decide, by decide +kernel, by decide +kernel, by decide, by decide, by decide, by decide,
    by decide +kernel⟩, by decide +kernel⟩

theorem witness_DecodeEncode : (Instr.msDip ⟨false, 15, true, true⟩ 0xFFFFFFFF 0 1).wellFormed = true ∧
    (Instr.sets 10 0 0).wellFormed = true := by decide

/-- A control word that no row has, and one of a reserved row. -/
theorem witness_IllegalControlWords : ∀ w ∈ [0x8033, 0x8031, 0x002C0002],
    let s := running w 0 0 0
    s.run = true ∧ s.inbox = [] ∧ s.fetchOk = true ∧ wordOf s.fetched = BitVec.ofNat 32 w ∧
      (field (BitVec.ofNat 32 w) 15 15 ≠ 0 ∨ 10 < field (BitVec.ofNat 32 w) 21 18) := by decide +kernel

theorem witness_OpcodeRows : decodeWords 0x00030228 4 0 16 = .ok (.hdDec ⟨false, 1, true, true⟩ 4 0 16) := rfl

theorem witness_IgnoredWords : field 0 7 0 = 0x00 ∧ field 1 7 0 = 0x01 ∧ field 0x00280002 7 0 = 0x02 ∧
    field 0x30 7 0 ∈ [0x10, 0x11, 0x12, 0x13, 0x20, 0x21, 0x22, 0x30] ∧ (mem32 []).cfg.fmt = .binary32 ∧
    (10#4).toNat ≤ 10 := by decide +kernel

/-- Finite operands; a NaN, infinities of both signs, zeros, a negative value. -/
theorem witness_BasicOpsRounded : isFinite .binary64 (n64 1) = true ∧ isFinite .binary64 (n64 3) = true ∧
    isZero .binary64 (n64 3) = false ∧ 0 ≤ toRat .binary64 (fone .binary64) ∧
    isNaN .binary64 0x7FF8000000000000#64 = true ∧ isInf .binary64 (finf .binary64 true) = true ∧
    isInf .binary64 (finf .binary64 false) = true ∧ isZero .binary64 (pack .binary64 true 0) = true ∧
    flt .binary64 (m64 1) fzero = true ∧ feq .binary64 (n64 3) (fone .binary64) = false :=
  ⟨by decide +kernel, by decide +kernel, by decide +kernel, by rw [toRat_fone]; norm_num, by decide +kernel,
    by decide +kernel, by decide +kernel, by decide +kernel, by decide +kernel, by decide +kernel⟩

theorem witness_IntegerConversion : 2 ^ 32 - 1 < 2 ^ 32 ∧ 2 ^ 24 ≤ 2 ^ 24 := by decide

theorem witness_ExactValues : flt .binary64 fzero (n64 1) = true ∧ flt .binary64 (m64 1) fzero = true := by decide +kernel

theorem witness_ClampedLog : (logc .binary64 fzero).2 = true ∧ (logc .binary64 (m64 2)).2 = true ∧
    (logc .binary64 (n64 2)).2 = false ∧ isNaN .binary64 0x7FF8000000000000#64 = true := by decide +kernel

theorem witness_ComplexNumerics : isFinite .binary64 (n64 2) = true ∧ isZero .binary64 fzero = true ∧
    isZero .binary64 (pack .binary64 true 0) = true := by decide +kernel

theorem witness_IntegerHelpers : 2 ≤ 2 ∧ Nat.Prime 2 ∧ 2 ∣ 2 ∧ 1 ≤ 1 ∧ ispow2 1 = true ∧ 1 ≤ 1 ∧ (0x10001 : Word) ≠ 0 ∧
    2 ^ 31 ≤ fsize (0x10001 : Word).toNat false 15 :=
  ⟨le_refl 2, Nat.prime_two, dvd_refl 2, le_refl 1, by decide, le_refl 1, by decide, by decide +kernel⟩

theorem witness_DigitReversal : 2 ≤ 6 ∧ 5 < 6 ∧ 1 ≤ 1 ∧ 7 < 2 ^ 3 ∧ 2 < 3 := by decide

/-- A start that is accepted, and the three ways it is not; the offsets of no register next to those of one; accesses. -/
theorem witness_RegisterBlock : bit 1 0 = true ∧ State.reset.run = false ∧ State.reset.fault = false ∧
    bit 0xFFFFFFFE 0 = false ∧ (running 0 0 0 0).run = true ∧ (faulted []).fault = true ∧
    (∀ off ∈ [0x34, 0x3C, 0x98], off % 4 = 0 ∧ 0x34 ≤ off ∧ (off < 0x40 ∨ 0x98 ≤ off)) ∧
    (moves [.write .regs 0x10 8]).inbox = [.write .regs 0x10 8] ∧ (moves [.read .regs 0x98]).inbox = [.read .regs 0x98] := by
  decide +kernel

theorem witness_WritesDuringRun :
    let s := { running 0 0 0 0 with inbox := [.read .regs 0x94] }
    s.run = true ∧ 0x40 ≤ 0x94 ∧ 0x94 < 0x98 ∧ 0x94 % 4 = 0 ∧ s.inbox = [.read .regs 0x94] := by decide

theorem witness_formats : (mem []).run = false ∧ (mem []).cfg.fmt = .binary64 ∧ (mem32 []).run = false ∧
    (mem32 []).cfg.fmt = .binary32 ∧ (1 : Nat) ≠ 0 := by decide

/-- An access during a run; the last word of `DM` and the first beyond it, the last byte and the first beyond it; a misaligned
offset; a byte access to the register block. -/
theorem witness_MemoryAccess :
    let size := State.reset.cfg.dmSize * fbytes State.reset.cfg.fmt
    let s := { moves [.write .dm 508 7] with run := true }
    Region.dm ∈ [Region.dm, .cm] ∧ 508 % 4 = 0 ∧ s.run = true ∧ s.inbox = [.write .dm 508 7] ∧
    (moves [.write .dm 508 7]).run = false ∧ 508 + 4 ≤ size ∧ size < 512 + 4 ∧ 511 < size ∧ size ≤ 512 ∧ 510 % 4 ≠ 0 ∧
    (moves [.read .dm 508]).inbox = [.read .dm 508] ∧ (moves [.writeByte .cm 3 7]).inbox = [.writeByte .cm 3 7] ∧
    (moves [.readByte .regs 8]).inbox = [.readByte .regs 8] := by decide +kernel

theorem witness_ResetMove : (moves [.reset, .engine]).inbox = [.reset, .engine] := rfl

end Sys2Proof.Tests
end

section
/-! PROOFS. The bits of a word, `STATUS` as a number, and what a write of the register block does to each field. -/

namespace Sys2Proof

/-- A bit read as a number: the form in which `omega` decides the bits of a sum. -/
theorem bit_eq_iff (w : Word) (k : Nat) (c : Bool) : bit w k = c ↔ w.toNat / 2 ^ k % 2 = c.toNat := by
  have hk : k + 1 - k = 1 := by omega
  cases c <;> simp [bit, field, hk]

theorem bit_eq_getLsbD (w : Word) (k : Nat) : bit w k = w.getLsbD k := by
  rw [bit_eq_iff, BitVec.getLsbD, Nat.testBit_eq_decide_div_mod_eq]
  rcases Nat.mod_two_eq_zero_or_one (w.toNat / 2 ^ k) with h | h <;> simp [h]

/-- The mask of `IE` keeps bits 3 to 1 (R42). -/
theorem bit_and_ieMask (w : Word) (k : Nat) : bit (w &&& 0xE#32) k = true ↔ bit w k = true ∧ k ∈ [1, 2, 3] := by
  have mask : (0xE#32).getLsbD k = true ↔ k ∈ [1, 2, 3] := by
    by_cases hk : k < 32
    · exact (by decide : ∀ k < 32, (0xE#32).getLsbD k = true ↔ k ∈ [1, 2, 3]) k hk
    · have high : (0xE#32).getLsbD k = false := BitVec.getLsbD_of_ge _ _ (by omega)
      simp [high]
      omega
  simp only [bit_eq_getLsbD, BitVec.getLsbD_and, Bool.and_eq_true, mask]

end Sys2Proof

namespace Sys2Proof.Machine

/-! ## `STATUS` and `IRQ` (R36, R52) -/

theorem FCode.code_lt (c : FCode) : c.code < 16 := by cases c <;> decide

/-- The fields of `STATUS` do not overlap and fit the word. -/
theorem State.status_toNat (s : State) :
    s.status.toNat =
      s.run.toNat + 2 * s.done.toNat + 4 * s.fault.toNat + 8 * s.loglim.toNat + 256 * s.fcode.code := by
  have := s.fcode.code_lt
  have := s.run.toNat_le
  have := s.done.toNat_le
  have := s.fault.toNat_le
  have := s.loglim.toNat_le
  rw [State.status, BitVec.toNat_ofNat]
  exact Nat.mod_eq_of_lt (by omega)

section StatusFields

variable (s : State)

theorem State.bit_status_run : bit s.status 0 = s.run := by
  rw [bit_eq_iff, s.status_toNat]
  have := s.run.toNat_le
  omega

theorem State.bit_status_done : bit s.status 1 = s.done := by
  rw [bit_eq_iff, s.status_toNat]
  have := s.run.toNat_le
  have := s.done.toNat_le
  omega

theorem State.bit_status_fault : bit s.status 2 = s.fault := by
  rw [bit_eq_iff, s.status_toNat]
  have := s.run.toNat_le
  have := s.done.toNat_le
  have := s.fault.toNat_le
  omega

theorem State.bit_status_loglim : bit s.status 3 = s.loglim := by
  rw [bit_eq_iff, s.status_toNat]
  have := s.run.toNat_le
  have := s.done.toNat_le
  have := s.fault.toNat_le
  have := s.loglim.toNat_le
  omega

/-- The reserved bits, and `FCODE` in its field. -/
theorem State.field_status :
    field s.status 7 4 = 0 ∧ field s.status 31 12 = 0 ∧ field s.status 11 8 = s.fcode.code := by
  have := s.fcode.code_lt
  have := s.run.toNat_le
  have := s.done.toNat_le
  have := s.fault.toNat_le
  have := s.loglim.toNat_le
  simp only [field, s.status_toNat]
  omega

end StatusFields

/-- A write of `STATUS`, field by field (R36, R38 to R40). -/
theorem State.writeStatus_eq (s : State) (w : Word) :
    s.writeStatus w = { s with
      done := s.done && !bit w 1
      fault := s.fault && !bit w 2
      fcode := if bit w 2 then .none else s.fcode
      loglim := s.loglim && !bit w 3 } := by
  cases h1 : bit w 1 <;> cases h2 : bit w 2 <;> cases h3 : bit w 3 <;>
    simp [State.writeStatus, State.clearFault, h1, h2, h3]

/-- `IRQ` reads the bits of `STATUS` against those of `IE`. -/
theorem State.irq_iff (s : State) :
    s.irq = true ↔ ∃ b ∈ [1, 2, 3], bit s.status b = true ∧ bit s.ie b = true := by
  simp [State.irq, s.bit_status_done, s.bit_status_fault, s.bit_status_loglim, or_assoc]

/-! ## The register block (R46, R47) -/

/-- No scalar register's window lies below `0x40` or from `0x98` on. -/
theorem sWindow_eq_none {off : Nat} (h : off < 0x40 ∨ 0x98 ≤ off) : sWindow off = none :=
  dif_neg (by omega)

theorem sWindow_eq_some {off : Nat} (h : 0x40 ≤ off) (h' : off < 0x98) :
    ∃ i high, sWindow off = some (i, high) := ⟨_, _, dif_pos ⟨h, h'⟩⟩

theorem capWord_eq (v : Nat) : capWord v = if v < 2 ^ 32 then BitVec.ofNat 32 v else 0xFFFFFFFF#32 := by
  by_cases h : v < 2 ^ 32
  · rw [capWord, if_pos h, if_neg (by omega)]
  · rw [capWord, if_neg h, if_pos (by omega)]

@[simp] theorem State.regWrite_ctrl (s : State) (w : Word) : s.regWrite 0x04 w = s.writeCtrl w := rfl

@[simp] theorem State.regWrite_status (s : State) (w : Word) : s.regWrite 0x08 w = s.writeStatus w := rfl

@[simp] theorem State.regWrite_ie (s : State) (w : Word) : s.regWrite 0x0C w = { s with ie := w &&& 0xE#32 } := rfl

@[simp] theorem State.regWrite_cp (s : State) (w : Word) :
    s.regWrite 0x10 w = if s.run then s else { s with cp := w } := rfl

/-- A write of a window, which a run drops (R54). -/
theorem State.regWrite_window {off : Nat} {i : SReg} {high : Bool} (h : sWindow off = some (i, high)) (s : State)
    (w : Word) : s.regWrite off w = if s.run then s else s.writeWindow i high w := by
  have ne : off ≠ 0x04 ∧ off ≠ 0x08 ∧ off ≠ 0x0C ∧ off ≠ 0x10 := by
    refine ⟨?_, ?_, ?_, ?_⟩ <;> rintro rfl <;> cases h
  obtain ⟨n4, n8, nC, n10⟩ := ne
  simp only [State.regWrite, h, n4, n8, nC, n10, if_false]

/-- A write of a read-only register or of no register is ignored. -/
theorem State.regWrite_ignored {off : Nat} (hw : sWindow off = none) (ho : off ∉ [0x04, 0x08, 0x0C, 0x10]) (s : State)
    (w : Word) : s.regWrite off w = s := by
  simp only [List.mem_cons, List.not_mem_nil, or_false, not_or] at ho
  obtain ⟨n4, n8, nC, n10⟩ := ho
  simp only [State.regWrite, hw, n4, n8, nC, n10, if_false]

/-- The offsets of the registers that a write does not reach (R46, R47). -/
def readOnlyOffsets : List Nat := [0x00, 0x14, 0x18, 0x1C, 0x20, 0x24, 0x28, 0x2C, 0x30]

theorem State.regWrite_readOnly {off : Nat} (h : off ∈ readOnlyOffsets) (s : State) (w : Word) :
    s.regWrite off w = s := by
  have place : ∀ off ∈ readOnlyOffsets, sWindow off = none ∧ off ∉ [0x04, 0x08, 0x0C, 0x10] := by decide
  obtain ⟨hw, ho⟩ := place off h
  exact State.regWrite_ignored hw ho s w

/-- An offset past the named registers and outside the windows reads 0. -/
theorem State.regRead_none {off : Nat} (hw : sWindow off = none) (ho : 0x34 ≤ off) (s : State) : s.regRead off = 0 := by
  have ne : ∀ k < 0x34, off ≠ k := fun k hk => by omega
  simp [State.regRead, hw, ne]

/-- A write of a window reaches the scalar registers and `SLATCH` alone. -/
theorem State.writeWindow_frame (s : State) (i : SReg) (high : Bool) (w : Word) :
    s.writeWindow i high w =
      { s with regs := (s.writeWindow i high w).regs, slatch := (s.writeWindow i high w).slatch } := by
  unfold State.writeWindow
  split <;> rfl

/-- Everything a write of the register block can do, by the register written. -/
theorem State.regWrite_cases (s : State) (off : Nat) (w : Word) :
    (off = 0x04 ∧ s.regWrite off w = s.writeCtrl w) ∨
    (off = 0x08 ∧ s.regWrite off w = s.writeStatus w) ∨
    (off = 0x0C ∧ s.regWrite off w = { s with ie := w &&& 0xE#32 }) ∨
    (off = 0x10 ∧ s.regWrite off w = if s.run then s else { s with cp := w }) ∨
    (off ∉ [0x04, 0x08, 0x0C, 0x10] ∧
      s.regWrite off w = { s with regs := (s.regWrite off w).regs, slatch := (s.regWrite off w).slatch }) := by
  by_cases ho : off ∈ [0x04, 0x08, 0x0C, 0x10]
  · simp only [List.mem_cons, List.not_mem_nil, or_false] at ho
    rcases ho with rfl | rfl | rfl | rfl
    · exact .inl ⟨rfl, rfl⟩
    · exact .inr (.inl ⟨rfl, rfl⟩)
    · exact .inr (.inr (.inl ⟨rfl, rfl⟩))
    · exact .inr (.inr (.inr (.inl ⟨rfl, rfl⟩)))
  · refine .inr (.inr (.inr (.inr ⟨ho, ?_⟩)))
    cases hw : sWindow off with
    | none => rw [State.regWrite_ignored hw ho]
    | some window =>
      obtain ⟨i, high⟩ := window
      rw [State.regWrite_window hw]
      split
      · rfl
      · exact s.writeWindow_frame i high w

theorem State.writeWindow_inbox (s : State) (m : List HostMove) (i : SReg) (high : Bool) (w : Word) :
    State.writeWindow { s with inbox := m } i high w = { s.writeWindow i high w with inbox := m } := by
  simp only [State.writeWindow]
  split <;> rfl

/-- The register block does not look at the outside agents' moves. -/
theorem State.regWrite_inbox (s : State) (m : List HostMove) (off : Nat) (w : Word) :
    State.regWrite { s with inbox := m } off w = { s.regWrite off w with inbox := m } := by
  by_cases ho : off ∈ [0x04, 0x08, 0x0C, 0x10]
  · simp only [List.mem_cons, List.not_mem_nil, or_false] at ho
    rcases ho with rfl | rfl | rfl | rfl
    · simp only [State.regWrite_ctrl, State.writeCtrl]
      split <;> rfl
    · simp only [State.regWrite_status, State.writeStatus_eq]
    · rfl
    · simp only [State.regWrite_cp]
      split <;> rfl
  · cases hw : sWindow off with
    | none => simp only [State.regWrite_ignored hw ho]
    | some window =>
      obtain ⟨i, high⟩ := window
      simp only [State.regWrite_window hw, State.writeWindow_inbox]
      split <;> rfl

theorem State.regRead_inbox (s : State) (m : List HostMove) (off : Nat) :
    State.regRead { s with inbox := m } off = s.regRead off := rfl

end Sys2Proof.Machine
end

section
/-! PROOFS. What a command reads (R38, R39, R45, R72, R187): the scalar registers, `CP`, `DM`, the configuration and the
draw index decide one update of the state, which takes every other field to a function of that field alone. -/

namespace Sys2Proof.Machine

/-! ## What a command reads and what it writes -/

/-- `s` with the fields that a command reads taken from `r`. -/
def State.reading (s r : State) : State :=
  { s with cfg := r.cfg, regs := r.regs, cp := r.cp, dm := r.dm, draws := r.draws }

theorem State.reading_of_eq {s r : State} (cfg : r.cfg = s.cfg) (regs : r.regs = s.regs) (cp : r.cp = s.cp)
    (dm : r.dm = s.dm) (draws : r.draws = s.draws) : s.reading r = s := by
  simp only [State.reading, cfg, regs, cp, dm, draws]

/-- What a command does to a state: new values of the fields it reads, and of every other field it can write a function
of that field's old value. -/
structure Update where
  regs : Vector Elem 11
  cp : Word
  dm : Memory
  run : Bool → Bool
  done : Bool → Bool
  fault : Bool → Bool
  loglim : Bool → Bool
  fcode : FCode → FCode
  faultCp : Word → Word
  faultInfo : Word → Word
  twN : Word → Word

def Update.apply (e : Update) (s : State) : State :=
  { s with
    regs := e.regs, cp := e.cp, dm := e.dm
    run := e.run s.run, done := e.done s.done, fault := e.fault s.fault, loglim := e.loglim s.loglim
    fcode := e.fcode s.fcode, faultCp := e.faultCp s.faultCp, faultInfo := e.faultInfo s.faultInfo, twN := e.twN s.twN }

/-- The update of a command that completes and is not `END`. -/
def Update.completion (r : State) (dm : Memory) (regs : Vector Elem 11) (twN : Word → Word)
    (loglim : Bool → Bool) : Update :=
  { regs := regs, cp := r.cp + 4, dm := dm, run := id, done := id, fault := id, loglim := loglim
    fcode := id, faultCp := id, faultInfo := id, twN := twN }

/-- The update of a fault (R283, R287). -/
def Update.trap (r : State) (f : Trap) (w : Wreck) : Update :=
  { regs := r.regs, cp := r.cp
    dm := if f.code = .alloc then forgetRanges r.cfg.fmt r.dm w.ranges else r.dm
    run := fun _ => false, done := id, fault := fun _ => true
    loglim := fun l => if f.code = .alloc then l || (w.canLog && Config.freeFlag .loglim r.draws) else l
    fcode := fun _ => f.code, faultCp := fun _ => r.cp, faultInfo := fun _ => BitVec.ofNat 32 f.info
    twN := fun x =>
      if f.code = .alloc then (if Config.freeFlag .twN r.draws then BitVec.ofNat 32 w.size else x) else x }

/-- An outcome of a command, as a function of the state, is one update on all states that read as `r`. -/
def DecidedBy (r : State) (o : State → Host.Outcome State Fault Refusal) : Prop :=
  ∃ e : Update, ∀ s : State, o (s.reading r) = .next (e.apply (s.reading r))

theorem takeFault_reading (r s : State) (f : Trap) (w : Wreck) :
    (s.reading r).takeFault f w = (Update.trap r f w).apply (s.reading r) := by
  by_cases h : f.code = .alloc
  · simp only [State.takeFault_of_alloc h, State.raise, Update.apply, Update.trap, h, if_true]
    rfl
  · simp only [State.takeFault_of_ne_alloc h, Update.apply, Update.trap, h, if_false]
    rfl

theorem decidedBy_takeFault (r : State) (f : Trap) (w : Wreck) : DecidedBy r fun s => .next (s.takeFault f w) :=
  ⟨_, fun s => congrArg _ (takeFault_reading r s f w)⟩

/-- A command is decided by what it reads when its checks and its effect are. -/
theorem decidedBy_command {r : State} (trap : Params → Option Trap) (w : Wreck) {effect : State → State} {e : Update}
    (he : ∀ s : State, (effect (s.reading r)).advance = e.apply (s.reading r)) :
    DecidedBy r fun s => s.command (trap s.cfg) w effect := by
  unfold DecidedBy
  have hcfg : ∀ s : State, (s.reading r).cfg = r.cfg := fun _ => rfl
  simp only [hcfg]
  cases trap r.cfg with
  | some f => exact decidedBy_takeFault r f w
  | none => exact ⟨e, fun s => congrArg _ (he s)⟩

/-! ## The shared effects -/

section Effects

variable (r : State)

theorem decidedBy_transform (trap : Params → Option Trap) (w : Wreck) (t : Fmt → Nat → List Cx → List Cx) (n a : Nat) :
    DecidedBy r fun s => s.command (trap s.cfg) w fun s => s.transform t n a :=
  decidedBy_command trap w
    (e := .completion r (r.transform t n a).dm r.regs (fun _ => BitVec.ofNat 32 n) id) fun _ => rfl

/-- A complex buffer computed from what the command reads. -/
theorem decidedBy_putCx (trap : Params → Option Trap) (w : Wreck) (a : Nat) (zs : State → List Cx)
    (hz : ∀ s : State, zs (s.reading r) = zs r) :
    DecidedBy r fun s => s.command (trap s.cfg) w fun s => s.putCx a (zs s) := by
  refine decidedBy_command trap w (e := .completion r (r.putCx a (zs r)).dm r.regs id id) fun s => ?_
  rw [hz]
  rfl

theorem decidedBy_stage (trap : Params → Option Trap) (w : Wreck) (n a : Nat) (map : Fmt → List Cx → List Cx)
    (clamps : Fmt → Cx → Bool) :
    DecidedBy r fun s => s.command (trap s.cfg) w fun s => s.stage n a (map s.cfg.fmt) (clamps s.cfg.fmt) :=
  decidedBy_command trap w
    (e := .completion r (r.stage n a (map r.cfg.fmt) (clamps r.cfg.fmt)).dm r.regs id
      (· || (r.cxBuffer a n).any (clamps r.cfg.fmt))) fun _ => rfl

/-- A decomposition, over the selection of its two outputs. -/
theorem decidedBy_decompose (trap : Params → Option Trap) (w : Wreck) (o : HdOpts) (hilbert : Bool) (n a b : Nat) :
    DecidedBy r fun s => s.command (trap s.cfg) w fun s => s.decompose o hilbert n a b := by
  refine decidedBy_command trap w
    (e := .completion r (r.decompose o hilbert n a b).dm r.regs (fun _ => BitVec.ofNat 32 (HdOpts.size o n))
      (· || (spectrumOf r.cfg.fmt (HdOpts.size o n) (r.signal a n)).any (logClamps r.cfg.fmt))) fun s => ?_
  obtain ⟨nopad, mexp, omp, oep⟩ := o
  cases omp <;> cases oep <;> rfl

/-- A reshaping command, whose bins are computed from what it reads. -/
theorem decidedBy_shape (trap : Params → Option Trap) (w : Wreck) (o : MsOpts) (n a b : Nat)
    (mk : State → Nat → List Cx → List ShapedBin) (hmk : ∀ s : State, mk (s.reading r) = mk r) :
    DecidedBy r fun s => s.command (trap s.cfg) w fun s => s.shape o n a b (mk s) := by
  refine decidedBy_command trap w
    (e := .completion r (r.shape o n a b (mk r)).dm r.regs (fun _ => BitVec.ofNat 32 (MsOpts.size o n))
      (· || reshapeClamps r.cfg.fmt o
        (mk r (MsOpts.size o n) (spectrumOf r.cfg.fmt (MsOpts.size o n) (r.signal a n))))) fun s => ?_
  rw [hmk]
  rfl

theorem decidedBy_setSreg (trap : Params → Option Trap) (w : Wreck) (i : SReg) (v : State → Elem)
    (hv : ∀ s : State, v (s.reading r) = v r) :
    DecidedBy r fun s => s.command (trap s.cfg) w fun s => s.setSreg i (v s) := by
  refine decidedBy_command trap w (e := .completion r r.dm (r.regs.set i (v r)) id id) fun s => ?_
  rw [hv]
  rfl

end Effects

/-! ## Every command -/

theorem decidedBy_execSets (r : State) (i : BitVec 4) (lo hi : Word) : DecidedBy r (execSets i lo hi) := by
  by_cases h : i.toNat < 11
  · refine ⟨.completion r r.dm (r.regs.set i.toNat (immediate r.cfg.fmt lo hi)) id id, fun s => ?_⟩
    rw [execSets, dif_pos h]
    rfl
  · obtain ⟨e, he⟩ := decidedBy_takeFault r ⟨.illegal, (controlOf (.sets i lo hi)).toNat⟩ Wreck.none
    exact ⟨e, fun s => (dif_neg h).trans (he s)⟩

/-- The result of a command depends on the configuration, `S`, `CP`, `DM` and the draw index, and no other field of the
state enters any field but itself. -/
theorem exec_decidedBy (i : Instr) (r : State) : DecidedBy r (exec i) := by
  cases i with
  | nop => exact ⟨.completion r r.dm r.regs id id, fun _ => rfl⟩
  | endList =>
    exact ⟨{ Update.completion r r.dm r.regs id id with run := fun _ => false, done := fun _ => true }, fun _ => rfl⟩
  | sets i lo hi => exact decidedBy_execSets r i lo hi
  | fftFwd n a => exact decidedBy_transform r (fftTrap false · n.toNat a.toNat) _ fwd ..
  | fftInv n a => exact decidedBy_transform r (fftTrap false · n.toNat a.toNat) _ inv ..
  | fftFwdP2 n a => exact decidedBy_transform r (fftTrap true · n.toNat a.toNat) _ fwd2 ..
  | fftInvP2 n a => exact decidedBy_transform r (fftTrap true · n.toNat a.toNat) _ inv2 ..
  | cepLog n a => exact decidedBy_stage r (bufferTrap · n.toNat a.toNat) _ _ _ (fun f => List.map (logBin f)) logClamps
  | cepFold n a =>
    exact decidedBy_putCx r (bufferTrap · n.toNat a.toNat) _ _
      (fun s => fold s.cfg.fmt n.toNat (s.cxBuffer a.toNat n.toNat)) fun _ => rfl
  | cepExp n a =>
    exact decidedBy_putCx r (bufferTrap · n.toNat a.toNat) _ _
      (fun s => (s.cxBuffer a.toNat n.toNat).map (cexp s.cfg.fmt)) fun _ => rfl
  | cepPol n a b =>
    exact decidedBy_putCx r (twoBufferTrap · n.toNat a.toNat b.toNat) _ _
      (fun s => List.zipWith (polBin s.cfg.fmt) (s.cxBuffer a.toNat n.toNat) (s.cxBuffer b.toNat n.toNat)) fun _ => rfl
  | cepXph n a b =>
    exact decidedBy_putCx r (twoBufferTrap · n.toNat a.toNat b.toNat) _ _
      (fun s => List.zipWith (xphBin s.cfg.fmt) (s.cxBuffer a.toNat n.toNat) (s.cxBuffer b.toNat n.toNat)) fun _ => rfl
  | hdDec o n a b => exact decidedBy_decompose r (hdTrap · o n.toNat a.toNat b.toNat) _ o false ..
  | hdDech o n a b => exact decidedBy_decompose r (hdTrap · o n.toNat a.toNat b.toNat) _ o true ..
  | msRms n a =>
    exact decidedBy_setSreg r (bufferTrap · n.toNat a.toNat) _ regLevel
      (fun s => s.level n.toNat (s.cxBuffer a.toNat n.toNat)) fun _ => rfl
  | msDip o n a b =>
    exact decidedBy_shape r (msTrap · o n.toNat a.toNat b.toNat) _ o _ _ _ State.dipBins fun _ => rfl
  | msPeak o n a b =>
    exact decidedBy_shape r (msTrap · o n.toNat a.toNat b.toNat) _ o _ _ _ State.peakBins fun _ => rfl
  | msFlat o n a b =>
    exact decidedBy_shape r (msTrap · o n.toNat a.toNat b.toNat) _ o _ _ _ State.flatBins fun _ => rfl
  | msDipLegacy o n a b => exact decidedBy_takeFault ..
  | msPeakLegacy o n a b => exact decidedBy_takeFault ..

/-- What a command did to one state, as the update it is on every state that reads the same. -/
theorem exec_update {i : Instr} {s t : State} (h : exec i s = .next t) :
    ∃ e : Update, t = e.apply s ∧ ∀ s' : State, s'.reading s = s' → exec i s' = .next (e.apply s') := by
  obtain ⟨e, he⟩ := exec_decidedBy i s
  have hs : exec i s = .next (e.apply s) := he s
  exact ⟨e, Host.Outcome.next.inj (h.symm.trans hs), fun s' hr => hr ▸ he s'⟩

end Sys2Proof.Machine

namespace Sys2Proof.Proofs

open Sys2Proof.Machine

/-- Settles O37: both states take the update that what they read decides. -/
theorem commandsRead : Obligations.CommandsRead := by
  unfold Obligations.CommandsRead
  constructor
  · intro i s t x h
    obtain ⟨e, rfl, he⟩ := exec_update h
    exact ⟨e.twN x, he { s with twN := x } rfl⟩
  · intro i s s' t t' cfg regs cp dm draws h h'
    obtain ⟨e, rfl, he⟩ := exec_update h
    have ht' := he s' (State.reading_of_eq cfg regs cp dm draws)
    rw [h'] at ht'
    cases ht'
    exact ⟨rfl, rfl, rfl⟩

end Sys2Proof.Proofs
end

section
/-! PROOFS. What a step does to the fields of control: `CP`, `RUN`, `DONE`, `FAULT`, `FCODE`, `FAULT_CP` and
`FAULT_INFO`. -/

namespace Sys2Proof.Machine

open Sys2Proof.Safety

/-! ## The step, by who moves -/

/-- An aligned write of the register block is one step that does the write and no more. -/
theorem step_of_hostWrite {s : State} {off : Nat} {w : Word} (h : HostWrites s off w) (ho : off % 4 = 0) :
    step s = .next { s.regWrite off w with inbox := s.inbox.tail, draws := s.draws + 1 } := by
  obtain ⟨rest, hb⟩ := List.head?_eq_some_iff.mp h
  have hd : State.denied { s with inbox := rest } .regs off 4 = none := by simp [State.denied, State.inAperture, ho]
  have hdraws := State.putWord_draws { s with inbox := rest } .regs off w
  simp only [State.putWord, State.regWrite_inbox] at hdraws
  rw [step_of_move hb (by simp)]
  simp only [hostMove, State.access, hd, tick, State.putWord, State.regWrite_inbox, hb, List.tail_cons, hdraws]

/-- An aligned read of the register block is one step that answers the word and no more. -/
theorem step_of_hostRead {s : State} {off : Nat} {rest : List HostMove} (h : s.inbox = .read .regs off :: rest)
    (ho : off % 4 = 0) :
    step s = .next { s with hostData := s.regRead off, inbox := rest, draws := s.draws + 1 } := by
  have hd : State.denied { s with inbox := rest } .regs off 4 = none := by simp [State.denied, State.inAperture, ho]
  rw [step_of_move h (by simp)]
  simp only [hostMove, State.access, hd, tick, State.hostWord, State.regRead_inbox]

/-- The engine's turn in a run is one engine step. -/
theorem step_of_engineTurn {s : State} (h : EngineTurn s) :
    step s = tick (engineStep { s with inbox := s.inbox.tail }) := by
  obtain ⟨hrun, hturn⟩ := h
  rw [step_of_turn hturn, engineTurn, if_pos hrun]

/-- The engine's turn on a command is the command, and no more but the draw index. -/
theorem step_of_engineRuns {s : State} {i : Instr} (h : EngineRuns s i) :
    step s = tick (exec i { s with inbox := s.inbox.tail }) := by
  obtain ⟨hturn, hfetch⟩ := h
  rw [step_of_engineTurn hturn, engineStep, State.fetch_inbox, hfetch]

/-! ## The fields of control -/

/-- A step that leaves the fields of control. -/
structure ControlKept (s t : State) : Prop where
  cp : t.cp = s.cp
  run : t.run = s.run
  done : t.done = s.done
  fault : t.fault = s.fault
  fcode : t.fcode = s.fcode
  faultCp : t.faultCp = s.faultCp
  faultInfo : t.faultInfo = s.faultInfo

/-- The fields of control after a fault of the engine (R283). -/
structure FaultTaken (s t : State) : Prop where
  cp : t.cp = s.cp
  run : t.run = false
  done : t.done = s.done
  fault : t.fault = true
  fcode : t.fcode ≠ .none
  faultCp : t.faultCp = s.cp

/-- The fields of control after a command of the engine that completes (R35). -/
structure CommandDone (i : Instr) (s t : State) : Prop where
  cp : t.cp = s.cp + 4
  run : i ≠ .endList → t.run = s.run
  done : i ≠ .endList → t.done = s.done
  fault : t.fault = s.fault
  faultCp : t.faultCp = s.faultCp
  faultInfo : t.faultInfo = s.faultInfo

/-- Everything that can happen to the fields of control in a step from `s` to `t`. -/
inductive ControlEvent (s t : State) : Prop where
  | fault (turn : EngineTurn s) (taken : FaultTaken s t)
  | command (i : Instr) (runs : EngineRuns s i) (done : CommandDone i s t)
  | start (accepted : AcceptedStart s)
      (next : t = { s with done := false, run := true, inbox := s.inbox.tail, draws := s.draws + 1 })
  | status (w : Word) (writes : HostWrites s 0x08 w)
      (next : t = { s.writeStatus w with inbox := s.inbox.tail, draws := s.draws + 1 })
  | setCp (w : Word) (writes : HostWrites s 0x10 w) (idle : s.run = false)
      (next : t = { s with cp := w, inbox := s.inbox.tail, draws := s.draws + 1 })
  | reset (resets : Resets s)
      (next : t = { State.afterReset { s with inbox := s.inbox.tail } with draws := s.draws + 1 })
  | kept (kept : ControlKept s t)

/-- A fault, or the completion of the command fetched. -/
theorem engineTurn_cases {s t : State} (turn : EngineTurn s) (h : step s = .next t) :
    FaultTaken s t ∨ ∃ i, EngineRuns s i ∧ CommandDone i s t := by
  rw [step_of_engineTurn turn] at h
  rcases engineStep_cases { s with inbox := s.inbox.tail } with ⟨f, w, hcode, he⟩ | ⟨i, u, hfetch, he, c⟩
  · rw [he] at h
    cases h
    exact .inl ⟨by simp, by simp, by simp, by simp, by simpa using hcode, by simp⟩
  · rw [he] at h
    cases h
    exact .inr ⟨i, ⟨turn, hfetch⟩, c.cp, c.run, c.done, c.fault, c.faultCp, c.faultInfo⟩

/-- A write of `CTRL` does nothing while `RUN` or `FAULT` is set, or when bit 0 of the word is not (R41). -/
theorem State.writeCtrl_eq_self {s : State} {w : Word} (h : bit w 0 = false ∨ s.run = true ∨ s.fault = true) :
    s.writeCtrl w = s := by
  refine if_neg fun c => ?_
  rcases h with h | h | h <;> simp [h] at c

theorem State.writeCtrl_accepted {s : State} {w : Word} (hw : bit w 0 = true) (hr : s.run = false)
    (hf : s.fault = false) : s.writeCtrl w = { s with done := false, run := true } := by
  simp [State.writeCtrl, State.start, hw, hr, hf]

theorem next_of_hostWrite {s t : State} {off : Nat} {w : Word} (writes : HostWrites s off w) (ho : off % 4 = 0)
    (h : step s = .next t) : t = { s.regWrite off w with inbox := s.inbox.tail, draws := s.draws + 1 } :=
  (Host.Outcome.next.inj ((step_of_hostWrite writes ho).symm.trans h)).symm

theorem next_of_acceptedStart {s t : State} (accepted : AcceptedStart s) (h : step s = .next t) :
    t.run = true ∧ t.done = false := by
  obtain ⟨w, writes, hw, hr, hf⟩ := accepted
  rw [next_of_hostWrite writes rfl h, State.regWrite_ctrl, State.writeCtrl_accepted hw hr hf]
  exact ⟨rfl, rfl⟩

theorem next_of_endList {s t : State} (runs : EngineRuns s .endList) (h : step s = .next t) :
    t.run = false ∧ t.done = true := by
  rw [step_of_engineRuns runs] at h
  cases h
  exact ⟨rfl, rfl⟩

theorem controlEvent_of_hostWrite {s : State} {off : Nat} {w : Word} (writes : HostWrites s off w) :
    ControlEvent s { s.regWrite off w with inbox := s.inbox.tail, draws := s.draws + 1 } := by
  rcases s.regWrite_cases off w with ⟨rfl, h⟩ | ⟨rfl, h⟩ | ⟨rfl, h⟩ | ⟨rfl, h⟩ | ⟨_, h⟩
  · rw [h]
    by_cases accepted : bit w 0 = true ∧ s.run = false ∧ s.fault = false
    · obtain ⟨hw, hr, hf⟩ := accepted
      exact .start ⟨w, writes, hw, hr, hf⟩ (by rw [State.writeCtrl_accepted hw hr hf])
    · rw [State.writeCtrl_eq_self (by grind)]
      exact .kept ⟨rfl, rfl, rfl, rfl, rfl, rfl, rfl⟩
  · exact .status w writes (by rw [h])
  · rw [h]
    exact .kept ⟨rfl, rfl, rfl, rfl, rfl, rfl, rfl⟩
  · by_cases hr : s.run = true
    · rw [h, if_pos hr]
      exact .kept ⟨rfl, rfl, rfl, rfl, rfl, rfl, rfl⟩
    · rw [h, if_neg hr]
      exact .setCp w writes (by simpa using hr) rfl
  · rw [h]
    exact .kept ⟨rfl, rfl, rfl, rfl, rfl, rfl, rfl⟩

/-- Every step is one of the events of control. -/
theorem controlEvent_of_step {s t : State} (h : step s = .next t) : ControlEvent s t := by
  rcases step_cases h with ⟨hturn, hrun, _⟩ | ⟨_, _, rfl⟩ | ⟨r, off, w, hb, _, rfl⟩ | ⟨r, off, b, _, _, rfl⟩ |
    ⟨w, rfl, _⟩ | ⟨hb, rfl⟩
  · rcases engineTurn_cases ⟨hrun, hturn⟩ h with taken | ⟨i, runs, done⟩
    · exact .fault ⟨hrun, hturn⟩ taken
    · exact .command i runs done
  · exact .kept ⟨rfl, rfl, rfl, rfl, rfl, rfl, rfl⟩
  · cases r with
    | regs =>
      simp only [State.putWord, State.regWrite_inbox]
      exact controlEvent_of_hostWrite hb
    | dm => exact .kept ⟨rfl, rfl, rfl, rfl, rfl, rfl, rfl⟩
    | cm => exact .kept ⟨rfl, rfl, rfl, rfl, rfl, rfl, rfl⟩
  · cases r <;> exact .kept ⟨rfl, rfl, rfl, rfl, rfl, rfl, rfl⟩
  · exact .kept ⟨rfl, rfl, rfl, rfl, rfl, rfl, rfl⟩
  · exact .reset hb rfl

end Sys2Proof.Machine
end

section
/-! PROOFS. The statements about the state that the host sees: the register block, `STATUS`, `CP`, the flags. -/

namespace Sys2Proof.Proofs

open Sys2Proof.Machine Sys2Proof.Safety

/-! ## The register block -/

/-- Settles O54, by the weights of the fields of `STATUS`. -/
theorem statusAndInterrupt : Obligations.StatusAndInterrupt := by
  unfold Obligations.StatusAndInterrupt
  refine ⟨fun s w => ?_, State.irq_iff⟩
  obtain ⟨hlow, hhigh, hcode⟩ := s.field_status
  exact ⟨rfl, s.bit_status_run, s.bit_status_done, s.bit_status_fault, s.bit_status_loglim, hlow, hhigh, hcode,
    s.writeStatus_eq w⟩

/-- Settles O55, register by register; the last clause is the step on one move of the host. -/
theorem registerBlock : Obligations.RegisterBlock := by
  unfold Obligations.RegisterBlock
  refine ⟨fun s w => ⟨rfl, State.writeCtrl_accepted, State.writeCtrl_eq_self⟩, fun s w => ?_, fun s w => ?_,
    fun s w off hlo hhi => ?_, fun s w off rest ho => ⟨fun hb => ?_, fun hb => step_of_hostRead hb ho⟩⟩
  · refine ⟨rfl, capWord_eq _, capWord_eq _, capWord_eq _, capWord_eq _, rfl, fun off hoff => ?_⟩
    have readOnly : [0x00, 0x20, 0x24, 0x28, 0x2C, 0x30] ⊆ readOnlyOffsets := by decide
    exact State.regWrite_readOnly (readOnly hoff) s w
  · refine ⟨rfl, rfl, rfl, rfl, rfl, rfl, bit_and_ieMask w, fun hr => by simp [hr], fun off hoff => ?_⟩
    have readOnly : [0x14, 0x18, 0x1C] ⊆ readOnlyOffsets := by decide
    exact State.regWrite_readOnly (readOnly hoff) s w
  · have hw : sWindow off = none := sWindow_eq_none hhi
    exact ⟨State.regRead_none hw hlo s, State.regWrite_ignored hw (by simp; omega) s w⟩
  · rw [step_of_hostWrite (congrArg List.head? hb) ho, hb, List.tail_cons]

/-- Settles O56: the guards of `CP` and of the windows are closed, the others do not look at `RUN`. -/
theorem writesDuringRun : Obligations.WritesDuringRun := by
  unfold Obligations.WritesDuringRun
  intro s w hr
  have hstatus := s.writeStatus_eq w
  refine ⟨by simp [hr], fun off hlo hhi _ => ?_, rfl, congrArg State.done hstatus, congrArg State.fault hstatus,
    congrArg State.loglim hstatus, fun off rest ho hb => step_of_hostRead hb ho⟩
  obtain ⟨i, high, hw⟩ := sWindow_eq_some hlo hhi
  rw [State.regWrite_window hw, if_pos hr]

/-! ## `CP`, the run and the faults -/

/-- Settles O33, by the events of control. -/
theorem commandPointer : Obligations.CommandPointer := by
  unfold Obligations.CommandPointer
  intro s t h
  refine ⟨fun turn hf => ?_, fun hne => ?_⟩
  · rcases engineTurn_cases turn h with taken | ⟨i, _, done⟩
    · rw [taken.fault, taken.cp, if_pos rfl]
    · simp [done.fault, done.cp, hf]
  · cases controlEvent_of_step h with
    | fault _ taken => exact absurd taken.cp hne
    | command i runs done => exact .inl ⟨runs.1, done.cp⟩
    | start _ next => exact absurd (congrArg State.cp next) hne
    | status w _ next => exact absurd (by rw [next, State.writeStatus_eq]) hne
    | setCp w writes idle next => exact .inr (.inl ⟨idle, w, writes, congrArg State.cp next⟩)
    | reset resets _ => exact .inr (.inr resets)
    | kept kept => exact absurd kept.cp hne

/-- Only a start that is accepted begins a run. -/
theorem acceptedStart_of_run {s t : State} (h : step s = .next t) (hs : s.run = false) (ht : t.run = true) :
    AcceptedStart s := by
  cases controlEvent_of_step h with
  | fault _ taken => simp [taken.run] at ht
  | command i runs _ =>
    obtain ⟨⟨running, _⟩, _⟩ := runs
    simp [running] at hs
  | start accepted _ => exact accepted
  | status w _ next => simp [next, State.writeStatus_eq, hs] at ht
  | setCp w _ _ next => simp [next, hs] at ht
  | reset _ next => simp [next, State.afterReset, State.reset] at ht
  | kept kept => simp [kept.run, hs] at ht

/-- Only `END`, a fault and reset end a run. -/
theorem end_of_run {s t : State} (h : step s = .next t) (hs : s.run = true) (ht : t.run = false) :
    EngineRuns s .endList ∨ (EngineTurn s ∧ t.fault = true ∧ t.faultCp = s.cp) ∨ Resets s := by
  cases controlEvent_of_step h with
  | fault turn taken => exact .inr (.inl ⟨turn, taken.fault, taken.faultCp⟩)
  | command i runs done =>
    by_cases hi : i = .endList
    · exact .inl (hi ▸ runs)
    · simp [done.run hi, hs] at ht
  | start _ next => simp [next] at ht
  | status w _ next => simp [next, State.writeStatus_eq, hs] at ht
  | setCp w _ idle _ => simp [idle] at hs
  | reset resets _ => exact .inr (.inr resets)
  | kept kept => simp [kept.run, hs] at ht

/-- Only `END` sets `DONE`. -/
theorem endList_of_done {s t : State} (h : step s = .next t) (hs : s.done = false) (ht : t.done = true) :
    EngineRuns s .endList := by
  cases controlEvent_of_step h with
  | fault _ taken => simp [taken.done, hs] at ht
  | command i runs done =>
    by_cases hi : i = .endList
    · exact hi ▸ runs
    · simp [done.done hi, hs] at ht
  | start _ next => simp [next] at ht
  | status w _ next => simp [next, State.writeStatus_eq, hs] at ht
  | setCp w _ _ next => simp [next, hs] at ht
  | reset _ next => simp [next, State.afterReset, State.reset] at ht
  | kept kept => simp [kept.done, hs] at ht

/-- Only a start that is accepted, a write of bit 1 of `STATUS` and reset clear `DONE`. -/
theorem clear_of_done {s t : State} (h : step s = .next t) (hs : s.done = true) (ht : t.done = false) :
    AcceptedStart s ∨ (∃ w, HostWrites s 0x08 w ∧ bit w 1 = true) ∨ Resets s := by
  cases controlEvent_of_step h with
  | fault _ taken => simp [taken.done, hs] at ht
  | command i runs done =>
    by_cases hi : i = .endList
    · subst hi
      simp [(next_of_endList runs h).2] at ht
    · simp [done.done hi, hs] at ht
  | start accepted _ => exact .inl accepted
  | status w writes next => exact .inr (.inl ⟨w, writes, by simpa [next, State.writeStatus_eq, hs] using ht⟩)
  | setCp w _ _ next => simp [next, hs] at ht
  | reset resets _ => exact .inr (.inr resets)
  | kept kept => simp [kept.done, hs] at ht

/-- A fault is taken by the engine, which sets `FCODE` and `FAULT_CP` with it and stops. -/
theorem faultTaken_of_fault {s t : State} (h : step s = .next t) (hs : s.fault = false) (ht : t.fault = true) :
    EngineTurn s ∧ FaultTaken s t := by
  cases controlEvent_of_step h with
  | fault turn taken => exact ⟨turn, taken⟩
  | command i _ done => simp [done.fault, hs] at ht
  | start _ next => simp [next, hs] at ht
  | status w _ next => simp [next, State.writeStatus_eq, hs] at ht
  | setCp w _ _ next => simp [next, hs] at ht
  | reset _ next => simp [next, State.afterReset, State.reset] at ht
  | kept kept => simp [kept.fault, hs] at ht

/-- Only a write of bit 2 of `STATUS`, which clears `FCODE` too, and reset clear `FAULT`. -/
theorem clear_of_fault {s t : State} (h : step s = .next t) (hs : s.fault = true) (ht : t.fault = false) :
    (t.fcode = .none ∧ t.faultCp = s.faultCp ∧ t.faultInfo = s.faultInfo ∧
      ∃ w, HostWrites s 0x08 w ∧ bit w 2 = true) ∨ Resets s := by
  cases controlEvent_of_step h with
  | fault _ taken => simp [taken.fault] at ht
  | command i _ done => simp [done.fault, hs] at ht
  | start _ next => simp [next, hs] at ht
  | status w writes next =>
    have hw : bit w 2 = true := by simpa [next, State.writeStatus_eq, hs] using ht
    simp only [next, State.writeStatus_eq, hw, if_true]
    exact .inl ⟨trivial, trivial, trivial, w, writes, hw⟩
  | setCp w _ _ next => simp [next, hs] at ht
  | reset resets _ => exact .inr resets
  | kept kept => simp [kept.fault, hs] at ht

/-- Only a fault and reset change `FAULT_CP` or `FAULT_INFO`. -/
theorem fault_of_faultCp_ne {s t : State} (h : step s = .next t)
    (hne : t.faultCp ≠ s.faultCp ∨ t.faultInfo ≠ s.faultInfo) :
    (EngineTurn s ∧ t.fault = true ∧ t.faultCp = s.cp ∧ t.run = false) ∨ Resets s := by
  cases controlEvent_of_step h with
  | fault turn taken => exact .inl ⟨turn, taken.fault, taken.faultCp, taken.run⟩
  | command i _ done => simp [done.faultCp, done.faultInfo] at hne
  | start _ next => simp [next] at hne
  | status w _ next => simp [next, State.writeStatus_eq] at hne
  | setCp w _ _ next => simp [next] at hne
  | reset resets _ => exact .inr resets
  | kept kept => simp [kept.faultCp, kept.faultInfo] at hne

/-- Settles O34, by the events of control; a command's update takes `DONE` to a function of itself. -/
theorem runAndDone : Obligations.RunAndDone := by
  unfold Obligations.RunAndDone
  refine ⟨fun s t h => ⟨⟨fun c => acceptedStart_of_run h c.1 c.2, fun accepted => ?_⟩, end_of_run h,
    fun runs => (next_of_endList runs h).1, fun hs ht => (faultTaken_of_fault h hs ht).2.run⟩,
    fun s t h => ⟨endList_of_done h, fun runs => (next_of_endList runs h).2, clear_of_done h,
      fun accepted => (next_of_acceptedStart accepted h).2, fun w writes hw => ?_⟩,
    fun i s t d h => ?_⟩
  · have started := (next_of_acceptedStart accepted h).1
    obtain ⟨_, _, _, idle, _⟩ := accepted
    exact ⟨idle, started⟩
  · rw [next_of_hostWrite writes rfl h]
    simp [State.writeStatus_eq, hw]
  · obtain ⟨e, rfl, he⟩ := exec_update h
    exact ⟨e.done d, he { s with done := d } rfl⟩

/-- Settles O35, by the events of control; a command's update takes `FAULT` and `FCODE` each to a function of itself. -/
theorem faultState : Obligations.FaultState := by
  unfold Obligations.FaultState
  refine ⟨fun s t h => ⟨fun hs ht => ?_, clear_of_fault h, fun w writes hw => ?_, fun w writes hf => ?_⟩,
    fun s t h => ⟨fault_of_faultCp_ne h, fun off hoff w writes => ?_⟩, fun i s t x c h => ?_⟩
  · obtain ⟨turn, taken⟩ := faultTaken_of_fault h hs ht
    exact ⟨turn, taken.fcode, taken.faultCp⟩
  · rw [next_of_hostWrite writes rfl h]
    simp [State.writeStatus_eq, hw]
  · rw [next_of_hostWrite writes rfl h, State.regWrite_ctrl, State.writeCtrl_eq_self (.inr (.inr hf))]
    exact ⟨rfl, rfl⟩
  · have place : ∀ off ∈ [0x14, 0x18], off ∈ readOnlyOffsets ∧ off % 4 = 0 := by decide
    obtain ⟨readOnly, aligned⟩ := place off hoff
    rw [next_of_hostWrite writes aligned h, State.regWrite_readOnly readOnly]
  · obtain ⟨e, rfl, he⟩ := exec_update h
    exact ⟨e.fault x, e.fcode c, he { s with fault := x, fcode := c } rfl⟩

end Sys2Proof.Proofs
end

section
/-! PROOFS. The apertures of the two memories (R77): their bytes, their words, and an element of `DM` as its words. -/

namespace Sys2Proof

/-! ## Little-endian numbers -/

theorem leNat_append (as bs : List Byte) : leNat (as ++ bs) = leNat as + 256 ^ as.length * leNat bs := by
  induction as with
  | nil => simp [leNat]
  | cons a as ih => simp only [List.cons_append, leNat, ih, List.length_cons, Nat.pow_succ']; ring

/-- The digits of a little-endian number are its bytes. -/
theorem leNat_div_pow_mod (bs : List Byte) (j : Nat) (h : j < bs.length) : leNat bs / 256 ^ j % 256 = bs[j].toNat := by
  induction bs generalizing j with
  | nil => simp at h
  | cons b bs ih =>
    have hb := b.isLt
    cases j with
    | zero => simp only [leNat, List.getElem_cons_zero, Nat.pow_zero]; omega
    | succ j =>
      have tail : leNat (b :: bs) / 256 = leNat bs := by simp only [leNat]; omega
      rw [Nat.pow_succ', ← Nat.div_div_eq_div_mul, tail, ih j (by simpa using h), List.getElem_cons_succ]

theorem toNat_wordOf {bs : List Byte} (h : bs.length = 4) : (wordOf bs).toNat = leNat bs := by
  have lt := leNat_lt bs
  rw [h] at lt
  rw [wordOf, List.take_of_length_le h.le, BitVec.toNat_ofNat]
  exact Nat.mod_eq_of_lt lt

theorem wordOf_leBytes (w : Word) : wordOf (leBytes 4 w.toNat) = w := by simpa using wordOf_leBytes_append w []

/-- The bytes of a word are little-endian: byte `j` holds its bits from `8 * j` on. -/
theorem extractLsb'_wordOf {bs : List Byte} (h : bs.length = 4) (j : Nat) (hj : j < bs.length) :
    (wordOf bs).extractLsb' (8 * j) 8 = bs[j] := by
  apply BitVec.eq_of_toNat_eq
  rw [BitVec.extractLsb'_toNat, toNat_wordOf h, Nat.shiftRight_eq_div_pow, Nat.pow_mul]
  exact leNat_div_pow_mod bs j hj

/-- Four bytes and the four after them are two words, the low half first. -/
theorem ofNat_leNat_append {lo hi : List Byte} (hlo : lo.length = 4) (hhi : hi.length = 4) :
    BitVec.ofNat 64 (leNat (lo ++ hi)) = wordOf hi ++ wordOf lo := by
  have value : (wordOf hi ++ wordOf lo).toNat = leNat (lo ++ hi) := by
    rw [BitVec.toNat_append, ← Nat.shiftLeft_add_eq_or_of_lt (wordOf lo).isLt, Nat.shiftLeft_eq, toNat_wordOf hlo,
      toNat_wordOf hhi, leNat_append, hlo]
    omega
  rw [← value, BitVec.ofNat_toNat, BitVec.setWidth_eq]

end Sys2Proof

namespace Sys2Proof.Machine

/-! ## The bytes of an aperture -/

theorem dm_ne_regs : Region.dm ≠ .regs := nofun

theorem cm_ne_regs : Region.cm ≠ .regs := nofun

/-- The list of an aperture's bytes at consecutive offsets. -/
def State.apertureBytes (s : State) (r : Region) (off k : Nat) : List Byte :=
  (List.range k).map fun j => s.apertureByte r (off + j)

@[simp] theorem State.length_apertureBytes (s : State) (r : Region) (off k : Nat) :
    (s.apertureBytes r off k).length = k := by simp [State.apertureBytes]

@[simp] theorem State.getElem_apertureBytes (s : State) (r : Region) (off k j : Nat)
    (h : j < (s.apertureBytes r off k).length) : (s.apertureBytes r off k)[j] = s.apertureByte r (off + j) := by
  simp [State.apertureBytes]

theorem State.apertureBytes_add (s : State) (r : Region) (off k l : Nat) :
    s.apertureBytes r off (k + l) = s.apertureBytes r off k ++ s.apertureBytes r (off + k) l := by
  simp [State.apertureBytes, List.range_add, Nat.add_assoc]

/-- A byte written is read back. -/
theorem State.apertureByte_putBytes_inside {r : Region} (hr : r ≠ .regs) (s : State) {off j : Nat} {bs : List Byte}
    (h : j < bs.length) : (s.putBytes r off bs).apertureByte r (off + j) = bs[j] := by
  have stored (m : Memory) : (m.store off bs).get? (off + j) = some bs[j] := by
    rw [Memory.get?_store_inside m (by omega) (by omega), Nat.add_sub_cancel_left, List.getElem?_eq_getElem h]
  cases r with
  | regs => exact absurd rfl hr
  | dm => simp [State.apertureByte, State.dmByte, State.putBytes, stored]
  | cm => simp [State.apertureByte, State.cmByte, State.putBytes, stored]

/-- A write leaves every byte outside it. -/
theorem State.apertureByte_putBytes_outside (s : State) (r : Region) {off x : Nat} {bs : List Byte}
    (h : x < off ∨ off + bs.length ≤ x) : (s.putBytes r off bs).apertureByte r x = s.apertureByte r x := by
  cases r with
  | regs => rfl
  | dm => simp [State.apertureByte, State.dmByte, State.putBytes, State.unlisted, Memory.get?_store_outside s.dm h]
  | cm => simp [State.apertureByte, State.cmByte, State.putBytes, State.unlisted, Memory.get?_store_outside s.cm h]

theorem State.apertureBytes_putBytes_same {r : Region} (hr : r ≠ .regs) (s : State) (off : Nat) (bs : List Byte) :
    (s.putBytes r off bs).apertureBytes r off bs.length = bs :=
  List.ext_getElem (by simp) fun j _ hj => by
    rw [State.getElem_apertureBytes, State.apertureByte_putBytes_inside hr s hj]

theorem State.apertureBytes_putBytes_disjoint (s : State) (r : Region) {off x k : Nat} {bs : List Byte}
    (h : x + k ≤ off ∨ off + bs.length ≤ x) : (s.putBytes r off bs).apertureBytes r x k = s.apertureBytes r x k := by
  refine List.map_congr_left fun j hj => s.apertureByte_putBytes_outside r ?_
  have := List.mem_range.1 hj
  omega

/-! ## The words of an aperture -/

theorem State.hostWord_memory {r : Region} (hr : r ≠ .regs) (s : State) (off : Nat) :
    s.hostWord r off = wordOf (s.apertureBytes r off 4) := by
  cases r with
  | regs => exact absurd rfl hr
  | dm => rfl
  | cm => rfl

theorem State.putWord_memory {r : Region} (hr : r ≠ .regs) (s : State) (off : Nat) (w : Word) :
    s.putWord r off w = s.putBytes r off (leBytes 4 w.toNat) := by
  cases r with
  | regs => exact absurd rfl hr
  | dm => rfl
  | cm => rfl

/-- A word written is read back. -/
theorem State.hostWord_putWord_same {r : Region} (hr : r ≠ .regs) (s : State) (off : Nat) (w : Word) :
    (s.putWord r off w).hostWord r off = w := by
  have bytes := State.apertureBytes_putBytes_same hr s off (leBytes 4 w.toNat)
  rw [length_leBytes] at bytes
  rw [State.hostWord_memory hr, State.putWord_memory hr, bytes, wordOf_leBytes]

/-- A word written leaves every word it does not meet. -/
theorem State.hostWord_putWord_disjoint {r : Region} (hr : r ≠ .regs) (s : State) {off x : Nat} (w : Word)
    (h : x + 4 ≤ off ∨ off + 4 ≤ x) : (s.putWord r off w).hostWord r x = s.hostWord r x := by
  rw [State.hostWord_memory hr, State.hostWord_memory hr, State.putWord_memory hr,
    s.apertureBytes_putBytes_disjoint r (by simpa using h)]

theorem State.apertureByte_eq_extractLsb'_hostWord {r : Region} (hr : r ≠ .regs) (s : State) (off : Nat) {j : Nat}
    (hj : j < 4) : s.apertureByte r (off + j) = (s.hostWord r off).extractLsb' (8 * j) 8 := by
  rw [State.hostWord_memory hr, extractLsb'_wordOf (by simp) j (by simpa using hj), State.getElem_apertureBytes]

/-! ## The elements of `DM` as words -/

/-- A binary32 element is one word. -/
theorem State.dmElem_binary32 {s : State} (hf : s.cfg.fmt = .binary32) (a : Nat) :
    s.dmElem a = (s.hostWord .dm (4 * a)).setWidth 64 := by
  have elem : s.dmElem a = BitVec.ofNat 64 (leNat (s.apertureBytes .dm (4 * a) 4)) := by
    rw [State.dmElem, hf, fbytes, Nat.mul_comm a 4]; rfl
  rw [elem, State.hostWord_memory dm_ne_regs, ← BitVec.ofNat_toNat, toNat_wordOf (by simp)]

/-- A binary64 element is two words, the low half first. -/
theorem State.dmElem_binary64 {s : State} (hf : s.cfg.fmt = .binary64) (a : Nat) :
    s.dmElem a = s.hostWord .dm (8 * a + 4) ++ s.hostWord .dm (8 * a) := by
  have elem : s.dmElem a = BitVec.ofNat 64 (leNat (s.apertureBytes .dm (8 * a) (4 + 4))) := by
    rw [State.dmElem, hf, fbytes, Nat.mul_comm a 8]; rfl
  rw [elem, State.apertureBytes_add, ofNat_leNat_append (by simp) (by simp), State.hostWord_memory dm_ne_regs,
    State.hostWord_memory dm_ne_regs]

/-- The halves of a binary64 element are its words. -/
theorem State.halves_dmElem_binary64 {s : State} (hf : s.cfg.fmt = .binary64) (a : Nat) :
    (s.dmElem a).extractLsb' 0 32 = s.hostWord .dm (8 * a) ∧
      (s.dmElem a).extractLsb' 32 32 = s.hostWord .dm (8 * a + 4) := by
  rw [State.dmElem_binary64 hf]
  exact ⟨BitVec.extractLsb'_append_eq_right, BitVec.extractLsb'_append_eq_left⟩

end Sys2Proof.Machine

namespace Sys2Proof.Proofs

open Sys2Proof.Machine

/-! ## The layout, memory by memory -/

/-- A `DM` element of binary32 through the aperture. -/
theorem dmLayout_binary32 {s : State} (hf : s.cfg.fmt = .binary32) (w : Word) (c : Nat) :
    s.hostWord .dm (4 * c) = (s.dmElem c).setWidth 32 ∧
      (s.putWord .dm (4 * c) w).dmElem c = w.setWidth 64 ∧
      ∀ d, d ≠ c → (s.putWord .dm (4 * c) w).dmElem d = s.dmElem d := by
  have put (d : Nat) := State.dmElem_binary32 (s := s.putWord .dm (4 * c) w) hf d
  refine ⟨?_, ?_, fun d hd => ?_⟩
  · rw [State.dmElem_binary32 hf, BitVec.setWidth_setWidth_of_le _ (by decide), BitVec.setWidth_eq]
  · rw [put, State.hostWord_putWord_same dm_ne_regs]
  · rw [put, State.hostWord_putWord_disjoint dm_ne_regs s w (by omega), State.dmElem_binary32 hf]

/-- A `DM` element of binary64 through the aperture: a write of half of it changes that half. -/
theorem dmLayout_binary64 {s : State} (hf : s.cfg.fmt = .binary64) (w : Word) (c : Nat) :
    s.hostWord .dm (8 * c) = (s.dmElem c).extractLsb' 0 32 ∧ s.hostWord .dm (8 * c + 4) = (s.dmElem c).extractLsb' 32 32 ∧
      (s.putWord .dm (8 * c) w).dmElem c = (s.dmElem c).extractLsb' 32 32 ++ w ∧
      (s.putWord .dm (8 * c + 4) w).dmElem c = w ++ (s.dmElem c).extractLsb' 0 32 ∧
      ∀ d, d ≠ c → (s.putWord .dm (8 * c) w).dmElem d = s.dmElem d ∧
        (s.putWord .dm (8 * c + 4) w).dmElem d = s.dmElem d := by
  obtain ⟨low, high⟩ := State.halves_dmElem_binary64 hf c
  have put (off d : Nat) := State.dmElem_binary64 (s := s.putWord .dm off w) hf d
  have same (off : Nat) := State.hostWord_putWord_same dm_ne_regs s off w
  have kept {off x : Nat} := State.hostWord_putWord_disjoint dm_ne_regs s (off := off) (x := x) w
  refine ⟨low.symm, high.symm, ?_, ?_, fun d hd => ⟨?_, ?_⟩⟩
  · rw [put, same, kept (by omega), high]
  · rw [put, same, kept (by omega), low]
  · rw [put, kept (by omega), kept (by omega), State.dmElem_binary64 hf]
  · rw [put, kept (by omega), kept (by omega), State.dmElem_binary64 hf]

/-- Settles O58: an element is its words, a word its bytes, and a write leaves every word it does not meet. -/
theorem apertureLayout : Obligations.ApertureLayout := by
  unfold Obligations.ApertureLayout
  intro s w c
  refine ⟨⟨State.hostWord_putWord_same cm_ne_regs s _ w, fun d hd => ?_⟩, fun hf => dmLayout_binary32 hf w c,
    fun hf => dmLayout_binary64 hf w c, fun r hr j hj => ?_⟩
  · exact State.hostWord_putWord_disjoint cm_ne_regs s w (by omega)
  · have memory : r ≠ .regs := by rintro rfl; simp at hr
    exact s.apertureByte_eq_extractLsb'_hostWord memory _ hj

end Sys2Proof.Proofs
end

section
/-! PROOFS. The fields of the control word (R101): a word is its fields, and a row of the opcode table (R104) asks for
values of whole fields. -/

namespace Sys2Proof

/-- The fields of the control word (R101), as the first and the last bit of each. -/
def wordFields : List (Nat × Nat) :=
  [(7, 0), (8, 8), (12, 9), (13, 13), (14, 14), (15, 15), (16, 16), (17, 17), (21, 18), (31, 22)]

/-- A bit of a word is a bit of the field it lies in. -/
theorem getLsbD_eq_testBit_field (w : Word) {hi lo k : Nat} (hlo : lo ≤ k) (hhi : k ≤ hi) :
    w.getLsbD k = (field w hi lo).testBit (k - lo) := by
  have inside : k - lo < hi + 1 - lo := by omega
  simp [field, BitVec.getLsbD, Nat.testBit_mod_two_pow, Nat.testBit_div_two_pow, inside, hlo]

/-- A word is its fields. -/
theorem eq_iff_fields (w v : Word) : w = v ↔ ∀ f ∈ wordFields, field w f.1 f.2 = field v f.1 f.2 := by
  refine ⟨by rintro rfl _ _; rfl, fun h => BitVec.eq_of_getLsbD_eq fun k hk => ?_⟩
  have covered : ∀ k < 32, ∃ f ∈ wordFields, f.2 ≤ k ∧ k ≤ f.1 := by decide
  obtain ⟨f, hf, hlo, hhi⟩ := covered k hk
  rw [getLsbD_eq_testBit_field w hlo hhi, h f hf, getLsbD_eq_testBit_field v hlo hhi]

theorem field_and (w m : Word) (hi lo : Nat) : field (w &&& m) hi lo = field w hi lo &&& field m hi lo := by
  simp only [field, BitVec.toNat_and, Nat.and_div_two_pow, Nat.and_mod_two_pow]

theorem field_and_ones {m : Word} {hi lo : Nat} (h : field m hi lo = 2 ^ (hi + 1 - lo) - 1) (w : Word) :
    field (w &&& m) hi lo = field w hi lo := by
  rw [field_and, h, Nat.and_two_pow_sub_one_eq_mod, field, Nat.mod_mod]

/-- A mask of the table covers whole fields, and the pattern beside it is zero in the others. -/
theorem mask_of_row : ∀ r ∈ opcodeTable, ∀ f ∈ wordFields,
    field r.mask f.1 f.2 = 2 ^ (f.1 + 1 - f.2) - 1 ∨ field r.mask f.1 f.2 = 0 ∧ field r.pat f.1 f.2 = 0 := by
  decide +kernel

/-- A control word selects a row when it agrees with the row's pattern in every field the mask covers. -/
theorem Row.selects_iff {r : Row} (hr : r ∈ opcodeTable) (w : Word) :
    r.selects w = true ↔ ∀ f ∈ wordFields, field r.mask f.1 f.2 ≠ 0 → field w f.1 f.2 = field r.pat f.1 f.2 := by
  rw [Row.selects, beq_iff_eq, eq_iff_fields]
  refine forall₂_congr fun f hf => ?_
  rcases mask_of_row r hr f hf with ones | ⟨zero, pat⟩
  · have pos : 2 ^ (f.1 + 1 - f.2) - 1 ≠ 0 := by
      have : ∀ f ∈ wordFields, 2 ^ (f.1 + 1 - f.2) - 1 ≠ 0 := by decide
      exact this f hf
    simp [field_and_ones ones, ones, pos]
  · simp [field_and, zero, pat]

/-- The opcode of a word that selects a row is the row's. -/
theorem Row.opcode_of_selects {r : Row} (hr : r ∈ opcodeTable) {w : Word} (h : r.selects w = true) :
    field w 7 0 = field r.pat 7 0 := by
  have covered : ∀ r ∈ opcodeTable, field r.mask 7 0 ≠ 0 := by decide +kernel
  exact (Row.selects_iff hr w).1 h (7, 0) (by simp [wordFields]) (covered r hr)

/-! ## A range of bits as its parts -/

theorem field_17_16_eq_zero (w : Word) : field w 17 16 = 0 ↔ field w 16 16 = 0 ∧ field w 17 17 = 0 := by
  simp only [field]; omega

theorem field_12_8_eq_zero (w : Word) : field w 12 8 = 0 ↔ field w 8 8 = 0 ∧ field w 12 9 = 0 := by
  simp only [field]; omega

theorem field_14_13_eq_zero (w : Word) : field w 14 13 = 0 ↔ field w 13 13 = 0 ∧ field w 14 14 = 0 := by
  simp only [field]; omega

/-! ## The constraints of R107, as the decoder reads them off the fields -/

theorem sidxOk_ofNat_field (w : Word) : sidxOk (BitVec.ofNat 4 (field w 21 18)) = true ↔ field w 21 18 ≤ 10 := by
  simp only [sidxOk, BitVec.toNat_ofNat, decide_eq_true_eq, field]; omega

theorem padOk_fields (w : Word) :
    padOk (bit w 8) (BitVec.ofNat 4 (field w 12 9)) = true ↔ (field w 8 8 = 1 → field w 12 9 = 0) := by
  have zero : BitVec.ofNat 4 (field w 12 9) = 0#4 ↔ field w 12 9 = 0 := by
    rw [← BitVec.toNat_inj, BitVec.toNat_ofNat]
    simp [field]
  simp [padOk, bit, zero, imp_iff_not_or]

theorem phaseOk_fields (w : Word) :
    phaseOk (bit w 13) (bit w 14) = true ↔ (field w 13 13 = 0 → field w 14 14 = 0) := by
  simp only [phaseOk, bit, field, Bool.or_eq_true, Bool.not_eq_true', beq_iff_eq, beq_eq_false_iff_ne]
  omega

end Sys2Proof
end

section
/-! PROOFS. The legal control words (R103, R106, R107) are those that select a row of the table that is not reserved and
obey R107. -/

namespace Sys2Proof

open Sys2Proof.Safety

/-- The fields a command has as operands, "var" in R103, by its opcode. -/
def operandFields (opc : Nat) : List (Nat × Nat) :=
  if opc = 0x02 then [(21, 18)]
  else if opc ∈ [0x28, 0x29] then [(8, 8), (12, 9), (16, 16), (17, 17)]
  else if opc ∈ [0x31, 0x32, 0x33] then [(8, 8), (12, 9), (13, 13), (14, 14)]
  else []

/-- Every field beside the opcode that is no operand is zero (R103). -/
def UnusedFieldsZero (w : Word) : Prop :=
  ∀ f ∈ wordFields.tail, f ∉ operandFields (field w 7 0) → field w f.1 f.2 = 0

/-- The constraints of R107, on the fields of a control word; a field that is no operand is zero and meets them. -/
def ObeysConstraints (w : Word) : Prop :=
  field w 21 18 ≤ 10 ∧ (field w 8 8 = 1 → field w 12 9 = 0) ∧ (field w 13 13 = 0 → field w 14 14 = 0)

/-- The opcodes of R104. -/
def opcodes : List Nat :=
  [0x00, 0x01, 0x02, 0x10, 0x11, 0x12, 0x13, 0x20, 0x21, 0x22, 0x23, 0x24, 0x28, 0x29, 0x30, 0x31, 0x32, 0x33]

theorem operandFields_of_hd {opc : Nat} (h : opc = 0x28 ∨ opc = 0x29) :
    operandFields opc = [(8, 8), (12, 9), (16, 16), (17, 17)] := by
  rcases h with rfl | rfl <;> rfl

theorem operandFields_of_ms {opc : Nat} (h : opc = 0x31 ∨ opc = 0x32 ∨ opc = 0x33) :
    operandFields opc = [(8, 8), (12, 9), (13, 13), (14, 14)] := by
  rcases h with rfl | rfl | rfl <;> rfl

/-- What R103 asks of the unused fields and R107 of the others is what `LegalControl` says range by range. -/
theorem legalControl_iff (w : Word) :
    LegalControl w ↔ field w 7 0 ∈ opcodes ∧ UnusedFieldsZero w ∧ ObeysConstraints w := by
  simp only [LegalControl, UnusedFieldsZero, ObeysConstraints, opcodes, field_17_16_eq_zero, field_12_8_eq_zero,
    field_14_13_eq_zero]
  refine and_congr_right fun _ => ?_
  generalize field w 7 0 = opc
  by_cases sets : opc = 0x02
  · subst sets
    simp [wordFields, operandFields]
    omega
  by_cases hd : opc = 0x28 ∨ opc = 0x29
  · have not_ms : ¬ (opc = 0x31 ∨ opc = 0x32 ∨ opc = 0x33) := by omega
    simp [wordFields, operandFields_of_hd hd, sets, hd, not_ms]
    omega
  by_cases ms : opc = 0x31 ∨ opc = 0x32 ∨ opc = 0x33
  · simp [wordFields, operandFields_of_ms ms, sets, hd, ms]
    omega
  · have operands : operandFields opc = [] := by simp [operandFields, sets, hd, ms]
    simp [wordFields, operands, sets, hd, ms]
    omega

/-! ## The rows that are not reserved -/

/-- The two reserved rows (R104, R262). -/
def Cmd.reserved (c : Cmd) : Bool := c = .msDipLegacy || c = .msPeakLegacy

theorem legacy_build_iff (c : Cmd) (w0 w1 w2 w3 : Word) : Legacy (c.build w0 w1 w2 w3) ↔ c.reserved = true := by
  cases c <;> simp [Legacy, Cmd.build, Cmd.reserved]

/-- The mask of a row that is not reserved covers all but the operands, and its pattern is an opcode alone. -/
theorem shape_of_row : ∀ r ∈ opcodeTable, r.cmd.reserved = false →
    field r.mask 7 0 ≠ 0 ∧ field r.pat 7 0 ∈ opcodes ∧
      ∀ f ∈ wordFields.tail, field r.pat f.1 f.2 = 0 ∧ (field r.mask f.1 f.2 ≠ 0 ↔ f ∉ operandFields (field r.pat 7 0)) := by
  decide +kernel

theorem row_of_opcode : ∀ opc ∈ opcodes, ∃ r ∈ opcodeTable, r.cmd.reserved = false ∧ field r.pat 7 0 = opc := by
  decide +kernel

theorem Row.selects_iff_unused {r : Row} (hr : r ∈ opcodeTable) (hres : r.cmd.reserved = false) (w : Word) :
    r.selects w = true ↔ field w 7 0 = field r.pat 7 0 ∧ UnusedFieldsZero w := by
  obtain ⟨covered, -, shape⟩ := shape_of_row r hr hres
  have fields : wordFields = (7, 0) :: wordFields.tail := rfl
  rw [Row.selects_iff hr, fields, List.forall_mem_cons, forall_prop_of_true covered]
  refine and_congr_right fun opcode => forall₂_congr fun f hf => ?_
  obtain ⟨pat, mask⟩ := shape f hf
  rw [pat, mask, opcode]

/-- No word of a reserved row is legal: its bit 15 is set (R106). -/
theorem not_legalControl_of_reserved {r : Row} (hr : r ∈ opcodeTable) (hres : r.cmd.reserved = true) {w : Word}
    (h : r.selects w = true) : ¬ LegalControl w := by
  have bit15 : ∀ r ∈ opcodeTable, r.cmd.reserved = true → field r.mask 15 15 ≠ 0 ∧ field r.pat 15 15 = 1 := by
    decide +kernel
  obtain ⟨covered, pat⟩ := bit15 r hr hres
  have set : field w 15 15 = 1 := ((Row.selects_iff hr w).1 h (15, 15) (by simp [wordFields]) covered).trans pat
  rintro ⟨-, -, clear, -⟩
  omega

/-- The constraints on a word whose unused fields are zero are those on its operands. -/
theorem obeysConstraints_iff {w : Word} (h : UnusedFieldsZero w) : ObeysConstraints w ↔
    ((21, 18) ∈ operandFields (field w 7 0) → field w 21 18 ≤ 10) ∧
      ((12, 9) ∈ operandFields (field w 7 0) → field w 8 8 = 1 → field w 12 9 = 0) ∧
      ((14, 14) ∈ operandFields (field w 7 0) → field w 13 13 = 0 → field w 14 14 = 0) := by
  have sidx := h (21, 18) (by simp [wordFields])
  have mexp := h (12, 9) (by simp [wordFields])
  have pr := h (14, 14) (by simp [wordFields])
  refine ⟨fun ⟨sidxOk, padOk, phaseOk⟩ => ⟨fun _ => sidxOk, fun _ => padOk, fun _ => phaseOk⟩,
    fun ⟨sidxOk, padOk, phaseOk⟩ => ⟨?_, ?_, ?_⟩⟩
  · by_cases operand : (21, 18) ∈ operandFields (field w 7 0)
    · exact sidxOk operand
    · exact (sidx operand).trans_le (by decide)
  · by_cases operand : (12, 9) ∈ operandFields (field w 7 0)
    · exact padOk operand
    · exact fun _ => mexp operand
  · by_cases operand : (14, 14) ∈ operandFields (field w 7 0)
    · exact phaseOk operand
    · exact fun _ => pr operand

/-- The fields a row of the table has as operands, by its command (R103). -/
def Cmd.operands : Cmd → List (Nat × Nat)
  | .sets => [(21, 18)]
  | .hdDec | .hdDech => [(8, 8), (12, 9), (16, 16), (17, 17)]
  | .msDip | .msPeak | .msFlat => [(8, 8), (12, 9), (13, 13), (14, 14)]
  | _ => []

theorem operands_of_row : ∀ r ∈ opcodeTable, r.cmd.reserved = false →
    r.cmd.operands = operandFields (field r.pat 7 0) := by
  decide +kernel

/-- The constraints the decoder checks are those on the operands of the command. -/
theorem wellFormed_build_iff_operands (c : Cmd) (w w1 w2 w3 : Word) :
    (c.build w w1 w2 w3).wellFormed = true ↔
      ((21, 18) ∈ c.operands → field w 21 18 ≤ 10) ∧
        ((12, 9) ∈ c.operands → field w 8 8 = 1 → field w 12 9 = 0) ∧
        ((14, 14) ∈ c.operands → field w 13 13 = 0 → field w 14 14 = 0) := by
  cases c <;>
    simp [Cmd.build, Instr.wellFormed, Cmd.operands, hdOptsOf, msOptsOf, sidxOk_ofNat_field, padOk_fields, phaseOk_fields]

/-- The field constraints of a row that a word selects are those of R107. -/
theorem wellFormed_build_iff {r : Row} (hr : r ∈ opcodeTable) (hres : r.cmd.reserved = false) {w : Word}
    (h : r.selects w = true) (w1 w2 w3 : Word) :
    (r.cmd.build w w1 w2 w3).wellFormed = true ↔ ObeysConstraints w := by
  obtain ⟨opcode, unused⟩ := (Row.selects_iff_unused hr hres w).1 h
  rw [wellFormed_build_iff_operands, operands_of_row r hr hres, obeysConstraints_iff unused, opcode]

end Sys2Proof
end

section
/-! PROOFS. The decoder by its rows (R105): what it accepts, which control word a reserved row leaves, what it reads of
the other words; and the engine's step on a word that is not legal. -/

namespace Sys2Proof

open Sys2Proof.Safety

/-- The decoder accepts only what the row a word selects makes of the words. -/
theorem row_of_decodes {w0 w1 w2 w3 : Word} {i : Instr} (h : decodeWords w0 w1 w2 w3 = .ok i) :
    ∃ r ∈ opcodeTable, r.selects w0 = true ∧ r.cmd.build w0 w1 w2 w3 = i := by
  cases hr : opcodeTable.find? (fun r => r.selects w0) with
  | none => simp [decodeWords, hr] at h
  | some r =>
    have selects : r.selects w0 = true := by simpa using List.find?_some hr
    refine ⟨r, List.mem_of_find?_eq_some hr, selects, ?_⟩
    cases hb : brokenConstraint (r.cmd.build w0 w1 w2 w3) with
    | some e => simp [decodeWords, hr, hb] at h
    | none => simpa [decodeWords, hr, hb] using h

/-- The row the decoder takes for a legal control word: it is not reserved. -/
theorem row_of_legal {w : Word} (legal : LegalControl w) : ∃ r ∈ opcodeTable,
    opcodeTable.find? (fun r => r.selects w) = some r ∧ r.selects w = true ∧ r.cmd.reserved = false := by
  obtain ⟨opcode, unused, -⟩ := (legalControl_iff w).1 legal
  obtain ⟨q, hq, qres, qopc⟩ := row_of_opcode _ opcode
  have found : (opcodeTable.find? (fun r => r.selects w)).isSome = true :=
    List.find?_isSome.2 ⟨q, hq, (Row.selects_iff_unused hq qres w).2 ⟨qopc.symm, unused⟩⟩
  obtain ⟨r, hr⟩ := Option.isSome_iff_exists.1 found
  have mem := List.mem_of_find?_eq_some hr
  have selects : r.selects w = true := by simpa using List.find?_some hr
  refine ⟨r, mem, hr, selects, ?_⟩
  by_contra reserved
  exact not_legalControl_of_reserved mem (by simpa using reserved) selects legal

/-- The legal control words are those that decode to a command. -/
theorem legalControl_iff_decodes (w0 w1 w2 w3 : Word) :
    LegalControl w0 ↔ ∃ i, decodeWords w0 w1 w2 w3 = .ok i ∧ ¬ Legacy i := by
  constructor
  · intro legal
    obtain ⟨r, mem, hr, selects, res⟩ := row_of_legal legal
    obtain ⟨-, -, obeys⟩ := (legalControl_iff w0).1 legal
    have wf := (wellFormed_build_iff mem res selects w1 w2 w3).2 obeys
    exact ⟨_, decodeWords_of_row hr rfl wf, by simp [legacy_build_iff, res]⟩
  · rintro ⟨i, decodes, notLegacy⟩
    have wf := wellFormed_of_decodeWords decodes
    obtain ⟨r, mem, selects, rfl⟩ := row_of_decodes decodes
    have res : r.cmd.reserved = false := by simpa [legacy_build_iff] using notLegacy
    obtain ⟨opcode, unused⟩ := (Row.selects_iff_unused mem res w0).1 selects
    obtain ⟨-, listed, -⟩ := shape_of_row r mem res
    exact (legalControl_iff w0).2 ⟨opcode ▸ listed, unused, (wellFormed_build_iff mem res selects w1 w2 w3).1 wf⟩

/-! ## The control word of a reserved row -/

theorem toNat_bit (w : Word) (k : Nat) : (bit w k).toNat = w.toNat / 2 ^ k % 2 := ((bit_eq_iff w k _).1 rfl).symm

/-- A control word is put together again from its fields. -/
theorem controlWord_fields {w : Word} (h : field w 31 22 = 0) :
    controlWord (field w 7 0) (bit w 8) (BitVec.ofNat 4 (field w 12 9)) (bit w 13) (bit w 14) (bit w 15) (bit w 16)
      (bit w 17) (BitVec.ofNat 4 (field w 21 18)) = w := by
  apply BitVec.eq_of_toNat_eq
  have := w.isLt
  simp only [controlWord, BitVec.toNat_ofNat, toNat_bit, field] at h ⊢
  omega

theorem bit_of_field {w : Word} {k : Nat} {c : Bool} (h : field w k k = c.toNat) : bit w k = c := by
  rw [bit, h]; cases c <;> rfl

/-- A word that selects a reserved row is the legacy control word of its options. -/
theorem msControl_of_reserved {r : Row} (hr : r ∈ opcodeTable) (hres : r.cmd.reserved = true) {w : Word}
    (h : r.selects w = true) : msControl (field r.pat 7 0) true (msOptsOf w) = w := by
  have shape : ∀ r ∈ opcodeTable, r.cmd.reserved = true →
      (∀ f ∈ wordFields, f ∉ Cmd.msDip.operands → field r.mask f.1 f.2 ≠ 0) ∧
        field r.pat 15 15 = 1 ∧ field r.pat 16 16 = 0 ∧ field r.pat 17 17 = 0 ∧ field r.pat 21 18 = 0 ∧
        field r.pat 31 22 = 0 := by decide +kernel
  obtain ⟨covered, cpol, omp, oep, sidx, high⟩ := shape r hr hres
  have agrees (f : Nat × Nat) (hf : f ∈ wordFields) (unused : f ∉ Cmd.msDip.operands) :
      field w f.1 f.2 = field r.pat f.1 f.2 := (Row.selects_iff hr w).1 h f hf (covered f hf unused)
  have opcode := agrees (7, 0) (by decide) (by decide)
  have cpol : bit w 15 = true := bit_of_field ((agrees (15, 15) (by decide) (by decide)).trans cpol)
  have omp : bit w 16 = false := bit_of_field ((agrees (16, 16) (by decide) (by decide)).trans omp)
  have oep : bit w 17 = false := bit_of_field ((agrees (17, 17) (by decide) (by decide)).trans oep)
  have sidx := (agrees (21, 18) (by decide) (by decide)).trans sidx
  have whole := controlWord_fields ((agrees (31, 22) (by decide) (by decide)).trans high)
  rwa [opcode, cpol, omp, oep, sidx] at whole

/-- The control word of an instruction decoded from a reserved row is the word it was decoded from. -/
theorem controlOf_of_legacy {w0 w1 w2 w3 : Word} {i : Instr} (decodes : decodeWords w0 w1 w2 w3 = .ok i)
    (legacy : Legacy i) : controlOf i = w0 := by
  obtain ⟨r, mem, selects, rfl⟩ := row_of_decodes decodes
  have res := (legacy_build_iff ..).1 legacy
  have opcode : ∀ r ∈ opcodeTable, r.cmd.reserved = true →
      r.cmd = .msDipLegacy ∧ field r.pat 7 0 = 0x31 ∨ r.cmd = .msPeakLegacy ∧ field r.pat 7 0 = 0x32 := by
    decide +kernel
  have whole := msControl_of_reserved mem res selects
  rcases opcode r mem res with ⟨cmd, opc⟩ | ⟨cmd, opc⟩ <;>
  · rw [opc] at whole
    rw [cmd]
    exact whole

/-! ## The words a row reads -/

/-- Two descriptors with one control word decode alike when the rows of its opcode make the same of both. -/
theorem decodeWords_congr {w0 w1 w2 w3 v1 v2 v3 : Word}
    (h : ∀ r ∈ opcodeTable, field r.pat 7 0 = field w0 7 0 → r.cmd.build w0 w1 w2 w3 = r.cmd.build w0 v1 v2 v3) :
    decodeWords w0 w1 w2 w3 = decodeWords w0 v1 v2 v3 := by
  unfold decodeWords
  cases hr : opcodeTable.find? (fun r => r.selects w0) with
  | none => rfl
  | some r =>
    have mem := List.mem_of_find?_eq_some hr
    have selects : r.selects w0 = true := by simpa using List.find?_some hr
    simp only [h r mem (Row.opcode_of_selects mem selects).symm]

/-- `NOP` and `END` read no other word (R103). -/
theorem build_of_wordless {c : Cmd} (h : c ∈ [.nop, .endList]) (w0 w1 w2 w3 v1 v2 v3 : Word) :
    c.build w0 w1 w2 w3 = c.build w0 v1 v2 v3 := by
  simp only [List.mem_cons, List.not_mem_nil, or_false] at h
  rcases h with rfl | rfl <;> rfl

/-- `SETS` does not read `w1` (R103). -/
theorem build_sets (w0 w1 w2 w3 v1 : Word) : Cmd.sets.build w0 w1 w2 w3 = Cmd.sets.build w0 v1 w2 w3 := rfl

/-- A command on one buffer does not read `w3` (R103). -/
theorem build_of_oneBuffer {c : Cmd}
    (h : c ∈ [.fftFwd, .fftInv, .fftFwdP2, .fftInvP2, .cepLog, .cepFold, .cepExp, .msRms]) (w0 w1 w2 w3 v3 : Word) :
    c.build w0 w1 w2 w3 = c.build w0 w1 w2 v3 := by
  simp only [List.mem_cons, List.not_mem_nil, or_false] at h
  rcases h with rfl | rfl | rfl | rfl | rfl | rfl | rfl | rfl <;> rfl

end Sys2Proof

namespace Sys2Proof.Machine

open Sys2Proof.Safety

/-! ## The step on a word that is not legal -/

/-- A fetch that is possible decodes the fetched control word with the three words after it. -/
theorem State.fetch_of_fetchOk {s : State} (h : s.fetchOk = true) : ∃ w1 w2 w3,
    s.fetch = (decodeWords (wordOf s.fetched) w1 w2 w3).mapError fun _ => ⟨.illegal, (wordOf s.fetched).toNat⟩ := by
  refine ⟨wordOf (s.fetched.drop 4), wordOf (s.fetched.drop 8), wordOf (s.fetched.drop 12), ?_⟩
  have whole : ¬ s.fetched.length < 16 := by simp [State.fetched, State.descriptor]
  rw [State.fetch, if_pos h, decode, if_neg whole]
  cases decodeWords (wordOf s.fetched) (wordOf (s.fetched.drop 4)) (wordOf (s.fetched.drop 8))
    (wordOf (s.fetched.drop 12)) <;> rfl

theorem exec_of_legacy {i : Instr} (h : Legacy i) (s : State) :
    exec i s = .next (s.takeFault ⟨.illegal, (controlOf i).toNat⟩ Wreck.none) := by
  rcases h with ⟨o, n, a, b, rfl⟩ | ⟨o, n, a, b, rfl⟩ <;> rfl

/-- The engine raises `E_ILLEGAL(w0)` on a word that is not legal, by its decoding or by its reserved row. -/
theorem engineStep_of_not_legal {s : State} (h : s.fetchOk = true) (illegal : ¬ LegalControl (wordOf s.fetched)) :
    engineStep s = .next (s.raise ⟨.illegal, (wordOf s.fetched).toNat⟩) := by
  obtain ⟨w1, w2, w3, fetches⟩ := State.fetch_of_fetchOk h
  rw [← State.takeFault_of_ne_alloc (w := Wreck.none) (by simp), engineStep, fetches]
  cases decodes : decodeWords (wordOf s.fetched) w1 w2 w3 with
  | error e => rfl
  | ok i =>
    have legacy : Legacy i := by
      by_contra command
      exact illegal ((legalControl_iff_decodes ..).2 ⟨i, decodes, command⟩)
    rw [← controlOf_of_legacy decodes legacy]
    exact exec_of_legacy legacy s

/-! ## The immediate of a binary32 engine -/

theorem exec_sets_of_lt {i : BitVec 4} (h : i.toNat < 11) (lo hi : Word) (s : State) :
    exec (.sets i lo hi) s = .next (s.setSreg ⟨i.toNat, h⟩ (immediate s.cfg.fmt lo hi)).advance := dif_pos h

/-- A `SETS` of a register does not read `w3` on a binary32 engine (R108, R110). -/
theorem exec_sets_binary32 {s : State} {i : BitVec 4} (binary32 : s.cfg.fmt = .binary32) (h : i.toNat < 11)
    (lo hi hi' : Word) : exec (.sets i lo hi) s = exec (.sets i lo hi') s := by
  rw [exec_sets_of_lt h, exec_sets_of_lt h, binary32]
  rfl

end Sys2Proof.Machine

namespace Sys2Proof.Proofs

open Sys2Proof.Machine Sys2Proof.Safety

/-- Settles O43: the legal words select a row that is not reserved; the engine raises `E_ILLEGAL` on every other. -/
theorem illegalControlWords : Obligations.IllegalControlWords := by
  unfold Obligations.IllegalControlWords
  refine ⟨legalControl_iff_decodes, ?_⟩
  rintro s _ run silent fetchOk rfl illegal
  have whole : { s with inbox := s.inbox.tail } = s := by rw [silent, List.tail_nil, ← silent]
  rw [step_of_engineTurn ⟨run, .inl silent⟩, whole, engineStep_of_not_legal fetchOk illegal]
  simp [tick, State.raise]

/-- Settles O44: no row that has a dash in R103 reads the word, and a binary32 immediate is `w2` alone. -/
theorem ignoredWords : Obligations.IgnoredWords := by
  unfold Obligations.IgnoredWords
  refine ⟨fun w0 w1 w2 w3 v1 v2 v3 opc => ?_, fun w0 w1 w2 w3 v1 opc => ?_, fun w0 w1 w2 w3 v3 opc => ?_, ?_⟩
  · have rows : ∀ r ∈ opcodeTable, field r.pat 7 0 = 0x00 ∨ field r.pat 7 0 = 0x01 → r.cmd ∈ [.nop, .endList] := by
      decide +kernel
    exact decodeWords_congr fun r mem same => build_of_wordless (rows r mem (same ▸ opc)) ..
  · have rows : ∀ r ∈ opcodeTable, field r.pat 7 0 = 0x02 → r.cmd = .sets := by decide +kernel
    refine decodeWords_congr fun r mem same => ?_
    rw [rows r mem (same.trans opc)]
    exact build_sets ..
  · have rows : ∀ r ∈ opcodeTable, field r.pat 7 0 ∈ [0x10, 0x11, 0x12, 0x13, 0x20, 0x21, 0x22, 0x30] →
        r.cmd ∈ [.fftFwd, .fftInv, .fftFwdP2, .fftInvP2, .cepLog, .cepFold, .cepExp, .msRms] := by decide +kernel
    exact decodeWords_congr fun r mem same => build_of_oneBuffer (rows r mem (same ▸ opc)) ..
  · exact fun s i lo hi hi' binary32 register => exec_sets_binary32 binary32 (by omega) ..

end Sys2Proof.Proofs
end

section
/-! PROOFS. The integer helpers (R161 to R164): the smallest and the largest prime factor, powers of two, the transform size,
digit reversal; and the fault of a command whose transform size is too large (R207, R236). -/

namespace Sys2Proof.Machine

open Sys2Proof.Safety

/-! ## Prime factors (R161) -/

/-- No factor up to the root: the number is prime, its own smallest factor. -/
theorem minFac_eq_self_of_lt_sq {n d : Nat} (hn : 2 ≤ n) (below : d ≤ n.minFac) (large : n < d * d) : n.minFac = n := by
  refine Nat.Prime.minFac_eq (by_contra fun composite => Nat.not_le.2 large ?_)
  calc d * d ≤ n.minFac * n.minFac := Nat.mul_le_mul below below
    _ = n.minFac ^ 2 := (sq _).symm
    _ ≤ n := Nat.minFac_sq_le_self (by omega) composite

/-- Trial division from a divisor that no prime factor lies below, with trials enough to pass the number. -/
theorem spfFrom_eq_minFac {fuel n d : Nat} (hn : 2 ≤ n) (hd : 2 ≤ d) (below : d ≤ n.minFac) (enough : n < fuel + d) :
    spfFrom fuel n d = n.minFac := by
  induction fuel generalizing d with
  | zero =>
    have : n.minFac ≤ n := Nat.minFac_le (by omega)
    omega
  | succ fuel ih =>
    rw [spfFrom]
    split_ifs with small divides
    · exact Nat.le_antisymm below (Nat.minFac_le_of_dvd hd (Nat.dvd_of_mod_eq_zero divides))
    · have apart : d ≠ n.minFac := by
        rintro rfl
        exact divides (Nat.mod_eq_zero_of_dvd n.minFac_dvd)
      exact ih (by omega) (by omega) (by omega)
    · exact (minFac_eq_self_of_lt_sq hn below (Nat.lt_of_not_le small)).symm

theorem spf_eq_minFac {n : Nat} (hn : 2 ≤ n) : spf n = n.minFac :=
  spfFrom_eq_minFac hn (le_refl 2) (Nat.minFac_prime (by omega)).two_le (by omega)

theorem spf_prime {n : Nat} (hn : 2 ≤ n) : (spf n).Prime := by
  rw [spf_eq_minFac hn]
  exact Nat.minFac_prime (by omega)

theorem spf_dvd {n : Nat} (hn : 2 ≤ n) : spf n ∣ n := spf_eq_minFac hn ▸ n.minFac_dvd

theorem spf_mul_div {n : Nat} (hn : 2 ≤ n) : spf n * (n / spf n) = n := Nat.mul_div_cancel' (spf_dvd hn)

theorem one_le_div_spf {n : Nat} (hn : 2 ≤ n) : 1 ≤ n / spf n :=
  Nat.div_pos (Nat.le_of_dvd (by omega) (spf_dvd hn)) (spf_prime hn).pos

theorem div_spf_lt {n : Nat} (hn : 2 ≤ n) : n / spf n < n := Nat.div_lt_self (by omega) (spf_prime hn).one_lt

theorem lpfFuel_congr {fuel fuel' n : Nat} (h : n ≤ fuel) (h' : n ≤ fuel') : lpfFuel fuel n = lpfFuel fuel' n := by
  induction fuel generalizing fuel' n with
  | zero => cases fuel' <;> simp_all [lpfFuel]
  | succ fuel ih =>
    cases fuel' with
    | zero => simp_all [lpfFuel]
    | succ fuel' =>
      rw [lpfFuel, lpfFuel]
      split_ifs with small
      · rfl
      · have := div_spf_lt (show 2 ≤ n by omega)
        rw [ih (by omega) (show n / spf n ≤ fuel' by omega)]

theorem lpf_one : lpf 1 = 1 := rfl

/-- The recursion of R161. -/
theorem lpf_of_two_le {n : Nat} (hn : 2 ≤ n) : lpf n = max (spf n) (lpf (n / spf n)) := by
  obtain ⟨m, rfl⟩ : ∃ m, n = m + 1 := ⟨n - 1, by omega⟩
  have := div_spf_lt hn
  rw [lpf, lpfFuel, if_neg (by omega), lpf, lpfFuel_congr (by omega) (le_refl _)]

/-- `lpf` is a prime factor, and no prime factor is larger. -/
theorem lpf_spec {n : Nat} (hn : 2 ≤ n) : (lpf n).Prime ∧ lpf n ∣ n ∧ ∀ p, p.Prime → p ∣ n → p ≤ lpf n := by
  induction n using Nat.strong_induction_on with
  | _ n ih =>
    have split : n = spf n * (n / spf n) := (spf_mul_div hn).symm
    rw [lpf_of_two_le hn]
    rcases Nat.lt_or_ge (n / spf n) 2 with rest | rest
    · have one : n / spf n = 1 := by have := one_le_div_spf hn; omega
      have self : n = spf n := by rw [one] at split; omega
      rw [one, lpf_one, max_eq_left (spf_prime hn).one_le]
      exact ⟨spf_prime hn, spf_dvd hn, fun p _ hd => self ▸ Nat.le_of_dvd (by omega) hd⟩
    · obtain ⟨prime, divides, largest⟩ := ih _ (div_spf_lt hn) rest
      have factor : lpf (n / spf n) ∣ n := divides.trans (Nat.div_dvd_of_dvd (spf_dvd hn))
      have smallest : spf n ≤ lpf (n / spf n) := by
        have least := Nat.minFac_le_of_dvd prime.two_le factor
        rwa [← spf_eq_minFac hn] at least
      rw [max_eq_right smallest]
      refine ⟨prime, factor, fun p hp hd => ?_⟩
      rw [split, hp.dvd_mul] at hd
      rcases hd with hd | hd
      · exact (Nat.le_of_dvd (spf_prime hn).pos hd).trans smallest
      · exact largest p hp hd

/-! ## Powers of two and the transform size (R162, R163) -/

theorem ispow2_iff {n : Nat} : ispow2 n = true ↔ ∃ q, n = 2 ^ q := by
  rcases Nat.eq_zero_or_pos n with rfl | hn
  · simp [ispow2, eq_comm (a := 0)]
  · simpa [ispow2, Nat.pos_iff_ne_zero.1 hn, Nat.isPowerOfTwo] using
      (Nat.and_sub_one_eq_zero_iff_isPowerOfTwo (Nat.pos_iff_ne_zero.1 hn))

theorem ispow2_nextpow2 (n : Nat) : ispow2 (nextpow2 n) = true := by
  unfold nextpow2
  split_ifs
  · rfl
  · exact ispow2_iff.2 ⟨_, rfl⟩

/-- `nextpow2` lies below exactly the powers of two that its argument lies below. -/
theorem nextpow2_le_two_pow_iff {n q : Nat} : nextpow2 n ≤ 2 ^ q ↔ n ≤ 2 ^ q := by
  have one : 1 ≤ 2 ^ q := Nat.one_le_two_pow
  unfold nextpow2
  split_ifs with small
  · exact iff_of_true one (small.trans one)
  · rw [Nat.pow_le_pow_iff_right (by omega), Nat.succ_le_iff, Nat.log2_lt (by omega)]
    omega

theorem nextpow2_le_iff {n p : Nat} (hp : ispow2 p = true) : nextpow2 n ≤ p ↔ n ≤ p := by
  obtain ⟨q, rfl⟩ := ispow2_iff.1 hp
  exact nextpow2_le_two_pow_iff

theorem le_nextpow2 (n : Nat) : n ≤ nextpow2 n := (nextpow2_le_iff (ispow2_nextpow2 n)).1 (le_refl _)

/-- The two readings of the padded size (R163): padding, then scaling, or the other way about. -/
theorem nextpow2_mul_two_pow {n : Nat} (hn : 1 ≤ n) (e : Nat) : nextpow2 (n * 2 ^ e) = nextpow2 n * 2 ^ e := by
  obtain ⟨p, hp⟩ := ispow2_iff.1 (ispow2_nextpow2 (n * 2 ^ e))
  obtain ⟨q, hq⟩ := ispow2_iff.1 (ispow2_nextpow2 n)
  apply Nat.le_antisymm
  · rw [hq, ← pow_add, nextpow2_le_two_pow_iff, pow_add, ← hq]
    exact Nat.mul_le_mul_right _ (le_nextpow2 n)
  · have fits : n * 2 ^ e ≤ 2 ^ p := hp ▸ le_nextpow2 _
    have above : e ≤ p := (Nat.pow_le_pow_iff_right (by omega)).1 ((Nat.le_mul_of_pos_left _ hn).trans fits)
    obtain ⟨c, rfl⟩ := Nat.exists_eq_add_of_le' above
    rw [hp, pow_add]
    rw [pow_add] at fits
    exact Nat.mul_le_mul_right _ (nextpow2_le_two_pow_iff.2 (Nat.le_of_mul_le_mul_right fits (by positivity)))

@[simp] theorem fsize_nopad (n : Nat) (e : BitVec 4) : fsize n true e = n := rfl

@[simp] theorem fsize_pad (n : Nat) (e : BitVec 4) : fsize n false e = nextpow2 n * 2 ^ e.toNat := Nat.shiftLeft_eq ..

/-- A padded size is a power of two at or above the size. -/
theorem fsize_pad_spec (n : Nat) (e : BitVec 4) : n ≤ fsize n false e ∧ ispow2 (fsize n false e) = true := by
  obtain ⟨q, hq⟩ := ispow2_iff.1 (ispow2_nextpow2 n)
  rw [fsize_pad]
  exact ⟨(le_nextpow2 n).trans (Nat.le_mul_of_pos_right _ (by positivity)),
    ispow2_iff.2 ⟨q + e.toNat, by rw [hq, pow_add]⟩⟩

/-! ## A transform size that is too large (R207, R236) -/

theorem hdTrap_of_large {p : Params} {o : HdOpts} {n a b : Nat} (hn : n ≠ 0) (large : 2 ^ 31 ≤ HdOpts.size o n) :
    hdTrap p o n a b = some ⟨.size, n⟩ := by
  have exceeds : ¬ HdOpts.size o n < 2147483648 := Nat.not_lt.2 large
  simp [hdTrap, firstTrap, hn, exceeds]

theorem msTrap_of_large {p : Params} {o : MsOpts} {n a b : Nat} (hn : n ≠ 0) (large : 2 ^ 31 ≤ MsOpts.size o n) :
    msTrap p o n a b = some ⟨.size, n⟩ := by
  have exceeds : ¬ MsOpts.size o n < 2147483648 := Nat.not_lt.2 large
  simp [msTrap, firstTrap, hn, exceeds]

/-- A command whose checks fail, but not by `E_ALLOC`, raises its fault (R283, R286). -/
theorem State.raises_command {s : State} {trap : Option Trap} {t : Trap} (h : trap = some t) (precise : t.code ≠ .alloc)
    (w : Wreck) (effect : State → State) : Raises s (s.command trap w effect) t.code t.info := by
  subst h
  rw [State.command_some, State.takeFault_of_ne_alloc precise]
  exact ⟨_, rfl, rfl, rfl, rfl, rfl, rfl, rfl, fun _ => rfl⟩

/-! ## Digit reversal (R164) -/

theorem revFuel_congr {fuel fuel' k n : Nat} (h : n ≤ fuel) (h' : n ≤ fuel') : revFuel fuel k n = revFuel fuel' k n := by
  induction fuel generalizing fuel' k n with
  | zero => cases fuel' <;> simp_all [revFuel]
  | succ fuel ih =>
    cases fuel' with
    | zero => simp_all [revFuel]
    | succ fuel' =>
      rw [revFuel, revFuel]
      split_ifs with small
      · rfl
      · have := div_spf_lt (show 2 ≤ n by omega)
        rw [ih (by omega) (show n / spf n ≤ fuel' by omega)]

theorem rev_one (k : Nat) : rev k 1 = 0 := rfl

/-- The recursion of R164. -/
theorem rev_of_two_le {n : Nat} (hn : 2 ≤ n) (k : Nat) :
    rev k n = k % spf n * (n / spf n) + rev (k / spf n) (n / spf n) := by
  obtain ⟨m, rfl⟩ : ∃ m, n = m + 1 := ⟨n - 1, by omega⟩
  have := div_spf_lt hn
  rw [rev, revFuel, if_neg (by omega), rev, revFuel_congr (by omega) (le_refl _)]

theorem rev_lt {n : Nat} (hn : 1 ≤ n) (k : Nat) : rev k n < n := by
  induction n using Nat.strong_induction_on generalizing k with
  | _ n ih =>
    rcases Nat.eq_or_lt_of_le hn with rfl | two
    · exact Nat.zero_lt_one
    · have rest := ih _ (div_spf_lt two) (one_le_div_spf two) (k / spf n)
      have digit : k % spf n + 1 ≤ spf n := Nat.mod_lt _ (spf_prime two).pos
      calc rev k n = k % spf n * (n / spf n) + rev (k / spf n) (n / spf n) := rev_of_two_le two k
        _ < (k % spf n + 1) * (n / spf n) := by rw [Nat.succ_mul]; omega
        _ ≤ spf n * (n / spf n) := Nat.mul_le_mul_right _ digit
        _ = n := spf_mul_div two

/-- Numbers below the size with the same reversal have the same last digit and the same rest. -/
theorem rev_injOn {n j k : Nat} (hj : j < n) (hk : k < n) (same : rev j n = rev k n) : j = k := by
  induction n using Nat.strong_induction_on generalizing j k with
  | _ n ih =>
    rcases Nat.lt_or_ge n 2 with small | two
    · omega
    · have pos := one_le_div_spf two
      have high (i : Nat) : rev i n / (n / spf n) = i % spf n := by
        rw [rev_of_two_le two, Nat.mul_comm, Nat.mul_add_div pos, Nat.div_eq_of_lt (rev_lt pos _), add_zero]
      have low (i : Nat) : rev i n % (n / spf n) = rev (i / spf n) (n / spf n) := by
        rw [rev_of_two_le two, Nat.mul_comm, Nat.mul_add_mod, Nat.mod_eq_of_lt (rev_lt pos _)]
      have below {i : Nat} (hi : i < n) : i / spf n < n / spf n :=
        Nat.div_lt_of_lt_mul (by rwa [spf_mul_div two])
      have digit : j % spf n = k % spf n := by rw [← high j, ← high k, same]
      have rest : j / spf n = k / spf n :=
        ih _ (div_spf_lt two) (below hj) (below hk) (by rw [← low j, ← low k, same])
      rw [← Nat.div_add_mod j (spf n), ← Nat.div_add_mod k (spf n), digit, rest]

/-- Injective on `0 .. n - 1` and into it. -/
theorem map_rev_perm (n : Nat) : ((List.range n).map fun k => rev k n).Perm (List.range n) := by
  have distinct : ((List.range n).map fun k => rev k n).Nodup :=
    List.Nodup.map_on (fun j hj k hk same => rev_injOn (List.mem_range.1 hj) (List.mem_range.1 hk) same) List.nodup_range
  have into : (List.range n).map (fun k => rev k n) ⊆ List.range n := by
    intro i hi
    obtain ⟨k, hk, rfl⟩ := List.mem_map.1 hi
    have := List.mem_range.1 hk
    exact List.mem_range.2 (rev_lt (by omega) k)
  exact (distinct.subperm into).perm_of_length_le (by simp)

theorem spf_two_pow_succ (q : Nat) : spf (2 ^ (q + 1)) = 2 := by
  have two : 2 ≤ 2 ^ (q + 1) := Nat.le_self_pow (by omega) 2
  rw [spf_eq_minFac two, Nat.pow_minFac (by omega), Nat.minFac_two]

/-- The digits of a power of two are its bits. -/
theorem rev_two_pow_succ (k q : Nat) : rev k (2 ^ (q + 1)) = 2 ^ q * (k % 2) + rev (k / 2) (2 ^ q) := by
  have half : 2 ^ (q + 1) / 2 = 2 ^ q := by omega
  rw [rev_of_two_le (Nat.le_self_pow (by omega) 2), spf_two_pow_succ, half, Nat.mul_comm]

theorem testBit_rev_two_pow {q k b : Nat} (hb : b < q) : (rev k (2 ^ q)).testBit b = k.testBit (q - 1 - b) := by
  induction q generalizing k with
  | zero => omega
  | succ q ih =>
    rw [rev_two_pow_succ, Nat.testBit_two_pow_mul_add _ (rev_lt Nat.one_le_two_pow _)]
    split_ifs with low
    · rw [ih low, ← Nat.testBit_succ]
      congr 1
      omega
    · have top : b = q := by omega
      subst top
      simp [Nat.testBit_zero]

end Sys2Proof.Machine

namespace Sys2Proof.Proofs

open Sys2Proof.Machine Sys2Proof.Safety

/-- Settles O52: trial division and its recursion, the least power of two, the two readings of the size, and the first
check that fails. -/
theorem integerHelpers : Obligations.IntegerHelpers := by
  unfold Obligations.IntegerHelpers
  refine ⟨⟨fun n hn => ?_, lpf_one, fun n => ispow2_iff, fun n _ => ?_⟩, fun n e hn => ?_, ?_⟩
  · have prime : spf n = n ↔ n.Prime := by
      rw [spf_eq_minFac hn, Nat.prime_def_minFac]
      exact (and_iff_right hn).symm
    exact ⟨spf_eq_minFac hn, prime, lpf_of_two_le hn, lpf_spec hn⟩
  · exact ⟨ispow2_nextpow2 n, le_nextpow2 n, fun p hp => (nextpow2_le_iff hp).2⟩
  · exact ⟨fsize_nopad n e, fsize_pad n e, by rw [fsize_pad, nextpow2_mul_two_pow hn], fsize_pad_spec n e⟩
  · intro s n a b nopad e p q hn large i hi
    have nonzero : n.toNat ≠ 0 := fun h => hn (BitVec.eq_of_toNat_eq h)
    have hd := hdTrap_of_large (p := s.cfg) (o := ⟨nopad, e, p, q⟩) (a := a.toNat) (b := b.toNat) nonzero large
    have ms := msTrap_of_large (p := s.cfg) (o := ⟨nopad, e, p, q⟩) (a := a.toNat) (b := b.toNat) nonzero large
    simp only [List.mem_cons, List.not_mem_nil, or_false] at hi
    rcases hi with rfl | rfl | rfl | rfl | rfl
    · rw [exec, execHdDec]; exact State.raises_command hd (by simp) ..
    · rw [exec, execHdDech]; exact State.raises_command hd (by simp) ..
    · rw [exec, execMsDip]; exact State.raises_command ms (by simp) ..
    · rw [exec, execMsPeak]; exact State.raises_command ms (by simp) ..
    · rw [exec, execMsFlat]; exact State.raises_command ms (by simp) ..

/-- Settles O53: the recursion, injectivity below the size, and the digits of a power of two. -/
theorem digitReversal : Obligations.DigitReversal := by
  unfold Obligations.DigitReversal
  exact ⟨fun n k hn _ => rev_of_two_le hn k, rev_one 0, fun n _ => map_rev_perm n,
    fun q k b _ hb => testBit_rev_two_pow hb, by decide⟩

end Sys2Proof.Proofs
end

section
/-! PROOFS. The finite values of a format in order (R130): the magnitude as a strictly increasing function of the encoding
without its sign, the order of the values as the order of their encodings; then rounding (R131), and the operations whose
result is exact. -/

namespace Sys2Proof.Machine

open Sys2Proof.Safety

/-! ## The magnitude of a body -/

/-- The magnitude that a body stands for, in quanta. -/
def bodyMag (f : Fmt) (b : Nat) : Nat :=
  if b / 2 ^ fracBits f = 0 then b % 2 ^ fracBits f
  else (2 ^ fracBits f + b % 2 ^ fracBits f) * 2 ^ (b / 2 ^ fracBits f - 1)

theorem mag_eq (f : Fmt) (x : Elem) : mag f x = bodyMag f (bodyOf f x) := rfl

/-- A significand `m` at the scale `2 ^ k` is subnormal only at the least scale; rounded up to a power of two, it carries
into the exponent. -/
theorem bodyMag_of_significand {f : Fmt} {k m : Nat} (low : k = 0 ∨ 2 ^ fracBits f ≤ m) (high : m ≤ 2 ^ (fracBits f + 1)) :
    bodyMag f (k * 2 ^ fracBits f + m) = m * 2 ^ k := by
  have pos : 0 < 2 ^ fracBits f := by positivity
  rw [pow_succ] at high
  unfold bodyMag
  generalize 2 ^ fracBits f = p at *
  have quotient : (k * p + m) / p = k + m / p := by rw [Nat.mul_comm, Nat.mul_add_div pos]
  have remainder : (k * p + m) % p = m % p := by rw [Nat.mul_comm, Nat.mul_add_mod]
  rw [quotient, remainder]
  rcases Nat.lt_or_ge m p with small | normal
  · obtain rfl : k = 0 := by omega
    simp [Nat.div_eq_of_lt small, Nat.mod_eq_of_lt small]
  · rcases Nat.lt_or_ge m (p * 2) with below | carry
    · have one : m / p = 1 := Nat.div_eq_of_lt_le (by omega) (by omega)
      have rest : m % p = m - p := by rw [Nat.mod_eq_sub_mod normal, Nat.mod_eq_of_lt (by omega)]
      rw [one, rest, if_neg (by omega), Nat.add_sub_cancel, Nat.add_sub_cancel' normal]
    · obtain rfl : m = p * 2 := by omega
      rw [Nat.mul_div_cancel_left _ pos, Nat.mul_mod_right, if_neg (by omega), add_zero, Nat.mul_assoc,
        ← pow_succ', show k + 2 - 1 = k + 1 by omega]

/-- Every body is a significand and a scale. -/
theorem exists_significand (f : Fmt) (b : Nat) : ∃ k m, b = k * 2 ^ fracBits f + m ∧ (k = 0 ∨ 2 ^ fracBits f ≤ m) ∧
    m < 2 ^ (fracBits f + 1) := by
  have pos : 0 < 2 ^ fracBits f := by positivity
  have split := Nat.div_add_mod b (2 ^ fracBits f)
  have rest := Nat.mod_lt b pos
  rw [pow_succ]
  generalize 2 ^ fracBits f = p at *
  rcases Nat.eq_zero_or_pos (b / p) with zero | normal
  · exact ⟨0, b, by omega, .inl rfl, by rw [zero] at split; omega⟩
  · obtain ⟨k, hk⟩ : ∃ k, b / p = k + 1 := ⟨b / p - 1, by omega⟩
    refine ⟨k, p + b % p, ?_, .inr (by omega), by omega⟩
    rw [hk, Nat.mul_comm, Nat.succ_mul] at split
    omega

theorem bodyMag_strictMono (f : Fmt) : StrictMono (bodyMag f) := by
  refine strictMono_nat_of_lt_succ fun b => ?_
  obtain ⟨k, m, rfl, low, high⟩ := exists_significand f b
  rw [add_assoc, bodyMag_of_significand low (by omega), bodyMag_of_significand (by omega) (by omega)]
  exact Nat.mul_lt_mul_of_pos_right (Nat.lt_succ_self m) (by positivity)

@[simp] theorem bodyMag_zero (f : Fmt) : bodyMag f 0 = 0 := by simp [bodyMag]

theorem mag_eq_zero_iff {f : Fmt} {x : Elem} : mag f x = 0 ↔ isZero f x = true := by
  have body : bodyMag f (bodyOf f x) = bodyMag f 0 ↔ bodyOf f x = 0 := (bodyMag_strictMono f).injective.eq_iff
  rwa [bodyMag_zero, ← mag_eq, ← beq_iff_eq (a := bodyOf f x)] at body

/-! ## Values -/

theorem quanta_eq (f : Fmt) (x : Elem) :
    quanta f x = if signOf f x then -(bodyMag f (bodyOf f x) : Int) else bodyMag f (bodyOf f x) := rfl

/-- A value is as large as its encoding is, sign and all (R14). -/
theorem quanta_le_iff {f : Fmt} {x y : Elem} : quanta f x ≤ quanta f y ↔ orderKey f x ≤ orderKey f y := by
  have mono {a b : Nat} : bodyMag f a ≤ bodyMag f b ↔ a ≤ b := (bodyMag_strictMono f).le_iff_le
  have up := @mono (bodyOf f x) (bodyOf f y)
  have down := @mono (bodyOf f y) (bodyOf f x)
  have zx := @mono (bodyOf f x) 0
  have zy := @mono (bodyOf f y) 0
  rw [bodyMag_zero] at zx zy
  rw [quanta_eq, quanta_eq, orderKey, orderKey]
  split <;> split <;> omega

theorem quanta_inj {f : Fmt} {x y : Elem} : quanta f x = quanta f y ↔ orderKey f x = orderKey f y := by
  rw [le_antisymm_iff, le_antisymm_iff, quanta_le_iff, quanta_le_iff]

/-- No finite value lies strictly between those of two bodies in succession. -/
theorem quanta_not_between (f : Fmt) (b : Nat) (y : Elem) :
    quanta f y ≤ bodyMag f b ∨ (bodyMag f (b + 1) : Int) ≤ quanta f y := by
  have mono : bodyMag f (bodyOf f y) ≤ bodyMag f b ∨ bodyMag f (b + 1) ≤ bodyMag f (bodyOf f y) := by
    rcases Nat.lt_or_ge b (bodyOf f y) with h | h
    · exact .inr ((bodyMag_strictMono f).monotone h)
    · exact .inl ((bodyMag_strictMono f).monotone h)
  rw [quanta_eq]
  split <;> omega

theorem isNaN_eq_false_of_isFinite {f : Fmt} {x : Elem} (h : isFinite f x = true) : isNaN f x = false := by
  simp only [isFinite, isNaN, decide_eq_true_eq, decide_eq_false_iff_not] at *; omega

theorem isInf_eq_false_of_isFinite {f : Fmt} {x : Elem} (h : isFinite f x = true) : isInf f x = false := by
  simp only [isFinite, isInf, decide_eq_true_eq, beq_eq_false_iff_ne] at *; omega

theorem isFinite_of_isZero {f : Fmt} {x : Elem} (h : isZero f x = true) : isFinite f x = true := by
  have pos : 0 < infBody f := by cases f <;> decide
  simp only [isZero, isFinite, beq_iff_eq, decide_eq_true_eq] at *
  omega

theorem quanta_of_isZero {f : Fmt} {x : Elem} (h : isZero f x = true) : quanta f x = 0 := by
  simp [quanta, mag_eq_zero_iff.2 h]

/-- A packed body below infinity is a finite element of that body and sign. -/
theorem pack_spec {f : Fmt} {b : Nat} (neg : Bool) (h : b ≤ infBody f) :
    bodyOf f (pack f neg b) = b ∧ signOf f (pack f neg b) = neg :=
  ⟨bodyOf_pack (h.trans_lt (infBody_lt f)), signOf_pack (h.trans_lt (infBody_lt f))⟩

theorem isFinite_pack {f : Fmt} {b : Nat} (neg : Bool) (h : b < infBody f) : isFinite f (pack f neg b) = true := by
  simp [isFinite, (pack_spec neg h.le).1, h]

theorem quanta_pack {f : Fmt} {b : Nat} (neg : Bool) (h : b ≤ infBody f) :
    quanta f (pack f neg b) = if neg then -(bodyMag f b : Int) else bodyMag f b := by
  rw [quanta_eq, (pack_spec neg h).1, (pack_spec neg h).2]

theorem feq_iff {f : Fmt} {x y : Elem} :
    feq f x y = true ↔ isNaN f x = false ∧ isNaN f y = false ∧ orderKey f x = orderKey f y := by
  simp [feq, ordered, and_assoc]

/-- Finite elements of the same value are equal as numbers. -/
theorem feq_of_quanta_eq {f : Fmt} {x y : Elem} (hx : isFinite f x = true) (hy : isFinite f y = true)
    (h : quanta f x = quanta f y) : feq f x y = true :=
  feq_iff.2 ⟨isNaN_eq_false_of_isFinite hx, isNaN_eq_false_of_isFinite hy, quanta_inj.1 h⟩

/-- A positive element is its body. -/
theorem toNat_pack_false {f : Fmt} {b : Nat} (h : b ≤ infBody f) : (pack f false b).toNat = b := by
  have small : infBody f < 2 ^ 64 := by cases f <;> decide
  rw [pack, if_neg (by simp), add_zero, BitVec.toNat_ofNat, Nat.mod_eq_of_lt (h.trans_lt small)]

/-! ## Rounding -/

/-- The rounded body as `roundBody` has it before overflow: the scale, and the significand with its carry. -/
def nearestBody (f : Fmt) (num den : Nat) : Nat :=
  dropBits f num den * 2 ^ fracBits f + divNearestEven num (den * 2 ^ dropBits f num den)

theorem roundBody_eq (f : Fmt) (num den : Nat) : roundBody f num den = min (nearestBody f num den) (infBody f) := rfl

/-- The truncated quotient at the scale of the rounding is a significand of the format. -/
theorem truncated_significand (f : Fmt) (num den : Nat) :
    (dropBits f num den = 0 ∨ 2 ^ fracBits f ≤ num / (den * 2 ^ dropBits f num den)) ∧
      num / (den * 2 ^ dropBits f num den) < 2 ^ (fracBits f + 1) := by
  rw [← Nat.div_div_eq_div_mul]
  unfold dropBits
  generalize num / den = q
  rcases Nat.eq_zero_or_pos q with rfl | hq
  · simp
  have lower : 2 ^ q.log2 ≤ q := Nat.log2_self_le (by omega)
  have upper : q < 2 ^ (q.log2 + 1) := Nat.lt_log2_self
  constructor
  · rcases Nat.lt_or_ge (fracBits f) q.log2 with large | small
    · right
      rw [Nat.le_div_iff_mul_le (by positivity), ← pow_add, Nat.add_sub_cancel' large.le]
      exact lower
    · exact .inl (by omega)
  · rw [Nat.div_lt_iff_lt_mul (by positivity), ← pow_add]
    exact upper.trans_le (Nat.pow_le_pow_right (by omega) (by omega))

/-- The bodies around a positive quotient of quanta: the body below, at scale `2 ^ k`, and the next one. -/
theorem bodyMag_around {f : Fmt} {k n : Nat} (low : k = 0 ∨ 2 ^ fracBits f ≤ n) (high : n < 2 ^ (fracBits f + 1)) :
    bodyMag f (k * 2 ^ fracBits f + n) = n * 2 ^ k ∧ bodyMag f (k * 2 ^ fracBits f + n + 1) = (n + 1) * 2 ^ k :=
  ⟨bodyMag_of_significand low high.le, by rw [add_assoc]; exact bodyMag_of_significand (by omega) high⟩

theorem two_pow_fracBits_mod_two (f : Fmt) : 2 ^ fracBits f % 2 = 0 := by cases f <;> decide

/-- The rounded body is as near to the quotient as any value (R131), and when another value is as near, it is even.
Distances are multiplied by the denominator. -/
theorem nearestBody_nearest {f : Fmt} {num den : Nat} (hden : 0 < den) (y : Elem) :
    ((num : Int) - den * bodyMag f (nearestBody f num den)).natAbs ≤ ((num : Int) - den * quanta f y).natAbs ∧
      (((num : Int) - den * bodyMag f (nearestBody f num den)).natAbs = ((num : Int) - den * quanta f y).natAbs →
        quanta f y ≠ bodyMag f (nearestBody f num den) → nearestBody f num den % 2 = 0) := by
  obtain ⟨low, high⟩ := truncated_significand f num den
  have even := two_pow_fracBits_mod_two f
  unfold nearestBody
  generalize dropBits f num den = k at *
  obtain ⟨lower, upper⟩ := bodyMag_around low high
  have between := quanta_not_between f (k * 2 ^ fracBits f + num / (den * 2 ^ k)) y
  rw [lower, upper] at between
  have parity : k * 2 ^ fracBits f % 2 = 0 := by rw [Nat.mul_mod, even, Nat.mul_zero, Nat.zero_mod]
  have split := Nat.div_add_mod num (den * 2 ^ k)
  have rest := Nat.mod_lt num (show 0 < den * 2 ^ k by positivity)
  unfold divNearestEven
  dsimp only
  generalize num / (den * 2 ^ k) = n at *
  generalize num % (den * 2 ^ k) = r at *
  generalize quanta f y = v at *
  have below : (den : Int) * ((n * 2 ^ k : Nat) : Int) = (den * 2 ^ k * n : Nat) := by push_cast; ring
  have above : (den : Int) * (((n + 1) * 2 ^ k : Nat) : Int) = (den * 2 ^ k * n + den * 2 ^ k : Nat) := by push_cast; ring
  have scaled : (den : Int) * v ≤ (den * 2 ^ k * n : Nat) ∨ (den * 2 ^ k * n + den * 2 ^ k : Nat) ≤ (den : Int) * v := by
    rw [← below, ← above]
    exact between.imp (Int.mul_le_mul_of_nonneg_left · (by omega)) (Int.mul_le_mul_of_nonneg_left · (by omega))
  have cancel {u : Nat} (h : (den : Int) * v = den * u) : v = u := Int.eq_of_mul_eq_mul_left (by omega) h
  split_ifs with nearer
  · rw [← Nat.add_assoc, upper, above]
    refine ⟨by omega, fun tie other => ?_⟩
    have apart : (den : Int) * v ≠ (den * 2 ^ k * n + den * 2 ^ k : Nat) := fun h => other (cancel (h.trans above.symm))
    omega
  · rw [lower, below]
    refine ⟨by omega, fun tie other => ?_⟩
    have apart : (den : Int) * v ≠ (den * 2 ^ k * n : Nat) := fun h => other (cancel (h.trans below.symm))
    omega

/-- A magnitude of the format, as a quotient, rounds to its body: nothing is nearer to it than itself. -/
theorem roundBody_bodyMag {f : Fmt} {b den : Nat} (hden : 0 < den) (hb : b ≤ infBody f) :
    roundBody f (bodyMag f b * den) den = b := by
  obtain ⟨near, -⟩ := nearestBody_nearest (f := f) (num := bodyMag f b * den) hden (pack f false b)
  have value : ((bodyMag f b * den : Nat) : Int) - den * quanta f (pack f false b) = 0 := by
    rw [quanta_pack false hb]
    push_cast
    simp [Int.mul_comm]
  rw [value, Int.natAbs_zero, Nat.le_zero, Int.natAbs_eq_zero] at near
  have same : den * bodyMag f b = den * bodyMag f (nearestBody f (bodyMag f b * den) den) := by
    rw [Nat.mul_comm]
    exact_mod_cast sub_eq_zero.1 near
  rw [roundBody_eq, ← (bodyMag_strictMono f).injective (Nat.eq_of_mul_eq_mul_left hden same), min_eq_left hb]

/-- A number of no more bits than a significand is a magnitude at every scale. -/
theorem exists_bodyMag_eq {f : Fmt} {m : Nat} (hm : m ≤ 2 ^ (fracBits f + 1)) (j : Nat) :
    ∃ b ≤ (j + 2) * 2 ^ fracBits f, bodyMag f b = m * 2 ^ j := by
  have double : 2 ^ (fracBits f + 1) = 2 * 2 ^ fracBits f := pow_succ' ..
  induction j generalizing m with
  | zero => exact ⟨m, by omega, by simpa using bodyMag_of_significand (.inl rfl) hm⟩
  | succ j ih =>
    rcases Nat.lt_or_ge m (2 ^ fracBits f) with short | full
    · obtain ⟨b, hb, mag⟩ := ih (show 2 * m ≤ _ by omega)
      exact ⟨b, hb.trans (Nat.mul_le_mul_right _ (by omega)), by rw [mag]; ring⟩
    · refine ⟨(j + 1) * 2 ^ fracBits f + m, ?_, bodyMag_of_significand (.inr full) hm⟩
      rw [show (j + 1 + 2) * 2 ^ fracBits f = (j + 1) * 2 ^ fracBits f + 2 * 2 ^ fracBits f by ring]
      omega

/-- The rounded body of a quotient below a power of two, with room for the carry. -/
theorem nearestBody_le {f : Fmt} {num den e : Nat} (h : num / den < 2 ^ e) :
    nearestBody f num den ≤ (e - 1 - fracBits f + 2) * 2 ^ fracBits f := by
  have scale : dropBits f num den ≤ e - 1 - fracBits f := by
    unfold dropBits
    rcases Nat.eq_zero_or_pos (num / den) with zero | pos
    · simp [zero]
    · have := (Nat.log2_lt (by omega)).2 h
      omega
  have significand : divNearestEven num (den * 2 ^ dropBits f num den) ≤ 2 * 2 ^ fracBits f := by
    have high := (truncated_significand f num den).2
    rw [pow_succ'] at high
    unfold divNearestEven
    dsimp only
    split_ifs <;> omega
  calc nearestBody f num den ≤ (e - 1 - fracBits f) * 2 ^ fracBits f + 2 * 2 ^ fracBits f :=
        Nat.add_le_add (Nat.mul_le_mul_right _ scale) significand
    _ = _ := by ring

theorem cast_toRat (f : Fmt) (x : Elem) : ((toRat f x : ℚ) : ℝ) = (quanta f x : ℝ) / 2 ^ quantumExp f := by
  simp [toRat]

/-- The distance of a quotient of quanta from a value, over a common denominator. -/
theorem abs_sub_toRat (f : Fmt) (num : Nat) {den : Nat} (hden : 0 < den) (x : Elem) :
    |(num / den / 2 ^ quantumExp f : ℝ) - (toRat f x : ℝ)| =
      ((num : Int) - den * quanta f x).natAbs / (den * 2 ^ quantumExp f : ℝ) := by
  have pos : (0 : ℝ) < den := by exact_mod_cast hden
  have common : (num / den / 2 ^ quantumExp f : ℝ) - (toRat f x : ℝ) =
      ((num : Int) - den * quanta f x : Int) / (den * 2 ^ quantumExp f : ℝ) := by
    rw [cast_toRat]
    push_cast
    field_simp
  rw [common, abs_div, abs_of_pos (show (0 : ℝ) < den * 2 ^ quantumExp f by positivity), Nat.cast_natAbs, Int.cast_abs]

/-- A quotient of quanta that does not overflow is correctly rounded. -/
theorem rounds_pack {f : Fmt} {num den : Nat} (hden : 0 < den) (finite : nearestBody f num den < infBody f)
    (bounded : (num / den / 2 ^ quantumExp f : ℝ) < (overflowBound f : ℝ)) :
    Rounds f (num / den / 2 ^ quantumExp f) (pack f false (roundBody f num den)) := by
  have body : roundBody f num den = nearestBody f num den := by rw [roundBody_eq, min_eq_left finite.le]
  have scale : (0 : ℝ) < den * 2 ^ quantumExp f := by
    have : (0 : ℝ) < den := by exact_mod_cast hden
    positivity
  rw [Rounds, if_neg (by rw [abs_of_nonneg (by positivity)]; exact not_le.2 bounded), body]
  refine ⟨isFinite_pack _ finite, fun y _ => ?_⟩
  obtain ⟨near, even⟩ := nearestBody_nearest (f := f) (num := num) hden y
  rw [abs_sub_toRat f num hden, abs_sub_toRat f num hden, quanta_pack _ finite.le, div_le_div_iff_of_pos_right scale,
    div_left_inj' scale.ne']
  simp only [Bool.false_eq_true, if_false, Nat.cast_le, Nat.cast_inj]
  refine ⟨near, fun tie other => ?_⟩
  have value : quanta f y ≠ bodyMag f (nearestBody f num den) := by
    intro same
    exact other (by rw [toRat, toRat, quanta_pack _ finite.le, same]; rfl)
  rw [toNat_pack_false finite.le]
  exact even tie value

/-! ## Exact operations -/

/-- A sum that is a value of the format is exact. -/
theorem addAs_exact {src : NanSource} {f : Fmt} {a b c : Elem} (ha : isFinite f a = true) (hb : isFinite f b = true)
    (hc : isFinite f c = true) (sum : quanta f a + quanta f b = quanta f c) :
    isFinite f (addAs src f a b) = true ∧ quanta f (addAs src f a b) = quanta f c := by
  have body : bodyOf f c < infBody f := by simpa [isFinite] using hc
  simp only [addAs, isNaN_eq_false_of_isFinite ha, isNaN_eq_false_of_isFinite hb, isInf_eq_false_of_isFinite ha,
    isInf_eq_false_of_isFinite hb, Bool.or_self, Bool.false_eq_true, if_false, sum]
  split_ifs with zero
  · have pos : 0 < infBody f := Nat.zero_lt_of_lt body
    exact ⟨isFinite_pack _ pos, by rw [quanta_pack _ pos.le, zero]; simp⟩
  · have round : roundBody f (quanta f c).natAbs 1 = bodyOf f c := by
      have mag : (quanta f c).natAbs = bodyMag f (bodyOf f c) * 1 := by rw [quanta_eq]; split <;> omega
      rw [mag, roundBody_bodyMag Nat.one_pos body.le]
    refine ⟨round ▸ isFinite_pack _ body, ?_⟩
    rw [round, quanta_pack _ body.le]
    rw [quanta_eq] at zero ⊢
    simp only [decide_eq_true_eq]
    split_ifs <;> omega

/-- A product that is a value of the format is exact. -/
theorem fmul_exact {f : Fmt} {a b c : Elem} (ha : isFinite f a = true) (hb : isFinite f b = true)
    (hc : isFinite f c = true) (product : mag f a * mag f b = mag f c * 2 ^ quantumExp f) :
    fmul f a b = pack f (signOf f a != signOf f b) (bodyOf f c) := by
  have body : bodyOf f c < infBody f := by simpa [isFinite] using hc
  simp only [fmul, isNaN_eq_false_of_isFinite ha, isNaN_eq_false_of_isFinite hb, isInf_eq_false_of_isFinite ha,
    isInf_eq_false_of_isFinite hb, Bool.or_self, Bool.false_eq_true, if_false, product]
  rw [mag_eq, roundBody_bodyMag (by positivity) body.le]

end Sys2Proof.Machine
end

section
/-! PROOFS. The numerics of R134 to R144: the conversion of integers, the exact values of the elementary functions, the
clamped logarithm, the product and the magnitude of complex values. -/

namespace Sys2Proof.Machine

open Sys2Proof.Safety

/-! ## The conversion of integers (R136) -/

theorem two_pow_le_overflowBound (f : Fmt) : 2 ^ 32 ≤ overflowBound f := by
  have room : 32 + quantumExp f ≤ expOnes f - 3 := by cases f <;> decide
  have significand : (1 : ℚ) ≤ 2 ^ (fracBits f + 2) - 1 := by
    have : (2 : ℚ) ^ 1 ≤ 2 ^ (fracBits f + 2) := pow_le_pow_right₀ one_le_two (by omega)
    linarith
  rw [overflowBound, le_div_iff₀ (by positivity), ← pow_add]
  calc (2 : ℚ) ^ (32 + quantumExp f) ≤ 2 ^ (expOnes f - 3) := pow_le_pow_right₀ one_le_two room
    _ ≤ _ := le_mul_of_one_le_left (by positivity) significand

theorem rounds_i2f (f : Fmt) {k : Nat} (hk : k < 2 ^ 32) : Rounds f (k : ℝ) (i2f f k) := by
  have value : (k : ℝ) = ((k * 2 ^ quantumExp f : Nat) : ℝ) / (1 : Nat) / 2 ^ quantumExp f := by
    push_cast
    field_simp
  have below : k * 2 ^ quantumExp f / 1 < 2 ^ (32 + quantumExp f) := by
    rw [Nat.div_one, pow_add]
    exact Nat.mul_lt_mul_of_pos_right hk (by positivity)
  have finite : nearestBody f (k * 2 ^ quantumExp f) 1 < infBody f :=
    (nearestBody_le below).trans_lt (Nat.mul_lt_mul_of_pos_right (by cases f <;> decide) (by positivity))
  have bounded : (k : ℝ) < (overflowBound f : ℝ) := by
    have bound : ((2 ^ 32 : ℚ) : ℝ) ≤ (overflowBound f : ℝ) := Rat.cast_le.2 (two_pow_le_overflowBound f)
    have : (k : ℝ) < 2 ^ 32 := by exact_mod_cast hk
    push_cast at bound
    linarith
  rw [value] at bounded ⊢
  exact rounds_pack Nat.one_pos finite bounded

/-- An integer of no more bits than the significand converts exactly. -/
theorem toRat_i2f {f : Fmt} {k : Nat} (hk : k ≤ 2 ^ (fracBits f + 1)) : toRat f (i2f f k) = k := by
  obtain ⟨b, hb, value⟩ := exists_bodyMag_eq hk (quantumExp f)
  have fits : b ≤ infBody f := hb.trans (Nat.mul_le_mul_right _ (by cases f <;> decide))
  have body : roundBody f (k * 2 ^ quantumExp f) 1 = b := by
    rw [← value, ← Nat.mul_one (bodyMag f b), roundBody_bodyMag Nat.one_pos fits]
  rw [toRat, i2f, body, quanta_pack false fits, value]
  simp

/-! ## Signs and zeros -/

@[simp] theorem bodyOf_fzero (f : Fmt) : bodyOf f fzero = 0 := by cases f <;> decide

@[simp] theorem signOf_fzero (f : Fmt) : signOf f fzero = false := by cases f <;> decide

@[simp] theorem isZero_fzero (f : Fmt) : isZero f fzero = true := by simp [isZero]

@[simp] theorem isNaN_fzero (f : Fmt) : isNaN f fzero = false := by simp [isNaN]

@[simp] theorem orderKey_fzero (f : Fmt) : orderKey f fzero = 0 := by simp [orderKey]

@[simp] theorem isZero_pack_zero (f : Fmt) (neg : Bool) : isZero f (pack f neg 0) = true := by
  simp [isZero, (pack_spec neg (Nat.zero_le (infBody f))).1]

@[simp] theorem signOf_pack_zero (f : Fmt) (neg : Bool) : signOf f (pack f neg 0) = neg :=
  (pack_spec neg (Nat.zero_le _)).2

@[simp] theorem isNaN_eq_false_of_isZero {f : Fmt} {x : Elem} (h : isZero f x = true) : isNaN f x = false :=
  isNaN_eq_false_of_isFinite (isFinite_of_isZero h)

theorem pack_false_zero (f : Fmt) : pack f false 0 = fzero := rfl

theorem orderKey_neg_iff {f : Fmt} {x : Elem} : orderKey f x < 0 ↔ isZero f x = false ∧ signOf f x = true := by
  rw [orderKey, isZero]
  cases signOf f x <;> simp [Nat.pos_iff_ne_zero]

theorem orderKey_pos_iff {f : Fmt} {x : Elem} : 0 < orderKey f x ↔ isZero f x = false ∧ signOf f x = false := by
  rw [orderKey, isZero]
  cases signOf f x <;> simp [Nat.pos_iff_ne_zero]

theorem flt_fzero_iff {f : Fmt} {x : Elem} :
    flt f x fzero = true ↔ isNaN f x = false ∧ isZero f x = false ∧ signOf f x = true := by
  simp [flt, ordered, orderKey_neg_iff]

theorem fzero_flt_iff {f : Fmt} {x : Elem} :
    flt f fzero x = true ↔ isNaN f x = false ∧ isZero f x = false ∧ signOf f x = false := by
  simp [flt, ordered, orderKey_pos_iff]

theorem fle_fzero_iff {f : Fmt} {x : Elem} :
    fle f x fzero = true ↔ isNaN f x = false ∧ (isZero f x = true ∨ signOf f x = true) := by
  have nonpos : orderKey f x ≤ 0 ↔ isZero f x = true ∨ signOf f x = true := by
    rw [← not_lt, orderKey_pos_iff, not_and_or, Bool.not_eq_false, Bool.not_eq_false]
  simp [fle, ordered, nonpos]

/-! ## The elementary functions (R134) -/

theorem flog_fone (f : Fmt) : flog f (fone f) = fzero := by
  have facts : isNaN f (fone f) = false ∧ isZero f (fone f) = false ∧ signOf f (fone f) = false ∧
      isInf f (fone f) = false ∧ feq f (fone f) (fone f) = true := by cases f <;> decide
  obtain ⟨nan, zero, sign, inf, one⟩ := facts
  simp [flog, nan, zero, sign, inf, one]

theorem flog_of_isNaN {f : Fmt} {x : Elem} (h : isNaN f x = true) : isNaN f (flog f x) = true := by
  rw [flog, if_pos h]
  exact isNaN_nanOf ..

theorem flog_of_neg {f : Fmt} {x : Elem} (h : flt f x fzero = true) : isNaN f (flog f x) = true := by
  obtain ⟨nan, zero, sign⟩ := flt_fzero_iff.1 h
  simp [flog, nan, zero, sign, isNaN_nanOf]

theorem flog_of_isZero {f : Fmt} {x : Elem} (h : isZero f x = true) : flog f x = finf f true := by
  simp [flog, h]

theorem fexp_of_isZero {f : Fmt} {x : Elem} (h : isZero f x = true) : fexp f x = fone f := by simp [fexp, h]

theorem fcos_of_isZero {f : Fmt} {x : Elem} (h : isZero f x = true) : fcos f x = fone f := by simp [fcos, h]

theorem fsin_of_isZero {f : Fmt} {x : Elem} (h : isZero f x = true) : fsin f x = pack f (signOf f x) 0 := by
  simp [fsin, h]

theorem fatan2_fzero_of_pos {f : Fmt} {x : Elem} (h : flt f fzero x = true) : fatan2 f fzero x = fzero := by
  simp [fatan2, (fzero_flt_iff.1 h).1, h]

theorem fatan2_fzero_fzero (f : Fmt) : fatan2 f fzero fzero = fzero := by simp [fatan2]

theorem fatan2_negZero_of_pos {f : Fmt} {x : Elem} (h : flt f fzero x = true) :
    fatan2 f (pack f true 0) x = pack f true 0 := by
  simp [fatan2, (fzero_flt_iff.1 h).1, h]

theorem fatan2_fzero_of_neg {f : Fmt} {x : Elem} (h : flt f x fzero = true) : fatan2 f fzero x = fpi f := by
  obtain ⟨nan, zero, sign⟩ := flt_fzero_iff.1 h
  have notPos : flt f fzero x = false := by
    rw [← Bool.not_eq_true, fzero_flt_iff]
    simp [sign]
  simp [fatan2, nan, zero, notPos, h]

theorem fpow_of_isZero {f : Fmt} {y : Elem} (x : Elem) (h : isZero f y = true) : fpow f x y = fone f := by
  simp [fpow, h]

theorem fpow_fone (f : Fmt) (y : Elem) : fpow f (fone f) y = fone f := by
  have one : feq f (fone f) (fone f) = true := by cases f <;> decide
  simp [fpow, one]

/-! ## The value nearest to π (log 12) -/

/-- A value of a normal significand is nearest to every real number within half of the gap to its neighbours. -/
theorem nearest_of_half_gap {f : Fmt} {k m : Nat} {r : ℝ} (low : 2 ^ fracBits f < m) (high : m < 2 ^ (fracBits f + 1))
    (lower : (2 * m - 1) * 2 ^ k ≤ 2 * (r * 2 ^ quantumExp f)) (upper : 2 * (r * 2 ^ quantumExp f) ≤ (2 * m + 1) * 2 ^ k)
    (y : Elem) : |(m * 2 ^ k / 2 ^ quantumExp f : ℝ) - r| ≤ |(toRat f y : ℝ) - r| := by
  obtain ⟨n, rfl⟩ : ∃ n, m = n + 1 := ⟨m - 1, by omega⟩
  obtain ⟨before, self⟩ := bodyMag_around (f := f) (k := k) (n := n) (by omega) (by omega)
  have succ := (bodyMag_around (f := f) (k := k) (n := n + 1) (by omega) high).2
  have place : quanta f y ≤ (n * 2 ^ k : Nat) ∨ quanta f y = ((n + 1) * 2 ^ k : Nat) ∨
      ((n + 1 + 1) * 2 ^ k : Nat) ≤ quanta f y := by
    have fromBelow := quanta_not_between f (k * 2 ^ fracBits f + n) y
    have fromAbove := quanta_not_between f (k * 2 ^ fracBits f + (n + 1)) y
    rw [before, self] at fromBelow
    rw [succ, ← add_assoc, self] at fromAbove
    omega
  have value (v : ℝ) : v / 2 ^ quantumExp f - r = (v - r * 2 ^ quantumExp f) / 2 ^ quantumExp f := by field_simp
  rw [cast_toRat, value, value, abs_div, abs_div, div_le_div_iff_of_pos_right (by positivity)]
  have pos : (0 : ℝ) < 2 ^ k := by positivity
  push_cast at lower upper ⊢
  generalize r * 2 ^ quantumExp f = x at *
  rcases place with below | same | above
  · have below : (quanta f y : ℝ) ≤ n * 2 ^ k := by exact_mod_cast below
    rw [abs_sub_comm (quanta f y : ℝ), abs_of_nonneg (a := x - quanta f y) (by linarith), abs_le]
    constructor <;> linarith
  · rw [same]
    push_cast
    exact le_refl _
  · have above : ((n : ℝ) + 1 + 1) * 2 ^ k ≤ quanta f y := by exact_mod_cast above
    rw [abs_of_nonneg (a := (quanta f y : ℝ) - x) (by linarith), abs_le]
    constructor <;> linarith

/-- The significand of `fpi`. -/
def piSignificand : Fmt → Nat
  | .binary64 => 0x1921FB54442D18
  | .binary32 => 0xC90FDB

theorem fpi_eq (f : Fmt) :
    fpi f = pack f false ((quantumExp f + 1 - fracBits f) * 2 ^ fracBits f + piSignificand f) := by
  cases f <;> decide

/-- `π` lies within half of a last place of the significand. -/
theorem piSignificand_near (f : Fmt) :
    (2 * piSignificand f - 1 : ℝ) ≤ Real.pi * 2 ^ fracBits f ∧ Real.pi * 2 ^ fracBits f ≤ 2 * piSignificand f + 1 := by
  have lower := Real.pi_gt_d20
  have upper := Real.pi_lt_d20
  cases f <;> norm_num [piSignificand, fracBits] <;> constructor <;> linarith

theorem isFinite_fpi (f : Fmt) : isFinite f (fpi f) = true := by cases f <;> decide

/-- No finite value is nearer to `π` than `fpi`. -/
theorem fpi_nearest (f : Fmt) (y : Elem) : |(toRat f (fpi f) : ℝ) - Real.pi| ≤ |(toRat f y : ℝ) - Real.pi| := by
  have low : 2 ^ fracBits f < piSignificand f := by cases f <;> decide
  have high : piSignificand f < 2 ^ (fracBits f + 1) := by cases f <;> decide
  have fits : (quantumExp f + 1 - fracBits f) * 2 ^ fracBits f + piSignificand f ≤ infBody f := by cases f <;> decide
  have scale : (2 : ℝ) * 2 ^ quantumExp f = 2 ^ fracBits f * 2 ^ (quantumExp f + 1 - fracBits f) := by
    have split : quantumExp f + 1 = fracBits f + (quantumExp f + 1 - fracBits f) := by cases f <;> decide
    rw [← pow_succ', ← pow_add, ← split]
  have double : 2 * (Real.pi * 2 ^ quantumExp f) =
      Real.pi * 2 ^ fracBits f * 2 ^ (quantumExp f + 1 - fracBits f) := by
    rw [mul_assoc Real.pi, ← scale]
    ring
  obtain ⟨lower, upper⟩ := piSignificand_near f
  have near := nearest_of_half_gap (f := f) (k := quantumExp f + 1 - fracBits f) (r := Real.pi) low high
    (by rw [double]; exact mul_le_mul_of_nonneg_right lower (by positivity))
    (by rw [double]; exact mul_le_mul_of_nonneg_right upper (by positivity)) y
  rw [cast_toRat, fpi_eq, quanta_pack false fits, bodyMag_of_significand (.inr low.le) high.le]
  simpa using near

/-! ## The clamped logarithm (R143, R144) -/

theorem logc_notice_iff {f : Fmt} {x : Elem} :
    (logc f x).2 = true ↔ isNaN f x = false ∧ (isZero f x = true ∨ signOf f x = true) := by
  rw [← fle_fzero_iff, logc]
  split_ifs with h <;> simp [h]

/-- With the notice the logarithm of `MINPOS`, without it that of the value. -/
theorem logc_value (f : Fmt) (x : Elem) : (logc f x).1 = if (logc f x).2 then flog f (minpos f) else flog f x := by
  unfold logc
  split_ifs <;> simp_all [logMin]

/-- `MINPOS` has the least normal significand at the least scale. -/
theorem toRat_minpos (f : Fmt) : toRat f (minpos f) = 1 / 2 ^ (quantumExp f - fracBits f) := by
  have quanta_minpos : quanta f (minpos f) = 2 ^ fracBits f := by cases f <;> decide
  have split : quantumExp f = fracBits f + (quantumExp f - fracBits f) := by cases f <;> decide
  rw [toRat, quanta_minpos, eq_div_iff (by positivity), div_mul_eq_mul_div, div_eq_one_iff_eq (by positivity)]
  push_cast
  rw [← pow_add, ← split]

/-! ## The product by 1 and by -1 (R138) -/

/-- An element of magnitude 1, of either sign. -/
def IsUnit1 (f : Fmt) (u : Elem) : Prop := isFinite f u = true ∧ mag f u = 2 ^ quantumExp f

theorem isUnit1_fone (f : Fmt) : IsUnit1 f (fone f) := by
  constructor <;> cases f <;> decide +kernel

theorem isUnit1_fneg {f : Fmt} {u : Elem} (h : IsUnit1 f u) : IsUnit1 f (fneg f u) := by
  simpa [IsUnit1, isFinite, mag_eq] using h

/-- The product with an element of magnitude 1 is exact: the factor with the product of the signs. -/
theorem fmul_unit {f : Fmt} {a u : Elem} (ha : isFinite f a = true) (hu : IsUnit1 f u) :
    fmul f a u = pack f (signOf f a != signOf f u) (bodyOf f a) :=
  fmul_exact ha hu.1 ha (by rw [hu.2])

theorem isZero_fmul_fzero {f : Fmt} {a : Elem} (ha : isFinite f a = true) : isZero f (fmul f a fzero) = true := by
  have zero := isZero_fzero f
  rw [fmul_exact ha (isFinite_of_isZero zero) (isFinite_of_isZero zero) (by simp [mag_eq_zero_iff.2 zero]), bodyOf_fzero]
  exact isZero_pack_zero ..

/-- A zero added on the right leaves the value. -/
theorem addAs_isZero {src : NanSource} {f : Fmt} {a b : Elem} (ha : isFinite f a = true) (hb : isZero f b = true) :
    isFinite f (addAs src f a b) = true ∧ quanta f (addAs src f a b) = quanta f a :=
  addAs_exact ha (isFinite_of_isZero hb) ha (by rw [quanta_of_isZero hb, add_zero])

/-- A zero added on the left leaves the value. -/
theorem isZero_addAs {src : NanSource} {f : Fmt} {a b : Elem} (ha : isZero f a = true) (hb : isFinite f b = true) :
    isFinite f (addAs src f a b) = true ∧ quanta f (addAs src f a b) = quanta f b :=
  addAs_exact (isFinite_of_isZero ha) hb hb (by rw [quanta_of_isZero ha, zero_add])

/-- The product with `(u, +0)`, `u` of magnitude 1, is each part with the product of the signs, but for the sign of a zero. -/
theorem cmul_unit {f : Fmt} {z : Cx} {u : Elem} (hre : isFinite f z.re = true) (him : isFinite f z.im = true)
    (hu : IsUnit1 f u) :
    feq f (cmul f z ⟨u, fzero⟩).re (pack f (signOf f z.re != signOf f u) (bodyOf f z.re)) = true ∧
      feq f (cmul f z ⟨u, fzero⟩).im (pack f (signOf f z.im != signOf f u) (bodyOf f z.im)) = true := by
  have finite {x : Elem} (hx : isFinite f x = true) (neg : Bool) : isFinite f (pack f neg (bodyOf f x)) = true :=
    isFinite_pack neg (by simpa [isFinite] using hx)
  have zero : isZero f (fneg f (fmul f z.im fzero)) = true := by
    simpa [isZero] using isZero_fmul_fzero him
  simp only [cmul, fsub, fadd, fmul_unit hre hu, fmul_unit him hu]
  obtain ⟨finite_re, re⟩ := addAs_isZero (src := .sub) (finite hre (signOf f z.re != signOf f u)) zero
  obtain ⟨finite_im, im⟩ := isZero_addAs (src := .add) (isZero_fmul_fzero hre) (finite him (signOf f z.im != signOf f u))
  exact ⟨feq_of_quanta_eq finite_re (finite hre _) re, feq_of_quanta_eq finite_im (finite him _) im⟩

/-- An element compares as its sign and body do. -/
theorem feq_pack_self {f : Fmt} (x y : Elem) : feq f x (pack f (signOf f y) (bodyOf f y)) = feq f x y := by
  have body : bodyOf f (pack f (signOf f y) (bodyOf f y)) = bodyOf f y := bodyOf_pack (bodyOf_lt f y)
  have sign : signOf f (pack f (signOf f y) (bodyOf f y)) = signOf f y := signOf_pack (bodyOf_lt f y)
  simp only [feq, ordered, isNaN, orderKey, body, sign]

theorem cmul_one {f : Fmt} {z : Cx} (hre : isFinite f z.re = true) (him : isFinite f z.im = true) :
    feq f (cmul f z ⟨fone f, fzero⟩).re z.re = true ∧ feq f (cmul f z ⟨fone f, fzero⟩).im z.im = true := by
  have sign : signOf f (fone f) = false := by cases f <;> decide
  have parts := cmul_unit hre him (isUnit1_fone f)
  simpa only [sign, Bool.bne_false, feq_pack_self] using parts

theorem cmul_neg_one {f : Fmt} {z : Cx} (hre : isFinite f z.re = true) (him : isFinite f z.im = true) :
    feq f (cmul f z ⟨fneg f (fone f), fzero⟩).re (fneg f z.re) = true ∧
      feq f (cmul f z ⟨fneg f (fone f), fzero⟩).im (fneg f z.im) = true := by
  have sign : signOf f (fneg f (fone f)) = true := by cases f <;> decide
  have parts := cmul_unit hre him (isUnit1_fneg (isUnit1_fone f))
  have negated (x : Elem) : pack f (!signOf f x) (bodyOf f x) = fneg f x := rfl
  simpa only [sign, Bool.bne_true, negated] using parts

/-! ## The magnitude (R139) -/

/-- Not negative, and not `-0`, or a NaN. -/
def NonNeg (f : Fmt) (x : Elem) : Prop := isNaN f x = true ∨ signOf f x = false

theorem nonNeg_nanOf (f : Fmt) (src : NanSource) (a b : Elem) : NonNeg f (nanOf f src a b) := .inl (isNaN_nanOf ..)

theorem nonNeg_pack {f : Fmt} {b : Nat} (h : b ≤ infBody f) : NonNeg f (pack f false b) := .inr (pack_spec false h).2

theorem nonNeg_square (f : Fmt) (x : Elem) : NonNeg f (fmul f x x) := by
  unfold fmul
  simp only [bne_self_eq_false]
  split_ifs
  · exact nonNeg_nanOf ..
  · exact nonNeg_nanOf ..
  · exact nonNeg_pack (le_refl _)
  · exact nonNeg_pack (roundBody_le ..)

theorem quanta_nonneg {f : Fmt} {x : Elem} (h : signOf f x = false) : 0 ≤ quanta f x := by
  simp [quanta, h]

theorem nonNeg_fadd {f : Fmt} {a b : Elem} (ha : NonNeg f a) (hb : NonNeg f b) : NonNeg f (fadd f a b) := by
  unfold fadd addAs
  split_ifs with nan infa invalid infb
  · exact nonNeg_nanOf ..
  · exact nonNeg_nanOf ..
  all_goals
    rw [Bool.or_eq_true, not_or] at nan
    have sa := ha.resolve_left nan.1
    have sb := hb.resolve_left nan.2
  · rw [sa]; exact nonNeg_pack (le_refl _)
  · rw [sb]; exact nonNeg_pack (le_refl _)
  · have sum : ¬ quanta f a + quanta f b < 0 := by have := quanta_nonneg sa; have := quanta_nonneg sb; omega
    rw [sa]
    dsimp only
    split_ifs
    · exact nonNeg_pack (Nat.zero_le _)
    · rw [decide_eq_false sum]; exact nonNeg_pack (roundBody_le ..)

theorem nonNeg_fsqrt {f : Fmt} {a : Elem} (ha : NonNeg f a) : NonNeg f (fsqrt f a) := by
  unfold fsqrt
  split_ifs with nan
  · exact nonNeg_nanOf ..
  · rw [ha.resolve_left nan]; exact nonNeg_pack (Nat.zero_le _)
  · exact nonNeg_nanOf ..
  · exact nonNeg_pack (le_refl _)
  · exact nonNeg_pack (roundBody_le ..)

theorem nonNeg_cabs (f : Fmt) (z : Cx) : NonNeg f (cabs f z) :=
  nonNeg_fsqrt (nonNeg_fadd (nonNeg_square f z.re) (nonNeg_square f z.im))

theorem square_of_isZero {f : Fmt} {x : Elem} (h : isZero f x = true) : fmul f x x = fzero := by
  have finite := isFinite_of_isZero h
  rw [fmul_exact finite finite (isFinite_of_isZero (isZero_fzero f)) (by simp [mag_eq_zero_iff.2, h]), bodyOf_fzero,
    bne_self_eq_false, pack_false_zero]

theorem fadd_fzero_fzero (f : Fmt) : fadd f fzero fzero = fzero := by cases f <;> decide

theorem fsqrt_fzero (f : Fmt) : fsqrt f fzero = fzero := by simp [fsqrt, pack_false_zero]

theorem cabs_of_isZero {f : Fmt} {z : Cx} (hre : isZero f z.re = true) (him : isZero f z.im = true) :
    cabs f z = fzero := by
  rw [cabs, square_of_isZero hre, square_of_isZero him, fadd_fzero_fzero, fsqrt_fzero]

theorem cabs_three_four (f : Fmt) : cabs f ⟨i2f f 3, i2f f 4⟩ = i2f f 5 := by cases f <;> decide +kernel

end Sys2Proof.Machine

namespace Sys2Proof.Proofs

open Sys2Proof.Machine Sys2Proof.Safety

/-- Settles O48: the conversion rounds `k` quanta of 1 once, and `k` is a value when its bits fit the significand. -/
theorem integerConversion : Obligations.IntegerConversion := by
  unfold Obligations.IntegerConversion
  intro k hk
  have wide : 2 ^ 32 ≤ 2 ^ (fracBits .binary64 + 1) := by decide
  exact ⟨fun f => rounds_i2f f hk, toRat_i2f (hk.le.trans wide), fun small => toRat_i2f small⟩

/-- Settles O49: each value by the branch that gives it, and `fpi` by the gap around its significand. -/
theorem exactValues : Obligations.ExactValues := by
  unfold Obligations.ExactValues
  intro f
  have plus := isZero_fzero f
  have minus := isZero_pack_zero f true
  refine ⟨flog_fone f, fexp_of_isZero plus, fexp_of_isZero minus, fcos_of_isZero plus, fcos_of_isZero minus,
    ?_, ?_, ?_, fun x => fatan2_negZero_of_pos, fun x neg => ?_, fun x => ?_, fun x => flog_of_neg,
    flog_of_isZero plus, flog_of_isZero minus⟩
  · rw [fsin_of_isZero plus, signOf_fzero, pack_false_zero]
  · rw [fsin_of_isZero minus, signOf_pack_zero]
  · rintro x (pos | rfl)
    · exact fatan2_fzero_of_pos pos
    · exact fatan2_fzero_fzero f
  · rw [fatan2_fzero_of_neg neg]
    exact ⟨isFinite_fpi f, fun y _ => fpi_nearest f y⟩
  · exact ⟨fpow_of_isZero x plus, fpow_of_isZero x minus, fpow_fone f x⟩

/-- Settles O50: the notice by the comparison with `+0`, and the value by the notice. -/
theorem clampedLog : Obligations.ClampedLog := by
  unfold Obligations.ClampedLog
  refine fun f x => ⟨logc_notice_iff, fun given => ?_, fun not_given => ?_, fun nan => ?_, ?_, ?_⟩
  · rw [logc_value, given, if_pos rfl]
  · rw [logc_value, not_given, if_neg (by simp)]
  · have not_given : ¬ (logc f x).2 = true := by simp [logc_notice_iff, nan]
    rw [logc_value, if_neg not_given]
    exact flog_of_isNaN nan
  · cases f <;> decide
  · rw [toRat_minpos]
    cases f <;> rfl

/-- Settles O51: exact products and sums for the factors 1 and -1; every step of `cabs` keeps the sign off. -/
theorem complexNumerics : Obligations.ComplexNumerics := by
  unfold Obligations.ComplexNumerics
  refine ⟨fun f z w => ⟨rfl, fun hre him => ?_⟩, fun f => ?_⟩
  · obtain ⟨re, im⟩ := cmul_one hre him
    exact ⟨re, im, cmul_neg_one hre him⟩
  · exact ⟨fun z => rfl, fun z => cabs_of_isZero, cabs_three_four f, nonNeg_cabs f⟩

end Sys2Proof.Proofs
end

section
/-! PROOFS. The radix-2 datapath (R181) is the generic one (R172 to R174) on a size that is a power of two: its butterfly is
Horner's rule on two values, and its bit reversal the digit reversal in base 2. -/

namespace Sys2Proof.Machine

open Sys2Proof.Safety

/-! ## One level -/

/-- A root depends on its index modulo the size. -/
theorem om_mod (f : Fmt) (dir : Dir) (n j : Nat) : om f dir n (j % n) = om f dir n j := by
  cases dir <;> simp only [om, Nat.mod_mod]

theorem horner_pair (f : Fmt) (w x y : Cx) : horner f w [x, y] = cadd f (cmul f y w) x := rfl

theorem group_two (buf : List Cx) (m j0 : Nat) : group buf 2 m j0 = [at0 buf j0, at0 buf (m + j0)] := by
  simp [group, List.range_succ]

theorem twiddled_zero_eq_upper2 (f : Fmt) (dir : Dir) (n size m : Nat) (buf : List Cx) (j0 : Nat) :
    twiddled f dir n size 2 m buf 0 j0 = upper2 f dir n m buf j0 := by
  simp only [twiddled, bfly, group_two, horner_pair, upper2, Nat.zero_mul, Nat.mul_zero, Nat.zero_mod]

theorem twiddled_one_eq_lower2 (f : Fmt) (dir : Dir) (n m : Nat) (buf : List Cx) {size j0 : Nat} (h : j0 < size) :
    twiddled f dir n size 2 m buf 1 j0 = lower2 f dir n size m buf j0 := by
  simp only [twiddled, bfly, group_two, horner_pair, lower2, Nat.one_mul, Nat.mul_one, om_mod, Nat.mod_eq_of_lt h]

/-! ## The transform -/

theorem recBlock2_eq_recBlock (f : Fmt) (dir : Dir) (n fuel q : Nat) (buf : List Cx) :
    recBlock2 f dir n fuel (2 ^ q) buf = recBlock f dir n fuel (2 ^ q) buf := by
  induction fuel generalizing q buf with
  | zero => rfl
  | succ fuel ih =>
    cases q with
    | zero => rfl
    | succ q =>
      have large : ¬ 2 ^ (q + 1) ≤ 1 := by have := Nat.one_le_two_pow (n := q); omega
      have half : 2 ^ (q + 1) / 2 = 2 ^ q := by omega
      have lower : (List.range (2 ^ q)).map (twiddled f dir n (2 ^ (q + 1)) 2 (2 ^ q) buf 1) =
          (List.range (2 ^ q)).map (lower2 f dir n (2 ^ (q + 1)) (2 ^ q) buf) :=
        List.map_congr_left fun j0 hj => by
          have := List.mem_range.1 hj
          exact twiddled_one_eq_lower2 f dir n _ buf (by omega)
      rw [recBlock2, recBlock, if_neg large, if_neg large, spf_two_pow_succ, half, ih, ih, ← lower]
      simp [List.range_succ, twiddled_zero_eq_upper2]

theorem bitRevFuel_eq_revFuel (fuel k q : Nat) : bitRevFuel fuel k (2 ^ q) = revFuel fuel k (2 ^ q) := by
  induction fuel generalizing k q with
  | zero => rfl
  | succ fuel ih =>
    cases q with
    | zero => rfl
    | succ q =>
      have half : 2 ^ (q + 1) / 2 = 2 ^ q := by omega
      rw [bitRevFuel, revFuel, spf_two_pow_succ, half, ih]

theorem xform2_eq_xform (f : Fmt) (dir : Dir) {n : Nat} (hn : ispow2 n = true) (buf : List Cx) :
    xform2 f dir n buf = xform f dir n buf := by
  obtain ⟨q, rfl⟩ := ispow2_iff.1 hn
  simp only [xform2, xform, permute, bitRev, rev, bitRevFuel_eq_revFuel, recBlock2_eq_recBlock]

theorem fwd2_eq_fwd (f : Fmt) {n : Nat} (hn : ispow2 n = true) (buf : List Cx) : fwd2 f n buf = fwd f n buf :=
  xform2_eq_xform f .forward hn buf

theorem inv2_eq_inv (f : Fmt) {n : Nat} (hn : ispow2 n = true) (buf : List Cx) : inv2 f n buf = inv f n buf :=
  congrArg (scaleBy f n) (xform2_eq_xform f .inverse hn buf)

/-! ## The contract (R183) -/

/-- A buffer is within every tolerance of the vector it stands for. -/
theorem bufferClose_of_representsAll (tol : Tolerance) {f : Fmt} {n : Nat} {zs : List Cx} {x : Nat → ℂ}
    (h : RepresentsAll f n zs x) : BufferClose tol f n zs x := by
  refine ⟨x, h, fun k hk => ⟨k, hk, ?_⟩⟩
  rw [sub_self, norm_zero]
  positivity

theorem pPow2Eq (tol : Tolerance) (f : Fmt) : PPow2Eq tol f := by
  intro n zs x y hn _
  rw [fwd2_eq_fwd f hn, inv2_eq_inv f hn]
  exact ⟨bufferClose_of_representsAll tol, bufferClose_of_representsAll tol⟩

end Sys2Proof.Machine

namespace Sys2Proof.Proofs

open Sys2Proof.Machine Sys2Proof.Safety

/-- Settles O8: the levels agree by induction on their number, and the permutations on the digits of a power of two. -/
theorem pow2Equal : Obligations.Pow2Equal := by
  unfold Obligations.Pow2Equal
  exact fun f n hn => ⟨fun zs _ => ⟨fwd2_eq_fwd f hn zs, inv2_eq_inv f hn zs⟩, fun tol => pPow2Eq tol f⟩

end Sys2Proof.Proofs
end

section
/-! PROOFS. The transform commands (R171, R177 to R180): the faults of their checks in order, and the transform of one value
(R185), whose inverse divides by 1. -/

namespace Sys2Proof.Machine

open Sys2Proof.Safety

/-! ## The commands -/

theorem exec_fftGeneric {i : Instr} {n a : Word} (hi : i ∈ [Instr.fftFwd n a, .fftInv n a]) (s : State) :
    ∃ w, ∃ tr ∈ [fwd, inv], exec i s =
      s.command (fftTrap false s.cfg n.toNat a.toNat) w fun s => s.transform tr n.toNat a.toNat := by
  simp only [List.mem_cons, List.not_mem_nil, or_false] at hi
  rcases hi with rfl | rfl
  · exact ⟨_, fwd, by simp, rfl⟩
  · exact ⟨_, inv, by simp, rfl⟩

theorem exec_fftPow2 {i : Instr} {n a : Word} (hi : i ∈ [Instr.fftFwdP2 n a, .fftInvP2 n a]) (s : State) :
    ∃ w, ∃ tr ∈ [fwd2, inv2], exec i s =
      s.command (fftTrap true s.cfg n.toNat a.toNat) w fun s => s.transform tr n.toNat a.toNat := by
  simp only [List.mem_cons, List.not_mem_nil, or_false] at hi
  rcases hi with rfl | rfl
  · exact ⟨_, fwd2, by simp, rfl⟩
  · exact ⟨_, inv2, by simp, rfl⟩

/-! ## The checks (R171) -/

/-- The checks (1), (3), (4), (5) of R171, in that order. -/
theorem fftTrap_generic (p : Params) (n a : Word) : fftTrap false p n.toNat a.toNat =
    if n = 0 then some ⟨.size, 0⟩
    else if a.toNat % 2 ≠ 0 then some ⟨.addr, a.toNat⟩
    else if p.dmSize < a.toNat + 2 * n.toNat then some ⟨.addr, a.toNat⟩
    else if p.rmax < lpf n.toNat then some ⟨.alloc, lpf n.toNat⟩
    else none := by
  by_cases zero : n = 0
  · simp [fftTrap, firstTrap, zero]
  · have pos : n.toNat ≠ 0 := fun h => zero (BitVec.eq_of_toNat_eq h)
    rw [if_neg zero]
    simp [fftTrap, firstTrap, oddBase, outside, pos]

/-- The checks (1), (2), (3), (4) of R171, in that order. -/
theorem fftTrap_pow2 (p : Params) (n a : Word) : fftTrap true p n.toNat a.toNat =
    if n = 0 then some ⟨.size, 0⟩
    else if ispow2 n.toNat = false then some ⟨.size, n.toNat⟩
    else if a.toNat % 2 ≠ 0 then some ⟨.addr, a.toNat⟩
    else if p.dmSize < a.toNat + 2 * n.toNat then some ⟨.addr, a.toNat⟩
    else none := by
  by_cases zero : n = 0
  · simp [fftTrap, firstTrap, zero]
  · have pos : n.toNat ≠ 0 := fun h => zero (BitVec.eq_of_toNat_eq h)
    rw [if_neg zero]
    simp [fftTrap, firstTrap, oddBase, outside, pos]

/-- A command raises the trap of its checks, `E_ALLOC` included (R283, R286, R287). -/
theorem State.raises_command_some (s : State) (t : Trap) (w : Wreck) (effect : State → State) :
    Raises s (s.command (some t) w effect) t.code t.info := by
  refine ⟨s.takeFault t w, rfl, ?_⟩
  simp only [State.takeFault_fault, State.takeFault_run, State.takeFault_fcode, State.takeFault_faultInfo,
    State.takeFault_faultCp, State.takeFault_cp, true_and]
  exact fun precise => State.takeFault_of_ne_alloc precise

/-- The outcome that a command's checks call for: their trap raised, or completion. -/
def Checked (s : State) (o : Host.Outcome State Fault Refusal) : Option Trap → Prop
  | some t => Raises s o t.code t.info
  | none => ∃ t, o = .next t ∧ t.cp = s.cp + 4 ∧ t.fault = s.fault

theorem checked_transform (s : State) (trap : Option Trap) (w : Wreck) (tr : Fmt → Nat → List Cx → List Cx) (n a : Nat) :
    Checked s (s.command trap w fun s => s.transform tr n a) trap := by
  cases trap with
  | some t => exact s.raises_command_some t w _
  | none => exact ⟨_, rfl, rfl, rfl⟩

/-! ## The division by 1 -/

/-- An element of the format is its sign and body. -/
theorem pack_signOf_bodyOf {f : Fmt} {x : Elem} (h : Narrow f x) : pack f (signOf f x) (bodyOf f x) = x := by
  apply BitVec.eq_of_toNat_eq
  have := x.isLt
  cases f <;>
    simp [pack, signOf, bodyOf, fwidth, BitVec.getLsbD, Nat.testBit_eq_decide_div_mod_eq] at h ⊢ <;>
    split_ifs <;> omega

theorem i2f_one (f : Fmt) : i2f f 1 = fone f := by cases f <;> decide +kernel

/-- Dividing a value of the format by 1 leaves it, an infinity or a zero of either sign included. -/
theorem fdiv_fone {f : Fmt} {x : Elem} (inFormat : Narrow f x) (number : isNaN f x = false) : fdiv f x (fone f) = x := by
  obtain ⟨finite_one, mag_one⟩ := isUnit1_fone f
  have sign_one : signOf f (fone f) = false := by cases f <;> decide
  have zero_one : isZero f (fone f) = false := by cases f <;> decide
  simp only [fdiv, number, isNaN_eq_false_of_isFinite finite_one, isInf_eq_false_of_isFinite finite_one, zero_one,
    sign_one, mag_one, Bool.or_self, Bool.bne_false, Bool.false_eq_true, if_false]
  split_ifs with infinite
  · have body : bodyOf f x = infBody f := by simpa [isInf] using infinite
    rw [finf, ← body, pack_signOf_bodyOf inFormat]
  · have body : bodyOf f x ≤ infBody f := by simpa [isNaN] using number
    rw [mag_eq, roundBody_bodyMag (by positivity) body, pack_signOf_bodyOf inFormat]

/-! ## The transform of one value (R185) -/

theorem xform_one (f : Fmt) (dir : Dir) (z : Cx) : xform f dir 1 [z] = [z] := rfl

theorem fwd_one (f : Fmt) (z : Cx) : fwd f 1 [z] = [z] := xform_one f .forward z

theorem inv_one (f : Fmt) (z : Cx) : inv f 1 [z] = [cdivr f z (fone f)] := by
  rw [inv, xform_one, scaleBy, i2f_one, List.map_singleton]

/-- The two parts of `w` are those of `z`, but for a NaN of `z`. -/
def SameNumbers (f : Fmt) (z w : Cx) : Prop :=
  (isNaN f z.re = false → w.re = z.re) ∧ (isNaN f z.im = false → w.im = z.im)

/-- Each transform of one value of the format gives one value of the format, the same up to NaNs. -/
theorem transform_one {f : Fmt} {z : Cx} (inFormat : NarrowCx f z) {tr : Fmt → Nat → List Cx → List Cx}
    (htr : tr ∈ [fwd, inv, fwd2, inv2]) : ∃ w, tr f 1 [z] = [w] ∧ NarrowCx f w ∧ SameNumbers f z w := by
  have forward : ∃ w, fwd f 1 [z] = [w] ∧ NarrowCx f w ∧ SameNumbers f z w :=
    ⟨z, fwd_one f z, inFormat, fun _ => rfl, fun _ => rfl⟩
  have inverse : ∃ w, inv f 1 [z] = [w] ∧ NarrowCx f w ∧ SameNumbers f z w :=
    ⟨_, inv_one f z, NarrowCx_cdivr .., fdiv_fone inFormat.1, fdiv_fone inFormat.2⟩
  have pow2 : ispow2 1 = true := rfl
  simp only [List.mem_cons, List.not_mem_nil, or_false] at htr
  rcases htr with rfl | rfl | rfl | rfl
  · exact forward
  · exact inverse
  · rwa [fwd2_eq_fwd f pow2]
  · rwa [inv2_eq_inv f pow2]

/-- The value in `DM` after a transform of size 1. -/
theorem State.sameNumbers_transform_one (s : State) (a : Nat) {tr : Fmt → Nat → List Cx → List Cx}
    (htr : tr ∈ [fwd, inv, fwd2, inv2]) :
    SameNumbers s.cfg.fmt (s.cxAt a 0) ((s.transform tr 1 a).cxAt a 0) := by
  have inFormat : NarrowCx s.cfg.fmt (s.cxAt a 0) := ⟨Narrow_dmElem s _, Narrow_dmElem s _⟩
  obtain ⟨w, value, inFormat_w, same⟩ := transform_one inFormat htr
  have stored : (s.transform tr 1 a).cxAt a 0 = (s.putCx a (tr s.cfg.fmt 1 [s.cxAt a 0])).cxAt a 0 := rfl
  rw [stored, value, State.cxAt_putCx_inside s a [w] 0 (by simp), List.getElem_cons_zero,
    narrow_of_Narrow inFormat_w.1, narrow_of_Narrow inFormat_w.2]
  exact same

/-- A size of 1 passes the checks (1), (2) and, under R10's `RMAX`, (5) of R171. -/
theorem fftTrap_one {pow2 : Bool} {p : Params} {a : Nat} (even : a % 2 = 0) (inside : a + 2 ≤ p.dmSize)
    (radix : 2 ≤ p.rmax) : fftTrap pow2 p 1 a = none :=
  fftTrap_eq_none.2 ⟨Nat.one_ne_zero, fun _ => rfl, even, inside, fun _ => by rw [lpf_one]; omega⟩

/-- Each transform command of size 1 is its transform, in the frame of a command. -/
theorem exec_fft_one {i : Instr} {a : Word} (hi : i ∈ [Instr.fftFwd 1 a, .fftInv 1 a, .fftFwdP2 1 a, .fftInvP2 1 a])
    {s : State} (even : a.toNat % 2 = 0) (inside : a.toNat + 2 ≤ s.cfg.dmSize) (radix : 2 ≤ s.cfg.rmax) :
    ∃ tr ∈ [fwd, inv, fwd2, inv2], exec i s = .next (s.transform tr 1 a.toNat).advance := by
  have passes {pow2 : Bool} : fftTrap pow2 s.cfg (1 : Word).toNat a.toNat = none := fftTrap_one even inside radix
  have datapath : i ∈ [Instr.fftFwd 1 a, .fftInv 1 a] ∨ i ∈ [Instr.fftFwdP2 1 a, .fftInvP2 1 a] := by
    simpa [or_assoc] using hi
  rcases datapath with generic | radix2
  · obtain ⟨w, tr, htr, runs⟩ := exec_fftGeneric generic s
    exact ⟨tr, List.mem_append_left [fwd2, inv2] htr, by rw [runs, passes]; rfl⟩
  · obtain ⟨w, tr, htr, runs⟩ := exec_fftPow2 radix2 s
    exact ⟨tr, List.mem_append_right [fwd, inv] htr, by rw [runs, passes]; rfl⟩

end Sys2Proof.Machine

namespace Sys2Proof.Proofs

open Sys2Proof.Machine Sys2Proof.Safety

/-- Settles O7: the checks as a chain of conditions, each with the outcome of a command under that trap. -/
theorem fftChecks : Obligations.FftChecks := by
  unfold Obligations.FftChecks
  refine fun s n a => ⟨fun i hi => ?_, fun i hi => ?_⟩
  · obtain ⟨w, tr, -, runs⟩ := exec_fftGeneric hi s
    have outcome := checked_transform s (fftTrap false s.cfg n.toNat a.toNat) w tr n.toNat a.toNat
    rw [← runs, fftTrap_generic] at outcome
    split_ifs at outcome ⊢ <;> exact outcome
  · obtain ⟨w, tr, -, runs⟩ := exec_fftPow2 hi s
    have outcome := checked_transform s (fftTrap true s.cfg n.toNat a.toNat) w tr n.toNat a.toNat
    rw [← runs, fftTrap_pow2] at outcome
    split_ifs at outcome ⊢ <;> exact outcome

/-- Settles O9: a transform of one value computes nothing but, in the inverse ones, a division by 1. -/
theorem sizeOne : Obligations.SizeOne := by
  unfold Obligations.SizeOne
  refine ⟨fun f => ⟨lpf_one, fwd_one f⟩, fun s a even inside radix i hi => ?_⟩
  obtain ⟨tr, htr, runs⟩ := exec_fft_one hi even inside radix
  exact ⟨_, runs, rfl, s.sameNumbers_transform_one a.toNat htr⟩

end Sys2Proof.Proofs
end

section
/-! PROOFS. The cepstral stage commands (R201): the faults of their checks in order, and that each writes its buffer element by
element and changes nothing else but `LOGLIM` and `CP`. -/

namespace Sys2Proof.Machine

open Sys2Proof.Safety

/-! ## The checks (R201) -/

/-- The checks of a stage command with one buffer, in order. -/
theorem bufferTrap_chain (p : Params) (n a : Word) : bufferTrap p n.toNat a.toNat =
    if n = 0 then some ⟨.size, 0⟩
    else if a.toNat % 2 ≠ 0 then some ⟨.addr, a.toNat⟩
    else if p.dmSize < a.toNat + 2 * n.toNat then some ⟨.addr, a.toNat⟩
    else none := by
  by_cases zero : n = 0
  · simp [bufferTrap, firstTrap, zero]
  · have pos : n.toNat ≠ 0 := fun h => zero (BitVec.eq_of_toNat_eq h)
    rw [if_neg zero]
    simp [bufferTrap, firstTrap, oddBase, outside, pos]

theorem firstTrap_append (cs ds : List (Bool × Trap)) : firstTrap (cs ++ ds) = (firstTrap cs).or (firstTrap ds) := by
  induction cs with
  | nil => rfl
  | cons c cs ih =>
    obtain ⟨failed, t⟩ := c
    cases failed
    · exact ih
    · rfl

/-- The checks of a stage command with two buffers: those on the first, then those on the second. -/
theorem twoBufferTrap_eq (p : Params) (n a b : Nat) : twoBufferTrap p n a b =
    (bufferTrap p n a).or
      (if b % 2 ≠ 0 ∨ p.dmSize < b + 2 * n then some ⟨.addr, b⟩
      else if ¬ (a + 2 * n ≤ b ∨ b + 2 * n ≤ a) then some ⟨.addr, b⟩
      else none) := by
  have appended : twoBufferTrap p n a b = (bufferTrap p n a).or
      (firstTrap [(oddBase b || outside p b (2 * n), ⟨.addr, b⟩), (overlapping a b n, ⟨.addr, b⟩)]) :=
    firstTrap_append [_, _, _] _
  rw [appended]
  simp [firstTrap, oddBase, outside, overlapping, and_comm]

theorem firstTrap_precise {cs : List (Bool × Trap)} {t : Trap} (precise : ∀ c ∈ cs, c.2.code ≠ .alloc)
    (h : firstTrap cs = some t) : t.code ≠ .alloc := precise _ (mem_of_firstTrap h)

theorem bufferTrap_precise {p : Params} {n a : Nat} {t : Trap} (h : bufferTrap p n a = some t) : t.code ≠ .alloc :=
  firstTrap_precise (by simp) h

theorem twoBufferTrap_precise {p : Params} {n a b : Nat} {t : Trap} (h : twoBufferTrap p n a b = some t) :
    t.code ≠ .alloc := firstTrap_precise (by simp) h

/-- Only a command that completes moves `CP`. -/
theorem State.completed_of_cp {s t : State} {trap : Option Trap} {w : Wreck} {effect : State → State}
    (runs : s.command trap w effect = .next t) (moved : t.cp = s.cp + 4) : t = (effect s).advance := by
  rcases State.command_cases runs with ⟨f, -, rfl⟩ | ⟨-, done⟩
  · rw [State.takeFault_cp] at moved
    bv_omega
  · exact done

/-! ## The effect -/

/-- `u` is `s` after the effect of a stage command: the values `bin k` in the buffer, and no change elsewhere but in `LOGLIM`. -/
structure Staged (s : State) (n a : Nat) (bin : Nat → Cx) (u : State) : Prop where
  wrote : WroteCx s u a n bin
  frame : u = { s with dm := u.dm, loglim := u.loglim }

theorem State.staged_putCx (s : State) (a : Nat) {n : Nat} {bin : Nat → Cx} {zs : List Cx} (length : zs.length = n)
    (value : ∀ k (h : k < zs.length), zs[k] = bin k) (inFormat : ∀ k < n, NarrowCx s.cfg.fmt (bin k)) :
    Staged s n a bin (s.putCx a zs) := by
  subst length
  refine ⟨⟨fun k hk => ?_, fun x => s.putCx_get?_outside a zs x⟩, rfl⟩
  obtain ⟨re, im⟩ := inFormat k hk
  rw [s.cxAt_putCx_inside a zs k hk, value, narrow_of_Narrow re, narrow_of_Narrow im]

theorem Staged.notice {s u : State} {n a : Nat} {bin : Nat → Cx} (h : Staged s n a bin u) (given : Bool) :
    Staged s n a bin (u.notice given) := by
  obtain ⟨wrote, frame⟩ := h
  refine ⟨wrote, ?_⟩
  rw [frame]
  rfl

/-! ## The commands -/

/-- `i` is a stage command: its checks, none of them `E_ALLOC`, and the values that it computes where they pass. -/
def StageCommand (i : Instr) (trap : Params → Option Trap) (n a : Nat) (bin : State → Nat → Cx) : Prop :=
  (∀ p t, trap p = some t → t.code ≠ .alloc) ∧
  ∃ effect, ∀ s, exec i s = s.command (trap s.cfg) Wreck.none effect ∧ Staged s n a (bin s) (effect s)

theorem stageCommand_cepLog (n a : Word) :
    StageCommand (.cepLog n a) (bufferTrap · n.toNat a.toNat) n.toNat a.toNat
      fun s k => logBin s.cfg.fmt (s.cxAt a.toNat k) :=
  ⟨fun _ _ => bufferTrap_precise, _, fun s =>
    ⟨rfl, (s.staged_putCx a.toNat (by simp) (by simp) fun _ _ => NarrowCx_logBin ..).notice _⟩⟩

theorem getElem_fold (f : Fmt) (n : Nat) (zs : List Cx) (k : Nat) (h : k < (fold f n zs).length) :
    (fold f n zs)[k] = foldBin f n k (zs[k]'(by simpa using h)) := by
  simp [fold]

theorem stageCommand_cepFold (n a : Word) :
    StageCommand (.cepFold n a) (bufferTrap · n.toNat a.toNat) n.toNat a.toNat
      fun s k => foldBin s.cfg.fmt n.toNat k (s.cxAt a.toNat k) := by
  refine ⟨fun _ _ => bufferTrap_precise, _, fun s =>
    ⟨rfl, s.staged_putCx a.toNat (by simp) (by simp [getElem_fold]) fun k hk => ?_⟩⟩
  have inFormat := NarrowAll_fold (n := n.toNat) (s.NarrowAll_cxBuffer a.toNat n.toNat) _
    (List.getElem_mem (n := k) (by simpa using hk))
  rwa [getElem_fold, State.getElem_cxBuffer] at inFormat

theorem stageCommand_cepExp (n a : Word) :
    StageCommand (.cepExp n a) (bufferTrap · n.toNat a.toNat) n.toNat a.toNat
      fun s k => cexp s.cfg.fmt (s.cxAt a.toNat k) :=
  ⟨fun _ _ => bufferTrap_precise, _, fun s =>
    ⟨rfl, s.staged_putCx a.toNat (by simp) (by simp) fun _ _ => NarrowCx_polar ..⟩⟩

theorem stageCommand_cepPol (n a b : Word) :
    StageCommand (.cepPol n a b) (twoBufferTrap · n.toNat a.toNat b.toNat) n.toNat a.toNat
      fun s k => polBin s.cfg.fmt (s.cxAt a.toNat k) (s.cxAt b.toNat k) :=
  ⟨fun _ _ => twoBufferTrap_precise, _, fun s =>
    ⟨rfl, s.staged_putCx a.toNat (by simp) (by simp) fun _ _ => NarrowCx_polBin ..⟩⟩

theorem stageCommand_cepXph (n a b : Word) :
    StageCommand (.cepXph n a b) (twoBufferTrap · n.toNat a.toNat b.toNat) n.toNat a.toNat
      fun s k => xphBin s.cfg.fmt (s.cxAt a.toNat k) (s.cxAt b.toNat k) :=
  ⟨fun _ _ => twoBufferTrap_precise, _, fun s =>
    ⟨rfl, s.staged_putCx a.toNat (by simp) (by simp) fun _ _ => NarrowCx_xphBin ..⟩⟩

/-- The three commands with one buffer compute a value from its index and the value there. -/
theorem stageCommand_oneBuffer {i : Instr} {n a : Word} (hi : i ∈ [Instr.cepLog n a, .cepFold n a, .cepExp n a]) :
    ∃ bin : Fmt → Nat → Cx → Cx, StageCommand i (bufferTrap · n.toNat a.toNat) n.toNat a.toNat
      fun s k => bin s.cfg.fmt k (s.cxAt a.toNat k) := by
  simp only [List.mem_cons, List.not_mem_nil, or_false] at hi
  rcases hi with rfl | rfl | rfl
  · exact ⟨fun f _ => logBin f, stageCommand_cepLog n a⟩
  · exact ⟨fun f => foldBin f n.toNat, stageCommand_cepFold n a⟩
  · exact ⟨fun f _ => cexp f, stageCommand_cepExp n a⟩

/-- The two commands with two buffers compute a value from the two values at its index. -/
theorem stageCommand_twoBuffers {i : Instr} {n a b : Word} (hi : i ∈ [Instr.cepPol n a b, .cepXph n a b]) :
    ∃ bin : Fmt → Cx → Cx → Cx, StageCommand i (twoBufferTrap · n.toNat a.toNat b.toNat) n.toNat a.toNat
      fun s k => bin s.cfg.fmt (s.cxAt a.toNat k) (s.cxAt b.toNat k) := by
  simp only [List.mem_cons, List.not_mem_nil, or_false] at hi
  rcases hi with rfl | rfl
  · exact ⟨polBin, stageCommand_cepPol n a b⟩
  · exact ⟨xphBin, stageCommand_cepXph n a b⟩

/-- The outcome that the checks of a stage command call for: their trap raised, or completion. -/
def StageOutcome (s : State) (o : Host.Outcome State Fault Refusal) : Option Trap → Prop
  | some t => Raises s o t.code t.info
  | none => ∃ t, o = .next t ∧ t.cp = s.cp + 4 ∧ t.fault = s.fault ∧ t.fcode = s.fcode

section StageCommand

variable {i : Instr} {trap : Params → Option Trap} {n a : Nat} {bin : State → Nat → Cx} {s t : State}

theorem StageCommand.outcome (h : StageCommand i trap n a bin) (s : State) : StageOutcome s (exec i s) (trap s.cfg) := by
  obtain ⟨-, effect, runs⟩ := h
  obtain ⟨command, -, frame⟩ := runs s
  rw [command]
  cases trap s.cfg with
  | some t => exact s.raises_command_some t _ _
  | none => exact ⟨_, rfl, by rw [frame]; exact ⟨rfl, rfl, rfl⟩⟩

/-- A stage command never changes `TW_N` or a scalar register, faulting or not. -/
theorem StageCommand.twN_regs (h : StageCommand i trap n a bin) (next : exec i s = .next t) :
    t.twN = s.twN ∧ t.regs = s.regs := by
  obtain ⟨precise, effect, runs⟩ := h
  obtain ⟨command, -, frame⟩ := runs s
  rcases State.command_cases (command ▸ next) with ⟨f, failed, rfl⟩ | ⟨-, rfl⟩
  · rw [State.takeFault_of_ne_alloc (precise _ f failed)]
    exact ⟨rfl, rfl⟩
  · rw [frame]
    exact ⟨rfl, rfl⟩

/-- The values a stage command leaves when it completes. -/
theorem StageCommand.value (h : StageCommand i trap n a bin) (next : exec i s = .next t) (moved : t.cp = s.cp + 4)
    {k : Nat} (hk : k < n) : t.cxAt a k = bin s k := by
  obtain ⟨-, effect, runs⟩ := h
  obtain ⟨command, ⟨wrote, -⟩, -⟩ := runs s
  obtain rfl := State.completed_of_cp (command ▸ next) moved
  exact wrote k hk

end StageCommand

end Sys2Proof.Machine

namespace Sys2Proof.Proofs

open Sys2Proof.Machine Sys2Proof.Safety

/-- Settles O13: the checks as a chain of conditions, and every output a function of the configuration, its index and the
inputs at that index. -/
theorem stageChecks : Obligations.StageChecks := by
  unfold Obligations.StageChecks
  refine ⟨fun s n a i hi => ?_, fun s n a b i hi => ?_, fun s t s' t' n a i hi next next' cfg => ?_,
    fun s t s' t' n a b i hi next next' cfg => ?_⟩
  · obtain ⟨bin, stage⟩ := stageCommand_oneBuffer hi
    have outcome := stage.outcome s
    rw [bufferTrap_chain] at outcome
    split_ifs at outcome ⊢ <;> exact outcome
  · obtain ⟨bin, stage⟩ := stageCommand_twoBuffers hi
    have outcome := stage.outcome s
    rw [twoBufferTrap_eq, bufferTrap_chain] at outcome
    split_ifs at outcome ⊢ <;> exact outcome
  · obtain ⟨bin, stage⟩ := stageCommand_oneBuffer hi
    obtain ⟨twN, regs⟩ := stage.twN_regs next
    refine ⟨twN, regs, fun k hk moved moved' same => ?_⟩
    rw [stage.value next moved hk, stage.value next' moved' hk, cfg, same]
  · obtain ⟨bin, stage⟩ := stageCommand_twoBuffers hi
    obtain ⟨twN, regs⟩ := stage.twN_regs next
    refine ⟨twN, regs, fun k hk moved moved' same same' => ?_⟩
    rw [stage.value next moved hk, stage.value next' moved' hk, cfg, same, same']

end Sys2Proof.Proofs
end

section
/-! PROOFS. The band of a level (R231): the conversion of integers keeps their order, so a bin is in the band exactly when it
lies between the two edges. And the reserved rows (R262). -/

namespace Sys2Proof.Machine

open Sys2Proof.Safety

/-! ## The order of the converted integers (R14, R136) -/

/-- Rounding keeps order: were the larger quotient rounded below the smaller one, both would lie midway between the two
results, and so be equal. -/
theorem roundBody_mono (f : Fmt) {m n : Nat} (h : m ≤ n) : roundBody f m 1 ≤ roundBody f n 1 := by
  by_contra! less
  have bound : roundBody f m 1 ≤ infBody f := roundBody_le f m 1
  have exact_n : roundBody f n 1 = nearestBody f n 1 := by
    have capped := roundBody_eq f n 1
    omega
  have below : bodyMag f (roundBody f n 1) < bodyMag f (roundBody f m 1) := bodyMag_strictMono f less
  have saturated : bodyMag f (roundBody f m 1) ≤ bodyMag f (nearestBody f m 1) :=
    (bodyMag_strictMono f).monotone (min_le_left _ _)
  obtain ⟨near_m, -⟩ := nearestBody_nearest (f := f) (num := m) Nat.one_pos (pack f false (roundBody f n 1))
  obtain ⟨near_n, -⟩ := nearestBody_nearest (f := f) (num := n) Nat.one_pos (pack f false (roundBody f m 1))
  rw [quanta_pack _ (less.le.trans bound)] at near_m
  rw [quanta_pack _ bound, ← exact_n] at near_n
  simp only [Bool.false_eq_true, if_false, Nat.cast_one, one_mul] at near_m near_n
  have same : m = n := by omega
  exact less.ne (by rw [same])

theorem isNaN_i2f (f : Fmt) (k : Nat) : isNaN f (i2f f k) = false := by
  have body : bodyOf f (i2f f k) ≤ infBody f := by
    rw [i2f, (pack_spec false (roundBody_le ..)).1]
    exact roundBody_le ..
  simpa [isNaN] using body

theorem orderKey_i2f_mono (f : Fmt) {j k : Nat} (h : j ≤ k) : orderKey f (i2f f j) ≤ orderKey f (i2f f k) := by
  have key (n : Nat) : orderKey f (i2f f n) = roundBody f (n * 2 ^ quantumExp f) 1 := by
    obtain ⟨body, sign⟩ := pack_spec (f := f) false (roundBody_le f (n * 2 ^ quantumExp f) 1)
    rw [orderKey, i2f, sign, body, if_neg (by simp)]
  rw [key, key]
  exact Int.ofNat_le.2 (roundBody_mono f (Nat.mul_le_mul_right _ h))

theorem fle_iff {f : Fmt} {x y : Elem} :
    fle f x y = true ↔ isNaN f x = false ∧ isNaN f y = false ∧ orderKey f x ≤ orderKey f y := by
  simp [fle, ordered, and_assoc]

theorem fle_of_isNaN {f : Fmt} {x y : Elem} (h : isNaN f x = true ∨ isNaN f y = true) : fle f x y = false := by
  rcases h with h | h <;> simp [fle, ordered, h]

theorem fle_trans {f : Fmt} {x y z : Elem} (hxy : fle f x y = true) (hyz : fle f y z = true) : fle f x z = true := by
  obtain ⟨nx, -, xy⟩ := fle_iff.1 hxy
  obtain ⟨-, nz, yz⟩ := fle_iff.1 hyz
  exact fle_iff.2 ⟨nx, nz, xy.trans yz⟩

theorem fle_i2f_i2f (f : Fmt) {j k : Nat} (h : j ≤ k) : fle f (i2f f j) (i2f f k) = true :=
  fle_iff.2 ⟨isNaN_i2f f j, isNaN_i2f f k, orderKey_i2f_mono f h⟩

/-! ## The edges of the band (R231) -/

/-- The first hit from the top is above every other hit. -/
theorem le_of_find?_reverse_range {q : Nat → Bool} {n j k : Nat} (found : (List.range n).reverse.find? q = some k)
    (hj : j < n) (hit : q j = true) : j ≤ k := by
  obtain ⟨-, i, hi, rfl, earlier⟩ := List.find?_eq_some_iff_getElem.1 found
  by_contra! above
  rw [List.length_reverse, List.length_range] at hi
  simp only [List.getElem_reverse, List.getElem_range, List.length_range] at above earlier
  have missed := earlier (n - 1 - j) (by omega)
  rw [show n - 1 - (n - 1 - j) = j by omega, hit] at missed
  contradiction

section Band

variable (f : Fmt) (fs : Nat) (p : BandParams)

theorem bandLow_le : bandLow f fs p ≤ fs / 2 + 1 := by
  unfold bandLow
  cases found : (List.range (fs / 2 + 1)).find? fun k => fle f (binOf f fs p.srate p.flo) (i2f f k) with
  | none => rfl
  | some k => exact (List.mem_range.1 (List.find?_range_eq_some.1 found).2.1).le

/-- The bins at or above the low edge are those from `kLo` on. -/
theorem bandLow_le_iff {k : Nat} (hk : k ≤ fs / 2) :
    bandLow f fs p ≤ k ↔ fle f (binOf f fs p.srate p.flo) (i2f f k) = true := by
  unfold bandLow
  cases found : (List.range (fs / 2 + 1)).find? fun k => fle f (binOf f fs p.srate p.flo) (i2f f k) with
  | none =>
    have below := List.find?_range_eq_none.1 found k (by omega)
    rw [Bool.not_eq_true'] at below
    rw [below, Option.getD_none]
    exact iff_of_false (by omega) Bool.false_ne_true
  | some kLo =>
    obtain ⟨reached, -, least⟩ := List.find?_range_eq_some.1 found
    refine ⟨fun above => fle_trans reached (fle_i2f_i2f f above), fun above => ?_⟩
    by_contra! before
    simpa [above] using least k before

theorem bandHigh_le {kHi : Nat} (h : bandHigh f fs p = some kHi) : kHi ≤ fs / 2 := by
  have mem : kHi ∈ (List.range (fs / 2 + 1)).reverse := List.mem_of_find?_eq_some h
  rw [List.mem_reverse, List.mem_range] at mem
  omega

/-- The bins at or below the high edge are those up to `kHi`. -/
theorem le_bandHigh_iff {k : Nat} (hk : k ≤ fs / 2) :
    (∃ kHi, bandHigh f fs p = some kHi ∧ k ≤ kHi) ↔ fle f (i2f f k) (binOf f fs p.srate p.fhi) = true := by
  constructor
  · rintro ⟨kHi, found, below⟩
    have reached := List.find?_some (p := fun k => fle f (i2f f k) (binOf f fs p.srate p.fhi)) found
    exact fle_trans (fle_i2f_i2f f below) reached
  · intro below
    cases found : bandHigh f fs p with
    | none => exact absurd below (List.find?_eq_none.1 found k (by simp; omega))
    | some kHi => exact ⟨kHi, rfl, le_of_find?_reverse_range found (by omega) below⟩

/-- A bin of the lower half beyond `kHi` is above the high edge. -/
theorem not_below_of_bandHigh_lt {k : Nat} (hk : k ≤ fs / 2) (beyond : ∀ kHi, bandHigh f fs p = some kHi → kHi < k) :
    fle f (i2f f k) (binOf f fs p.srate p.fhi) = false := by
  rw [← Bool.not_eq_true, ← le_bandHigh_iff f fs p hk]
  rintro ⟨kHi, found, le⟩
  exact (beyond kHi found).not_ge le

end Band

/-- The bins `kLo..kHi`: none when there is no `kHi`. -/
theorem mem_bins {kLo k : Nat} {top : Option Nat} : k ∈ bins kLo top ↔ kLo ≤ k ∧ ∃ kHi, top = some kHi ∧ k ≤ kHi := by
  cases top with
  | none => simp [bins]
  | some kHi =>
    simp only [bins, List.mem_range'_1, Option.some.injEq, exists_eq_left']
    omega

/-- The band is exactly the bins of the lower half between the edges. -/
theorem mem_band_iff {f : Fmt} {fs : Nat} {p : BandParams} {k : Nat} :
    k ∈ bins (bandLow f fs p) (bandHigh f fs p) ↔ k ≤ fs / 2 ∧
      fle f (binOf f fs p.srate p.flo) (i2f f k) = true ∧ fle f (i2f f k) (binOf f fs p.srate p.fhi) = true := by
  rw [mem_bins]
  constructor
  · rintro ⟨above, kHi, found, below⟩
    have half : k ≤ fs / 2 := below.trans (bandHigh_le f fs p found)
    exact ⟨half, (bandLow_le_iff f fs p half).1 above, (le_bandHigh_iff f fs p half).1 ⟨kHi, found, below⟩⟩
  · rintro ⟨half, above, below⟩
    exact ⟨(bandLow_le_iff f fs p half).2 above, (le_bandHigh_iff f fs p half).2 below⟩

/-- A NaN edge leaves no bin. -/
theorem band_eq_nil_of_isNaN {f : Fmt} {fs : Nat} {p : BandParams}
    (h : isNaN f (binOf f fs p.srate p.flo) = true ∨ isNaN f (binOf f fs p.srate p.fhi) = true) :
    bins (bandLow f fs p) (bandHigh f fs p) = [] := by
  rw [List.eq_nil_iff_forall_not_mem]
  intro k mem
  obtain ⟨-, above, below⟩ := mem_band_iff.1 mem
  rcases h with low | high
  · rw [fle_of_isNaN (.inl low)] at above
    contradiction
  · rw [fle_of_isNaN (.inr high)] at below
    contradiction

/-! ## The reserved rows (R262) -/

/-- The low half of the control word of a shaper command: the opcode, the options and `CPOL` (R101). -/
theorem field_msControl {opc : Nat} (h : opc < 2 ^ 8) (cpol : Bool) (o : MsOpts) :
    field (msControl opc cpol o) 15 0 = opc + 2 ^ 8 * o.nopad.toNat + 2 ^ 9 * o.mexp.toNat + 2 ^ 13 * o.pm.toNat +
      2 ^ 14 * o.pr.toNat + 2 ^ 15 * cpol.toNat := by
  have nopad := o.nopad.toNat_lt
  have mexp := o.mexp.isLt
  have pm := o.pm.toNat_lt
  have pr := o.pr.toNat_lt
  have cpol' := cpol.toNat_lt
  simp only [field, msControl, controlWord, BitVec.toNat_ofNat, Bool.toNat_false, show (0 : BitVec 4).toNat = 0 from rfl]
  omega

/-- A reserved row raises `E_ILLEGAL` with its control word. -/
theorem raises_of_legacy {i : Instr} (h : Legacy i) (s : State) : Raises s (exec i s) .illegal (controlOf i).toNat := by
  rw [exec_of_legacy h, ← s.command_some _ _ id]
  exact s.raises_command_some ..

end Sys2Proof.Machine

namespace Sys2Proof.Proofs

open Sys2Proof.Machine Sys2Proof.Safety

/-- Settles O22: the bins at or above the low edge are those from `kLo` on, the bins at or below the high edge those up to
`kHi`, because the conversion of the bin numbers keeps their order. -/
theorem bandRule : Obligations.BandRule := by
  unfold Obligations.BandRule
  intro f fs p _
  refine ⟨fun k hk before => ?_, bandLow_le f fs p, fun half => (bandLow_le_iff f fs p half).1 le_rfl, ?_,
    fun k => mem_band_iff, band_eq_nil_of_isNaN⟩
  · rw [← Bool.not_eq_true]
    exact fun above => before.not_ge ((bandLow_le_iff f fs p hk).2 above)
  · cases found : bandHigh f fs p with
    | none => exact fun k hk => not_below_of_bandHigh_lt f fs p hk (by simp [found])
    | some kHi =>
      have half := bandHigh_le f fs p found
      exact ⟨half, (le_bandHigh_iff f fs p half).1 ⟨kHi, found, le_rfl⟩,
        fun k hk after => not_below_of_bandHigh_lt f fs p hk (by simpa [found] using after)⟩

/-- Settles O28: a reserved row takes the fault with its own control word, whose fields are the options. -/
theorem reservedRows : Obligations.ReservedRows := by
  unfold Obligations.ReservedRows
  intro s o n a b
  have dip : field (controlOf (.msDipLegacy o n a b)) 15 0 = _ := field_msControl (opc := 0x31) (by decide) true o
  have peak : field (controlOf (.msPeakLegacy o n a b)) 15 0 = _ := field_msControl (opc := 0x32) (by decide) true o
  refine ⟨raises_of_legacy (.inl ⟨o, n, a, b, rfl⟩) s, raises_of_legacy (.inr ⟨o, n, a, b, rfl⟩) s, ?_, ?_⟩
  · rw [dip, Bool.toNat_true]
    omega
  · rw [peak, Bool.toNat_true]
    omega

end Sys2Proof.Proofs
end

section
/-! PROOFS. The system commands (R270 to R272): the whole next state of each, and the run over a command memory of zeros, by
induction on the descriptors still ahead. -/

namespace Sys2Proof

theorem build_eq_nop_iff {c : Cmd} {w0 w1 w2 w3 : Word} : c.build w0 w1 w2 w3 = .nop ↔ c = .nop := by
  cases c <;> simp [Cmd.build]

/-- The control word 0 is `NOP`, and only it is: the mask of the row covers every bit. -/
theorem decodeWords_eq_nop_iff {w0 w1 w2 w3 : Word} : decodeWords w0 w1 w2 w3 = .ok .nop ↔ w0 = 0 := by
  constructor
  · intro decodes
    obtain ⟨r, mem, selects, build⟩ := row_of_decodes decodes
    have shape : ∀ r ∈ opcodeTable, r.cmd = .nop → r.pat = 0 ∧ r.mask = BitVec.allOnes 32 := by decide
    obtain ⟨pat, mask⟩ := shape r mem (build_eq_nop_iff.1 build)
    rwa [Row.selects, pat, mask, BitVec.and_allOnes, beq_iff_eq] at selects
  · rintro rfl
    exact decodeWords_of_selected (c := .nop) (by decide) rfl rfl

end Sys2Proof

namespace Sys2Proof.Machine

/-! ## The commands -/

theorem exec_nop (s : State) : exec .nop s = .next { s with cp := s.cp + 4 } := rfl

theorem exec_endList (s : State) : exec .endList s = .next { s with cp := s.cp + 4, done := true, run := false } := rfl

theorem exec_sets_of_ge {i : BitVec 4} (h : 11 ≤ i.toNat) (lo hi : Word) (s : State) : exec (.sets i lo hi) s =
    .next (s.takeFault ⟨.illegal, (controlOf (.sets i lo hi)).toNat⟩ Wreck.none) := dif_neg (by omega)

/-- The control word of `SETS`: the opcode 2 and the index in bits 21:18 (R101). -/
theorem toNat_controlOf_sets (i : BitVec 4) (lo hi : Word) :
    (controlOf (.sets i lo hi)).toNat = 2 + 2 ^ 18 * i.toNat := by
  have := i.isLt
  simp only [controlOf, encode, List.headD_cons, controlWord, BitVec.toNat_ofNat, Bool.toNat_false,
    show (0 : BitVec 4).toNat = 0 from rfl]
  omega

theorem immediate_binary64 (lo hi : Word) : immediate .binary64 lo hi = hi ++ lo := by
  apply BitVec.eq_of_toNat_eq
  have := hi.isLt
  rw [immediate, BitVec.toNat_append, ← Nat.shiftLeft_add_eq_or_of_lt lo.isLt, Nat.shiftLeft_eq, BitVec.toNat_ofNat]
  omega

theorem immediate_binary32 (lo hi : Word) : immediate .binary32 lo hi = lo.setWidth 64 := BitVec.ofNat_toNat 64 lo

/-! ## The step with no move of the outside agents to come -/

theorem step_of_silent_run {s : State} (silent : s.inbox = []) (run : s.run = true) : step s = tick (engineStep s) := by
  rw [step, silent, engineTurn, if_pos run]

theorem step_of_silent_idle {s : State} (silent : s.inbox = []) (idle : s.run = false) : step s = .next s := by
  simp [step, silent, engineTurn, idle]

theorem core_run_of_step {s t : State} (h : step s = .next t) (k : Nat) : core.run (k + 1) s = core.run k t := by
  have h : core.step s = .next t := h
  simp only [Host.Core.run, h]

/-! ## A command memory of zeros -/

/-- The engine runs undisturbed over a `CM` that holds whole descriptors, all of them zero. -/
structure ZeroRun (s : State) : Prop where
  whole : s.cfg.cmSize % 4 = 0
  addressable : s.cfg.cmSize < 2 ^ 32
  run : s.run = true
  silent : s.inbox = []
  zero : ∀ x < 4 * s.cfg.cmSize, s.cm.get? x = some 0

theorem ZeroRun.fetched {s : State} (z : ZeroRun s) (inside : s.cp.toNat + 4 ≤ s.cfg.cmSize) :
    s.fetched = wordBytes [0, 0, 0, 0] := by
  have bytes : wordBytes [0, 0, 0, 0] = (List.range 16).map fun _ => 0 := by decide
  rw [bytes]
  refine List.map_congr_left fun j hj => ?_
  have := List.mem_range.1 hj
  rw [State.cmByte, z.zero _ (by omega), Option.getD_some]

/-- Every descriptor is a `NOP`. -/
theorem ZeroRun.fetch {s : State} (z : ZeroRun s) (aligned : s.cp.toNat % 4 = 0)
    (inside : s.cp.toNat + 4 ≤ s.cfg.cmSize) : s.fetch = .ok .nop := by
  have fetchOk : s.fetchOk = true := by simp [State.fetchOk, aligned, inside]
  have decodes : decode s.fetched = .ok (.nop, []) := by
    rw [z.fetched inside, ← List.append_nil (wordBytes _), decode_wordBytes, decodeWords_eq_nop_iff.2 rfl]
    rfl
  rw [State.fetch, if_pos fetchOk, decodes]

/-- Past the last descriptor the fetch fails. -/
theorem State.fetch_of_outside {s : State} (outside : s.cfg.cmSize < s.cp.toNat + 4) :
    s.fetch = .error ⟨.fetch, s.cp.toNat⟩ := if_neg (by simp [State.fetchOk, outside])

theorem ZeroRun.step_inside {s : State} (z : ZeroRun s) (aligned : s.cp.toNat % 4 = 0)
    (inside : s.cp.toNat + 4 ≤ s.cfg.cmSize) : step s = .next { s with cp := s.cp + 4, draws := s.draws + 1 } := by
  rw [step_of_silent_run z.silent z.run, engineStep, z.fetch aligned inside]
  rfl

/-- `E_FETCH` at the end of `CM`, with everything else as in `s` but the model's draw index (log 5). -/
def State.ranOut (s : State) (draws : Nat) : State :=
  State.raise { s with cp := BitVec.ofNat 32 s.cfg.cmSize, draws := draws } ⟨.fetch, s.cfg.cmSize⟩

theorem ZeroRun.step_at_end {s : State} (z : ZeroRun s) (atEnd : s.cp.toNat = s.cfg.cmSize) :
    step s = .next (s.ranOut (s.draws + 1)) := by
  have cp : BitVec.ofNat 32 s.cfg.cmSize = s.cp := by rw [← atEnd, BitVec.ofNat_toNat, BitVec.setWidth_eq]
  rw [step_of_silent_run z.silent z.run, engineStep, State.fetch_of_outside (by omega), atEnd, State.ranOut, cp]
  rfl

theorem ZeroRun.after_nop {s : State} (z : ZeroRun s) : ZeroRun { s with cp := s.cp + 4, draws := s.draws + 1 } :=
  ⟨z.whole, z.addressable, z.run, z.silent, z.zero⟩

/-- With `k` descriptors ahead, `k + 1` steps end in `E_FETCH` at the end of `CM`. -/
theorem ZeroRun.core_run {s : State} (z : ZeroRun s) {k : Nat} (ahead : s.cp.toNat + 4 * k = s.cfg.cmSize) :
    core.run (k + 1) s = .next (s.ranOut (s.draws + (k + 1))) := by
  induction k generalizing s with
  | zero => exact core_run_of_step (z.step_at_end (by omega)) 0
  | succ k ih =>
    have size := z.addressable
    have whole := z.whole
    have moved : (s.cp + 4).toNat = s.cp.toNat + 4 := BitVec.toNat_add_of_lt (by simp; omega)
    have count : s.draws + 1 + (k + 1) = s.draws + (k + 1 + 1) := by omega
    calc core.run (k + 1 + 1) s
      _ = core.run (k + 1) { s with cp := s.cp + 4, draws := s.draws + 1 } :=
        core_run_of_step (z.step_inside (by omega) (by omega)) (k + 1)
      _ = .next (s.ranOut (s.draws + 1 + (k + 1))) := ih z.after_nop (by simp only [moved]; omega)
      _ = .next (s.ranOut (s.draws + (k + 1 + 1))) := by rw [count]

end Sys2Proof.Machine

namespace Sys2Proof.Proofs

open Sys2Proof.Machine Sys2Proof.Safety

/-- Settles O3, by the row of `NOP` and by induction on the descriptors ahead. -/
theorem nopRule : Obligations.NopRule := by
  unfold Obligations.NopRule
  refine ⟨exec_nop, fun w0 w1 w2 w3 => decodeWords_eq_nop_iff, fun s whole addressable run silent start zero => ?_⟩
  have cp : s.cp.toNat = 0 := congrArg BitVec.toNat start
  have ahead : s.cp.toNat + 4 * (s.cfg.cmSize / 4) = s.cfg.cmSize := by omega
  exact ZeroRun.core_run ⟨whole, addressable, run, silent, zero⟩ ahead

/-- Settles O4: the last clause is what can end a run, but for the faults. -/
theorem endRule : Obligations.EndRule := by
  unfold Obligations.EndRule
  refine ⟨exec_endList, fun s t h => ?_, fun s t h running stopped noFault => ?_⟩
  · rw [exec_endList] at h
    cases h
    refine ⟨fun enabled => by simp [State.irq, enabled], fun silent => step_of_silent_idle silent rfl, fun noFault => ?_⟩
    exact State.writeCtrl_accepted (by decide) rfl noFault
  · rcases end_of_run h running stopped with ends | ⟨_, fault, _⟩ | resets
    · exact .inl ends
    · simp [fault] at noFault
    · exact .inr resets

/-- Settles O5, format by format; the fault names the control word of the index. -/
theorem setsRule : Obligations.SetsRule := by
  unfold Obligations.SetsRule
  refine fun s i lo hi => ⟨fun h => ?_, fun h => ?_⟩
  · rw [exec_sets_of_lt h]
    cases s.cfg.fmt with
    | binary64 => rw [immediate_binary64]; rfl
    | binary32 => rw [immediate_binary32]; rfl
  · rw [exec_sets_of_ge h, toNat_controlOf_sets, ← s.command_some _ _ id]
    exact s.raises_command_some ..

end Sys2Proof.Proofs
end

section
/-! PROOFS. Faults (R281, R283, R286, R289): the fault of a command as a function of its descriptor and the configuration,
and the fault of a step, which is the fetch's own where the fetch fails. -/

namespace Sys2Proof.Machine

/-! ## The fault of a command (R281, R289) -/

/-- The fault that the checks of a command raise, from its descriptor and the configuration alone. -/
def commandTrap (i : Instr) (p : Params) : Option Trap :=
  match i with
  | .nop | .endList => none
  | .sets r lo hi => if r.toNat < 11 then none else some ⟨.illegal, (controlOf (.sets r lo hi)).toNat⟩
  | .fftFwd n a | .fftInv n a => fftTrap false p n.toNat a.toNat
  | .fftFwdP2 n a | .fftInvP2 n a => fftTrap true p n.toNat a.toNat
  | .cepLog n a | .cepFold n a | .cepExp n a | .msRms n a => bufferTrap p n.toNat a.toNat
  | .cepPol n a b | .cepXph n a b => twoBufferTrap p n.toNat a.toNat b.toNat
  | .hdDec o n a b | .hdDech o n a b => hdTrap p o n.toNat a.toNat b.toNat
  | .msDip o n a b | .msPeak o n a b | .msFlat o n a b => msTrap p o n.toNat a.toNat b.toNat
  | .msDipLegacy o n a b => some ⟨.illegal, (controlOf (.msDipLegacy o n a b)).toNat⟩
  | .msPeakLegacy o n a b => some ⟨.illegal, (controlOf (.msPeakLegacy o n a b)).toNat⟩

/-- The outcome of the command `i` that a trap calls for: the fault taken, or completion. -/
def Answers (i : Instr) (s : State) (o : Host.Outcome State Fault Refusal) : Option Trap → Prop
  | some f => ∃ w, o = .next (s.takeFault f w)
  | none => ∃ t, o = .next t ∧ Completes i s t

/-- A command in the common frame answers the trap of its checks. -/
theorem answers_of_command {i : Instr} {s : State} {trap : Option Trap} {w : Wreck} {effect : State → State}
    (hi : i ≠ .endList) (runs : exec i s = s.command trap w effect) (quiet : Quiet s (effect s)) :
    Answers i s (exec i s) trap := by
  rw [runs]
  cases trap with
  | some f => exact ⟨w, rfl⟩
  | none => exact ⟨_, rfl, quiet.completes hi⟩

/-- Data and history never decide whether a command faults, or how (R289). -/
theorem exec_answers (i : Instr) (s : State) : Answers i s (exec i s) (commandTrap i s.cfg) := by
  cases i with
  | nop => exact ⟨_, exec_nop s, Quiet.completes (u := s) nofun rfl⟩
  | endList =>
    exact ⟨_, exec_endList s, ⟨rfl, rfl, rfl, rfl, rfl, rfl, rfl⟩, rfl, rfl, rfl, rfl, rfl, nofun, nofun,
      fun _ => ⟨rfl, rfl⟩⟩
  | sets r lo hi =>
    by_cases register : r.toNat < 11
    · rw [commandTrap, if_pos register, exec_sets_of_lt register]
      exact ⟨_, rfl, Quiet.completes nofun rfl⟩
    · rw [commandTrap, if_neg register, exec_sets_of_ge (Nat.le_of_not_lt register)]
      exact ⟨_, rfl⟩
  | fftFwd n a => exact answers_of_command (by simp) (by rw [exec, execFftFwd, commandTrap]) (by rfl)
  | fftInv n a => exact answers_of_command (by simp) (by rw [exec, execFftInv, commandTrap]) (by rfl)
  | fftFwdP2 n a => exact answers_of_command (by simp) (by rw [exec, execFftFwdP2, commandTrap]) (by rfl)
  | fftInvP2 n a => exact answers_of_command (by simp) (by rw [exec, execFftInvP2, commandTrap]) (by rfl)
  | cepLog n a => exact answers_of_command (by simp) (by rw [exec, execCepLog, commandTrap]) (by rfl)
  | cepFold n a => exact answers_of_command (by simp) (by rw [exec, execCepFold, commandTrap]) (by rfl)
  | cepExp n a => exact answers_of_command (by simp) (by rw [exec, execCepExp, commandTrap]) (by rfl)
  | cepPol n a b => exact answers_of_command (by simp) (by rw [exec, execCepPol, commandTrap]) (by rfl)
  | cepXph n a b => exact answers_of_command (by simp) (by rw [exec, execCepXph, commandTrap]) (by rfl)
  | hdDec o n a b => exact answers_of_command (by simp) (by rw [exec, execHdDec, commandTrap]) (s.quiet_decompose ..)
  | hdDech o n a b => exact answers_of_command (by simp) (by rw [exec, execHdDech, commandTrap]) (s.quiet_decompose ..)
  | msRms n a => exact answers_of_command (by simp) (by rw [exec, execMsRms, commandTrap]) (by rfl)
  | msDip o n a b => exact answers_of_command (by simp) (by rw [exec, execMsDip, commandTrap]) (by rfl)
  | msPeak o n a b => exact answers_of_command (by simp) (by rw [exec, execMsPeak, commandTrap]) (by rfl)
  | msFlat o n a b => exact answers_of_command (by simp) (by rw [exec, execMsFlat, commandTrap]) (by rfl)
  | msDipLegacy o n a b => exact ⟨Wreck.none, rfl⟩
  | msPeakLegacy o n a b => exact ⟨Wreck.none, rfl⟩

/-- A fetch reads the configuration, `CP` and the descriptor's bytes alone. -/
theorem State.fetch_congr {s s' : State} (cfg : s.cfg = s'.cfg) (cp : s.cp = s'.cp) (bytes : s.fetched = s'.fetched) :
    s.fetch = s'.fetch := by
  have fetchOk : s.fetchOk = s'.fetchOk := by simp only [State.fetchOk, cfg, cp]
  rw [State.fetch, State.fetch, fetchOk, bytes, cp]

/-! ## The fault of a step (R283, R286) -/

/-- An engine step that faults takes one fault, the fetch's own where the fetch fails. -/
theorem takeFault_of_engineStep {s u : State} (h : engineStep s = .next u) (clear : s.fault = false)
    (fault : u.fault = true) :
    ∃ p w, p.code ≠ .none ∧ u = s.takeFault p w ∧ ∀ q, s.fetch = .error q → p = q := by
  rw [engineStep] at h
  rcases s.fetch_cases with ⟨i, fetch, -⟩ | ⟨f, fetch, code⟩
  · rw [fetch] at h
    rcases exec_cases i s with ⟨p, w, code, taken⟩ | ⟨t, completed, done⟩
    · exact ⟨p, w, code, Host.Outcome.next.inj (h.symm.trans taken), by simp [fetch]⟩
    · obtain rfl := Host.Outcome.next.inj (h.symm.trans completed)
      simp [done.fault, clear] at fault
  · rw [fetch] at h
    refine ⟨f, Wreck.none, ?_, (Host.Outcome.next.inj h).symm, by simp [fetch]⟩
    rcases code with code | code <;> simp [code]

/-- A step of a run that faults takes one fault, and moves the model's draw index on (log 5). -/
theorem takeFault_of_step {s t : State} (run : s.run = true) (silent : s.inbox = []) (clear : s.fault = false)
    (h : step s = .next t) (fault : t.fault = true) :
    ∃ p w, p.code ≠ .none ∧ t = { s.takeFault p w with draws := s.draws + 1 } ∧ ∀ q, s.fetch = .error q → p = q := by
  rw [step_of_silent_run silent run] at h
  cases engine : engineStep s with
  | fault r => rw [engine] at h; cases h
  | refused r => rw [engine] at h; cases h
  | next u =>
    rw [engine] at h
    cases h
    obtain ⟨p, w, code, rfl, own⟩ := takeFault_of_engineStep engine clear fault
    exact ⟨p, w, code, by rw [State.takeFault_draws], own⟩

end Sys2Proof.Machine

namespace Sys2Proof.Proofs

open Sys2Proof.Machine

/-- Settles O31: the trap that a command's outcome answers is that of its descriptor and the configuration. -/
theorem faultsFromDescriptor : Obligations.FaultsFromDescriptor := by
  unfold Obligations.FaultsFromDescriptor
  refine ⟨fun s s' => State.fetch_congr, fun i s s' t t' cfg cp clear clear' h h' => ?_⟩
  have answer := exec_answers i s
  have answer' := exec_answers i s'
  rw [h, cfg] at answer
  rw [h'] at answer'
  cases trap : commandTrap i s'.cfg with
  | some f =>
    rw [trap] at answer answer'
    obtain ⟨w, ⟨⟩⟩ := answer
    obtain ⟨w', ⟨⟩⟩ := answer'
    simp [cp]
  | none =>
    rw [trap] at answer answer'
    obtain ⟨_, ⟨⟩, done⟩ := answer
    obtain ⟨_, ⟨⟩, done'⟩ := answer'
    simp [done.fault, done'.fault, done.cp, done'.cp, clear, clear', cp]

/-- Settles O30: the writes of fault entry, and the one fault that a step takes. -/
theorem faultEntry : Obligations.FaultEntry := by
  unfold Obligations.FaultEntry
  refine ⟨fun s p w => ?_, rfl, fun s t run silent clear h fault => ?_⟩
  · obtain ⟨-, -, status⟩ := (s.takeFault p w).field_status
    rw [State.takeFault_fcode] at status
    exact ⟨s.takeFault_faultCp p w, by simp, s.takeFault_fcode p w, s.takeFault_fault p w, s.takeFault_run p w, status,
      s.takeFault_cp p w, State.takeFault_of_ne_alloc⟩
  · obtain ⟨p, w, code, rfl, own⟩ := takeFault_of_step run silent clear h fault
    refine ⟨⟨p, w, code, rfl, own⟩, s.takeFault_faultCp p w, (s.takeFault_fcode p w).trans_ne code, s.takeFault_run p w,
      s.takeFault_cp p w, s.takeFault_done p w, s.takeFault_ie p w, s.takeFault_regs p w, s.takeFault_slatch p w,
      s.takeFault_cm p w, fun precise => ?_, ?_, fun enabled => by simp [State.irq, enabled]⟩
    · rw [State.takeFault_of_ne_alloc (by simpa using precise)]
      rfl
    · exact step_of_silent_idle ((s.takeFault_inbox p w).trans silent) (s.takeFault_run p w)

end Sys2Proof.Proofs
end

section
/-! PROOFS. Every run ends (R330): a turn of a run that the host leaves alone faults, or completes the command at a `CP`
inside `CM` and moves `CP` on by 4; induction on the words of `CM` still ahead. -/

namespace Sys2Proof.Machine

/-! ## A turn with the host silent -/

/-- No outside agent has a move to make, and `CP` can hold every address of `CM` (R10). -/
structure HostSilent (s : State) : Prop where
  silent : s.inbox = []
  addressable : s.cfg.cmSize < 2 ^ 32

/-- The run is over, by `END` or by a fault. -/
def State.Ended (s : State) : Prop := s.run = false ∧ (s.done = true ∨ s.fault = true)

/-- What one turn of the engine does to a run: the fault that ends it, or a command that completes. -/
inductive RunTurn (s t : State) : Prop where
  | fault (run : t.run = false) (fault : t.fault = true)
  | command (inside : s.cp.toNat + 4 ≤ s.cfg.cmSize) (cp : t.cp.toNat = s.cp.toNat + 4) (run : t.run = true ∨ t.Ended)

theorem State.inside_of_fetch {s : State} {i : Instr} (fetch : s.fetch = .ok i) : s.cp.toNat + 4 ≤ s.cfg.cmSize := by
  by_contra outside
  rw [State.fetch_of_outside (Nat.lt_of_not_le outside)] at fetch
  cases fetch

/-- A command that completes lets the run go on, unless it is `END`. -/
theorem Completes.run_or_ended {i : Instr} {s t : State} (done : Completes i s t) (run : s.run = true) :
    t.run = true ∨ t.Ended := by
  by_cases ends : i = .endList
  · obtain ⟨stopped, finished⟩ := done.endList ends
    exact .inr ⟨stopped, .inl finished⟩
  · exact .inl ((done.run ends).trans run)

section Silent
variable {s t : State}

/-- `CP` does not wrap on a command that completes: the command was fetched inside `CM`. -/
theorem HostSilent.turn (h : HostSilent s) (run : s.run = true) :
    ∃ t, step s = .next t ∧ t.inbox = [] ∧ t.cfg = s.cfg ∧ RunTurn s t := by
  rw [step_of_silent_run h.silent run]
  rcases engineStep_cases s with ⟨f, w, -, taken⟩ | ⟨i, u, fetch, completed, done⟩
  · rw [taken]
    exact ⟨_, rfl, by simp [h.silent], by simp, .fault (by simp) (by simp)⟩
  · rw [completed]
    have addressable := h.addressable
    have inside := State.inside_of_fetch fetch
    have cp : u.cp.toNat = s.cp.toNat + 4 := by
      rw [done.cp]
      exact BitVec.toNat_add_of_lt (by simp; omega)
    exact ⟨_, rfl, done.kept.inbox.trans h.silent, done.kept.cfg, .command inside cp (done.run_or_ended run)⟩

theorem HostSilent.runTurn_of_step (h : HostSilent s) (run : s.run = true) (next : step s = .next t) : RunTurn s t := by
  obtain ⟨u, stepped, -, -, turn⟩ := h.turn run
  cases next.symm.trans stepped
  exact turn

theorem HostSilent.of_step (h : HostSilent s) (next : step s = .next t) : HostSilent t := by
  cases run : s.run with
  | false =>
    cases next.symm.trans (step_of_silent_idle h.silent run)
    exact h
  | true =>
    obtain ⟨u, stepped, silent, cfg, -⟩ := h.turn run
    cases next.symm.trans stepped
    exact ⟨silent, cfg ▸ h.addressable⟩

/-! ## The run -/

/-- A run of at least one step, taken apart at its first. -/
theorem step_of_core_run {k : Nat} (runs : core.run (k + 1) s = .next t) :
    ∃ u, step s = .next u ∧ core.run k u = .next t := by
  simp only [Host.Core.run] at runs
  split at runs
  · exact ⟨_, ‹_›, runs⟩
  · cases runs
  · cases runs

/-- What every step keeps, every run keeps. -/
theorem core_run_keeps {P : State → Prop} (keeps : ∀ s t, P s → step s = .next t → P t) {k : Nat} (start : P s)
    (runs : core.run k s = .next t) : P t := by
  induction k generalizing s with
  | zero =>
    cases runs
    exact start
  | succ k ih =>
    obtain ⟨u, next, rest⟩ := step_of_core_run runs
    exact ih (keeps s u start next) rest

/-- A run ends within the descriptors of `CM` from `CP` on and one fetch more. -/
theorem HostSilent.run_ends (h : HostSilent s) (run : s.run = true) :
    ∃ k ≤ (s.cfg.cmSize - s.cp.toNat) / 4 + 1, ∃ t, core.run k s = .next t ∧ t.Ended := by
  induction ahead : s.cfg.cmSize - s.cp.toNat using Nat.strong_induction_on generalizing s with
  | _ ahead ih =>
    obtain ⟨t, next, -, cfg, turn⟩ := h.turn run
    have one : core.run 1 s = .next t := core_run_of_step next 0
    cases turn with
    | fault stopped fault => exact ⟨1, by omega, t, one, stopped, .inr fault⟩
    | command inside cp goesOn =>
      rcases goesOn with running | ended
      · have size : t.cfg.cmSize = s.cfg.cmSize := congrArg Params.cmSize cfg
        obtain ⟨k, bound, u, runs, ended⟩ := ih _ (by omega) (h.of_step next) running rfl
        exact ⟨k + 1, by omega, u, (core_run_of_step next k).trans runs, ended⟩
      · exact ⟨1, by omega, t, one, ended⟩

end Silent

end Sys2Proof.Machine

namespace Sys2Proof.Proofs

open Sys2Proof.Machine

/-- Settles O39: the descriptors ahead of `CP` bound the run, and the host stays silent along it. -/
theorem runEnds : Obligations.RunEnds := by
  unfold Obligations.RunEnds
  intro s params run _ silent
  obtain ⟨-, -, -, -, cmSize, -⟩ := params
  have start : HostSilent s := ⟨silent, by omega⟩
  refine ⟨?_, fun k t u runs next running clear => ?_⟩
  · obtain ⟨k, bound, t, runs, ended⟩ := start.run_ends run
    exact ⟨k, by omega, t, runs, ended⟩
  · have reached : HostSilent t := core_run_keeps (fun _ _ => HostSilent.of_step) start runs
    cases reached.runTurn_of_step running next with
    | fault _ fault => simp [clear] at fault
    | command _ cp _ => omega

end Sys2Proof.Proofs
end

section
/-! PROOFS. The decoder and the encoder: decoding takes encoding back (R100 to R113), no control word selects two rows, and
no bit of a decoded control word is dropped (R101, R104). -/

namespace Sys2Proof

/-- The lemmas of every constructor, as one. -/
theorem Laws.encodeWords (i : Instr) : Laws.EncodeWords.Statement i := by
  cases i with
  | nop => exact EncodeWords.nop
  | endList => exact EncodeWords.endList
  | sets i lo hi => exact EncodeWords.sets i lo hi
  | fftFwd n a => exact EncodeWords.fftFwd n a
  | fftInv n a => exact EncodeWords.fftInv n a
  | fftFwdP2 n a => exact EncodeWords.fftFwdP2 n a
  | fftInvP2 n a => exact EncodeWords.fftInvP2 n a
  | cepLog n a => exact EncodeWords.cepLog n a
  | cepFold n a => exact EncodeWords.cepFold n a
  | cepExp n a => exact EncodeWords.cepExp n a
  | cepPol n a b => exact EncodeWords.cepPol n a b
  | cepXph n a b => exact EncodeWords.cepXph n a b
  | hdDec o n a b => exact EncodeWords.hdDec o n a b
  | hdDech o n a b => exact EncodeWords.hdDech o n a b
  | msRms n a => exact EncodeWords.msRms n a
  | msDip o n a b => exact EncodeWords.msDip o n a b
  | msPeak o n a b => exact EncodeWords.msPeak o n a b
  | msFlat o n a b => exact EncodeWords.msFlat o n a b
  | msDipLegacy o n a b => exact EncodeWords.msDipLegacy o n a b
  | msPeakLegacy o n a b => exact EncodeWords.msPeakLegacy o n a b

/-! ## Two rows of the table -/

/-- Rows that one word selects agree on the bits that both masks cover. -/
theorem Row.agree_of_selects {r r' : Row} {w : Word} (h : r.selects w = true) (h' : r'.selects w = true) :
    r.pat &&& r'.mask = r'.pat &&& r.mask := by
  rw [Row.selects, beq_iff_eq] at h h'
  rw [← h, ← h', BitVec.and_assoc, BitVec.and_assoc, BitVec.and_comm r.mask]

/-! ## The control word of a command that is not reserved -/

/-- A bit of a control word where it is an operand, and 0 elsewhere. -/
def operandBit (ops : List (Nat × Nat)) (w : Word) (k : Nat) : Bool := decide ((k, k) ∈ ops) && bit w k

/-- A field of four bits where it is an operand, and 0 elsewhere. -/
def operandNibble (ops : List (Nat × Nat)) (w : Word) (hi lo : Nat) : BitVec 4 :=
  if (hi, lo) ∈ ops then BitVec.ofNat 4 (field w hi lo) else 0

/-- The control word of what a row makes of a word: the row's opcode, and the operands of the command (R103). -/
theorem controlOf_build : ∀ r ∈ opcodeTable, r.cmd.reserved = false → ∀ w w1 w2 w3 : Word,
    controlOf (r.cmd.build w w1 w2 w3) =
      controlWord (field r.pat 7 0) (operandBit r.cmd.operands w 8) (operandNibble r.cmd.operands w 12 9)
        (operandBit r.cmd.operands w 13) (operandBit r.cmd.operands w 14) (operandBit r.cmd.operands w 15)
        (operandBit r.cmd.operands w 16) (operandBit r.cmd.operands w 17) (operandNibble r.cmd.operands w 21 18) := by
  simp only [opcodeTable, List.forall_mem_cons]
  refine ⟨?_, ?_, ?_, ?_, ?_, ?_, ?_, ?_, ?_, ?_, ?_, ?_, ?_, ?_, ?_, ?_, ?_, ?_, nofun, nofun, nofun⟩ <;>
  · intro _ w w1 w2 w3
    rfl

theorem operandBit_eq {ops : List (Nat × Nat)} {w : Word} {k : Nat} (h : (k, k) ∉ ops → field w k k = 0) :
    operandBit ops w k = bit w k := by
  by_cases operand : (k, k) ∈ ops
  · simp [operandBit, operand]
  · simp [operandBit, operand, bit, h operand]

theorem operandNibble_eq {ops : List (Nat × Nat)} {w : Word} {hi lo : Nat} (h : (hi, lo) ∉ ops → field w hi lo = 0) :
    operandNibble ops w hi lo = BitVec.ofNat 4 (field w hi lo) := by
  by_cases operand : (hi, lo) ∈ ops
  · simp [operandNibble, operand]
  · simp [operandNibble, operand, h operand]

/-- A word that selects a row has zeros outside its operands, so no bit of it is dropped. -/
theorem controlOf_build_of_selects {r : Row} (hr : r ∈ opcodeTable) (hres : r.cmd.reserved = false) {w : Word}
    (h : r.selects w = true) (w1 w2 w3 : Word) : controlOf (r.cmd.build w w1 w2 w3) = w := by
  obtain ⟨opcode, unused⟩ := (Row.selects_iff_unused hr hres w).1 h
  rw [UnusedFieldsZero, opcode, ← operands_of_row r hr hres] at unused
  have noField : ∀ r ∈ opcodeTable, r.cmd.reserved = false → (31, 22) ∉ r.cmd.operands := by decide +kernel
  have whole := controlWord_fields (unused (31, 22) (by decide) (noField r hr hres))
  rw [controlOf_build r hr hres, ← opcode, operandBit_eq (unused (8, 8) (by decide)),
    operandNibble_eq (unused (12, 9) (by decide)), operandBit_eq (unused (13, 13) (by decide)),
    operandBit_eq (unused (14, 14) (by decide)), operandBit_eq (unused (15, 15) (by decide)),
    operandBit_eq (unused (16, 16) (by decide)), operandBit_eq (unused (17, 17) (by decide)),
    operandNibble_eq (unused (21, 18) (by decide)), whole]

end Sys2Proof

namespace Sys2Proof.Proofs

/-- Settles O42: the lemma of the constructor, on the bytes of its four words. -/
theorem decodeEncode : Obligations.DecodeEncode := by
  unfold Obligations.DecodeEncode
  intro i rest wellFormed
  obtain ⟨w0, w1, w2, w3, words, decodes⟩ := Laws.encodeWords i wellFormed
  rw [encodeBytes, words, decode_wordBytes, decodes]
  rfl

/-- Settles O45: the rows differ on bits that both masks cover; a control word is put together again from its fields. -/
theorem opcodeRows : Obligations.OpcodeRows := by
  unfold Obligations.OpcodeRows
  refine ⟨?_, fun w0 w1 w2 w3 i decodes => ?_⟩
  · have differ : opcodeTable.Pairwise fun r r' => r.pat &&& r'.mask ≠ r'.pat &&& r.mask := by decide +kernel
    exact differ.imp fun apart w both => apart (Row.agree_of_selects both.1 both.2)
  · obtain ⟨r, mem, selects, rfl⟩ := row_of_decodes decodes
    cases res : r.cmd.reserved with
    | false => exact controlOf_build_of_selects mem res selects w1 w2 w3
    | true => exact controlOf_of_legacy decodes ((legacy_build_iff ..).2 res)

/-- Settles O46, by running the decoder on each word. -/
theorem wordsDecode : Obligations.WordsDecode := by
  unfold Obligations.WordsDecode
  refine ⟨?_, ?_, ?_, ?_, ?_, ?_⟩ <;> rfl

end Sys2Proof.Proofs
end

section
/-! PROOFS. The step (R295): the engine's step over the words of `CM` as the host sees them; the return from a fault (R292)
and reset (R320) as steps of the host. -/

namespace Sys2Proof.Machine

open Sys2Proof.Safety

/-! ## The fetch -/

theorem State.fetch_of_decodes {s : State} {i : Instr} {rest : List Byte} (fetchOk : s.fetchOk = true)
    (decodes : decode s.fetched = .ok (i, rest)) : s.fetch = .ok i := by
  rw [State.fetch, if_pos fetchOk, decodes]

/-- A fetch is possible exactly at an aligned `CP` with a whole descriptor ahead (R34, R75). -/
theorem State.fetchOk_iff (s : State) : s.fetchOk = true ↔ s.cp.toNat % 4 = 0 ∧ s.cp.toNat + 4 ≤ s.cfg.cmSize := by
  simp [State.fetchOk]

theorem State.fetch_of_not_fetchOk {s : State} (h : s.fetchOk = false) : s.fetch = .error ⟨.fetch, s.cp.toNat⟩ :=
  if_neg (by simp [h])

/-- The words of the fetched descriptor are those the host reads at its place in `CM`. -/
theorem State.wordOf_drop_fetched (s : State) {j : Nat} (hj : j < 4) :
    wordOf (s.fetched.drop (4 * j)) = s.hostWord .cm (4 * (s.cp.toNat + j)) := by
  have split : s.fetched.drop (4 * j) =
      s.apertureBytes .cm (4 * s.cp.toNat + 4 * j) 4 ++ s.apertureBytes .cm (4 * s.cp.toNat + 4 * j + 4) (12 - 4 * j) := by
    have whole : s.fetched = s.apertureBytes .cm (4 * s.cp.toNat) (4 * j + (4 + (12 - 4 * j))) := by
      rw [show 4 * j + (4 + (12 - 4 * j)) = 16 by omega]
      rfl
    rw [whole, State.apertureBytes_add, State.apertureBytes_add]
    exact List.drop_left' (by simp)
  rw [split, State.hostWord_memory cm_ne_regs, Nat.mul_add, wordOf, wordOf, List.take_left' (by simp),
    List.take_of_length_le (by simp)]

/-- A fetch that is possible decodes four words of `CM`. -/
theorem State.fetch_eq_decodeWords {s : State} (fetchOk : s.fetchOk = true) :
    s.fetch = (decodeWords (s.hostWord .cm (4 * (s.cp.toNat + 0))) (s.hostWord .cm (4 * (s.cp.toNat + 1)))
      (s.hostWord .cm (4 * (s.cp.toNat + 2))) (s.hostWord .cm (4 * (s.cp.toNat + 3)))).mapError
        fun _ => ⟨.illegal, (s.hostWord .cm (4 * (s.cp.toNat + 0))).toNat⟩ := by
  have whole : ¬ s.fetched.length < 16 := by simp [State.fetched, State.descriptor]
  have w0 := s.wordOf_drop_fetched (j := 0) (by decide)
  have w1 := s.wordOf_drop_fetched (j := 1) (by decide)
  have w2 := s.wordOf_drop_fetched (j := 2) (by decide)
  have w3 := s.wordOf_drop_fetched (j := 3) (by decide)
  rw [Nat.mul_zero, List.drop_zero] at w0
  rw [State.fetch, if_pos fetchOk, decode, if_neg whole, w0, w1, w2, w3]
  cases decodeWords (s.hostWord .cm (4 * (s.cp.toNat + 0))) (s.hostWord .cm (4 * (s.cp.toNat + 1)))
    (s.hostWord .cm (4 * (s.cp.toNat + 2))) (s.hostWord .cm (4 * (s.cp.toNat + 3))) <;> rfl

/-! ## The engine step -/

theorem engineStep_of_fetch {s : State} {i : Instr} (fetch : s.fetch = .ok i) : engineStep s = exec i s := by
  rw [engineStep, fetch]

/-- A fetch that fails takes a precise fault (R286). -/
theorem engineStep_of_trap {s : State} {t : Trap} (fetch : s.fetch = .error t) : engineStep s = .next (s.raise t) := by
  have precise : t.code ≠ .alloc := by
    rcases s.fetch_cases with ⟨i, ok, -⟩ | ⟨q, err, code⟩
    · rw [ok] at fetch
      cases fetch
    · rw [err] at fetch
      cases fetch
      rcases code with code | code <;> simp [code]
  rw [engineStep, fetch]
  exact congrArg _ (State.takeFault_of_ne_alloc precise)

/-- The host's start of an idle engine without a fault is accepted (R41). -/
theorem step_of_start {s : State} {rest : List HostMove} (start : s.inbox = .write .regs 0x04 1 :: rest)
    (idle : s.run = false) (clear : s.fault = false) :
    step s = .next { s with done := false, run := true, inbox := rest, draws := s.draws + 1 } := by
  rw [step_of_hostWrite (congrArg List.head? start) rfl, State.regWrite_ctrl,
    State.writeCtrl_accepted (by decide) idle clear, start, List.tail_cons]

/-- With the host silent a step always gives a next state. -/
theorem step_next_of_silent {s : State} (silent : s.inbox = []) : ∃ t, step s = .next t := by
  cases run : s.run with
  | false => exact ⟨s, step_of_silent_idle silent run⟩
  | true =>
    rw [step_of_silent_run silent run]
    rcases engineStep_cases s with ⟨f, w, -, taken⟩ | ⟨i, u, -, completed, -⟩
    · exact ⟨_, congrArg tick taken⟩
    · exact ⟨_, congrArg tick completed⟩

end Sys2Proof.Machine

namespace Sys2Proof.Proofs

open Sys2Proof.Machine Sys2Proof.Safety

/-- Settles O1: both ways to the engine's turn lead to the engine step, which is the command fetched. -/
theorem stepRunsDecoded : Obligations.StepRunsDecoded := by
  unfold Obligations.StepRunsDecoded
  intro s i rest run fetchOk decodes
  have fetch := State.fetch_of_decodes fetchOk decodes
  refine ⟨fun silent => ?_, fun moves turn => ?_⟩
  · rw [step_of_silent_run silent run, engineStep_of_fetch fetch]
  · rw [step_of_engineRuns ⟨⟨run, .inr (by rw [turn, List.head?_cons])⟩, fetch⟩, turn, List.tail_cons]

/-- Settles O2, by the two faults of a fetch and the four words it decodes. -/
theorem engineStep : Obligations.EngineStep := by
  unfold Obligations.EngineStep
  refine ⟨fun s run silent => ?_, fun s silent => ⟨step_next_of_silent silent, step_of_silent_idle silent⟩⟩
  have turn := step_of_silent_run silent run
  refine ⟨fun fails => ?_, fun ⟨aligned, inside⟩ => ?_⟩
  · have notOk : s.fetchOk = false := by
      rw [← Bool.not_eq_true, s.fetchOk_iff]
      omega
    rw [turn, engineStep_of_trap (State.fetch_of_not_fetchOk notOk)]
  · have fetch := State.fetch_eq_decodeWords (s.fetchOk_iff.2 ⟨aligned, inside⟩)
    dsimp only
    cases decoded : decodeWords (s.hostWord .cm (4 * (s.cp.toNat + 0))) (s.hostWord .cm (4 * (s.cp.toNat + 1)))
      (s.hostWord .cm (4 * (s.cp.toNat + 2))) (s.hostWord .cm (4 * (s.cp.toNat + 3))) with
    | ok i =>
      rw [decoded] at fetch
      rw [turn, engineStep_of_fetch fetch]
    | error e =>
      rw [decoded] at fetch
      rw [turn, engineStep_of_trap fetch]

/-- Settles O32: a start is ignored while `FAULT` is set; the write of `STATUS` clears it, and the start is accepted. -/
theorem faultReturn : Obligations.FaultReturn := by
  unfold Obligations.FaultReturn
  refine fun s rest fault run => ⟨fun start => ?_, fun moves => ?_⟩
  · rw [step_of_hostWrite (congrArg List.head? start) rfl, State.regWrite_ctrl,
      State.writeCtrl_eq_self (.inr (.inr fault)), start, List.tail_cons]
  · have cleared : step s = .next { s with
        fault := false, fcode := .none, inbox := .write .regs 0x04 1 :: rest, draws := s.draws + 1 } := by
      have bits : bit 4#32 1 = false ∧ bit 4#32 2 = true ∧ bit 4#32 3 = false := by decide
      obtain ⟨done, clear, loglim⟩ := bits
      rw [step_of_hostWrite (congrArg List.head? moves) rfl, State.regWrite_status, State.writeStatus_eq, moves,
        List.tail_cons]
      simp [done, clear, loglim]
    have started : step { s with
        fault := false, fcode := .none, inbox := .write .regs 0x04 1 :: rest, draws := s.draws + 1 } =
        .next { s with
          fault := false, fcode := .none, done := false, run := true, inbox := rest, draws := s.draws + 2 } :=
      step_of_start rfl run rfl
    rw [core_run_of_step cleared, core_run_of_step started]
    rfl

/-- Settles O60: reset is one step, to the state the model names. -/
theorem resetMove : Obligations.ResetMove := by
  unfold Obligations.ResetMove
  intro s rest moves
  refine ⟨_, (step_of_move moves nofun).trans rfl, rfl, rfl, rfl, rfl, rfl, rfl, rfl, rfl, rfl, rfl, rfl, rfl, rfl, rfl,
    rfl, rfl, fun i => ?_, rfl⟩
  exact Vector.getElem_replicate i.isLt

end Sys2Proof.Proofs
end

section
/-! PROOFS. The invariant (R30, R36 to R39, R42, R50, R51, R294): its part about the data, kept by every effect of a command
and by every access of the host, and its part about the control fields. -/

namespace Sys2Proof.Machine

open Sys2Proof.Safety

/-! ## `DM` and the scalar registers -/

/-- The part of the invariant that an effect on the data can break. -/
structure DataOk (s : State) : Prop where
  dmWf : s.dm.wf
  dmWithin : s.dm.within (s.cfg.dmSize * fbytes s.cfg.fmt)
  regsNarrow : ∀ i : SReg, Narrow s.cfg.fmt (s.sreg i)

theorem DataOk.congr {s t : State} (h : DataOk s) (dm : t.dm = s.dm) (regs : t.regs = s.regs) (cfg : t.cfg = s.cfg) :
    DataOk t := by
  obtain ⟨wf, within, narrow⟩ := h
  refine ⟨dm ▸ wf, by rw [dm, cfg]; exact within, fun i => ?_⟩
  rw [State.sreg, regs, cfg]
  exact narrow i

theorem DataOk.storeDm {s : State} (h : DataOk s) {x : Nat} {bs : List Byte}
    (inside : x + bs.length ≤ s.cfg.dmSize * fbytes s.cfg.fmt) : DataOk { s with dm := s.dm.store x bs } :=
  ⟨Memory.wf_store h.dmWf .., Memory.within_store h.dmWithin inside, h.regsNarrow⟩

theorem DataOk.putSignal {s : State} (h : DataOk s) {a : Nat} {vs : List Elem} (inside : a + vs.length ≤ s.cfg.dmSize) :
    DataOk (s.putSignal a vs) := by
  refine h.storeDm ?_
  rw [length_flatMap_elemBytes, ← Nat.add_mul]
  exact Nat.mul_le_mul_right _ inside

theorem DataOk.putCx {s : State} (h : DataOk s) {a n : Nat} {zs : List Cx} (length : zs.length = n)
    (inside : a + 2 * n ≤ s.cfg.dmSize) : DataOk (s.putCx a zs) :=
  h.putSignal (by rwa [length_interleave, length])

theorem DataOk.putIf {s : State} (h : DataOk s) {selected : Bool} {a : Nat} {x : List Elem}
    (inside : selected = true → a + x.length ≤ s.cfg.dmSize) : DataOk (s.putIf selected a x) := by
  cases selected with
  | false => exact h
  | true => exact h.putSignal (inside rfl)

theorem DataOk.setSreg {s : State} (h : DataOk s) (i : SReg) {v : Elem} (inFormat : Narrow s.cfg.fmt v) :
    DataOk (s.setSreg i v) := by
  refine ⟨h.dmWf, h.dmWithin, fun j => ?_⟩
  by_cases same : i = j
  · subst same
    rwa [State.sreg_setSreg_same]
  · rw [State.sreg_setSreg_of_ne s v same]
    exact h.regsNarrow j

theorem DataOk.takeFault {s : State} (h : DataOk s) (f : Trap) (w : Wreck) : DataOk (s.takeFault f w) := by
  by_cases alloc : f.code = .alloc
  · rw [State.takeFault_of_alloc alloc]
    exact ⟨forgetRanges_wf h.dmWf _, forgetRanges_within h.dmWithin _, h.regsNarrow⟩
  · rw [State.takeFault_of_ne_alloc alloc]
    exact h.congr rfl rfl rfl

/-- A command keeps the data in order when its effect does where its checks pass. -/
theorem DataOk.command {s t : State} (h : DataOk s) {trap : Option Trap} {w : Wreck} {effect : State → State}
    (runs : s.command trap w effect = .next t) (keeps : trap = none → DataOk (effect s)) : DataOk t := by
  rcases State.command_cases runs with ⟨f, -, rfl⟩ | ⟨passed, rfl⟩
  · exact h.takeFault f w
  · exact (keeps passed).congr rfl rfl rfl

/-! ## The effects -/

@[simp] theorem length_fwd2 (f : Fmt) (n : Nat) (zs : List Cx) : (fwd2 f n zs).length = n := by simp [fwd2, xform2]

@[simp] theorem length_inv2 (f : Fmt) (n : Nat) (zs : List Cx) : (inv2 f n zs).length = n := by
  simp [inv2, scaleBy, xform2]

/-- A transform in place, of a datapath that keeps the length. -/
theorem DataOk.transform {s t : State} (h : DataOk s) {pow2 : Bool} {w : Wreck} {tr : Fmt → Nat → List Cx → List Cx}
    {n a : Nat} (length : ∀ f zs, (tr f n zs).length = n)
    (runs : s.command (fftTrap pow2 s.cfg n a) w (fun s => s.transform tr n a) = .next t) : DataOk t := by
  refine h.command runs fun passed => ?_
  obtain ⟨-, -, -, inside, -⟩ := fftTrap_eq_none.1 passed
  exact (h.putCx (length _ _) inside).congr rfl rfl rfl

/-- A stage command: where its checks pass its buffer lies inside `DM`. -/
theorem DataOk.buffer {s t : State} (h : DataOk s) {w : Wreck} {effect : State → State} {n a : Nat}
    (runs : s.command (bufferTrap s.cfg n a) w effect = .next t)
    (keeps : a + 2 * n ≤ s.cfg.dmSize → DataOk (effect s)) : DataOk t := by
  refine h.command runs fun passed => ?_
  obtain ⟨-, -, inside⟩ := bufferTrap_eq_none.1 passed
  exact keeps inside

theorem DataOk.twoBuffers {s t : State} (h : DataOk s) {w : Wreck} {n a b : Nat} {zs : State → List Cx}
    (length : (zs s).length = n)
    (runs : s.command (twoBufferTrap s.cfg n a b) w (fun s => s.putCx a (zs s)) = .next t) : DataOk t := by
  refine h.command runs fun passed => ?_
  obtain ⟨-, -, inside, -⟩ := twoBufferTrap_eq_none.1 passed
  exact h.putCx length inside

@[simp] theorem length_realPart {n : Nat} {zs : List Cx} (h : n ≤ zs.length) : (realPart n zs).length = n := by
  simp [realPart, h]

theorem length_realPart_le (n : Nat) (zs : List Cx) : (realPart n zs).length ≤ n := by simp [realPart]

@[simp] theorem State.putIf_cfg (s : State) (selected : Bool) (a : Nat) (x : List Elem) :
    (s.putIf selected a x).cfg = s.cfg := by
  cases selected <;> rfl

theorem DataOk.decompose {s t : State} (h : DataOk s) {w : Wreck} {o : HdOpts} {hilbert : Bool} {n a b : Nat}
    (runs : s.command (hdTrap s.cfg o n a b) w (fun s => s.decompose o hilbert n a b) = .next t) : DataOk t := by
  refine h.command runs fun passed => ?_
  obtain ⟨-, -, -, ⟨minimum, excess⟩, -⟩ := hdTrap_eq_none.1 passed
  refine DataOk.congr (DataOk.putIf (h.putIf fun selected => ?_) fun selected => ?_) rfl rfl rfl
  · have fits := minimum selected
    have length := length_realPart_le n (inv s.cfg.fmt (HdOpts.size o n) (minPhaseSpectrum s.cfg.fmt (HdOpts.size o n)
      hilbert (spectrumOf s.cfg.fmt (HdOpts.size o n) (s.signal a n))))
    unfold minPhaseSignal
    omega
  · have fits := excess selected
    rw [State.putIf_cfg]
    have length := length_realPart_le n (inv s.cfg.fmt (HdOpts.size o n) (List.zipWith (xphBin s.cfg.fmt)
      (spectrumOf s.cfg.fmt (HdOpts.size o n) (s.signal a n)) (minPhaseSpectrum s.cfg.fmt (HdOpts.size o n) hilbert
      (spectrumOf s.cfg.fmt (HdOpts.size o n) (s.signal a n)))))
    unfold excessPhaseSignal
    omega

theorem DataOk.shape {s t : State} (h : DataOk s) {w : Wreck} {o : MsOpts} {n a b : Nat}
    {mk : State → Nat → List Cx → List ShapedBin}
    (runs : s.command (msTrap s.cfg o n a b) w (fun s => s.shape o n a b (mk s)) = .next t) : DataOk t := by
  refine h.command runs fun passed => ?_
  obtain ⟨-, -, -, fits, -⟩ := msTrap_eq_none.1 passed
  refine (h.putSignal ((Nat.add_le_add_left (length_realPart_le n _) b).trans fits)).congr rfl rfl rfl

theorem Narrow_blrms (f : Fmt) (direct fs : Nat) (p : BandParams) (x : List Cx) : Narrow f (blrms f direct fs p x) := by
  unfold blrms
  split
  · exact Narrow_fzero f
  · dsimp only
    split
    · exact Narrow_fzero f
    split
    · exact Narrow_fsqrt ..
    · exact Narrow_fzero f

theorem Narrow_immediate (f : Fmt) (lo hi : Word) : Narrow f (immediate f lo hi) := by
  have := lo.isLt
  cases f
  · exact (immediate .binary64 lo hi).isLt
  · simp only [Narrow, immediate, fwidth, BitVec.toNat_ofNat]
    omega

/-- Every command keeps the data in order. -/
theorem DataOk.of_exec {s t : State} (h : DataOk s) {i : Instr} (next : exec i s = .next t) : DataOk t := by
  cases i with
  | nop | endList =>
    cases next
    exact h.congr rfl rfl rfl
  | sets r lo hi =>
    by_cases register : r.toNat < 11
    · rw [exec_sets_of_lt register] at next
      cases next
      exact (h.setSreg _ (Narrow_immediate ..)).congr rfl rfl rfl
    · rw [exec_sets_of_ge (Nat.le_of_not_lt register)] at next
      cases next
      exact h.takeFault ..
  | fftFwd n a => exact h.transform (fun f => length_fwd f _) next
  | fftInv n a => exact h.transform (fun f => length_inv f _) next
  | fftFwdP2 n a => exact h.transform (fun f => length_fwd2 f _) next
  | fftInvP2 n a => exact h.transform (fun f => length_inv2 f _) next
  | cepLog n a =>
    rw [exec, execCepLog] at next
    exact h.buffer next fun inside => (h.putCx (by simp) inside).congr rfl rfl rfl
  | cepFold n a =>
    rw [exec, execCepFold] at next
    exact h.buffer next fun inside => h.putCx (by simp) inside
  | cepExp n a =>
    rw [exec, execCepExp] at next
    exact h.buffer next fun inside => h.putCx (by simp) inside
  | cepPol n a b =>
    exact h.twoBuffers (zs := fun s => List.zipWith (polBin s.cfg.fmt) (s.cxBuffer a.toNat n.toNat)
      (s.cxBuffer b.toNat n.toNat)) (by simp) next
  | cepXph n a b =>
    exact h.twoBuffers (zs := fun s => List.zipWith (xphBin s.cfg.fmt) (s.cxBuffer a.toNat n.toNat)
      (s.cxBuffer b.toNat n.toNat)) (by simp) next
  | hdDec o n a b => exact h.decompose next
  | hdDech o n a b => exact h.decompose next
  | msRms n a =>
    rw [exec, execMsRms] at next
    exact h.buffer next fun _ => h.setSreg _ (Narrow_blrms ..)
  | msDip o n a b => exact h.shape next
  | msPeak o n a b => exact h.shape next
  | msFlat o n a b => exact h.shape next
  | msDipLegacy o n a b | msPeakLegacy o n a b =>
    cases next
    exact h.takeFault ..

/-! ## The host's accesses -/

theorem DataOk.writeWindow {s : State} (h : DataOk s) (i : SReg) (high : Bool) (w : Word) :
    DataOk (s.writeWindow i high w) := by
  have low : BitVec.ofNat 64 w.toNat = immediate .binary32 w w := rfl
  unfold State.writeWindow
  split
  · exact h.congr rfl rfl rfl
  · rename_i fmt
    exact h.setSreg i (fmt ▸ Narrow_immediate ..)
  · rename_i fmt
    rw [low]
    exact h.setSreg i (fmt ▸ Narrow_immediate ..)
  · exact h

/-- An access that is made lies inside its aperture. -/
theorem State.inAperture_of_denied {s : State} {r : Region} {off k : Nat} (h : s.denied r off k = none) :
    s.inAperture r off k = true := by
  unfold State.denied at h
  split_ifs at h
  assumption

end Sys2Proof.Machine

namespace Sys2Proof.Safety

open Sys2Proof.Machine

/-! ## The invariant -/

theorem Inv.dataOk {s : State} (h : Inv s) : DataOk s := ⟨h.dmWf, h.dmWithin, h.regsNarrow⟩

/-- What a step leaves of the control fields, once the data is in order. -/
theorem Inv.of_control {s t : State} (h : Inv s) (data : DataOk t) (cfg : t.cfg = s.cfg) (cm : t.cm = s.cm)
    (ie : t.ie = s.ie) (running : t.run = true → t.fault = false ∧ t.done = false)
    (code : t.fault = true ↔ t.fcode ≠ .none) : Inv t where
  params := cfg ▸ h.params
  dmWf := data.dmWf
  dmWithin := data.dmWithin
  cmWf := cm ▸ h.cmWf
  cmWithin := by rw [cm, cfg]; exact h.cmWithin
  runNotFaulted r := (running r).1
  runNotDone r := (running r).2
  codeOfFault := code
  ieBits := ie ▸ h.ieBits
  regsNarrow := data.regsNarrow

/-- The fields of control as they were. -/
theorem Inv.running {s : State} (h : Inv s) (run : s.run = true) : s.fault = false ∧ s.done = false :=
  ⟨h.runNotFaulted run, h.runNotDone run⟩

/-- A step that changes neither the control fields nor `CM` keeps the invariant when it keeps the data in order. -/
theorem Inv.of_data {s t : State} (h : Inv s) (data : DataOk t) (cfg : t.cfg = s.cfg) (cm : t.cm = s.cm)
    (ie : t.ie = s.ie) (run : t.run = s.run) (done : t.done = s.done) (fault : t.fault = s.fault)
    (fcode : t.fcode = s.fcode) : Inv t :=
  h.of_control data cfg cm ie (by rw [run, done, fault]; exact h.running) (by rw [fault, fcode]; exact h.codeOfFault)

/-- The model's own fields are no part of the invariant. -/
theorem Inv.of_own {s : State} (h : Inv s) (d : Nat) (m : List HostMove) (w : Word) :
    Inv { s with draws := d, inbox := m, hostData := w } :=
  h.of_data (h.dataOk.congr rfl rfl rfl) rfl rfl rfl rfl rfl rfl rfl

theorem Inv.takeFault {s : State} (h : Inv s) {f : Trap} (code : f.code ≠ .none) (w : Wreck) : Inv (s.takeFault f w) :=
  h.of_control (h.dataOk.takeFault f w) (by simp) (by simp) (by simp) (by simp) (by simpa using code)

theorem Inv.completes {i : Instr} {s t : State} (h : Inv s) (done : Completes i s t) (data : DataOk t) : Inv t := by
  refine h.of_control data done.kept.cfg done.kept.cm done.kept.ie (fun run => ?_) ?_
  · have goesOn : i ≠ .endList := by
      intro ends
      simp [(done.endList ends).1] at run
    rw [done.run goesOn] at run
    rw [done.fault, done.done goesOn]
    exact h.running run
  · rw [done.fault, done.fcode]
    exact h.codeOfFault

theorem Inv.of_exec {i : Instr} {s t : State} (h : Inv s) (next : exec i s = .next t) : Inv t := by
  rcases exec_cases i s with ⟨f, w, code, taken⟩ | ⟨u, completed, done⟩
  · cases next.symm.trans taken
    exact h.takeFault code w
  · cases next.symm.trans completed
    exact h.completes done (h.dataOk.of_exec next)

theorem Inv.of_engineStep {s t : State} (h : Inv s) (next : engineStep s = .next t) : Inv t := by
  rw [engineStep] at next
  rcases s.fetch_cases with ⟨i, fetch, -⟩ | ⟨f, fetch, code⟩
  · rw [fetch] at next
    exact h.of_exec next
  · rw [fetch] at next
    cases next
    exact h.takeFault (by rcases code with code | code <;> simp [code]) _

/-! ## The host -/

theorem Inv.regWrite {s : State} (h : Inv s) (off : Nat) (w : Word) : Inv (s.regWrite off w) := by
  have data := h.dataOk
  rcases s.regWrite_cases off w with ⟨rfl, e⟩ | ⟨rfl, e⟩ | ⟨rfl, e⟩ | ⟨rfl, e⟩ | ⟨other, e⟩
  · rw [e]
    by_cases accepted : bit w 0 = true ∧ s.run = false ∧ s.fault = false
    · obtain ⟨hw, idle, clear⟩ := accepted
      rw [State.writeCtrl_accepted hw idle clear]
      exact h.of_control (data.congr rfl rfl rfl) rfl rfl rfl (fun _ => ⟨clear, rfl⟩) h.codeOfFault
    · rw [State.writeCtrl_eq_self (by grind)]
      exact h
  · rw [e, State.writeStatus_eq]
    refine h.of_control (data.congr rfl rfl rfl) rfl rfl rfl (fun run => ?_) ?_
    · obtain ⟨fault, done⟩ := h.running run
      simp [fault, done]
    · cases clear : bit w 2 <;> simp [h.codeOfFault]
  · rw [e]
    have masked : w &&& 0xE#32 &&& 0xE#32 = w &&& 0xE#32 := by rw [BitVec.and_assoc, BitVec.and_self]
    exact { h with dmWf := h.dmWf, ieBits := masked }
  · rw [e]
    split
    · exact h
    · exact h.of_data (data.congr rfl rfl rfl) rfl rfl rfl rfl rfl rfl rfl
  · have kept : DataOk (s.regWrite off w) := by
      cases window : sWindow off with
      | none => rwa [State.regWrite_ignored window other]
      | some place =>
        obtain ⟨i, high⟩ := place
        rw [State.regWrite_window window]
        split
        · exact data
        · exact data.writeWindow i high w
    rw [e] at kept ⊢
    exact h.of_data kept rfl rfl rfl rfl rfl rfl rfl

theorem Inv.putBytes {s : State} (h : Inv s) {r : Region} {off : Nat} {bs : List Byte}
    (inside : s.inAperture r off bs.length = true) : Inv (s.putBytes r off bs) := by
  cases r with
  | regs => exact h
  | dm =>
    have inside : off + bs.length ≤ s.cfg.dmSize * fbytes s.cfg.fmt := of_decide_eq_true inside
    exact h.of_data (h.dataOk.storeDm inside) rfl rfl rfl rfl rfl rfl rfl
  | cm =>
    have inside : off + bs.length ≤ s.cfg.cmSize * 4 := of_decide_eq_true inside
    exact { h with cmWf := Memory.wf_store h.cmWf .., cmWithin := Memory.within_store h.cmWithin inside }

theorem Inv.putWord {s : State} (h : Inv s) {r : Region} {off : Nat} {w : Word}
    (inside : s.inAperture r off 4 = true) : Inv (s.putWord r off w) := by
  cases r with
  | regs => exact h.regWrite off w
  | dm => exact h.putBytes (r := .dm) (bs := leBytes 4 w.toNat) (by rwa [length_leBytes])
  | cm => exact h.putBytes (r := .cm) (bs := leBytes 4 w.toNat) (by rwa [length_leBytes])

/-- Reset leads to the invariant under every configuration that R10 allows. -/
theorem inv_afterReset {s : State} (params : s.cfg.Ok) : Inv s.afterReset where
  params := params
  dmWf := List.Pairwise.nil
  dmWithin := nofun
  cmWf := List.Pairwise.nil
  cmWithin := nofun
  runNotFaulted := nofun
  runNotDone := nofun
  codeOfFault := by simp [State.afterReset, State.reset]
  ieBits := by simp [State.afterReset, State.reset]
  regsNarrow i := by
    have zero : s.afterReset.sreg i = 0 := Vector.getElem_replicate i.isLt
    rw [zero]
    exact Narrow_fzero _

end Sys2Proof.Safety

namespace Sys2Proof.Proofs

open Sys2Proof.Machine Sys2Proof.Safety

/-- Settles O40, by what a step can do: the engine's command or fault, the host's access, reset. -/
theorem invStep : Obligations.InvStep := by
  unfold Obligations.InvStep
  intro s t h next
  have moved : Inv { s with inbox := s.inbox.tail } := h.of_own s.draws s.inbox.tail s.hostData
  rcases step_cases next with ⟨-, -, u, engine, rfl⟩ | ⟨-, -, rfl⟩ | ⟨r, off, w, -, made, rfl⟩ | ⟨r, off, b, -, made, rfl⟩ |
    ⟨w, rfl, -⟩ | ⟨-, rfl⟩
  · exact (moved.of_engineStep engine).of_own ..
  · exact moved
  · exact (moved.putWord (State.inAperture_of_denied made)).of_own ..
  · exact (moved.putBytes (bs := [b]) (State.inAperture_of_denied made)).of_own ..
  · exact h.of_own ..
  · exact (inv_afterReset (s := { s with inbox := s.inbox.tail }) h.params).of_own ..

/-- Settles O41: the state after reset is that which the reset move leads to, under R10's parameters. -/
theorem invReset : Obligations.InvReset := by
  unfold Obligations.InvReset
  exact inv_afterReset (s := State.reset) (by decide)

end Sys2Proof.Proofs
end

section
/-! PROOFS. What commands leave: the frame of every command (R72), the sticky notice `LOGLIM` (R40), what an `E_ALLOC` leaves
(R184, R287); and the checks of the decompositions and the reshaping commands in their order (R207, R236). -/

namespace Sys2Proof.Machine

open Sys2Proof.Safety

/-! ## The scalar registers -/

theorem State.regs_of_command {s t : State} {trap : Option Trap} {w : Wreck} {effect : State → State}
    (runs : s.command trap w effect = .next t) (keeps : (effect s).regs = s.regs) : t.regs = s.regs := by
  rcases State.command_cases runs with ⟨f, -, rfl⟩ | ⟨-, rfl⟩
  · exact State.takeFault_regs ..
  · exact keeps

@[simp] theorem State.decompose_regs (s : State) (o : HdOpts) (hilbert : Bool) (n a b : Nat) :
    (s.decompose o hilbert n a b).regs = s.regs := by
  obtain ⟨nopad, mexp, omp, oep⟩ := o
  cases omp <;> cases oep <;> rfl

/-- A command leaves every scalar register but the one that a `SETS` names and the `LEVEL` of an `MS.RMS`. -/
theorem regs_of_exec {i : Instr} {s t : State} (next : exec i s = .next t) :
    t.regs = s.regs ∨
      (∃ (r : SReg) (lo hi : Word), i = .sets (BitVec.ofNat 4 r.val) lo hi ∧ ∃ v, t.regs = s.regs.set r v) ∨
      ∃ n a, i = .msRms n a ∧ ∃ v, t.regs = s.regs.set regLevel v := by
  cases i with
  | nop | endList =>
    cases next
    exact .inl rfl
  | sets r lo hi =>
    by_cases register : r.toNat < 11
    · rw [exec_sets_of_lt register] at next
      cases next
      refine .inr (.inl ⟨⟨r.toNat, register⟩, lo, hi, ?_, _, rfl⟩)
      rw [BitVec.ofNat_toNat, BitVec.setWidth_eq]
    · rw [exec_sets_of_ge (Nat.le_of_not_lt register)] at next
      cases next
      exact .inl (State.takeFault_regs ..)
  | msRms n a =>
    rw [exec, execMsRms] at next
    rcases State.command_cases next with ⟨f, -, rfl⟩ | ⟨-, rfl⟩
    · exact .inl (State.takeFault_regs ..)
    · exact .inr (.inr ⟨n, a, rfl, _, rfl⟩)
  | fftFwd n a => exact .inl (State.regs_of_command (effect := fun s => s.transform fwd ..) next rfl)
  | fftInv n a => exact .inl (State.regs_of_command (effect := fun s => s.transform inv ..) next rfl)
  | fftFwdP2 n a => exact .inl (State.regs_of_command (effect := fun s => s.transform fwd2 ..) next rfl)
  | fftInvP2 n a => exact .inl (State.regs_of_command (effect := fun s => s.transform inv2 ..) next rfl)
  | cepLog n a => rw [exec, execCepLog] at next; exact .inl (State.regs_of_command next rfl)
  | cepFold n a => rw [exec, execCepFold] at next; exact .inl (State.regs_of_command next rfl)
  | cepExp n a => rw [exec, execCepExp] at next; exact .inl (State.regs_of_command next rfl)
  | cepPol n a b => rw [exec, execCepPol] at next; exact .inl (State.regs_of_command next rfl)
  | cepXph n a b => rw [exec, execCepXph] at next; exact .inl (State.regs_of_command next rfl)
  | hdDec o n a b => rw [exec, execHdDec] at next; exact .inl (State.regs_of_command next (State.decompose_regs ..))
  | hdDech o n a b => rw [exec, execHdDech] at next; exact .inl (State.regs_of_command next (State.decompose_regs ..))
  | msDip o n a b => rw [exec, execMsDip] at next; exact .inl (State.regs_of_command next rfl)
  | msPeak o n a b => rw [exec, execMsPeak] at next; exact .inl (State.regs_of_command next rfl)
  | msFlat o n a b => rw [exec, execMsFlat] at next; exact .inl (State.regs_of_command next rfl)
  | msDipLegacy o n a b | msPeakLegacy o n a b =>
    cases next
    exact .inl (State.takeFault_regs ..)

/-! ## `LOGLIM` (R40) -/

/-- `i` is a command that can give the notice, or one whose `E_ALLOC` in `t` leaves the bit open (log 7). -/
def CanNotice (i : Instr) (t : State) : Prop :=
  (∃ n a, i = .cepLog n a) ∨ (∃ o n a b, i ∈ [Instr.hdDec o n a b, .hdDech o n a b]) ∨
    ∃ o n a b, i ∈ [Instr.msDip o n a b, .msPeak o n a b, .msFlat o n a b] ∧ (o.pm = true ∨ t.fcode = .alloc)

/-- A command keeps the bit unless its wreck leaves it open or its effect sets it. -/
theorem State.loglim_of_command {s t : State} {trap : Option Trap} {w : Wreck} {effect : State → State}
    (runs : s.command trap w effect = .next t) :
    t.loglim = s.loglim ∨ (w.canLog = true ∧ t.fcode = .alloc ∧ t.loglim = true) ∨ t = (effect s).advance := by
  rcases State.command_cases runs with ⟨f, -, rfl⟩ | ⟨-, rfl⟩
  · by_cases alloc : f.code = .alloc
    · rw [State.takeFault_of_alloc alloc, State.raise_loglim, State.wreck_loglim]
      cases s.loglim <;> cases canLog : w.canLog <;> cases Config.freeFlag .loglim s.draws <;> simp [alloc]
    · rw [State.takeFault_of_ne_alloc alloc]
      exact .inl rfl
  · exact .inr (.inr rfl)

/-- A command that gives no notice keeps the bit. -/
theorem State.loglim_of_silent {s t : State} {trap : Option Trap} {w : Wreck} {effect : State → State}
    (runs : s.command trap w effect = .next t) (closed : w.canLog = false) (silent : (effect s).loglim = s.loglim) :
    t.loglim = s.loglim := by
  rcases State.loglim_of_command runs with kept | ⟨canLog, -⟩ | rfl
  · exact kept
  · simp [closed] at canLog
  · exact silent

theorem State.decompose_loglim (s : State) (o : HdOpts) (hilbert : Bool) (n a b : Nat) :
    (s.decompose o hilbert n a b).loglim = (s.loglim ||
      (spectrumOf s.cfg.fmt (HdOpts.size o n) (s.signal a n)).any (logClamps s.cfg.fmt)) := by
  obtain ⟨nopad, mexp, omp, oep⟩ := o
  cases omp <;> cases oep <;> rfl

/-- A decomposition keeps the bit or sets it. -/
theorem State.loglim_of_decompose {s t : State} {trap : Option Trap} {w : Wreck} {o : HdOpts} {hilbert : Bool} {n a b : Nat}
    (runs : s.command trap w (fun s => s.decompose o hilbert n a b) = .next t) :
    t.loglim = s.loglim ∨ t.loglim = true := by
  rcases State.loglim_of_command runs with kept | ⟨-, -, set⟩ | rfl
  · exact .inl kept
  · exact .inr set
  · rw [State.advance_loglim, State.decompose_loglim]
    cases s.loglim <;> cases (spectrumOf s.cfg.fmt (HdOpts.size o n) (s.signal a n)).any (logClamps s.cfg.fmt) <;> simp

/-- A reshaping command keeps the bit, or sets it in the minimum-phase mode or where an `E_ALLOC` leaves it open. -/
theorem State.loglim_of_shape {s t : State} {trap : Option Trap} {w : Wreck} {o : MsOpts} {n a b : Nat}
    {mk : State → Nat → List Cx → List ShapedBin}
    (runs : s.command trap w (fun s => s.shape o n a b (mk s)) = .next t) :
    t.loglim = s.loglim ∨ t.loglim = true ∧ (o.pm = true ∨ t.fcode = .alloc) := by
  rcases State.loglim_of_command runs with kept | ⟨-, alloc, set⟩ | rfl
  · exact .inl kept
  · exact .inr ⟨set, .inr alloc⟩
  · rw [State.advance_loglim, State.shape, State.cacheSize_loglim, State.notice_loglim, State.putSignal_loglim,
      reshapeClamps]
    cases o.pm with
    | false => simp
    | true =>
      cases s.loglim <;>
        cases (mk s (MsOpts.size o n) (spectrumOf s.cfg.fmt (MsOpts.size o n) (s.signal a n))).any
          (ShapedBin.clamps s.cfg.fmt) <;> simp

/-- A command keeps `LOGLIM`, or sets it and is one that can. -/
theorem loglim_of_exec {i : Instr} {s t : State} (next : exec i s = .next t) :
    t.loglim = s.loglim ∨ t.loglim = true ∧ CanNotice i t := by
  cases i with
  | nop | endList =>
    cases next
    exact .inl rfl
  | sets r lo hi =>
    by_cases register : r.toNat < 11
    · rw [exec_sets_of_lt register] at next
      cases next
      exact .inl rfl
    · rw [exec_sets_of_ge (Nat.le_of_not_lt register), State.takeFault_of_ne_alloc (by simp)] at next
      cases next
      exact .inl rfl
  | cepLog n a =>
    rw [exec, execCepLog] at next
    rcases State.loglim_of_command next with kept | ⟨canLog, -⟩ | rfl
    · exact .inl kept
    · cases canLog
    · rw [State.advance_loglim, State.stage, State.notice_loglim, State.putCx_loglim]
      cases s.loglim <;> cases (s.cxBuffer a.toNat n.toNat).any (logClamps s.cfg.fmt) <;> simp [CanNotice]
  | hdDec o n a b =>
    rw [exec, execHdDec] at next
    exact (State.loglim_of_decompose next).imp_right fun set => ⟨set, .inr (.inl ⟨o, n, a, b, by simp⟩)⟩
  | hdDech o n a b =>
    rw [exec, execHdDech] at next
    exact (State.loglim_of_decompose next).imp_right fun set => ⟨set, .inr (.inl ⟨o, n, a, b, by simp⟩)⟩
  | msDip o n a b =>
    exact (State.loglim_of_shape (mk := State.dipBins) next).imp_right fun ⟨set, mode⟩ =>
      ⟨set, .inr (.inr ⟨o, n, a, b, by simp, mode⟩)⟩
  | msPeak o n a b =>
    exact (State.loglim_of_shape (mk := State.peakBins) next).imp_right fun ⟨set, mode⟩ =>
      ⟨set, .inr (.inr ⟨o, n, a, b, by simp, mode⟩)⟩
  | msFlat o n a b =>
    exact (State.loglim_of_shape (mk := State.flatBins) next).imp_right fun ⟨set, mode⟩ =>
      ⟨set, .inr (.inr ⟨o, n, a, b, by simp, mode⟩)⟩
  | fftFwd n a => rw [exec, execFftFwd] at next; exact .inl (State.loglim_of_silent next rfl rfl)
  | fftInv n a => rw [exec, execFftInv] at next; exact .inl (State.loglim_of_silent next rfl rfl)
  | fftFwdP2 n a => rw [exec, execFftFwdP2] at next; exact .inl (State.loglim_of_silent next rfl rfl)
  | fftInvP2 n a => rw [exec, execFftInvP2] at next; exact .inl (State.loglim_of_silent next rfl rfl)
  | cepFold n a => rw [exec, execCepFold] at next; exact .inl (State.loglim_of_silent next rfl rfl)
  | cepExp n a => rw [exec, execCepExp] at next; exact .inl (State.loglim_of_silent next rfl rfl)
  | cepPol n a b => rw [exec, execCepPol] at next; exact .inl (State.loglim_of_silent next rfl rfl)
  | cepXph n a b => rw [exec, execCepXph] at next; exact .inl (State.loglim_of_silent next rfl rfl)
  | msRms n a => rw [exec, execMsRms] at next; exact .inl (State.loglim_of_silent next rfl rfl)
  | msDipLegacy o n a b =>
    rw [exec_of_legacy (.inl ⟨o, n, a, b, rfl⟩), State.takeFault_of_ne_alloc (by simp)] at next
    cases next
    exact .inl rfl
  | msPeakLegacy o n a b =>
    rw [exec_of_legacy (.inr ⟨o, n, a, b, rfl⟩), State.takeFault_of_ne_alloc (by simp)] at next
    cases next
    exact .inl rfl

/-- Everything that can happen to `LOGLIM` in a step. -/
theorem loglim_of_step {s t : State} (next : step s = .next t) :
    t.loglim = s.loglim ∨ (∃ i, EngineRuns s i ∧ t.loglim = true ∧ CanNotice i t) ∨
      (∃ w, HostWrites s 0x08 w ∧ t.loglim = (s.loglim && !bit w 3)) ∨ (Resets s ∧ t.loglim = false) := by
  rcases step_cases next with ⟨turn, run, u, engine, rfl⟩ | ⟨-, -, rfl⟩ | ⟨r, off, w, moves, -, rfl⟩ |
    ⟨r, off, b, -, -, rfl⟩ | ⟨w, rfl, -⟩ | ⟨moves, rfl⟩
  · cases fetch : s.fetch with
    | ok i =>
      rw [engineStep_of_fetch (s := { s with inbox := s.inbox.tail }) fetch] at engine
      exact (loglim_of_exec engine).imp_right fun ⟨set, can⟩ => .inl ⟨i, ⟨⟨run, turn⟩, fetch⟩, set, can⟩
    | error f =>
      rw [engineStep_of_trap (s := { s with inbox := s.inbox.tail }) fetch] at engine
      cases engine
      exact .inl rfl
  · exact .inl rfl
  · cases r with
    | dm | cm => exact .inl rfl
    | regs =>
      simp only [State.putWord, State.regWrite_inbox]
      rcases s.regWrite_cases off w with ⟨rfl, e⟩ | ⟨rfl, e⟩ | ⟨rfl, e⟩ | ⟨rfl, e⟩ | ⟨-, e⟩
      · rw [e, State.writeCtrl]
        split <;> exact .inl rfl
      · rw [e, State.writeStatus_eq]
        exact .inr (.inr (.inl ⟨w, moves, rfl⟩))
      · rw [e]
        exact .inl rfl
      · rw [e]
        split <;> exact .inl rfl
      · rw [e]
        exact .inl rfl
  · cases r <;> exact .inl rfl
  · exact .inl rfl
  · exact .inr (.inr (.inr ⟨moves, rfl⟩))

/-! ## What an `E_ALLOC` leaves (R287) -/

/-- A command that takes an `E_ALLOC` does so after its wreck. -/
theorem State.alloc_of_command {s t : State} {trap : Option Trap} {w : Wreck} {effect : State → State}
    (runs : s.command trap w effect = .next t) (quiet : Quiet s (effect s)) (clear : s.fault = false)
    (fault : t.fault = true) (alloc : t.fcode = .alloc) : ∃ info, t = (s.wreck w).raise ⟨.alloc, info⟩ := by
  rcases State.command_cases runs with ⟨f, -, rfl⟩ | ⟨-, rfl⟩
  · rw [State.takeFault_fcode] at alloc
    rw [State.takeFault_of_alloc alloc, ← alloc]
    exact ⟨f.info, rfl⟩
  · have kept := (quiet.completes (i := .nop) nofun).fault
    rw [kept, clear] at fault
    cases fault

/-- The fields that an `E_ALLOC` leaves open, as its wreck has them. -/
theorem State.allocEntry_wreck (s : State) (w : Wreck) (info : Nat) :
    let t := (s.wreck w).raise ⟨.alloc, info⟩
    AllocEntry s t info ∧ (t.twN = s.twN ∨ t.twN = BitVec.ofNat 32 w.size) ∧ (s.loglim = true → t.loglim = true) := by
  refine ⟨rfl, ?_, fun set => by simp [set]⟩
  simp only [State.raise_twN, State.wreck_twN]
  split
  · exact .inr rfl
  · exact .inl rfl

/-- A wreck of one range leaves the bytes outside it. -/
theorem State.bytesKept_wreck (s : State) (a n size info : Nat) (canLog : Bool) :
    BytesKept s ((s.wreck ⟨[(a, n)], size, canLog⟩).raise ⟨.alloc, info⟩) a n := by
  intro x outside
  refine get?_forgetRanges_outside s.dm fun r mem => ?_
  obtain rfl := List.mem_singleton.1 mem
  rwa [← Nat.add_mul]

/-- The wreck of a decomposition leaves the bytes outside the selected outputs. -/
theorem State.outputsOnly_wreck (s : State) (o : HdOpts) (n b info : Nat) :
    OutputsOnly s ((s.wreck (hdWreck o n b)).raise ⟨.alloc, info⟩) o b n := by
  intro x minimum excess
  refine get?_forgetRanges_outside s.dm fun r mem => ?_
  rw [hdWreck, List.mem_append] at mem
  rcases mem with mem | mem
  · cases selected : o.omp <;> simp only [selected, Bool.false_eq_true, if_false, if_true, List.mem_singleton,
      List.not_mem_nil] at mem
    subst mem
    rw [← Nat.add_mul]
    exact minimum selected
  · cases selected : o.oep <;> simp only [selected, Bool.false_eq_true, if_false, if_true, List.mem_singleton,
      List.not_mem_nil] at mem
    subst mem
    rw [← Nat.add_mul, show b + n + n = b + 2 * n by omega]
    exact excess selected

theorem exec_hd {i : Instr} {o : HdOpts} {n a b : Word} (hi : i ∈ [Instr.hdDec o n a b, .hdDech o n a b]) (s : State) :
    ∃ hilbert, exec i s = s.command (hdTrap s.cfg o n.toNat a.toNat b.toNat) (hdWreck o n.toNat b.toNat)
      fun s => s.decompose o hilbert n.toNat a.toNat b.toNat := by
  simp only [List.mem_cons, List.not_mem_nil, or_false] at hi
  rcases hi with rfl | rfl
  · exact ⟨false, rfl⟩
  · exact ⟨true, rfl⟩

theorem exec_ms {i : Instr} {o : MsOpts} {n a b : Word} (hi : i ∈ [Instr.msDip o n a b, .msPeak o n a b, .msFlat o n a b])
    (s : State) : ∃ mk : State → Nat → List Cx → List ShapedBin,
      exec i s = s.command (msTrap s.cfg o n.toNat a.toNat b.toNat) (msWreck o n.toNat b.toNat)
        fun s => s.shape o n.toNat a.toNat b.toNat (mk s) := by
  simp only [List.mem_cons, List.not_mem_nil, or_false] at hi
  rcases hi with rfl | rfl | rfl
  · exact ⟨State.dipBins, rfl⟩
  · exact ⟨State.peakBins, rfl⟩
  · exact ⟨State.flatBins, rfl⟩

/-- A transform whose largest prime factor is too large takes an `E_ALLOC` over its wreck. -/
theorem exec_fft_alloc {i : Instr} {n a : Word} (hi : i ∈ [Instr.fftFwd n a, .fftInv n a]) {s : State} (pos : n ≠ 0)
    (even : a.toNat % 2 = 0) (inside : a.toNat + 2 * n.toNat ≤ s.cfg.dmSize) (radix : s.cfg.rmax < lpf n.toNat) :
    exec i s = .next ((s.wreck (fftWreck n.toNat a.toNat)).raise ⟨.alloc, lpf n.toNat⟩) := by
  have trap : fftTrap false s.cfg n.toNat a.toNat = some ⟨.alloc, lpf n.toNat⟩ := by
    rw [fftTrap_generic, if_neg pos, if_neg (by omega), if_neg (by omega), if_pos radix]
  simp only [List.mem_cons, List.not_mem_nil, or_false] at hi
  rcases hi with rfl | rfl
  · rw [exec, execFftFwd, trap, State.command_some, State.takeFault_of_alloc rfl]
  · rw [exec, execFftInv, trap, State.command_some, State.takeFault_of_alloc rfl]

/-! ## The checks (R207, R236) -/

/-- The checks of R207, in order. -/
theorem hdTrap_chain (p : Params) (o : HdOpts) (n a b : Word) : hdTrap p o n.toNat a.toNat b.toNat =
    if n = 0 then some ⟨.size, 0⟩
    else if 2 ^ 31 ≤ HdOpts.size o n.toNat then some ⟨.size, n.toNat⟩
    else if p.dmSize < a.toNat + n.toNat then some ⟨.addr, a.toNat⟩
    else if (o.omp = true ∧ p.dmSize < b.toNat + n.toNat) ∨ (o.oep = true ∧ p.dmSize < b.toNat + 2 * n.toNat) then
      some ⟨.addr, b.toNat⟩
    else if p.wcap < 2 * HdOpts.size o n.toNat then some ⟨.alloc, HdOpts.size o n.toNat⟩
    else if p.rmax < lpf (HdOpts.size o n.toNat) then some ⟨.alloc, lpf (HdOpts.size o n.toNat)⟩
    else none := by
  by_cases zero : n = 0
  · simp [hdTrap, firstTrap, zero]
  · have pos : n.toNat ≠ 0 := fun h => zero (BitVec.eq_of_toNat_eq h)
    rw [if_neg zero]
    simp [hdTrap, firstTrap, outside, pos]

/-- The checks of R236, in order. -/
theorem msTrap_chain (p : Params) (o : MsOpts) (n a b : Word) : msTrap p o n.toNat a.toNat b.toNat =
    if n = 0 then some ⟨.size, 0⟩
    else if 2 ^ 31 ≤ MsOpts.size o n.toNat then some ⟨.size, n.toNat⟩
    else if p.dmSize < a.toNat + n.toNat then some ⟨.addr, a.toNat⟩
    else if p.dmSize < b.toNat + n.toNat then some ⟨.addr, b.toNat⟩
    else if p.wcap < MsOpts.need o n.toNat then some ⟨.alloc, MsOpts.size o n.toNat⟩
    else if p.rmax < lpf (MsOpts.size o n.toNat) then some ⟨.alloc, lpf (MsOpts.size o n.toNat)⟩
    else none := by
  by_cases zero : n = 0
  · simp [msTrap, firstTrap, zero]
  · have pos : n.toNat ≠ 0 := fun h => zero (BitVec.eq_of_toNat_eq h)
    rw [if_neg zero]
    simp [msTrap, firstTrap, outside, pos]

/-- A command with an effect on the data alone answers its checks. -/
theorem checked_of_quiet {s : State} (trap : Option Trap) (w : Wreck) {effect : State → State}
    (quiet : Quiet s (effect s)) : Checked s (s.command trap w effect) trap := by
  cases trap with
  | some t => exact s.raises_command_some t w _
  | none =>
    have done := quiet.completes (i := .nop) nofun
    exact ⟨_, rfl, done.cp, done.fault⟩

theorem State.quiet_shape (s : State) (o : MsOpts) (n a b : Nat) (mk : Nat → List Cx → List ShapedBin) :
    Quiet s (s.shape o n a b mk) := rfl

end Sys2Proof.Machine

namespace Sys2Proof.Proofs

open Sys2Proof.Machine Sys2Proof.Safety

/-- Settles O38, by what every command keeps, faulting or not, and the register it names. -/
theorem commandFrame : Obligations.CommandFrame := by
  unfold Obligations.CommandFrame
  intro i s t next
  have frame : Kept s t ∧ (i ≠ .endList → t.done = s.done) := by
    rcases exec_cases i s with ⟨f, w, -, taken⟩ | ⟨u, completed, done⟩
    · cases next.symm.trans taken
      exact ⟨s.kept_takeFault f w, fun _ => s.takeFault_done f w⟩
    · cases next.symm.trans completed
      exact ⟨done.kept, done.done⟩
  obtain ⟨kept, done⟩ := frame
  refine ⟨kept.cm, kept.ie, kept.slatch, kept.cfg, kept.draws, kept.inbox, kept.hostData, done, fun r changed => ?_⟩
  have others {q : SReg} {v : Elem} (regs : t.regs = s.regs.set q v) : r = q := by
    by_contra other
    refine changed ?_
    rw [← s.sreg_setSreg_of_ne v (Ne.symm other), State.sreg, State.sreg, regs, State.setSreg_regs]
  rcases regs_of_exec next with same | ⟨q, lo, hi, rfl, v, regs⟩ | ⟨n, a, rfl, v, regs⟩
  · exact absurd (by rw [State.sreg, same, State.sreg]) changed
  · exact .inl ⟨lo, hi, by rw [others regs]⟩
  · exact .inr ⟨others regs, n, a, rfl⟩

/-- Settles O36, by what can happen to the bit in a step. -/
theorem loglimBit : Obligations.LoglimBit := by
  unfold Obligations.LoglimBit
  refine fun s t next => ⟨fun set clear => ?_, fun w writes hw => ?_, fun clear set => ?_⟩
  · rcases loglim_of_step next with kept | ⟨i, -, given, -⟩ | ⟨w, writes, cleared⟩ | ⟨resets, -⟩
    · simp [kept, set] at clear
    · simp [given] at clear
    · exact .inl ⟨w, writes, by simpa [cleared, set] using clear⟩
    · exact .inr resets
  · rw [next_of_hostWrite writes rfl next, State.regWrite_status, State.writeStatus_eq]
    simp [hw]
  · rcases loglim_of_step next with kept | ⟨i, runs, -, can⟩ | ⟨w, -, cleared⟩ | ⟨-, reset⟩
    · simp [kept, clear] at set
    · exact ⟨i, runs, can⟩
    · simp [cleared, clear] at set
    · simp [reset] at set

/-- Settles O29: an `E_ALLOC` is the entry after the wreck of its command. -/
theorem allocLeaves : Obligations.AllocLeaves := by
  unfold Obligations.AllocLeaves
  refine ⟨fun s n a i hi pos even inside radix => ?_, fun s t o n a b i hi next clear fault alloc => ?_,
    fun s t o n a b i hi next clear fault alloc => ?_⟩
  · obtain ⟨entry, twN, -⟩ := s.allocEntry_wreck (fftWreck n.toNat a.toNat) (lpf n.toNat)
    refine ⟨_, exec_fft_alloc hi pos even inside radix, entry, s.bytesKept_wreck _ _ _ _ _, ?_, by simp [fftWreck]⟩
    rwa [fftWreck, BitVec.ofNat_toNat, BitVec.setWidth_eq] at twN
  · obtain ⟨hilbert, runs⟩ := exec_hd hi s
    obtain ⟨info, rfl⟩ := State.alloc_of_command (runs ▸ next) (s.quiet_decompose ..) clear fault alloc
    obtain ⟨entry, twN, loglim⟩ := s.allocEntry_wreck (hdWreck o n.toNat b.toNat) info
    exact ⟨⟨info, entry⟩, s.outputsOnly_wreck _ _ _ _, twN, loglim⟩
  · obtain ⟨mk, runs⟩ := exec_ms hi s
    obtain ⟨info, rfl⟩ := State.alloc_of_command (runs ▸ next) (s.quiet_shape ..) clear fault alloc
    obtain ⟨entry, twN, loglim⟩ := s.allocEntry_wreck (msWreck o n.toNat b.toNat) info
    exact ⟨⟨info, entry⟩, s.bytesKept_wreck _ _ _ _ _, twN, loglim⟩

/-- Settles O19: the checks as a chain of conditions, each with the outcome of a command under that trap. -/
theorem operandChecks : Obligations.OperandChecks := by
  unfold Obligations.OperandChecks
  refine ⟨fun s o n a b i hi => ?_, fun s o n a b i hi => ?_⟩
  · obtain ⟨hilbert, runs⟩ := exec_hd hi s
    have outcome := checked_of_quiet (hdTrap s.cfg o n.toNat a.toNat b.toNat) (hdWreck o n.toNat b.toNat)
      (effect := fun s => s.decompose o hilbert n.toNat a.toNat b.toNat) (s.quiet_decompose o hilbert n.toNat a.toNat b.toNat)
    rw [← runs, hdTrap_chain, HdOpts.size] at outcome
    dsimp only
    split_ifs at outcome ⊢ <;> exact outcome
  · obtain ⟨mk, runs⟩ := exec_ms hi s
    have outcome := checked_of_quiet (msTrap s.cfg o n.toNat a.toNat b.toNat) (msWreck o n.toNat b.toNat)
      (effect := fun s => s.shape o n.toNat a.toNat b.toNat (mk s)) (s.quiet_shape o n.toNat a.toNat b.toNat (mk s))
    rw [← runs, msTrap_chain, MsOpts.need, MsOpts.size] at outcome
    dsimp only
    split_ifs at outcome ⊢ <;> exact outcome

end Sys2Proof.Proofs
end

section
/-! PROOFS. The windows of the scalar registers (R48), and the host's accesses to the memories (R70, R77, R323), each by the
order of the reasons for which an access is not made. -/

namespace Sys2Proof.Machine

/-! ## The windows (R47, R48) -/

theorem sWindow_low (i : SReg) : sWindow (0x40 + 8 * i.val) = some (i, false) := by
  have := i.isLt
  rw [sWindow, dif_pos (by omega)]
  simp

theorem sWindow_high (i : SReg) : sWindow (0x44 + 8 * i.val) = some (i, true) := by
  have := i.isLt
  rw [sWindow, dif_pos (by omega)]
  have place : (0x44 + 8 * i.val - 0x40) / 8 = i.val := by omega
  simp [place]

/-- A read of a window is the word of its register. -/
theorem State.regRead_window {off : Nat} {i : SReg} {high : Bool} (h : sWindow off = some (i, high)) (s : State) :
    s.regRead off = s.sWord i high := by
  have above : 0x40 ≤ off := by
    by_contra below
    rw [sWindow_eq_none (.inl (by omega))] at h
    cases h
  have ne : ∀ k < 0x40, off ≠ k := fun k hk => by omega
  simp [State.regRead, h, ne]

theorem State.writeWindow_binary64 {s : State} (h : s.cfg.fmt = .binary64) (i : SReg) (high : Bool) (w : Word) :
    s.writeWindow i high w = if high then s.setSreg i (w ++ s.slatch) else { s with slatch := w } := by
  cases high <;> simp [State.writeWindow, h, immediate_binary64]

theorem State.writeWindow_binary32 {s : State} (h : s.cfg.fmt = .binary32) (i : SReg) (high : Bool) (w : Word) :
    s.writeWindow i high w = if high then s else s.setSreg i (w.setWidth 64) := by
  cases high <;> simp [State.writeWindow, h]

theorem ofNat_toNat_append (hi lo : Word) :
    BitVec.ofNat 32 (hi ++ lo).toNat = lo ∧ BitVec.ofNat 32 ((hi ++ lo).toNat / 2 ^ 32) = hi := by
  have := hi.isLt
  have := lo.isLt
  rw [← immediate_binary64]
  constructor <;> apply BitVec.eq_of_toNat_eq <;> simp only [immediate, BitVec.toNat_ofNat] <;> omega

/-! ## An access of the host (R70, R77, R323) -/

theorem State.denied_of_shape {s : State} {r : Region} {off k : Nat} (h : off % k ≠ 0 ∨ (r = .regs ∧ k ≠ 4)) :
    s.denied r off k = some (.refused (.accessShape r off)) := if_pos h

section Memory

variable {s : State} {r : Region} {off k : Nat} (memory : r ≠ .regs) (aligned : off % k = 0)
include memory aligned

theorem State.denied_during_run (run : s.run = true) :
    s.denied r off k = some (.refused (.memoryAccessDuringRun r off)) := by
  rw [State.denied, if_neg (by simp [memory, aligned]), if_pos ⟨memory, run⟩]

theorem State.denied_outside (run : s.run = false) (outside : s.inAperture r off k = false) :
    s.denied r off k = some (.fault (.outsideAperture r off)) := by
  rw [State.denied, if_neg (by simp [memory, aligned]), if_neg (by simp [run]), if_neg (by simp [outside])]

theorem State.not_denied (run : s.run = false) (inside : s.inAperture r off k = true) : s.denied r off k = none := by
  rw [State.denied, if_neg (by simp [memory, aligned]), if_neg (by simp [run]), if_pos inside]

end Memory

/-- The size in bytes of a memory's aperture (R77). -/
def State.apertureSize (s : State) (r : Region) : Nat :=
  if r = .dm then s.cfg.dmSize * fbytes s.cfg.fmt else s.cfg.cmSize * 4

theorem State.inAperture_eq {r : Region} (memory : r ≠ .regs) (s : State) (off k : Nat) :
    s.inAperture r off k = decide (off + k ≤ s.apertureSize r) := by
  cases r with
  | regs => exact absurd rfl memory
  | dm => rfl
  | cm => rfl

theorem ne_regs_of_mem {r : Region} (h : r ∈ [Region.dm, .cm]) : r ≠ .regs := by
  rintro rfl
  simp at h

/-- The moves that access `k` bytes, with the effect of each (R47, R77). -/
inductive AccessMove : HostMove → Region → Nat → Nat → (State → State) → Prop where
  | read (r : Region) (off : Nat) : AccessMove (.read r off) r off 4 fun s => { s with hostData := s.hostWord r off }
  | write (r : Region) (off : Nat) (w : Word) : AccessMove (.write r off w) r off 4 fun s => s.putWord r off w
  | readByte (r : Region) (off : Nat) :
      AccessMove (.readByte r off) r off 1 fun s => { s with hostData := (s.apertureByte r off).setWidth 32 }
  | writeByte (r : Region) (off : Nat) (b : Byte) : AccessMove (.writeByte r off b) r off 1 fun s => s.putBytes r off [b]

section Access

variable {s : State} {m : HostMove} {r : Region} {off k : Nat} {effect : State → State} {rest : List HostMove}
  (access : AccessMove m r off k effect) (moves : s.inbox = m :: rest)
include access moves

/-- A step that accesses a memory or the register block. -/
theorem AccessMove.step_eq : step s = tick (State.access { s with inbox := rest } r off k effect) := by
  cases access with
  | readByte r off =>
    refine (step_of_move moves nofun).trans ?_
    simp only [hostMove, BitVec.ofNat_toNat]
  | read | write | writeByte => exact step_of_move moves nofun

/-- An access that is denied is the whole step. -/
theorem AccessMove.step_denied {o : Host.Outcome State Fault Refusal} (denied : s.denied r off k = some o)
    (stops : tick o = o) : step s = o := by
  have denied' : State.denied { s with inbox := rest } r off k = some o := denied
  rw [access.step_eq moves, State.access, denied']
  exact stops

theorem AccessMove.step_refused_of_shape (h : off % k ≠ 0 ∨ (r = .regs ∧ k ≠ 4)) :
    step s = .refused (.accessShape r off) :=
  access.step_denied moves (State.denied_of_shape h) rfl

theorem AccessMove.step_during_run (memory : r ≠ .regs) (aligned : off % k = 0) (run : s.run = true) :
    step s = .refused (.memoryAccessDuringRun r off) :=
  access.step_denied moves (State.denied_during_run memory aligned run) rfl

theorem AccessMove.step_outside (memory : r ≠ .regs) (aligned : off % k = 0) (run : s.run = false)
    (outside : s.apertureSize r < off + k) : step s = .fault (.outsideAperture r off) := by
  have out : s.inAperture r off k = false := by rw [State.inAperture_eq memory]; simpa using outside
  exact access.step_denied moves (State.denied_outside memory aligned run out) rfl

/-- An access to a memory that is made is its effect, and no more but the draw index (log 5). -/
theorem AccessMove.step_made (memory : r ≠ .regs) (aligned : off % k = 0) (run : s.run = false)
    (inside : off + k ≤ s.apertureSize r) :
    step s = .next { effect s with inbox := rest, draws := s.draws + 1 } := by
  have made : State.denied { s with inbox := rest } r off k = none :=
    State.not_denied memory aligned run (by rw [State.inAperture_eq memory]; exact decide_eq_true inside)
  rw [access.step_eq moves, State.access, made]
  cases r with
  | regs => exact absurd rfl memory
  | dm | cm => cases access <;> rfl

end Access

/-- A write of bytes reaches one memory alone. -/
theorem State.putBytes_frame {r : Region} (h : r ∈ [Region.dm, .cm]) (s : State) (off : Nat) (bs : List Byte) :
    s.putBytes r off bs =
      if r = .dm then { s with dm := (s.putBytes r off bs).dm } else { s with cm := (s.putBytes r off bs).cm } := by
  simp only [List.mem_cons, List.not_mem_nil, or_false] at h
  rcases h with rfl | rfl <;> rfl

end Sys2Proof.Machine

namespace Sys2Proof.Proofs

open Sys2Proof.Machine

/-- Settles O57, format by format: the latch and the commit of binary64, the one word of binary32. -/
theorem scalarWindows : Obligations.ScalarWindows := by
  unfold Obligations.ScalarWindows
  intro s i lo hi idle
  have low := sWindow_low i
  have high := sWindow_high i
  refine ⟨fun binary64 => ?_, fun binary32 => ?_⟩
  · have latched : s.regWrite (0x40 + 8 * i.val) lo = { s with slatch := lo } := by
      rw [State.regWrite_window low, if_neg (by simp [idle]), State.writeWindow_binary64 binary64, if_neg (by simp)]
    have committed : State.regWrite { s with slatch := lo } (0x44 + 8 * i.val) hi =
        State.setSreg { s with slatch := lo } i (hi ++ lo) := by
      rw [State.regWrite_window high, if_neg (by simp [idle])]
      exact State.writeWindow_binary64 (s := { s with slatch := lo }) binary64 i true hi
    obtain ⟨lowWord, highWord⟩ := ofNat_toNat_append hi lo
    rw [latched, committed]
    refine ⟨rfl, rfl, ?_, ?_⟩
    · rw [State.regRead_window low, State.sWord, if_neg (by simp), State.sreg_setSreg_same, lowWord]
    · rw [State.regRead_window high, State.sWord, if_pos rfl, State.sreg_setSreg_same]
      simp only [State.setSreg_cfg, binary64, highWord]
  · have committed : s.regWrite (0x40 + 8 * i.val) lo = s.setSreg i (lo.setWidth 64) := by
      rw [State.regWrite_window low, if_neg (by simp [idle]), State.writeWindow_binary32 binary32, if_neg (by simp)]
    have ignored : (s.setSreg i (lo.setWidth 64)).regWrite (0x44 + 8 * i.val) hi = s.setSreg i (lo.setWidth 64) := by
      rw [State.regWrite_window high, if_neg (by simp [idle])]
      exact State.writeWindow_binary32 (s := s.setSreg i (lo.setWidth 64)) binary32 i true hi
    rw [committed, ignored]
    refine ⟨rfl, ?_, ?_⟩
    · rw [State.regRead_window low, State.sWord, if_neg (by simp), State.sreg_setSreg_same, BitVec.ofNat_toNat,
        BitVec.setWidth_setWidth_of_le _ (by decide), BitVec.setWidth_eq]
    · rw [State.regRead_window high, State.sWord, if_pos rfl]
      simp only [State.setSreg_cfg, binary32]

/-- Settles O59, by the reasons for which an access is denied, and the bytes a write stores. -/
theorem memoryAccess : Obligations.MemoryAccess := by
  unfold Obligations.MemoryAccess
  refine ⟨fun s r off w rest hr aligned => ?_, fun s r off b rest hr => ?_, fun s r off w b hr => ?_,
    fun s r off w b rest => ⟨fun misaligned moves => ?_, fun moves => ?_⟩⟩
  · have memory := ne_regs_of_mem hr
    refine ⟨fun run moves => ?_, fun run inside => ⟨fun moves => ?_, fun moves => ?_⟩, fun run outside moves => ?_⟩
    · rcases moves with moves | moves
      · exact (AccessMove.write r off w).step_during_run moves memory aligned run
      · exact (AccessMove.read r off).step_during_run moves memory aligned run
    · exact (AccessMove.write r off w).step_made moves memory aligned run inside
    · exact (AccessMove.read r off).step_made moves memory aligned run inside
    · rcases moves with moves | moves
      · exact (AccessMove.write r off w).step_outside moves memory aligned run outside
      · exact (AccessMove.read r off).step_outside moves memory aligned run outside
  · have memory := ne_regs_of_mem hr
    have aligned := Nat.mod_one off
    refine ⟨fun run moves => ?_, fun run inside => ⟨fun moves => ?_, fun moves => ?_⟩, fun run outside moves => ?_⟩
    · rcases moves with moves | moves
      · exact (AccessMove.writeByte r off b).step_during_run moves memory aligned run
      · exact (AccessMove.readByte r off).step_during_run moves memory aligned run
    · exact (AccessMove.writeByte r off b).step_made moves memory aligned run inside
    · exact (AccessMove.readByte r off).step_made moves memory aligned run inside
    · have beyond := Nat.lt_succ_of_le outside
      rcases moves with moves | moves
      · exact (AccessMove.writeByte r off b).step_outside moves memory aligned run beyond
      · exact (AccessMove.readByte r off).step_outside moves memory aligned run beyond
  · have memory := ne_regs_of_mem hr
    have word := State.putWord_memory memory s off w
    refine ⟨?_, State.hostWord_putWord_same memory s off w, fun x => ⟨fun outside => ?_, ?_⟩⟩
    · simp only [List.forall_mem_cons, word]
      exact ⟨State.putBytes_frame hr s off _, State.putBytes_frame hr s off _, nofun⟩
    · rw [word]
      exact s.apertureByte_putBytes_outside r (by simpa using outside)
    · split_ifs with same
      · subst same
        exact State.apertureByte_putBytes_inside memory s (off := x) (j := 0) (bs := [b]) (by simp)
      · exact s.apertureByte_putBytes_outside r (by rw [List.length_singleton]; omega)
  · rcases moves with moves | moves
    · exact (AccessMove.write r off w).step_refused_of_shape moves (.inl misaligned)
    · exact (AccessMove.read r off).step_refused_of_shape moves (.inl misaligned)
  · rcases moves with moves | moves
    · exact (AccessMove.writeByte .regs off b).step_refused_of_shape moves (.inr ⟨rfl, by decide⟩)
    · exact (AccessMove.readByte .regs off).step_refused_of_shape moves (.inr ⟨rfl, by decide⟩)

end Sys2Proof.Proofs
end

section
/-! PROOFS. The transforms of every size (R172 to R176), level by level, and the transform commands where their checks pass
(R177 to R180). -/

namespace Sys2Proof.Machine

open Sys2Proof.Safety

/-! ## Values of a buffer -/

theorem at0_of_lt {zs : List Cx} {k : Nat} (h : k < zs.length) : at0 zs k = zs[k] := List.getD_eq_getElem ..

theorem at0_map_range {n k : Nat} (h : k < n) (g : Nat → Cx) : at0 ((List.range n).map g) k = g k := by
  rw [at0_of_lt (by simpa using h), List.getElem_map, List.getElem_range]

theorem map_at0_range {zs : List Cx} {n : Nat} (h : zs.length = n) : (List.range n).map (at0 zs) = zs := by
  subst h
  refine List.ext_getElem (by simp) fun k hk hk' => ?_
  rw [List.getElem_map, List.getElem_range, at0_of_lt hk']

/-! ## The levels (R172) -/

/-- Enough levels are enough: the recursion stops at blocks of one value. -/
theorem recBlock_congr (f : Fmt) (dir : Dir) (n : Nat) {fuel fuel' size : Nat} (h : size ≤ fuel) (h' : size ≤ fuel')
    (buf : List Cx) : recBlock f dir n fuel size buf = recBlock f dir n fuel' size buf := by
  induction fuel generalizing fuel' size buf with
  | zero => cases fuel' <;> simp_all [recBlock]
  | succ fuel ih =>
    cases fuel' with
    | zero => simp_all [recBlock]
    | succ fuel' =>
      rw [recBlock, recBlock]
      split_ifs with small
      · rfl
      · have := div_spf_lt (show 2 ≤ size by omega)
        refine congrArg (List.flatMap · _) (funext fun k0 => ?_)
        exact ih (by omega) (by omega) _

/-- `rec` of R172, with levels enough for its size. -/
def recAll (f : Fmt) (dir : Dir) (n size : Nat) (buf : List Cx) : List Cx := recBlock f dir n size size buf

theorem recAll_one (f : Fmt) (dir : Dir) (n : Nat) (buf : List Cx) : recAll f dir n 1 buf = buf := rfl

/-- One level by the smallest prime factor, then each block. -/
theorem recAll_of_two_le (f : Fmt) (dir : Dir) (n : Nat) {size : Nat} (h : 2 ≤ size) (buf : List Cx) :
    recAll f dir n size buf = (List.range (spf size)).flatMap fun k0 =>
      recAll f dir n (size / spf size) ((List.range (size / spf size)).map fun j0 =>
        twiddled f dir n size (spf size) (size / spf size) buf k0 j0) := by
  obtain ⟨m, rfl⟩ : ∃ m, size = m + 1 := ⟨size - 1, by omega⟩
  have := div_spf_lt h
  rw [recAll, recBlock, if_neg (by omega)]
  refine congrArg (List.flatMap · _) (funext fun k0 => ?_)
  exact recBlock_congr f dir n (by omega) (le_refl _) _

theorem xform_eq (f : Fmt) (dir : Dir) (n : Nat) (buf : List Cx) :
    xform f dir n buf = (List.range n).map fun k => at0 (recAll f dir n n buf) (rev k n) := rfl

@[simp] theorem length_xform (f : Fmt) (dir : Dir) (n : Nat) (buf : List Cx) : (xform f dir n buf).length = n := by
  simp [xform_eq]

theorem at0_xform (f : Fmt) (dir : Dir) {n k : Nat} (h : k < n) (buf : List Cx) :
    at0 (xform f dir n buf) k = at0 (recAll f dir n n buf) (rev k n) := by
  rw [xform_eq, at0_map_range h]

/-! ## Horner's rule (R173), the roots (R145, R146), the division (R175) -/

theorem horner_singleton (f : Fmt) (w x : Cx) : horner f w [x] = x := rfl

theorem horner_cons_cons (f : Fmt) (w x y : Cx) (t : List Cx) :
    horner f w (x :: y :: t) = cadd f (cmul f (horner f w (y :: t)) w) x := by
  obtain ⟨top, rest, h⟩ := List.exists_cons_of_ne_nil (l := (y :: t).reverse) (by simp)
  rw [horner, horner, List.reverse_cons, h, List.cons_append]
  simp [List.foldl_append]

/-- The four quarter turns. -/
theorem twiddle_quarters (f : Fmt) {n j : Nat} (h : j < n) :
    (j = 0 → twiddle f n j = ⟨fone f, fzero⟩) ∧ (4 * j = n → twiddle f n j = ⟨fzero, fone f⟩) ∧
      (2 * j = n → twiddle f n j = ⟨fneg f (fone f), fzero⟩) ∧
      (4 * j = 3 * n → twiddle f n j = ⟨fzero, fneg f (fone f)⟩) := by
  refine ⟨fun zero => ?_, fun quarter => ?_, fun half => ?_, fun three => ?_⟩
  · rw [twiddle, if_pos zero]
  · rw [twiddle, if_neg (by omega), if_pos quarter]
  · rw [twiddle, if_neg (by omega), if_neg (by omega), if_pos half]
  · rw [twiddle, if_neg (by omega), if_neg (by omega), if_neg (by omega), if_pos three]

theorem at0_inv (f : Fmt) {n k : Nat} (h : k < n) (zs : List Cx) :
    at0 (inv f n zs) k = cdivr f (at0 (xform f .inverse n zs) k) (i2f f n) := by
  rw [at0_of_lt (by simpa using h), at0_of_lt (by simpa using h)]
  exact List.getElem_map ..

/-! ## A prime size -/

theorem group_one (zs : List Cx) : group zs zs.length 1 0 = zs := by
  simpa [group] using map_at0_range (zs := zs) rfl

/-- A transform of prime size is one level of one butterfly, and leaves every output at its place. -/
theorem at0_xform_of_prime (f : Fmt) (dir : Dir) {n : Nat} (prime : n.Prime) {zs : List Cx} (length : zs.length = n)
    {k : Nat} (hk : k < n) :
    at0 (xform f dir n zs) k = cmul f (horner f (om f dir n k) zs) (om f dir n 0) := by
  have two := prime.two_le
  have self : spf n = n := by rw [spf_eq_minFac two, prime.minFac_eq]
  have one : n / n = 1 := Nat.div_self prime.pos
  have place : rev k n = k := by rw [rev_of_two_le two, self, one, Nat.mod_eq_of_lt hk, rev_one, Nat.mul_one, add_zero]
  have level : recAll f dir n n zs = (List.range n).map fun k0 => twiddled f dir n n n 1 zs k0 0 := by
    rw [recAll_of_two_le f dir n two, self, one]
    simp [recAll_one, List.map_eq_flatMap]
  rw [at0_xform f dir hk, place, level, at0_map_range hk, twiddled, bfly, one, Nat.mul_one, om_mod, Nat.zero_mul,
    Nat.zero_mod, ← length, group_one]

/-! ## The commands (R177 to R180) -/

/-- A transform in place that gives `n` values of the format leaves them in the buffer, and nothing else but `TW_N`. -/
theorem State.wroteCx_transform (s : State) {tr : Fmt → Nat → List Cx → List Cx} {n a : Nat}
    (length : (tr s.cfg.fmt n (s.cxBuffer a n)).length = n) (inFormat : NarrowAll s.cfg.fmt (tr s.cfg.fmt n (s.cxBuffer a n))) :
    WroteCx s (s.transform tr n a).advance a n (at0 (tr s.cfg.fmt n (s.cxBuffer a n))) :=
  (s.staged_putCx a length (fun _ h => (at0_of_lt h).symm) fun k _ => NarrowCx_at0 inFormat k).wrote

/-- A transform command whose checks pass: `TW_N` takes the size, and `CP` moves on. -/
theorem State.transform_completes {s : State} {i : Instr} {n a : Word} {pow2 : Bool} {w : Wreck}
    {tr : Fmt → Nat → List Cx → List Cx}
    (runs : exec i s = s.command (fftTrap pow2 s.cfg n.toNat a.toNat) w fun s => s.transform tr n.toNat a.toNat)
    (passed : fftTrap pow2 s.cfg n.toNat a.toNat = none)
    (length : (tr s.cfg.fmt n.toNat (s.cxBuffer a.toNat n.toNat)).length = n.toNat)
    (inFormat : NarrowAll s.cfg.fmt (tr s.cfg.fmt n.toNat (s.cxBuffer a.toNat n.toNat))) :
    ∃ t, exec i s = .next t ∧
      WroteCx s t a.toNat n.toNat (at0 (tr s.cfg.fmt n.toNat (s.cxBuffer a.toNat n.toNat))) ∧
      t = { s with dm := t.dm, twN := n, cp := s.cp + 4 } := by
  refine ⟨_, by rw [runs, passed, State.command_none], s.wroteCx_transform length inFormat, ?_⟩
  have size : BitVec.ofNat 32 n.toNat = n := by rw [BitVec.ofNat_toNat, BitVec.setWidth_eq]
  exact congrArg (fun m => { s with dm := (s.transform tr n.toNat a.toNat).dm, twN := m, cp := s.cp + 4 }) size

end Sys2Proof.Machine

namespace Sys2Proof.Proofs

open Sys2Proof.Machine Sys2Proof.Safety

/-- Settles O6: each datapath gives as many values of the format as it takes. -/
theorem fftCommands : Obligations.FftCommands := by
  unfold Obligations.FftCommands
  refine ⟨fun s n a pos even inside radix => ?_, fun s n a pow2 even inside => ?_⟩
  · have nonzero : n.toNat ≠ 0 := fun h => pos (BitVec.eq_of_toNat_eq h)
    have passed : fftTrap false s.cfg n.toNat a.toNat = none :=
      fftTrap_eq_none.2 ⟨nonzero, nofun, even, inside, fun _ => radix⟩
    have inFormat := s.NarrowAll_cxBuffer a.toNat n.toNat
    exact ⟨State.transform_completes rfl passed (length_fwd ..) (NarrowAll_fwd inFormat),
      State.transform_completes rfl passed (length_inv ..) (NarrowAll_inv _ _ _)⟩
  · have nonzero : n.toNat ≠ 0 := fun h => by simp [h, ispow2] at pow2
    have passed : fftTrap true s.cfg n.toNat a.toNat = none :=
      fftTrap_eq_none.2 ⟨nonzero, fun _ => pow2, even, inside, nofun⟩
    have inFormat := s.NarrowAll_cxBuffer a.toNat n.toNat
    refine ⟨State.transform_completes rfl passed (length_fwd2 ..) ?_,
      State.transform_completes rfl passed (length_inv2 ..) ?_⟩
    · rw [fwd2_eq_fwd _ pow2]
      exact NarrowAll_fwd inFormat
    · rw [inv2_eq_inv _ pow2]
      exact NarrowAll_inv _ _ _

/-- Settles O11: `rec` is the recursion with levels enough, and a prime size has one level. -/
theorem primeTransform : Obligations.PrimeTransform := by
  unfold Obligations.PrimeTransform
  refine ⟨fun f dir n _ => ⟨recAll f dir n, recAll_one f dir n, fun size t two => ?_, fun zs => ?_⟩,
    fun f w x y t => ⟨horner_singleton f w x, horner_cons_cons f w x y t⟩, fun f n j => twiddle_quarters f,
    fun f n zs => ⟨rfl, length_inv f n zs, fun k hk => at0_inv f hk zs⟩,
    fun f dir n zs k prime length hk => at0_xform_of_prime f dir prime length hk⟩
  · rw [recAll_of_two_le f dir n two]
    cases dir <;> rfl
  · exact ⟨length_xform f dir n zs, fun k hk => at0_xform f dir hk zs⟩

end Sys2Proof.Proofs
end

section
/-! PROOFS. The stage commands where their checks pass (R202 to R206): the values each leaves, its notice, and nothing else. -/

namespace Sys2Proof.Machine

open Sys2Proof.Safety

/-! ## The logarithm of a magnitude (R202) -/

/-- A magnitude is clamped exactly when it is a zero: it is never negative. -/
theorem logClamps_iff (f : Fmt) (z : Cx) : logClamps f z = true ↔ isZero f (cabs f z) = true := by
  rw [logClamps, logc_notice_iff]
  refine ⟨fun ⟨number, nonpos⟩ => ?_, fun zero => ⟨isNaN_eq_false_of_isZero zero, .inl zero⟩⟩
  have positive := (nonNeg_cabs f z).resolve_left (by simp [number])
  simpa [positive] using nonpos

/-- Whether some value of a buffer in memory is clamped. -/
theorem State.any_logClamps_iff (s : State) (a n : Nat) : (s.cxBuffer a n).any (logClamps s.cfg.fmt) = true ↔
    ∃ k < n, isZero s.cfg.fmt (cabs s.cfg.fmt (s.cxAt a k)) = true := by
  simp [State.cxBuffer, logClamps_iff]

/-! ## The causal window (R203) -/

theorem foldValue_eq (f : Fmt) (n k : Nat) (r : Elem) :
    foldValue f n k r = if k = 0 ∨ 2 * k = n then r else if 2 * k < n then fadd f r r else fzero := by
  unfold foldValue
  split_ifs <;> first | rfl | omega

/-! ## The exponential (R141, R204) -/

/-- The integer from which on the exponential overflows (R204; log 32). -/
def largeExponent : Fmt → Nat
  | .binary64 => 710
  | .binary32 => 89

theorem fexp_of_large {f : Fmt} {x : Elem} (h : fle f (i2f f (largeExponent f)) x = true) : fexp f x = finf f false := by
  obtain ⟨-, number, above⟩ := fle_iff.1 h
  have top : isNaN f (expTop f) = false ∧ 0 < orderKey f (expTop f) ∧
      orderKey f (expTop f) < orderKey f (i2f f (largeExponent f)) := by cases f <;> decide +kernel
  obtain ⟨number_top, pos, below⟩ := top
  have notZero : isZero f x = false := (orderKey_pos_iff.1 (pos.trans (below.trans_le above))).1
  have overflow : flt f (expTop f) x = true := by simp [flt, ordered, number_top, number, below.trans_le above]
  simp [fexp, number, notZero, overflow]

theorem fmul_fone_fone (f : Fmt) : fmul f (fone f) (fone f) = fone f := by cases f <;> decide +kernel

theorem fmul_fone_fzero (f : Fmt) : fmul f (fone f) fzero = fzero := by cases f <;> decide +kernel

theorem fmul_finf_fone (f : Fmt) : fmul f (finf f false) (fone f) = finf f false := by cases f <;> decide +kernel

theorem fsin_fzero (f : Fmt) : fsin f fzero = fzero := by
  rw [fsin_of_isZero (isZero_fzero f), signOf_fzero, pack_false_zero]

/-- The exponential of `(+0, +0)` is exactly `(1, +0)`. -/
theorem cexp_czero (f : Fmt) : cexp f ⟨fzero, fzero⟩ = ⟨fone f, fzero⟩ := by
  rw [cexp, polar, fexp_of_isZero (isZero_fzero f), fcos_of_isZero (isZero_fzero f), fsin_fzero, fmul_fone_fone,
    fmul_fone_fzero]

end Sys2Proof.Machine

namespace Sys2Proof.Proofs

open Sys2Proof.Machine Sys2Proof.Safety

/-- Settles O14: the notice is that some magnitude is a zero. -/
theorem cepLogRule : Obligations.CepLogRule := by
  unfold Obligations.CepLogRule
  intro s n a pos even inside
  have nonzero : n.toNat ≠ 0 := fun h => pos (BitVec.eq_of_toNat_eq h)
  have passed : bufferTrap s.cfg n.toNat a.toNat = none := bufferTrap_eq_none.2 ⟨nonzero, even, inside⟩
  have wrote := (s.staged_putCx (n := n.toNat) (bin := fun k => logBin s.cfg.fmt (s.cxAt a.toNat k))
    (zs := (s.cxBuffer a.toNat n.toNat).map (logBin s.cfg.fmt)) a.toNat (by simp) (by simp)
    fun _ _ => NarrowCx_logBin ..).wrote
  have runs : exec (.cepLog n a) s = .next (s.stage n.toNat a.toNat (List.map (logBin s.cfg.fmt))
      (logClamps s.cfg.fmt)).advance := by rw [exec, execCepLog, passed, State.command_none]
  refine ⟨_, runs, wrote, ?_, rfl⟩
  rw [State.advance_loglim, State.stage, State.notice_loglim, State.putCx_loglim, Bool.or_eq_true,
    State.any_logClamps_iff]

/-- Settles O15: the conditions of R203 in the words of the index alone. -/
theorem cepFoldRule : Obligations.CepFoldRule := by
  unfold Obligations.CepFoldRule
  intro s n a pos even inside
  have nonzero : n.toNat ≠ 0 := fun h => pos (BitVec.eq_of_toNat_eq h)
  have passed : bufferTrap s.cfg n.toNat a.toNat = none := bufferTrap_eq_none.2 ⟨nonzero, even, inside⟩
  have inFormat := NarrowAll_fold (n := n.toNat) (s.NarrowAll_cxBuffer a.toNat n.toNat)
  refine ⟨_, by rw [exec, execCepFold, passed, State.command_none], ?_, rfl⟩
  simp only [← foldValue_eq]
  refine (s.staged_putCx (bin := fun k => foldBin s.cfg.fmt n.toNat k (s.cxAt a.toNat k)) a.toNat (by simp)
    (by simp [getElem_fold]) fun k hk => ?_).wrote
  have value := inFormat _ (List.getElem_mem (n := k) (by simpa using hk))
  rwa [getElem_fold, State.getElem_cxBuffer] at value

/-- Settles O16: the values at zeros and at the bound where the exponential overflows. -/
theorem cepExpRule : Obligations.CepExpRule := by
  unfold Obligations.CepExpRule
  intro s n a pos even inside
  have nonzero : n.toNat ≠ 0 := fun h => pos (BitVec.eq_of_toNat_eq h)
  have passed : bufferTrap s.cfg n.toNat a.toNat = none := bufferTrap_eq_none.2 ⟨nonzero, even, inside⟩
  have wrote := (s.staged_putCx (n := n.toNat) (bin := fun k => cexp s.cfg.fmt (s.cxAt a.toNat k))
    (zs := (s.cxBuffer a.toNat n.toNat).map (cexp s.cfg.fmt)) a.toNat (by simp) (by simp)
    fun _ _ => NarrowCx_cexp ..).wrote
  have value : ∀ k < n.toNat, _ = cexp s.cfg.fmt (s.cxAt a.toNat k) := wrote.1
  have runs : exec (.cepExp n a) s = .next (s.putCx a.toNat
      ((s.cxBuffer a.toNat n.toNat).map (cexp s.cfg.fmt))).advance := by rw [exec, execCepExp, passed, State.command_none]
  refine ⟨_, runs, wrote, fun k hk zero => ?_, fun k hk large => ?_, rfl⟩
  · exact (value k hk).trans (by rw [zero, cexp_czero])
  · have infinite : fexp s.cfg.fmt (s.cxAt a.toNat k).re = finf s.cfg.fmt false := by
      refine fexp_of_large (Eq.trans ?_ large)
      cases s.cfg.fmt <;> rfl
    refine ⟨infinite, fun real => ?_⟩
    have part := congrArg Cx.re (value k hk)
    rwa [cexp, polar, infinite, fcos_of_isZero real, fmul_finf_fone] at part

/-- Settles O17: both commands write the buffer at `A` alone, from values read before. -/
theorem cepPhaseCommands : Obligations.CepPhaseCommands := by
  unfold Obligations.CepPhaseCommands
  refine ⟨fun s n a b pos evenA insideA evenB insideB apart => ?_, fun s n a b pos evenA insideA evenB insideB apart => ?_⟩
  · have nonzero : n.toNat ≠ 0 := fun h => pos (BitVec.eq_of_toNat_eq h)
    have passed := twoBufferTrap_eq_none.2 ⟨nonzero, evenA, insideA, ⟨evenB, insideB⟩, apart⟩
    refine ⟨_, by rw [exec, execCepPol, passed, State.command_none], ?_, rfl⟩
    exact (s.staged_putCx (bin := fun k => polBin s.cfg.fmt (s.cxAt a.toNat k) (s.cxAt b.toNat k)) a.toNat (by simp)
      (by simp) fun _ _ => NarrowCx_polBin ..).wrote
  · have nonzero : n.toNat ≠ 0 := fun h => pos (BitVec.eq_of_toNat_eq h)
    have passed := twoBufferTrap_eq_none.2 ⟨nonzero, evenA, insideA, ⟨evenB, insideB⟩, apart⟩
    refine ⟨_, by rw [exec, execCepXph, passed, State.command_none], ?_, rfl⟩
    exact (s.staged_putCx (bin := fun k => xphBin s.cfg.fmt (s.cxAt a.toNat k) (s.cxAt b.toNat k)) a.toNat (by simp)
      (by simp) fun _ _ => NarrowCx_xphBin ..).wrote

end Sys2Proof.Proofs
end

section
/-! PROOFS. `MS.RMS`: its effect and its faults, the level and its parts (R147, R231 to R235). -/

namespace Sys2Proof.Machine

open Sys2Proof.Safety

theorem isNil_bins_iff {kLo : Nat} {top : Option Nat} : bins kLo top = [] ↔ ∀ kHi, top = some kHi → kHi < kLo := by
  cases top with
  | none => simp [bins]
  | some kHi => simp [bins]; omega

/-- The weight, with its two unit cases taken together. -/
theorem weight_eq (f : Fmt) (w : Elem) (k : Nat) : weight f w k =
    if k = 0 ∨ feq f w fzero = true then fone f
    else if feq f w (fone f) = true then fdiv f (fone f) (i2f f k)
    else fpow f (i2f f k) (fneg f w) := by
  unfold weight
  by_cases zero : k = 0 <;> simp [zero]

/-- The asymptotic form is taken for exponent 1 and a size above `HN_DIRECT_MAX`. -/
theorem normaliser_eq (f : Fmt) (direct fs : Nat) (w : Elem) (kLo kHi : Nat) : normaliser f direct fs w kLo kHi =
    if feq f w (fone f) = true ∧ direct < fs then denAsymptotic f kLo kHi
    else ksum f ((bins kLo (some kHi)).map (weight f w)) := by
  unfold normaliser
  by_cases one : feq f w (fone f) = true <;> by_cases small : fs ≤ direct <;>
    simp [one, small, Nat.not_lt.2, Nat.not_le.1]

theorem blrms_of_empty {f : Fmt} {direct fs : Nat} {p : BandParams} (x : List Cx)
    (empty : bins (bandLow f fs p) (bandHigh f fs p) = []) : blrms f direct fs p x = fzero := by
  unfold blrms
  split
  · rfl
  next kHi high => exact if_pos (isNil_bins_iff.1 empty kHi high)

theorem blrms_of_band {f : Fmt} {direct fs kHi : Nat} {p : BandParams} (x : List Cx) (high : bandHigh f fs p = some kHi)
    (band : bins (bandLow f fs p) (bandHigh f fs p) ≠ []) : blrms f direct fs p x =
      if flt f fzero (normaliser f direct fs p.wexp (bandLow f fs p) kHi) = true then
        fsqrt f (fdiv f (weightedPower f p.wexp x (bandLow f fs p) kHi)
          (normaliser f direct fs p.wexp (bandLow f fs p) kHi))
      else fzero := by
  have order : ¬ kHi < bandLow f fs p := fun below => band (isNil_bins_iff.2 fun _ h => by simp_all)
  simp only [blrms, high, if_neg order]

/-! ## Kahan's recurrence (R147) -/

/-- Sum and compensation after the first `i` values. -/
def ksumAfter (f : Fmt) (v : List Elem) (i : Nat) : Elem × Elem := (v.take i).foldl (ksumStep f) (fzero, fzero)

theorem ksumAfter_succ (f : Fmt) (v : List Elem) {i : Nat} (h : i < v.length) :
    ksumAfter f v (i + 1) = ksumStep f (ksumAfter f v i) v[i] := by
  rw [ksumAfter, List.take_succ_eq_append_getElem h, List.foldl_append]
  rfl

theorem ksum_eq_ksumAfter (f : Fmt) (v : List Elem) : ksum f v = (ksumAfter f v v.length).1 := by
  rw [ksumAfter, List.take_length]
  rfl

/-! ## The command -/

theorem State.exec_msRms {s : State} {n a : Word} (pos : n ≠ 0) (even : a.toNat % 2 = 0)
    (inside : a.toNat + 2 * n.toNat ≤ s.cfg.dmSize) : exec (.msRms n a) s =
      .next (s.setSreg regLevel (s.level n.toNat (s.cxBuffer a.toNat n.toNat))).advance := by
  have nonzero : n.toNat ≠ 0 := fun h => pos (BitVec.eq_of_toNat_eq h)
  rw [exec, execMsRms, bufferTrap_eq_none.2 ⟨nonzero, even, inside⟩, State.command_none]

end Sys2Proof.Machine

namespace Sys2Proof.Proofs

open Sys2Proof.Machine Sys2Proof.Safety

/-- Settles O21. -/
theorem rmsCommand : Obligations.RmsCommand := by
  unfold Obligations.RmsCommand
  refine ⟨fun s n a pos even inside => State.exec_msRms pos even inside, fun s n a => ?_,
    fun f direct fs p x => ⟨blrms_of_empty x, fun kHi high band => ?_⟩, fun f n => ⟨rfl, fun low high => ?_, fun large => ?_⟩,
    fun f v => ⟨fun i => (ksumAfter f v i).1, fun i => (ksumAfter f v i).2, rfl, rfl, fun i h => ?_, ksum_eq_ksumAfter f v⟩⟩
  · have chain := bufferTrap_chain s.cfg n a
    refine ⟨fun zero => ?_, fun pos bad => ?_⟩
    · rw [if_pos zero] at chain
      rw [exec, execMsRms, chain]
      exact State.raises_command_some ..
    · have trap : bufferTrap s.cfg n.toNat a.toNat = some ⟨.addr, a.toNat⟩ := by
        rw [chain, if_neg pos]
        split_ifs <;> grind
      rw [exec, execMsRms, trap]
      exact State.raises_command_some ..
  · have normal := normaliser_eq f direct fs p.wexp (bandLow f fs p) kHi
    have power := blrms_of_band (direct := direct) x high band
    rw [normal, weightedPower, funext (weight_eq f p.wexp), ← high] at power
    exact power
  · rw [Machine.harmonic, if_neg (by omega), if_pos high]
  · rw [Machine.harmonic, if_neg (by omega), if_neg (by omega)]
    cases f <;> rfl
  · simp only [ksumAfter_succ f v h]
    exact ⟨rfl, rfl⟩

end Sys2Proof.Proofs
end

section
/-! PROOFS. The five basic operations (R131, R132): a body that no value is nearer than is the correctly rounded result, of
either sign and with its overflow; each operation on finite operands; the special values. -/

namespace Sys2Proof.Machine

open Sys2Proof.Safety

/-! ## Nearest bodies -/

/-- No value is nearer to a magnitude of `s` quanta than that of the body `b`, and `b` is even when another is as near. -/
def NearestTo (f : Fmt) (s : ℝ) (b : Nat) : Prop :=
  ∀ y : Elem, |s - bodyMag f b| ≤ |s - quanta f y| ∧
    (|s - bodyMag f b| = |s - quanta f y| → (quanta f y : ℝ) ≠ bodyMag f b → b % 2 = 0)

theorem nearestTo_nearestBody (f : Fmt) (num : Nat) {den : Nat} (hden : 0 < den) :
    NearestTo f (num / den) (nearestBody f num den) := by
  intro y
  have pos : (0 : ℝ) < den := by exact_mod_cast hden
  have distance (v : Int) : |(num / den : ℝ) - v| = ((num : Int) - den * v).natAbs / den := by
    have common : (num / den : ℝ) - v = ((num : Int) - den * v : Int) / den := by
      push_cast
      field_simp
    rw [common, abs_div, abs_of_pos pos, Nat.cast_natAbs, Int.cast_abs]
  obtain ⟨near, even⟩ := nearestBody_nearest (f := f) (num := num) hden y
  have body := distance (bodyMag f (nearestBody f num den))
  rw [Int.cast_natCast] at body
  rw [body, distance, div_le_div_iff_of_pos_right pos, div_left_inj' pos.ne', Nat.cast_le, Nat.cast_inj]
  exact ⟨near, fun tie other => even tie (by exact_mod_cast other)⟩

/-! ## Overflow -/

/-- Infinity stands for the magnitude that follows the largest finite one, which an odd body has. -/
theorem bodyMag_top (f : Fmt) :
    bodyMag f (infBody f) = 4 * 2 ^ fracBits f * 2 ^ (expOnes f - 3) ∧
      bodyMag f (infBody f - 1) = (4 * 2 ^ fracBits f - 2) * 2 ^ (expOnes f - 3) ∧ (infBody f - 1) % 2 = 1 := by
  have double : 2 ^ (fracBits f + 1) = 2 * 2 ^ fracBits f := pow_succ' ..
  have pos : 2 ≤ 2 ^ fracBits f := by cases f <;> decide
  have first : infBody f = (expOnes f - 2) * 2 ^ fracBits f + 2 * 2 ^ fracBits f := by cases f <;> rfl
  have last : infBody f - 1 = (expOnes f - 2) * 2 ^ fracBits f + (2 * 2 ^ fracBits f - 1) := by cases f <;> rfl
  have exponent : expOnes f - 2 = expOnes f - 3 + 1 := by cases f <;> rfl
  have scale : 2 ^ (expOnes f - 2) = 2 * 2 ^ (expOnes f - 3) := by rw [exponent, pow_succ']
  refine ⟨?_, ?_, by cases f <;> decide⟩
  · rw [first, bodyMag_of_significand (.inr (by omega)) double.ge, scale]
    ring
  · rw [last, bodyMag_of_significand (.inr (by omega)) (by omega), scale, ← mul_assoc, Nat.sub_mul]
    congr 1
    omega

/-- A magnitude reaches the overflow bound exactly when its nearest body reaches infinity. -/
theorem overflowBound_le_iff {f : Fmt} {s : ℝ} {b : Nat} (nearest : NearestTo f s b) :
    ((overflowBound f : ℚ) : ℝ) ≤ s / 2 ^ quantumExp f ↔ infBody f ≤ b := by
  obtain ⟨top, last, odd⟩ := bodyMag_top f
  have pos : 1 ≤ infBody f := by cases f <;> decide
  have bound : ((overflowBound f : ℚ) : ℝ) ≤ s / 2 ^ quantumExp f ↔
      (bodyMag f (infBody f) : ℝ) + bodyMag f (infBody f - 1) ≤ 2 * s := by
    have width : 2 ≤ 4 * 2 ^ fracBits f := by have := Nat.one_le_two_pow (n := fracBits f); omega
    rw [overflowBound, top, last]
    push_cast [width]
    rw [div_le_div_iff_of_pos_right (by positivity), pow_add]
    constructor <;> intro h <;> linarith
  obtain ⟨near_top, even⟩ := nearest (pack f false (infBody f))
  obtain ⟨near_last, -⟩ := nearest (pack f false (infBody f - 1))
  simp only [quanta_pack false (le_refl _), quanta_pack false (Nat.sub_le (infBody f) 1), Bool.false_eq_true, if_false,
    Int.cast_natCast] at near_top near_last even
  have gap : (bodyMag f (infBody f - 1) : ℝ) < bodyMag f (infBody f) := by
    exact_mod_cast bodyMag_strictMono f (by omega : infBody f - 1 < infBody f)
  rw [bound]
  constructor
  · intro beyond
    by_contra! finite
    have below : (bodyMag f b : ℝ) ≤ bodyMag f (infBody f - 1) := by
      exact_mod_cast (bodyMag_strictMono f).monotone (by omega : b ≤ infBody f - 1)
    have same : (bodyMag f b : ℝ) = bodyMag f (infBody f - 1) ∧
        |s - bodyMag f b| = |s - bodyMag f (infBody f)| := by
      rw [abs_of_pos (a := s - bodyMag f b) (by linarith)] at near_top ⊢
      constructor
      · rcases le_total (bodyMag f (infBody f) : ℝ) s with h | h
        · rw [abs_of_nonneg (by linarith)] at near_top; linarith
        · rw [abs_of_nonpos (by linarith)] at near_top; linarith
      · rcases le_total (bodyMag f (infBody f) : ℝ) s with h | h
        · rw [abs_of_nonneg (by linarith)] at near_top; linarith
        · rw [abs_of_nonpos (by linarith)] at near_top ⊢; linarith
    have body : b = infBody f - 1 := (bodyMag_strictMono f).injective (by exact_mod_cast same.1)
    have := even same.2 (by rw [same.1]; exact gap.ne')
    omega
  · intro infinite
    by_contra! inside
    have above : (bodyMag f (infBody f) : ℝ) ≤ bodyMag f b := by
      exact_mod_cast (bodyMag_strictMono f).monotone infinite
    rw [abs_sub_comm, abs_of_pos (a := (bodyMag f b : ℝ) - s) (by linarith)] at near_last
    rcases abs_cases (s - bodyMag f (infBody f - 1)) with ⟨h, -⟩ | ⟨h, -⟩ <;> linarith

theorem overflowBound_pos (f : Fmt) : 0 < overflowBound f :=
  (by norm_num : (0 : ℚ) < 2 ^ 32).trans_le (two_pow_le_overflowBound f)

theorem quanta_fneg (f : Fmt) (x : Elem) : quanta f (fneg f x) = -quanta f x := by
  rw [quanta_eq, quanta_eq, bodyOf_fneg, signOf_fneg]
  cases signOf f x <;> simp

theorem pack_toNat_mod_two (f : Fmt) (neg : Bool) (b : Nat) : (pack f neg b).toNat % 2 = b % 2 := by
  cases f <;> cases neg <;> simp [pack, fwidth] <;> omega

/-- The correctly rounded result of either sign, from a nearest body. -/
theorem rounds_of_nearestTo {f : Fmt} {s : ℝ} {b : Nat} {neg : Bool} {q : ℝ} (hs : 0 ≤ s) (nearest : NearestTo f s b)
    (value : q = (if neg then -s else s) / 2 ^ quantumExp f) : Rounds f q (pack f neg (min b (infBody f))) := by
  have size : |q| = s / 2 ^ quantumExp f := by
    rw [value, abs_div, abs_of_pos (show (0 : ℝ) < 2 ^ quantumExp f by positivity)]
    split <;> simp [abs_of_nonneg hs]
  unfold Rounds
  split_ifs with beyond
  · rw [size] at beyond
    have infinite := (overflowBound_le_iff nearest).1 beyond
    rw [min_eq_right infinite]
    obtain ⟨body, sign⟩ := pack_spec neg (le_refl (infBody f))
    have pos : 0 < s := by
      by_contra! zero
      have bound : ((0 : ℚ) : ℝ) < overflowBound f := Rat.cast_lt.2 (overflowBound_pos f)
      rw [le_antisymm zero hs, zero_div] at beyond
      push_cast at bound
      linarith
    have scale : (0 : ℝ) < 2 ^ quantumExp f := by positivity
    refine ⟨by simp [isInf, body], ?_⟩
    rw [sign, value]
    cases neg
    · simpa using div_nonneg hs scale.le
    · simpa [neg_div] using div_pos pos scale
  · have finite : b < infBody f := by
      rw [size, overflowBound_le_iff nearest] at beyond
      omega
    rw [min_eq_left finite.le]
    refine ⟨isFinite_pack neg finite, fun y _ => ?_⟩
    have distance (v : ℝ) : |q - v / 2 ^ quantumExp f| = |s - if neg then -v else v| / 2 ^ quantumExp f := by
      rw [value, ← sub_div, abs_div, abs_of_pos (show (0 : ℝ) < 2 ^ quantumExp f by positivity)]
      cases neg
      · simp
      · simp only [if_true, sub_neg_eq_add]
        rw [← abs_neg]
        congr 2
        ring
    have self : (if neg then -(quanta f (pack f neg b) : ℝ) else quanta f (pack f neg b)) = bodyMag f b := by
      rw [quanta_pack neg finite.le]
      cases neg <;> simp
    have other : (if neg then -(quanta f y : ℝ) else quanta f y) = quanta f (if neg then fneg f y else y) := by
      cases neg <;> simp [quanta_fneg]
    obtain ⟨near, even⟩ := nearest (if neg then fneg f y else y)
    rw [cast_toRat, cast_toRat, distance, distance, self, other, div_le_div_iff_of_pos_right (by positivity),
      div_left_inj' (by positivity), pack_toNat_mod_two]
    refine ⟨near, fun tie apart => even tie fun same => apart ?_⟩
    rw [← other, ← self] at same
    have quanta : quanta f y = quanta f (pack f neg b) := by
      cases neg
      · exact_mod_cast same
      · exact_mod_cast neg_injective same
    rw [toRat, toRat, quanta]

/-! ## The operations on finite operands (R131) -/

theorem isFinite_fneg (f : Fmt) (x : Elem) : isFinite f (fneg f x) = isFinite f x := by simp [isFinite]

theorem isNaN_fneg (f : Fmt) (x : Elem) : isNaN f (fneg f x) = isNaN f x := by simp [isNaN]

theorem isInf_fneg (f : Fmt) (x : Elem) : isInf f (fneg f x) = isInf f x := by simp [isInf]

theorem isZero_fneg (f : Fmt) (x : Elem) : isZero f (fneg f x) = isZero f x := by simp [isZero]

theorem nearestTo_zero (f : Fmt) : NearestTo f 0 0 := fun y => by simp

theorem cast_toRat_mag (f : Fmt) (x : Elem) :
    ((toRat f x : ℚ) : ℝ) = (if signOf f x then -(mag f x : ℝ) else mag f x) / 2 ^ quantumExp f := by
  rw [cast_toRat, quanta]
  cases signOf f x <;> simp

theorem rounds_addAs {src : NanSource} {f : Fmt} {a b : Elem} (ha : isFinite f a = true) (hb : isFinite f b = true) :
    Rounds f ((toRat f a : ℝ) + toRat f b) (addAs src f a b) := by
  have value : (toRat f a : ℝ) + toRat f b = ((quanta f a + quanta f b : Int) : ℝ) / 2 ^ quantumExp f := by
    rw [cast_toRat, cast_toRat, ← add_div, Int.cast_add]
  simp only [addAs, isNaN_eq_false_of_isFinite ha, isNaN_eq_false_of_isFinite hb, isInf_eq_false_of_isFinite ha,
    isInf_eq_false_of_isFinite hb, Bool.or_self, Bool.false_eq_true, if_false]
  rw [value]
  generalize quanta f a + quanta f b = q
  split_ifs with zero
  · simpa using rounds_of_nearestTo (b := 0) (le_refl _) (nearestTo_zero f) (by simp [zero])
  · refine rounds_of_nearestTo (by positivity) (nearestTo_nearestBody f q.natAbs Nat.one_pos) ?_
    rw [Nat.cast_one, div_one, Nat.cast_natAbs]
    rcases lt_or_ge q 0 with neg | pos
    · simp [neg, abs_of_neg neg]
    · simp [not_lt.2 pos, abs_of_nonneg pos]

theorem rounds_fsub {f : Fmt} {a b : Elem} (ha : isFinite f a = true) (hb : isFinite f b = true) :
    Rounds f ((toRat f a : ℝ) - toRat f b) (fsub f a b) := by
  have negated : (toRat f (fneg f b) : ℝ) = -toRat f b := by
    rw [cast_toRat, cast_toRat, quanta_fneg, Int.cast_neg, neg_div]
  have sum := rounds_addAs (src := .sub) ha ((isFinite_fneg f b).trans hb)
  rwa [negated, ← sub_eq_add_neg] at sum

theorem rounds_fmul {f : Fmt} {a b : Elem} (ha : isFinite f a = true) (hb : isFinite f b = true) :
    Rounds f ((toRat f a : ℝ) * toRat f b) (fmul f a b) := by
  simp only [fmul, isNaN_eq_false_of_isFinite ha, isNaN_eq_false_of_isFinite hb, isInf_eq_false_of_isFinite ha,
    isInf_eq_false_of_isFinite hb, Bool.or_self, Bool.false_eq_true, if_false]
  refine rounds_of_nearestTo (by positivity) (nearestTo_nearestBody f _ (by positivity)) ?_
  rw [cast_toRat_mag, cast_toRat_mag]
  push_cast
  cases signOf f a <;> cases signOf f b <;> simp <;> ring

theorem rounds_fdiv {f : Fmt} {a b : Elem} (ha : isFinite f a = true) (hb : isFinite f b = true)
    (nonzero : isZero f b = false) : Rounds f ((toRat f a : ℝ) / toRat f b) (fdiv f a b) := by
  simp only [fdiv, isNaN_eq_false_of_isFinite ha, isNaN_eq_false_of_isFinite hb, isInf_eq_false_of_isFinite ha,
    isInf_eq_false_of_isFinite hb, nonzero, Bool.or_self, Bool.false_eq_true, if_false]
  have pos : 0 < mag f b := Nat.pos_of_ne_zero fun zero => by simp [mag_eq_zero_iff.1 zero] at nonzero
  have posReal : (0 : ℝ) < mag f b := by exact_mod_cast pos
  refine rounds_of_nearestTo (by positivity) (nearestTo_nearestBody f _ pos) ?_
  rw [cast_toRat_mag, cast_toRat_mag]
  push_cast
  cases signOf f a <;> cases signOf f b <;> simp <;> field_simp

/-! ## The root (R131) -/

theorem isqrtFuel_spec (fuel n : Nat) (h : n < 4 ^ fuel) :
    isqrtFuel fuel n * isqrtFuel fuel n ≤ n ∧ n < (isqrtFuel fuel n + 1) * (isqrtFuel fuel n + 1) := by
  induction fuel generalizing n with
  | zero => simp [isqrtFuel]; omega
  | succ fuel ih =>
    unfold isqrtFuel
    obtain ⟨low, high⟩ := ih (n / 4) (by rw [pow_succ] at h; omega)
    generalize isqrtFuel fuel (n / 4) = r at *
    have even : 2 * r * (2 * r) = 4 * (r * r) := by ring
    have next : (2 * r + 1 + 1) * (2 * r + 1 + 1) = 4 * ((r + 1) * (r + 1)) := by ring
    dsimp only
    split_ifs
    · simp_all
    · omega
    · omega

/-- The integer root brackets the real one. -/
theorem isqrt_spec (n : Nat) : isqrt n * isqrt n ≤ n ∧ n < (isqrt n + 1) * (isqrt n + 1) := by
  refine isqrtFuel_spec _ n ?_
  have four : (4 : Nat) ^ (n.log2 / 2 + 1) = 2 ^ (2 * (n.log2 / 2 + 1)) := by rw [pow_mul]; norm_num
  rw [four]
  exact Nat.lt_log2_self.trans_le (Nat.pow_le_pow_right (by omega) (by omega))

/-- A real magnitude between two bodies in succession is nearest to the lower one up to the middle, and to the upper one
from there on. -/
theorem nearestTo_of_truncated {f : Fmt} {k n : Nat} {s : ℝ} (low : k = 0 ∨ 2 ^ fracBits f ≤ n)
    (high : n < 2 ^ (fracBits f + 1)) (above : (n * 2 ^ k : ℝ) ≤ s) (below : s < (n + 1) * 2 ^ k) :
    (2 * s < (2 * n + 1) * 2 ^ k ∨ 2 * s = (2 * n + 1) * 2 ^ k ∧ n % 2 = 0 →
        NearestTo f s (k * 2 ^ fracBits f + n)) ∧
      ((2 * n + 1) * 2 ^ k < 2 * s ∨ 2 * s = (2 * n + 1) * 2 ^ k ∧ n % 2 = 1 →
        NearestTo f s (k * 2 ^ fracBits f + (n + 1))) := by
  have parity : k * 2 ^ fracBits f % 2 = 0 := by rw [Nat.mul_mod, two_pow_fracBits_mod_two, Nat.mul_zero, Nat.zero_mod]
  obtain ⟨lower, upper⟩ := bodyMag_around low high
  have between (y : Elem) : (quanta f y : ℝ) ≤ n * 2 ^ k ∨ ((n : ℝ) + 1) * 2 ^ k ≤ quanta f y := by
    have discrete := quanta_not_between f (k * 2 ^ fracBits f + n) y
    rw [lower, upper] at discrete
    exact discrete.imp (fun h => by exact_mod_cast h) (fun h => by exact_mod_cast h)
  constructor
  · intro side y
    rw [lower]
    push_cast
    rw [abs_of_nonneg (a := s - n * 2 ^ k) (by linarith)]
    rcases between y with le | ge
    · rw [abs_of_nonneg (by linarith)]
      exact ⟨by linarith, fun tie other => absurd (by linarith) other⟩
    · rw [abs_of_nonpos (by linarith)]
      rcases side with less | ⟨mid, even⟩
      · exact ⟨by linarith, fun tie => by linarith⟩
      · exact ⟨by linarith, fun _ _ => by omega⟩
  · intro side y
    rw [← add_assoc, upper]
    push_cast
    rw [abs_of_nonpos (a := s - (n + 1) * 2 ^ k) (by linarith)]
    rcases between y with le | ge
    · rw [abs_of_nonneg (by linarith)]
      rcases side with more | ⟨mid, odd⟩
      · exact ⟨by linarith, fun tie => by linarith⟩
      · exact ⟨by linarith, fun _ _ => by omega⟩
    · rw [abs_of_nonpos (by linarith)]
      exact ⟨by linarith, fun tie other => absurd (by linarith) other⟩

/-- Rounding the half of the sticky root is rounding the root, when the root has more bits than a significand. -/
theorem nearestTo_sqrt {f : Fmt} {n : Nat} (large : 2 ^ (fracBits f + 1) ≤ isqrt n) :
    NearestTo f (Real.sqrt n) (nearestBody f (stickyRoot n) 2) := by
  obtain ⟨square, next⟩ := isqrt_spec n
  obtain ⟨low, high⟩ := truncated_significand f (stickyRoot n) 2
  have scale : 1 ≤ dropBits f (stickyRoot n) 2 := by
    have half : stickyRoot n / 2 = isqrt n := by rw [stickyRoot]; split_ifs <;> omega
    have size := (Nat.le_log2 (by have := Nat.one_le_two_pow (n := fracBits f + 1); omega)).2 large
    rw [dropBits, half]
    omega
  obtain ⟨k, hk⟩ : ∃ k, dropBits f (stickyRoot n) 2 = k + 1 := ⟨_, (Nat.sub_add_cancel scale).symm⟩
  have root : (isqrt n : ℝ) ≤ Real.sqrt n ∧ Real.sqrt n < isqrt n + 1 :=
    ⟨Real.le_sqrt_of_sq_le (by exact_mod_cast (pow_two (isqrt n)).trans_le square),
      (Real.sqrt_lt' (by positivity)).2 (by exact_mod_cast next.trans_eq (pow_two (isqrt n + 1)).symm)⟩
  have sticky : stickyRoot n = 2 * isqrt n ∧ Real.sqrt n = isqrt n ∨
      stickyRoot n = 2 * isqrt n + 1 ∧ (isqrt n : ℝ) < Real.sqrt n := by
    unfold stickyRoot
    by_cases exact : isqrt n * isqrt n = n
    · exact .inl ⟨by simp [exact], (Real.sqrt_eq_iff_mul_self_eq (by positivity) (by positivity)).2 (by exact_mod_cast exact.symm)⟩
    · refine .inr ⟨by simp [exact], (Real.lt_sqrt (by positivity)).2 ?_⟩
      exact_mod_cast (pow_two (isqrt n)).trans_lt (lt_of_le_of_ne square exact)
  rw [nearestBody, divNearestEven]
  rw [hk] at low high ⊢
  have split := Nat.div_add_mod (stickyRoot n) (2 * 2 ^ (k + 1))
  have rest := Nat.mod_lt (stickyRoot n) (show 0 < 2 * 2 ^ (k + 1) by positivity)
  generalize stickyRoot n / (2 * 2 ^ (k + 1)) = m at *
  generalize stickyRoot n % (2 * 2 ^ (k + 1)) = rem at *
  generalize stickyRoot n = q at *
  generalize isqrt n = r at *
  generalize Real.sqrt n = x at *
  obtain ⟨h, hh⟩ : ∃ h, 2 ^ k = h := ⟨_, rfl⟩
  have double : 2 ^ (k + 1) = 2 * h := by rw [pow_succ', hh]
  have product : q = 4 * (m * h) + rem := by rw [← split, double]; ring
  rw [double] at rest ⊢
  have size : r = 2 * (m * h) + rem / 2 := by omega
  have cast : (2 : ℝ) ^ (k + 1) = 2 * h := by exact_mod_cast double
  have lower : ((m * 2 ^ (k + 1) : ℝ)) = (2 * (m * h) : Nat) := by rw [cast]; push_cast; ring
  have higher : (((m + 1) * 2 ^ (k + 1) : ℝ)) = (2 * (m * h) + 2 * h : Nat) := by rw [cast]; push_cast; ring
  have middle : (((2 * m + 1) * 2 ^ (k + 1) : ℝ)) = 2 * (2 * (m * h) + h : Nat) := by rw [cast]; push_cast; ring
  have fits : (r : ℝ) + 1 ≤ (2 * (m * h) + 2 * h : Nat) := by exact_mod_cast (by omega : r + 1 ≤ 2 * (m * h) + 2 * h)
  have starts : ((2 * (m * h) : Nat) : ℝ) ≤ r := by exact_mod_cast (by omega : 2 * (m * h) ≤ r)
  obtain ⟨down, up⟩ := nearestTo_of_truncated (f := f) (s := x) low high (by rw [lower]; linarith) (by rw [higher]; linarith)
  rw [middle] at down up
  generalize m * h = c at *
  split_ifs with upper
  · refine up ?_
    rcases sticky with ⟨even, rfl⟩ | ⟨odd, more⟩
    · rcases upper with upper | ⟨tie, parity⟩
      · left
        exact_mod_cast (by omega : 2 * (2 * c + h) < 2 * r)
      · right
        exact ⟨by exact_mod_cast (by omega : 2 * r = 2 * (2 * c + h)), parity⟩
    · have reached : ((2 * c + h : Nat) : ℝ) ≤ r := by exact_mod_cast (by omega : 2 * c + h ≤ r)
      exact .inl (by linarith)
  · refine down ?_
    rcases sticky with ⟨even, rfl⟩ | ⟨odd, more⟩
    · rcases Nat.lt_or_ge r (2 * c + h) with less | reached
      · left
        exact_mod_cast (by omega : 2 * r < 2 * (2 * c + h))
      · right
        exact ⟨by exact_mod_cast (by omega : 2 * r = 2 * (2 * c + h)), by omega⟩
    · have less : (r : ℝ) + 1 ≤ (2 * c + h : Nat) := by exact_mod_cast (by omega : r + 1 ≤ 2 * c + h)
      exact .inl (by linarith)

theorem rounds_fsqrt {f : Fmt} {a : Elem} (ha : isFinite f a = true) (nonneg : 0 ≤ toRat f a) :
    Rounds f (Real.sqrt (toRat f a)) (fsqrt f a) := by
  have number := isNaN_eq_false_of_isFinite ha
  by_cases zero : isZero f a = true
  · simp only [fsqrt, number, zero, Bool.false_eq_true, if_false, if_true]
    simpa using rounds_of_nearestTo (b := 0) (le_refl _) (nearestTo_zero f) (by simp [toRat, quanta_of_isZero zero])
  have pos : 0 < mag f a := Nat.pos_of_ne_zero fun h => zero (mag_eq_zero_iff.1 h)
  have sign : signOf f a = false := by
    by_contra! negative
    rw [Bool.ne_false_iff] at negative
    have value : quanta f a < 0 := by simp [quanta, negative, pos]
    have less : toRat f a < 0 := div_neg_of_neg_of_pos (by exact_mod_cast value) (by positivity)
    linarith
  have large : 2 ^ (fracBits f + 1) ≤ isqrt (mag f a * 2 ^ quantumExp f) := by
    have bits : 2 * (fracBits f + 1) ≤ quantumExp f := by cases f <;> decide
    have size : 2 ^ (fracBits f + 1) * 2 ^ (fracBits f + 1) ≤ mag f a * 2 ^ quantumExp f := by
      rw [← pow_add, ← two_mul]
      exact (Nat.pow_le_pow_right (by omega) bits).trans (Nat.le_mul_of_pos_left _ pos)
    have bracket := size.trans_lt (isqrt_spec _).2
    exact Nat.lt_succ_iff.1 (Nat.mul_self_lt_mul_self_iff.1 bracket)
  simp only [fsqrt, number, zero, sign, isInf_eq_false_of_isFinite ha, Bool.false_eq_true, if_false]
  refine rounds_of_nearestTo (by positivity) (nearestTo_sqrt large) ?_
  have scale : (0 : ℝ) ≤ 2 ^ quantumExp f := by positivity
  rw [cast_toRat_mag, sign, if_neg (by simp), if_neg (by simp), Nat.cast_mul, Nat.cast_pow, Nat.cast_ofNat,
    Real.sqrt_div (by positivity), Real.sqrt_mul (by positivity), div_eq_div_iff (by positivity) (by positivity), mul_assoc,
    Real.mul_self_sqrt scale]

/-! ## Special values (R132) -/

section NaN
variable {f : Fmt} {a b : Elem} (h : isNaN f a = true ∨ isNaN f b = true)
include h

theorem isNaN_addAs (src : NanSource) : isNaN f (addAs src f a b) = true := by simp [addAs, h, isNaN_nanOf]

theorem isNaN_fadd : isNaN f (fadd f a b) = true := isNaN_addAs h .add

theorem isNaN_fsub : isNaN f (fsub f a b) = true := isNaN_addAs (by rwa [isNaN_fneg]) .sub

theorem isNaN_fmul : isNaN f (fmul f a b) = true := by simp [fmul, h, isNaN_nanOf]

theorem isNaN_fdiv : isNaN f (fdiv f a b) = true := by simp [fdiv, h, isNaN_nanOf]

theorem isNaN_fatan2 : isNaN f (fatan2 f a b) = true := by simp [fatan2, h, isNaN_nanOf]

theorem isNaN_fpow (exponent : isZero f b = false) (base : feq f a (fone f) = false) : isNaN f (fpow f a b) = true := by
  simp [fpow, h, exponent, base, isNaN_nanOf]

end NaN

theorem fsqrt_of_isNaN {f : Fmt} {a : Elem} (h : isNaN f a = true) : isNaN f (fsqrt f a) = true := by
  simp [fsqrt, h, isNaN_nanOf]

theorem fexp_of_isNaN {f : Fmt} {a : Elem} (h : isNaN f a = true) : isNaN f (fexp f a) = true := by
  simp [fexp, h, isNaN_nanOf]

theorem fsin_of_isNaN {f : Fmt} {a : Elem} (h : isNaN f a = true) : isNaN f (fsin f a) = true := by
  simp [fsin, h, isNaN_nanOf]

theorem fcos_of_isNaN {f : Fmt} {a : Elem} (h : isNaN f a = true) : isNaN f (fcos f a) = true := by
  simp [fcos, h, isNaN_nanOf]

theorem not_isNaN_of_isInf {f : Fmt} {a : Elem} (h : isInf f a = true) : isNaN f a = false := by
  simp_all [isInf, isNaN]

theorem not_isZero_of_isInf {f : Fmt} {a : Elem} (h : isInf f a = true) : isZero f a = false := by
  have pos : 0 < infBody f := by cases f <;> decide
  simp_all [isInf, isZero]
  omega

/-- Infinities of the same sign add up to it; those of different signs have no sum. -/
theorem addAs_inf_inf {src : NanSource} {f : Fmt} {a b : Elem} (ha : isInf f a = true) (hb : isInf f b = true) :
    addAs src f a b = if signOf f a = signOf f b then finf f (signOf f a) else nanOf f src a b := by
  simp only [addAs, not_isNaN_of_isInf ha, not_isNaN_of_isInf hb, ha, hb]
  by_cases same : signOf f a = signOf f b <;> simp [same]

theorem fmul_inf {f : Fmt} {a b : Elem} (numbers : isNaN f a = false ∧ isNaN f b = false)
    (inf : isInf f a = true ∨ isInf f b = true) (nonzero : isZero f a = false ∧ isZero f b = false) :
    fmul f a b = finf f (signOf f a != signOf f b) := by
  simp [fmul, numbers, inf, nonzero]

theorem isNaN_fmul_inf_zero {f : Fmt} {a b : Elem} (inf : isInf f a = true ∨ isInf f b = true)
    (zero : isZero f a = true ∨ isZero f b = true) : isNaN f (fmul f a b) = true := by
  by_cases nan : isNaN f a = true ∨ isNaN f b = true
  · exact isNaN_fmul nan
  · simp [fmul, nan, inf, zero, isNaN_nanOf]

/-- An infinity and a finite value add up to the infinity. -/
theorem addAs_inf_finite {src : NanSource} {f : Fmt} {a b : Elem} (ha : isInf f a = true) (hb : isFinite f b = true) :
    addAs src f a b = finf f (signOf f a) ∧ addAs src f b a = finf f (signOf f a) := by
  simp [addAs, not_isNaN_of_isInf ha, isNaN_eq_false_of_isFinite hb, ha, isInf_eq_false_of_isFinite hb]

end Sys2Proof.Machine

namespace Sys2Proof.Proofs

open Sys2Proof.Machine Sys2Proof.Safety

/-- Settles O47: rounding by the nearest body, the special values by the branch each operation takes. -/
theorem basicOpsRounded : Obligations.BasicOpsRounded := by
  unfold Obligations.BasicOpsRounded
  refine ⟨fun f a b ha hb => ⟨rounds_addAs ha hb, rounds_fsub ha hb, rounds_fmul ha hb, rounds_fdiv ha hb⟩,
    fun f a => rounds_fsqrt, fun f a b nan => ⟨?_, isNaN_fpow nan⟩, fun f a nan => ?_, fun f a b ha hb => ?_,
    fun f a b ha => ⟨fun hb => ⟨isNaN_fmul_inf_zero (.inr hb) (.inl ha), isNaN_fmul_inf_zero (.inl hb) (.inr ha)⟩,
      fun hb => ?_, fun finite nonzero => ?_⟩, fun f a negative => ?_, fun f a b ha hb => ?_⟩
  · simp [isNaN_fadd nan, isNaN_fsub nan, isNaN_fmul nan, isNaN_fdiv nan, isNaN_fatan2 nan]
  · simp [fsqrt_of_isNaN nan, flog_of_isNaN nan, fexp_of_isNaN nan, fsin_of_isNaN nan, fcos_of_isNaN nan]
  · have negated : isInf f (fneg f b) = true := (isInf_fneg f b).trans hb
    refine ⟨?_, ?_, ?_, fmul_inf ⟨not_isNaN_of_isInf ha, not_isNaN_of_isInf hb⟩ (.inl ha)
      ⟨not_isZero_of_isInf ha, not_isZero_of_isInf hb⟩⟩
    · split_ifs with same
      · simp [fsub, addAs_inf_inf ha negated, same, isNaN_nanOf]
      · simp [fadd, addAs_inf_inf ha hb, same, isNaN_nanOf]
    · simp [fdiv, not_isNaN_of_isInf ha, not_isNaN_of_isInf hb, ha, hb, isNaN_nanOf]
    · split_ifs with same
      · simp [fadd, addAs_inf_inf ha hb, same]
      · rw [fsub, addAs_inf_inf ha negated, if_pos (by rw [signOf_fneg]; exact Bool.eq_not.2 same)]
  · simp [fdiv, ha, hb, isNaN_nanOf, isInf_eq_false_of_isFinite (isFinite_of_isZero _)]
  · simp [fdiv, isNaN_eq_false_of_isFinite finite, ha, isInf_eq_false_of_isFinite finite, nonzero,
      isInf_eq_false_of_isFinite (isFinite_of_isZero ha)]
  · obtain ⟨number, nonzero, sign⟩ := flt_fzero_iff.1 negative
    simp [fsqrt, number, nonzero, sign, isNaN_nanOf]
  · have negated : isInf f (fneg f a) = true := (isInf_fneg f a).trans ha
    have numbers := And.intro (not_isNaN_of_isInf ha) (isNaN_eq_false_of_isFinite hb)
    have finite := isInf_eq_false_of_isFinite hb
    refine ⟨(addAs_inf_finite ha hb).1, (addAs_inf_finite ha hb).2,
      (addAs_inf_finite ha ((isFinite_fneg f b).trans hb)).1, ?_, ?_, ?_, fun nonzero => ⟨?_, ?_⟩, fun positive => ?_⟩
    · rw [fsub, (addAs_inf_finite negated hb).2, signOf_fneg]
    · simp [fdiv, numbers, ha, finite]
    · simp [fdiv, numbers, ha, finite]
    · exact fmul_inf numbers (.inl ha) ⟨not_isZero_of_isInf ha, nonzero⟩
    · rw [fmul_inf numbers.symm (.inr ha) ⟨nonzero, not_isZero_of_isInf ha⟩, bne_comm]
    · simp [fsqrt, numbers, not_isZero_of_isInf ha, positive, ha]

end Sys2Proof.Proofs
end

section
/-! PROOFS. Exact arithmetic: an operation whose exact result is a value of the format gives it, up to the sign of a zero. -/

namespace Sys2Proof.Machine

open Sys2Proof.Safety

/-- A finite element of `q` quanta. -/
def IsVal (f : Fmt) (x : Elem) (q : Int) : Prop := isFinite f x = true ∧ quanta f x = q

/-- Some element has `q` quanta. -/
def Representable (f : Fmt) (q : Int) : Prop := ∃ c, IsVal f c q

/-- An integer in quanta. -/
def ofInt (f : Fmt) (k : Int) : Int := k * 2 ^ quantumExp f

theorem isVal_zero_iff {f : Fmt} {x : Elem} : IsVal f x 0 ↔ isZero f x = true := by
  refine ⟨fun ⟨_, zero⟩ => ?_, fun zero => ⟨isFinite_of_isZero zero, quanta_of_isZero zero⟩⟩
  rw [← mag_eq_zero_iff]
  unfold quanta at zero
  split at zero <;> omega

theorem quanta_eq_zero_iff {f : Fmt} {x : Elem} (finite : isFinite f x = true) : quanta f x = 0 ↔ isZero f x = true :=
  ⟨fun zero => isVal_zero_iff.1 ⟨finite, zero⟩, quanta_of_isZero⟩

theorem isVal_fzero (f : Fmt) : IsVal f fzero 0 := isVal_zero_iff.2 (isZero_fzero f)

theorem quanta_fone (f : Fmt) : quanta f (fone f) = 2 ^ quantumExp f := by
  have sign : signOf f (fone f) = false := by cases f <;> decide
  rw [quanta, sign, (isUnit1_fone f).2]
  simp

theorem isVal_fone (f : Fmt) : IsVal f (fone f) (ofInt f 1) :=
  ⟨(isUnit1_fone f).1, by rw [quanta_fone, ofInt, one_mul]⟩

theorem IsVal.neg {f : Fmt} {x : Elem} {p : Int} (h : IsVal f x p) : IsVal f (fneg f x) (-p) :=
  ⟨(isFinite_fneg f x).trans h.1, by rw [quanta_fneg, h.2]⟩

/-- A value that is not a zero has one encoding. -/
theorem IsVal.unique {f : Fmt} {x y : Elem} {p : Int} (hx : IsVal f x p) (hy : IsVal f y p) (nonzero : p ≠ 0)
    (narrow_x : Narrow f x) (narrow_y : Narrow f y) : x = y := by
  have key := quanta_inj.1 (hx.2.trans hy.2.symm)
  have zero : orderKey f x ≠ 0 := fun h => nonzero (by
    rw [← hx.2, ← quanta_of_isZero (isZero_fzero f), quanta_inj, h, orderKey_fzero])
  have same : bodyOf f x = bodyOf f y ∧ signOf f x = signOf f y := by
    unfold orderKey at key zero
    cases hsx : signOf f x <;> cases hsy : signOf f y <;> simp [hsx, hsy] at key zero ⊢ <;> omega
  rw [← pack_signOf_bodyOf narrow_x, ← pack_signOf_bodyOf narrow_y, same.1, same.2]

/-! ## The operations -/

theorem IsVal.addAs {f : Fmt} {a b : Elem} {p q : Int} (ha : IsVal f a p) (hb : IsVal f b q) (src : NanSource)
    (fits : Representable f (p + q)) : IsVal f (addAs src f a b) (p + q) := by
  obtain ⟨c, finite, value⟩ := fits
  rw [← value]
  exact addAs_exact ha.1 hb.1 finite (by rw [ha.2, hb.2, value])

theorem IsVal.add {f : Fmt} {a b : Elem} {p q : Int} (ha : IsVal f a p) (hb : IsVal f b q)
    (fits : Representable f (p + q)) : IsVal f (fadd f a b) (p + q) := ha.addAs hb .add fits

theorem IsVal.sub {f : Fmt} {a b : Elem} {p q : Int} (ha : IsVal f a p) (hb : IsVal f b q)
    (fits : Representable f (p - q)) : IsVal f (fsub f a b) (p - q) := by
  rw [sub_eq_add_neg] at fits ⊢
  exact ha.addAs hb.neg .sub fits

theorem quanta_eq_mag (f : Fmt) (x : Elem) : quanta f x = (if signOf f x then -1 else 1) * (mag f x : Int) := by
  rw [quanta]
  split <;> simp

/-- The element of a given sign and magnitude. -/
theorem isVal_pack {f : Fmt} {c : Elem} {neg : Bool} {r : Int} (finite : isFinite f c = true)
    (value : r = (if neg then -1 else 1) * (mag f c : Int)) : IsVal f (pack f neg (bodyOf f c)) r := by
  have body : bodyOf f c < infBody f := by simpa [isFinite] using finite
  refine ⟨isFinite_pack neg body, ?_⟩
  rw [quanta_pack neg body.le, value, mag_eq]
  cases neg <;> simp

/-- Equal products have factors of the same signs, where they are not zero. -/
theorem sign_of_product {sa sb sc : Bool} {a b c d : Nat} (mags : a * b = c * d) (pos : 0 < d)
    (h : (if sa then -1 else 1) * (a : Int) * ((if sb then -1 else 1) * b) = (if sc then -1 else 1) * (c : Int) * d) :
    (if sc then -1 else 1 : Int) * c = (if sa != sb then -1 else 1) * c := by
  have cast : (a : Int) * b = c * d := by exact_mod_cast mags
  have product : ((if sa != sb then -1 else 1 : Int) * c) * d = (if sc then -1 else 1) * c * d := by
    rw [← h, mul_assoc, ← cast]
    cases sa <;> cases sb <;> simp
  exact (Int.eq_of_mul_eq_mul_right (by omega) product).symm

theorem sign_of_quotient {sa sb sc : Bool} {a b c d : Nat} (mags : a * d = c * b) (pos : 0 < b)
    (h : (if sa then -1 else 1) * (a : Int) * d = (if sc then -1 else 1) * (c : Int) * ((if sb then -1 else 1) * b)) :
    (if sc then -1 else 1 : Int) * c = (if sa != sb then -1 else 1) * c := by
  have cast : (a : Int) * d = c * b := by exact_mod_cast mags
  have quotient : ((if sa != sb then -1 else 1 : Int) * c) * b = (if sc then -1 else 1) * c * b := by
    have square : (if sb then -1 else 1 : Int) * (if sb then -1 else 1) = 1 := by cases sb <;> rfl
    have split : (if sa != sb then -1 else 1 : Int) = (if sa then -1 else 1) * (if sb then -1 else 1) := by
      cases sa <;> cases sb <;> rfl
    rw [mul_assoc, cast] at h
    rw [split]
    linear_combination (if sb then -1 else 1 : Int) * h + (if sc then -1 else 1) * (c : Int) * b * square
  exact (Int.eq_of_mul_eq_mul_right (by omega) quotient).symm

theorem IsVal.mul {f : Fmt} {a b : Elem} {p q r : Int} (ha : IsVal f a p) (hb : IsVal f b q) (fits : Representable f r)
    (product : p * q = r * 2 ^ quantumExp f) : IsVal f (fmul f a b) r := by
  obtain ⟨c, finite, value⟩ := fits
  have mags : mag f a * mag f b = mag f c * 2 ^ quantumExp f := by
    have size := congrArg Int.natAbs product
    rw [← ha.2, ← hb.2, ← value, Int.natAbs_mul, Int.natAbs_mul, Int.natAbs_pow] at size
    simpa [quanta_eq_mag, Int.natAbs_mul, apply_ite Int.natAbs] using size
  rw [fmul_exact ha.1 hb.1 finite mags]
  refine isVal_pack finite ?_
  rw [← value, quanta_eq_mag]
  refine sign_of_product mags (by positivity) ?_
  rw [← quanta_eq_mag, ← quanta_eq_mag, ← quanta_eq_mag, ha.2, hb.2, value, product]
  simp

theorem IsVal.div {f : Fmt} {a b : Elem} {p q r : Int} (ha : IsVal f a p) (hb : IsVal f b q) (nonzero : q ≠ 0)
    (fits : Representable f r) (quotient : p * 2 ^ quantumExp f = r * q) : IsVal f (fdiv f a b) r := by
  obtain ⟨c, finite, value⟩ := fits
  have zero : isZero f b = false := by
    rw [← Bool.not_eq_true, ← quanta_eq_zero_iff hb.1, hb.2]
    exact nonzero
  have pos : 0 < mag f b := Nat.pos_of_ne_zero fun h => by simp [mag_eq_zero_iff.1 h] at zero
  have mags : mag f a * 2 ^ quantumExp f = mag f c * mag f b := by
    have size := congrArg Int.natAbs quotient
    rw [← ha.2, ← hb.2, ← value, Int.natAbs_mul, Int.natAbs_mul, Int.natAbs_pow] at size
    simpa [quanta_eq_mag, Int.natAbs_mul, apply_ite Int.natAbs] using size
  have body : bodyOf f c < infBody f := by simpa [isFinite] using finite
  have result : fdiv f a b = pack f (signOf f a != signOf f b) (bodyOf f c) := by
    simp only [fdiv, isNaN_eq_false_of_isFinite ha.1, isNaN_eq_false_of_isFinite hb.1, isInf_eq_false_of_isFinite ha.1,
      isInf_eq_false_of_isFinite hb.1, zero, Bool.or_self, Bool.false_eq_true, if_false, mags]
    rw [mag_eq f c, roundBody_bodyMag pos body.le]
  rw [result]
  refine isVal_pack finite ?_
  rw [← value, quanta_eq_mag]
  refine sign_of_quotient mags pos ?_
  rw [← quanta_eq_mag, ← quanta_eq_mag, ← quanta_eq_mag, ha.2, hb.2, value, ← quotient]
  simp

/-- Finite values compare as their quanta do. -/
theorem flt_iff_quanta {f : Fmt} {x y : Elem} (hx : isFinite f x = true) (hy : isFinite f y = true) :
    flt f x y = true ↔ quanta f x < quanta f y := by
  rw [← not_le, quanta_le_iff]
  simp [flt, ordered, isNaN_eq_false_of_isFinite hx, isNaN_eq_false_of_isFinite hy]

/-! ## Zeros, units and sums with a zero -/

theorem isZero_addAs_isZero {src : NanSource} {f : Fmt} {a b : Elem} (ha : isZero f a = true) (hb : isZero f b = true) :
    isZero f (addAs src f a b) = true :=
  isVal_zero_iff.1 (by simpa using (isVal_zero_iff.2 ha).addAs (isVal_zero_iff.2 hb) src ⟨fzero, by simpa using isVal_fzero f⟩)

theorem isZero_fadd {f : Fmt} {a b : Elem} (ha : isZero f a = true) (hb : isZero f b = true) :
    isZero f (fadd f a b) = true := isZero_addAs_isZero ha hb

theorem isZero_fsub {f : Fmt} {a b : Elem} (ha : isZero f a = true) (hb : isZero f b = true) :
    isZero f (fsub f a b) = true := isZero_addAs_isZero ha ((isZero_fneg f b).trans hb)

theorem isZero_fmul_left {f : Fmt} {a b : Elem} (ha : isZero f a = true) (hb : isFinite f b = true) :
    isZero f (fmul f a b) = true :=
  isVal_zero_iff.1 ((isVal_zero_iff.2 ha).mul ⟨hb, rfl⟩ ⟨fzero, isVal_fzero f⟩ (by simp))

theorem isZero_fmul_right {f : Fmt} {a b : Elem} (ha : isFinite f a = true) (hb : isZero f b = true) :
    isZero f (fmul f a b) = true :=
  isVal_zero_iff.1 (IsVal.mul ⟨ha, rfl⟩ (isVal_zero_iff.2 hb) ⟨fzero, isVal_fzero f⟩ (by simp))

theorem isZero_fdiv {f : Fmt} {a b : Elem} (ha : isZero f a = true) (hb : isFinite f b = true) (nonzero : isZero f b = false) :
    isZero f (fdiv f a b) = true :=
  isVal_zero_iff.1 ((isVal_zero_iff.2 ha).div ⟨hb, rfl⟩ (by simp [quanta_eq_zero_iff hb, nonzero]) ⟨fzero, isVal_fzero f⟩ (by simp))

/-- The product by 1 on either side is the factor. -/
theorem IsVal.fone_mul {f : Fmt} {a : Elem} {p : Int} (ha : IsVal f a p) : IsVal f (fmul f (fone f) a) p :=
  (isVal_fone f).mul ha ⟨a, ha⟩ (by rw [ofInt]; ring)

theorem IsVal.addAs_isZero {src : NanSource} {f : Fmt} {a b : Elem} {p : Int} (ha : IsVal f a p) (hb : isZero f b = true) :
    IsVal f (Machine.addAs src f a b) p := by
  simpa using ha.addAs (isVal_zero_iff.2 hb) src ⟨a, by simpa using ha⟩

theorem IsVal.isZero_addAs {src : NanSource} {f : Fmt} {a b : Elem} {p : Int} (ha : isZero f a = true) (hb : IsVal f b p) :
    IsVal f (Machine.addAs src f a b) p := by
  simpa using (isVal_zero_iff.2 ha).addAs hb src ⟨b, by simpa using hb⟩

theorem isVal_fone_iff {f : Fmt} {x : Elem} (inFormat : Narrow f x) : IsVal f x (ofInt f 1) ↔ x = fone f :=
  ⟨fun h => h.unique (isVal_fone f) (by rw [ofInt]; positivity) inFormat (Narrow_fone f), fun h => h ▸ isVal_fone f⟩

/-- A value less itself is `+0`. -/
theorem fsub_self {f : Fmt} {x : Elem} (finite : isFinite f x = true) : fsub f x x = fzero := by
  have other := (isFinite_fneg f x).trans finite
  simp [fsub, addAs, isNaN_eq_false_of_isFinite finite, isNaN_eq_false_of_isFinite other, isInf_eq_false_of_isFinite finite,
    isInf_eq_false_of_isFinite other, quanta_fneg, pack_false_zero]

/-! ## Integers of few significant bits -/

/-- An integer of no more bits than a significand, with some zeros after it. -/
def ShortInt (f : Fmt) (k : Int) : Prop := ∃ m j : Nat, m ≤ 2 ^ (fracBits f + 1) ∧ j ≤ 64 ∧ k.natAbs = m * 2 ^ j

theorem shortInt_of_le {f : Fmt} {k : Int} (h : |k| ≤ 2 ^ 24) : ShortInt f k := by
  have room : 2 ^ 24 ≤ 2 ^ (fracBits f + 1) := Nat.pow_le_pow_right (by omega) (by cases f <;> decide)
  have size : k.natAbs ≤ 2 ^ 24 := by
    rw [Int.abs_eq_natAbs] at h
    exact_mod_cast h
  exact ⟨k.natAbs, 0, size.trans room, by omega, by simp⟩

theorem shortInt_two_pow (f : Fmt) {j : Nat} (h : j ≤ 64) : ShortInt f (2 ^ j) :=
  ⟨1, j, Nat.one_le_two_pow, h, by rw [one_mul, Int.natAbs_pow]; rfl⟩

/-- The body of such an integer. -/
theorem ShortInt.exists_body {f : Fmt} {k : Int} (h : ShortInt f k) :
    ∃ b < infBody f, bodyMag f b = k.natAbs * 2 ^ quantumExp f := by
  obtain ⟨m, j, hm, hj, value⟩ := h
  obtain ⟨b, hb, mag⟩ := exists_bodyMag_eq hm (j + quantumExp f)
  have room : j + quantumExp f + 2 < expOnes f := by cases f <;> simp [quantumExp, expOnes] <;> omega
  exact ⟨b, hb.trans_lt (Nat.mul_lt_mul_of_pos_right room (by positivity)), by rw [mag, value, pow_add, mul_assoc]⟩

theorem ShortInt.representable {f : Fmt} {k : Int} (h : ShortInt f k) : Representable f (ofInt f k) := by
  obtain ⟨b, finite, mag⟩ := h.exists_body
  refine ⟨pack f (k < 0) b, isFinite_pack _ finite, ?_⟩
  rw [quanta_pack _ finite.le, mag, ofInt]
  push_cast
  rcases lt_or_ge k 0 with neg | pos
  · simp [neg, abs_of_neg neg]
  · simp [not_lt.2 pos, abs_of_nonneg pos]

theorem isVal_i2f {f : Fmt} {k : Nat} (h : ShortInt f k) : IsVal f (i2f f k) (ofInt f k) := by
  obtain ⟨b, finite, mag⟩ := h.exists_body
  rw [Int.natAbs_natCast] at mag
  have body : roundBody f (k * 2 ^ quantumExp f) 1 = b := by
    rw [← mag, ← Nat.mul_one (bodyMag f b), roundBody_bodyMag Nat.one_pos finite.le]
  rw [i2f, body]
  refine ⟨isFinite_pack _ finite, ?_⟩
  rw [quanta_pack _ finite.le, mag, ofInt]
  simp

end Sys2Proof.Machine
end

section
/-! PROOFS. The machine's curves (R238 to R240) and the level of a spectrum of ones (R234). -/

namespace Sys2Proof.Machine

open Sys2Proof.Safety

/-! ## The curves -/

theorem insideUnit_iff {f : Fmt} {x : Elem} :
    insideUnit f x = true ↔ flt f fzero x = true ∧ flt f x (fone f) = true := by simp [insideUnit]

/-- The soft dip curve, where the start fraction is inside the unit and the range is positive. -/
theorem dipCurve_soft {f : Fmt} {t x : Elem} (inside : flt f fzero x = true ∧ flt f x (fone f) = true)
    (range : flt f fzero (fsub f (fdiv f t x) t) = true) (m : Elem) : dipCurve f t x m =
      if flt f m (fdiv f t x) then
        fsub f (fdiv f t x) (fmul f (fsub f (fdiv f t x) t)
          (blend f (fdiv f (fsub f (fdiv f t x) m) (fsub f (fdiv f t x) t))))
      else m := by
  simp [dipCurve, insideUnit_iff.2 inside, range]

theorem dipCurve_hard {f : Fmt} {t x : Elem}
    (hard : ¬ ((flt f fzero x = true ∧ flt f x (fone f) = true) ∧ flt f fzero (fsub f (fdiv f t x) t) = true)) (m : Elem) :
    dipCurve f t x m = dipHard f m t := by
  rw [← insideUnit_iff] at hard
  unfold dipCurve
  split_ifs with inside
  · exact if_neg fun range => hard ⟨inside, range⟩
  · rfl

theorem peakCurve_soft {f : Fmt} {top x : Elem} (inside : flt f fzero x = true ∧ flt f x (fone f) = true)
    (range : flt f fzero (fsub f top (fmul f x top)) = true) (m : Elem) : peakCurve f top x m =
      if flt f (fmul f x top) m then
        fadd f (fmul f x top) (fmul f (fsub f top (fmul f x top))
          (blend f (fdiv f (fsub f m (fmul f x top)) (fsub f top (fmul f x top)))))
      else m := by
  simp [peakCurve, insideUnit_iff.2 inside, range]

theorem peakCurve_hard {f : Fmt} {top x : Elem}
    (hard : ¬ ((flt f fzero x = true ∧ flt f x (fone f) = true) ∧ flt f fzero (fsub f top (fmul f x top)) = true))
    (m : Elem) : peakCurve f top x m = peakHard f m top := by
  rw [← insideUnit_iff] at hard
  unfold peakCurve
  split_ifs with inside
  · exact if_neg fun range => hard ⟨inside, range⟩
  · rfl

/-- A NaN magnitude is on neither side of a level, and with a NaN bound there is no range. -/
theorem dipCurve_of_isNaN {f : Fmt} {t x m : Elem} (h : isNaN f m = true ∨ isNaN f t = true) : dipCurve f t x m = m := by
  by_cases soft : (flt f fzero x = true ∧ flt f x (fone f) = true) ∧ flt f fzero (fsub f (fdiv f t x) t) = true
  · have number : isNaN f t = false := by
      by_contra! nan
      rw [Bool.ne_false_iff] at nan
      exact absurd soft.2 (by simp [flt_of_isNaN (f := f) (.inr (isNaN_fsub (.inr nan)))])
    rw [dipCurve_soft soft.1 soft.2, flt_of_isNaN (.inl (h.resolve_right (by simp [number]))), if_neg (by simp)]
  · rw [dipCurve_hard soft, dipHard, flt_of_isNaN h, if_neg (by simp)]

theorem peakCurve_of_isNaN {f : Fmt} {top x m : Elem} (h : isNaN f m = true ∨ isNaN f top = true) :
    peakCurve f top x m = m := by
  by_cases soft : (flt f fzero x = true ∧ flt f x (fone f) = true) ∧ flt f fzero (fsub f top (fmul f x top)) = true
  · have number : isNaN f top = false := by
      by_contra! nan
      rw [Bool.ne_false_iff] at nan
      exact absurd soft.2 (by simp [flt_of_isNaN (f := f) (.inr (isNaN_fsub (.inl nan)))])
    rw [peakCurve_soft soft.1 soft.2, flt_of_isNaN (.inr (h.resolve_right (by simp [number]))), if_neg (by simp)]
  · rw [peakCurve_hard soft, peakHard, flt_of_isNaN h.symm, if_neg (by simp)]

theorem fsub_fone_fzero (f : Fmt) : fsub f (fone f) fzero = fone f := by cases f <;> decide +kernel

/-- With factor 1 the flatten curve keeps a finite magnitude. -/
theorem isVal_flatCurve_fone {f : Fmt} {gain m : Elem} {p : Int} (hg : isFinite f gain = true) (hm : IsVal f m p) :
    IsVal f (flatCurve f gain (fone f) m) p := by
  have rest : isZero f (fmul f (fsub f (fone f) (fone f)) gain) = true := by
    rw [fsub_self (isVal_fone f).1]
    exact isZero_fmul_left (isZero_fzero f) hg
  exact hm.fone_mul.addAs_isZero rest

/-- With factor 0 it gives the gain. -/
theorem isVal_flatCurve_fzero {f : Fmt} {gain m : Elem} {p : Int} (hg : IsVal f gain p) (hm : isFinite f m = true) :
    IsVal f (flatCurve f gain fzero m) p := by
  rw [flatCurve, fsub_fone_fzero]
  exact hg.fone_mul.isZero_addAs (isZero_fmul_left (isZero_fzero f) hm)

/-! ## Sums of ones (R147) -/

/-- Adding 1 to an integer. -/
theorem fadd_i2f_fone {f : Fmt} {k : Nat} (hk : k < 2 ^ 24) : fadd f (i2f f k) (fone f) = i2f f (k + 1) := by
  have before : ShortInt f k := shortInt_of_le (by rw [Nat.abs_cast]; exact_mod_cast hk.le)
  have after : ShortInt f (k + 1 : Nat) := shortInt_of_le (by rw [Nat.abs_cast]; exact_mod_cast hk)
  have sum : ofInt f k + ofInt f 1 = ofInt f (k + 1 : Nat) := by
    rw [ofInt, ofInt, ofInt, ← add_mul]
    rfl
  have value := (isVal_i2f before).add (isVal_fone f) (by rw [sum]; exact after.representable)
  rw [sum] at value
  exact value.unique (isVal_i2f after) (by rw [ofInt]; positivity) (Narrow_fadd ..) (Narrow_i2f ..)

/-- Taking an integer from its successor. -/
theorem fsub_i2f_succ {f : Fmt} {k : Nat} (hk : k < 2 ^ 24) : fsub f (i2f f (k + 1)) (i2f f k) = fone f := by
  have before : ShortInt f k := shortInt_of_le (by rw [Nat.abs_cast]; exact_mod_cast hk.le)
  have after : ShortInt f (k + 1 : Nat) := shortInt_of_le (by rw [Nat.abs_cast]; exact_mod_cast hk)
  have difference : ofInt f (k + 1 : Nat) - ofInt f k = ofInt f 1 := by
    rw [ofInt, ofInt, ofInt, ← sub_mul]
    push_cast
    ring
  have value := (isVal_i2f after).sub (isVal_i2f before) (by rw [difference]; exact ⟨_, isVal_fone f⟩)
  rw [difference] at value
  exact (isVal_fone_iff (Narrow_fsub ..)).1 value

theorem i2f_zero (f : Fmt) : i2f f 0 = fzero := by cases f <;> decide +kernel

/-- The compensated sum of ones is exact: the compensation stays `+0`. -/
theorem ksum_replicate_fone (f : Fmt) {n : Nat} (hn : n ≤ 2 ^ 24) : ksum f (List.replicate n (fone f)) = i2f f n := by
  have state : ∀ k ≤ n, ksumAfter f (List.replicate n (fone f)) k = (i2f f k, fzero) := by
    intro k hk
    induction k with
    | zero => rw [i2f_zero]; rfl
    | succ k ih =>
      rw [ksumAfter_succ _ _ (by simpa using hk), ih (by omega), ksumStep, List.getElem_replicate, fsub_fone_fzero,
        fadd_i2f_fone (by omega), fsub_i2f_succ (by omega), fsub_self (isVal_fone f).1]
  rw [ksum_eq_ksumAfter, List.length_replicate, state n (le_refl n)]

theorem fsqrt_fone (f : Fmt) : fsqrt f (fone f) = fone f := by cases f <;> decide +kernel

/-- The power of the value `(1, +0)`. -/
theorem power_one (f : Fmt) : power f ⟨fone f, fzero⟩ = fone f := by cases f <;> decide +kernel

/-- A zero exponent gives every bin the weight 1. -/
theorem weight_of_isZero {f : Fmt} {w : Elem} (h : isZero f w = true) (k : Nat) : weight f w k = fone f := by
  have equal : feq f w fzero = true :=
    feq_of_quanta_eq (isFinite_of_isZero h) (isVal_fzero f).1 (by rw [quanta_of_isZero h, (isVal_fzero f).2])
  rw [weight_eq, if_pos (.inr equal)]

theorem normaliser_of_isZero {f : Fmt} {w : Elem} (h : isZero f w = true) (direct fs kLo kHi : Nat) :
    normaliser f direct fs w kLo kHi = ksum f (List.replicate (bins kLo (some kHi)).length (fone f)) := by
  have other : feq f w (fone f) = false := by
    rw [← Bool.not_eq_true, feq_iff, ← quanta_inj, quanta_of_isZero h, quanta_fone]
    exact fun same => absurd same.2.2 (by positivity)
  rw [normaliser_eq, if_neg (by simp [other]), funext (weight_of_isZero h), List.map_const']

theorem weightedPower_of_ones {f : Fmt} {w : Elem} (h : isZero f w = true) {x : List Cx} {kLo kHi : Nat}
    (ones : ∀ k ∈ bins kLo (some kHi), x.getD k czero = ⟨fone f, fzero⟩) :
    weightedPower f w x kLo kHi = ksum f (List.replicate (bins kLo (some kHi)).length (fone f)) := by
  have terms : ∀ k ∈ bins kLo (some kHi), fmul f (weight f w k) (power f (x.getD k czero)) = fone f := by
    intro k hk
    rw [weight_of_isZero h, ones k hk, power_one, fmul_fone_fone]
  rw [weightedPower, List.map_congr_left terms, List.map_const']

/-- The level of a spectrum that is 1 on the band. -/
theorem blrms_of_ones {f : Fmt} {direct fs : Nat} {p : BandParams} {x : List Cx} (size : fs ≤ 2 ^ 24)
    (exponent : isZero f p.wexp = true) (band : bins (bandLow f fs p) (bandHigh f fs p) ≠ [])
    (ones : ∀ k ≤ fs / 2, x.getD k czero = ⟨fone f, fzero⟩) : blrms f direct fs p x = fone f := by
  obtain ⟨k, hk⟩ := List.exists_mem_of_ne_nil _ band
  obtain ⟨-, kHi, high, -⟩ := mem_bins.1 hk
  have half := bandHigh_le f fs p high
  have inHalf : ∀ k ∈ bins (bandLow f fs p) (some kHi), k ≤ fs / 2 := by
    intro k hk
    obtain ⟨-, top, same, below⟩ := mem_bins.1 hk
    cases same
    omega
  have count : (bins (bandLow f fs p) (some kHi)).length ≤ 2 ^ 24 := by
    simp only [bins, List.length_range']
    omega
  have pos : 0 < (bins (bandLow f fs p) (some kHi)).length := List.length_pos_iff.2 (high ▸ band)
  have short : ShortInt f (bins (bandLow f fs p) (some kHi)).length :=
    shortInt_of_le (by rw [Nat.abs_cast]; exact_mod_cast count)
  rw [blrms_of_band x high band, normaliser_of_isZero exponent, weightedPower_of_ones exponent fun k hk => ones k (inHalf k hk),
    ksum_replicate_fone f count]
  have value := isVal_i2f short
  have nonzero : ofInt f (bins (bandLow f fs p) (some kHi)).length ≠ 0 := by
    rw [ofInt]
    have : ((bins (bandLow f fs p) (some kHi)).length : Int) ≠ 0 := by exact_mod_cast pos.ne'
    positivity
  have one := value.div value nonzero ⟨_, isVal_fone f⟩ (by rw [ofInt, ofInt]; ring)
  rw [(isVal_fone_iff (Narrow_fdiv ..)).1 one, fsqrt_fone, if_pos]
  rw [flt_iff_quanta (isVal_fzero f).1 value.1, value.2, (isVal_fzero f).2, ofInt]
  positivity

end Sys2Proof.Machine

namespace Sys2Proof.Proofs

open Sys2Proof.Machine Sys2Proof.Safety

/-- Settles O26. -/
theorem shaperCurves : Obligations.ShaperCurves := by
  unfold Obligations.ShaperCurves
  refine ⟨fun f t x m => ⟨fun inside range => ⟨fun far => ?_, fun near => ?_⟩, fun hard => dipCurve_hard hard m,
      dipCurve_of_isNaN⟩,
    fun f top x m => ⟨fun inside range => ⟨fun far => ?_, fun near => ?_⟩, fun hard => peakCurve_hard hard m,
      peakCurve_of_isNaN⟩,
    fun f gain x m => ⟨rfl, fun hg hm => ⟨?_, ?_⟩⟩⟩
  · rw [dipCurve_soft inside range, far, if_neg (by simp)]
  · rw [dipCurve_soft inside range, near, if_pos rfl]
    rfl
  · rw [peakCurve_soft inside range, far, if_neg (by simp)]
  · rw [peakCurve_soft inside range, near, if_pos rfl]
    rfl
  · obtain ⟨finite, value⟩ := isVal_flatCurve_fone (m := m) hg ⟨hm, rfl⟩
    exact feq_of_quanta_eq finite hm value
  · obtain ⟨finite, value⟩ := isVal_flatCurve_fzero (m := m) ⟨hg, rfl⟩ hm
    exact feq_of_quanta_eq finite hg value

/-- Settles O23: numerator and normaliser are both the number of bins of the band. -/
theorem rmsOfOnes : Obligations.RmsOfOnes := by
  unfold Obligations.RmsOfOnes
  intro s n a pos size even inside ones exponent band
  refine ⟨_, State.exec_msRms pos even inside, ?_⟩
  have nonzero : n.toNat ≠ 0 := fun h => pos (BitVec.eq_of_toNat_eq h)
  rw [State.sreg, State.advance_regs, ← State.sreg, State.sreg_setSreg_same]
  refine blrms_of_ones size exponent band fun k hk => ?_
  rw [State.cxBuffer, ← at0, at0_map_range (by omega), ones k (by omega)]

end Sys2Proof.Proofs
end

section
/-! PROOFS. The effects of the reshaping commands and of the decompositions: what their outputs hold, and the spectrum behind
them bin by bin (R208, R237 to R243). -/

namespace Sys2Proof.Machine

open Sys2Proof.Safety

/-! ## The output of an inverse transform -/

theorem le_fsize (n : Nat) (nopad : Bool) (mexp : BitVec 4) : n ≤ fsize n nopad mexp := by
  cases nopad
  · exact (fsize_pad_spec n mexp).1
  · exact le_of_eq (fsize_nopad n mexp).symm

theorem getElem_realPart {n i : Nat} {zs : List Cx} (h : i < (realPart n zs).length) :
    (realPart n zs)[i] = (at0 zs i).re := by
  have inside : i < zs.length := by simp [realPart] at h; omega
  simp [realPart, at0_of_lt inside]

/-- The real parts of an inverse transform, stored as a Signal. -/
theorem State.wroteSignal_inv (s : State) {f : Fmt} (hf : s.cfg.fmt = f) {n fs : Nat} (fits : n ≤ fs) (b : Nat)
    (zs : List Cx) : WroteSignal (s.putSignal b (realPart n (inv f fs zs))) b n fun i => (at0 (inv f fs zs) i).re := by
  intro i hi
  have inside : i < (realPart n (inv f fs zs)).length := by simpa [fits] using hi
  rw [State.dmElem_putSignal_inside _ _ _ _ inside, getElem_realPart, hf]
  exact narrow_of_Narrow (NarrowCx_at0 (NarrowAll_inv f fs zs) i).1

theorem State.bytesKept_realPart (s : State) (b n : Nat) (zs : List Cx) :
    BytesKept s (s.putSignal b (realPart n zs)) b n := by
  intro x outside
  have length := Nat.mul_le_mul_right (fbytes s.cfg.fmt) (Nat.add_le_add_left (length_realPart_le n zs) b)
  exact s.putSignal_get?_outside b _ x (outside.imp_right length.trans)

/-! ## Reshaping -/

theorem reshapeClamps_iff {f : Fmt} {o : MsOpts} {bs : List ShapedBin} : reshapeClamps f o bs = true ↔
    o.pm = true ∧ ∃ c ∈ bs, c.chg = true ∧ ((logc f c.m').2 = true ∨ (logc f c.m).2 = true) := by
  simp [reshapeClamps, ShapedBin.clamps]

/-- The effect of a reshaping command on the spectrum of the Signal. -/
theorem State.shape_spec (s : State) {o : MsOpts} {n a b : Nat} {mk : Nat → List Cx → List ShapedBin} {bs : List ShapedBin}
    (bins : mk (MsOpts.size o n) (spectrumOf s.cfg.fmt (MsOpts.size o n) (s.signal a n)) = bs) :
    WroteSignal (s.shape o n a b mk).advance b n
        (fun i => (at0 (inv s.cfg.fmt (MsOpts.size o n) (reshape s.cfg.fmt (MsOpts.size o n) o bs)) i).re) ∧
      BytesKept s (s.shape o n a b mk).advance b n ∧
      ((s.shape o n a b mk).advance.loglim = true ↔ s.loglim = true ∨
        (o.pm = true ∧ ∃ c ∈ bs, c.chg = true ∧ ((logc s.cfg.fmt c.m').2 = true ∨ (logc s.cfg.fmt c.m).2 = true))) ∧
      (s.shape o n a b mk).advance = { s with
        dm := (s.shape o n a b mk).advance.dm, loglim := (s.shape o n a b mk).advance.loglim,
        twN := BitVec.ofNat 32 (MsOpts.size o n), cp := s.cp + 4 } := by
  subst bins
  refine ⟨s.wroteSignal_inv rfl (le_fsize ..) b _, s.bytesKept_realPart b n _, ?_, rfl⟩
  rw [State.advance_loglim, State.shape, State.cacheSize_loglim, State.notice_loglim, State.putSignal_loglim,
    Bool.or_eq_true, reshapeClamps_iff]

theorem length_causalSpectrum (f : Fmt) (fs : Nat) (w : List Cx) : (causalSpectrum f fs w).length = fs := length_fwd ..

theorem length_reshape (f : Fmt) (o : MsOpts) (bs : List ShapedBin) : (reshape f bs.length o bs).length = bs.length := by
  unfold reshape
  split <;> simp [length_causalSpectrum]

theorem at0_reshape (f : Fmt) (o : MsOpts) {bs : List ShapedBin} {k : Nat} (h : k < bs.length) :
    at0 (reshape f bs.length o bs) k =
      if o.pm then
        let w := at0 (causalSpectrum f bs.length (bs.map (ShapedBin.logGain f))) k
        if o.pr then bs[k].rotate f w else bs[k].convolve f w
      else bs[k].linear f := by
  have other : k < (causalSpectrum f bs.length (bs.map (ShapedBin.logGain f))).length := by
    rwa [length_causalSpectrum]
  rw [at0_of_lt ((length_reshape f o bs).symm ▸ h)]
  cases minimum : o.pm
  · simp [reshape, minimum]
  · cases rotation : o.pr <;> simp [reshape, minimum, rotation, at0_of_lt other]

/-- The folded buffer, index by index. -/
theorem fold_eq_map_range (f : Fmt) {n : Nat} {zs : List Cx} (length : zs.length = n) :
    fold f n zs = (List.range n).map fun i => ⟨foldValue f n i (at0 zs i).re, fzero⟩ := by
  apply List.ext_getElem (by simp [length])
  intro k hk _
  have inside : k < zs.length := by simpa using hk
  rw [getElem_fold, List.getElem_map, List.getElem_range, at0_of_lt inside]
  rfl

end Sys2Proof.Machine

namespace Sys2Proof.Proofs

open Sys2Proof.Machine Sys2Proof.Safety

/-- Settles O24. -/
theorem shaperCommands : Obligations.ShaperCommands := by
  unfold Obligations.ShaperCommands
  refine ⟨fun s o n a b pos size insideA insideB space primes p hp => ?_, fun f o bs => ⟨length_reshape f o bs, ?_⟩⟩
  · have nonzero : n.toNat ≠ 0 := fun h => pos (BitVec.eq_of_toNat_eq h)
    have passed : msTrap s.cfg o n.toNat a.toNat b.toNat = none :=
      msTrap_eq_none.2 ⟨nonzero, size, insideA, insideB, space, primes⟩
    simp only [List.mem_cons, List.not_mem_nil, or_false] at hp
    rcases hp with rfl | rfl | rfl
    · exact ⟨_, by rw [exec, execMsDip, passed, State.command_none], s.shape_spec rfl⟩
    · exact ⟨_, by rw [exec, execMsPeak, passed, State.command_none], s.shape_spec rfl⟩
    · exact ⟨_, by rw [exec, execMsFlat, passed, State.command_none], s.shape_spec rfl⟩
  · intro k h
    dsimp only
    simp only [← foldValue_eq]
    rw [at0_reshape f o h, causalSpectrum, fold_eq_map_range f (length_inv ..)]
    rfl

end Sys2Proof.Proofs
end

section
/-! PROOFS. The decompositions (R208 to R210), and the stage commands that make them up (R215). -/

namespace Sys2Proof.Machine

open Sys2Proof.Safety

/-! ## The effect of a decomposition -/

theorem State.putIf_get?_outside (s : State) {selected : Bool} {a n x : Nat} {zs : List Cx}
    (outside : selected = true → x < a * fbytes s.cfg.fmt ∨ (a + n) * fbytes s.cfg.fmt ≤ x) :
    (s.putIf selected a (realPart n zs)).dm.get? x = s.dm.get? x := by
  cases selected
  · rfl
  · exact s.bytesKept_realPart a n zs x (outside rfl)

theorem State.dmElem_putIf_outside (s : State) {selected : Bool} {a n x : Nat} {zs : List Cx} (below : x < a) :
    (s.putIf selected a (realPart n zs)).dmElem x = s.dmElem x := by
  cases selected
  · rfl
  · exact s.dmElem_putSignal_outside a _ x (.inl below)

/-- The effect of a decomposition on the spectrum `h` of the Signal. -/
theorem State.decompose_spec (s : State) {o : HdOpts} {hilbert : Bool} {n a b : Nat} {h : List Cx}
    (spectrum : spectrumOf s.cfg.fmt (HdOpts.size o n) (s.signal a n) = h) :
    (o.omp = true → WroteSignal (s.decompose o hilbert n a b).advance b n fun i =>
        (at0 (inv s.cfg.fmt (HdOpts.size o n) (minPhaseSpectrum s.cfg.fmt (HdOpts.size o n) hilbert h)) i).re) ∧
      (o.oep = true → WroteSignal (s.decompose o hilbert n a b).advance (b + n) n fun i =>
        (at0 (inv s.cfg.fmt (HdOpts.size o n) (List.zipWith (xphBin s.cfg.fmt) h
          (minPhaseSpectrum s.cfg.fmt (HdOpts.size o n) hilbert h))) i).re) ∧
      OutputsOnly s (s.decompose o hilbert n a b).advance o b n := by
  subst spectrum
  refine ⟨fun selected i hi => ?_, fun selected => ?_, fun x minimum excess => ?_⟩
  · have value := s.wroteSignal_inv rfl (le_fsize n o.nopad o.mexp) b (minPhaseSpectrum s.cfg.fmt (HdOpts.size o n) hilbert
      (spectrumOf s.cfg.fmt (HdOpts.size o n) (s.signal a n))) i hi
    refine (State.dmElem_putIf_outside _ (by omega)).trans ?_
    rw [selected]
    exact value
  · unfold State.decompose
    rw [selected]
    exact State.wroteSignal_inv _ (congrArg Params.fmt (s.putIf_cfg ..)) (le_fsize ..) (b + n) _
  · have minimumOutside : o.omp = true → x < b * fbytes s.cfg.fmt ∨ (b + n) * fbytes s.cfg.fmt ≤ x := minimum
    refine (State.putIf_get?_outside _ (n := n) fun selected => ?_).trans (State.putIf_get?_outside _ minimum)
    rw [State.putIf_cfg, add_assoc, ← two_mul]
    exact excess selected

theorem State.decompose_frame (s : State) (o : HdOpts) (hilbert : Bool) (n a b : Nat) :
    (s.decompose o hilbert n a b).advance = { s with
      dm := (s.decompose o hilbert n a b).advance.dm, loglim := (s.decompose o hilbert n a b).advance.loglim,
      twN := BitVec.ofNat 32 (HdOpts.size o n), cp := s.cp + 4 } := by
  obtain ⟨nopad, mexp, omp, oep⟩ := o
  cases omp <;> cases oep <;> rfl

theorem any_logClamps_iff {f : Fmt} {zs : List Cx} :
    zs.any (logClamps f) = true ↔ ∃ k < zs.length, isZero f (cabs f (at0 zs k)) = true := by
  rw [List.any_eq_true]
  constructor
  · rintro ⟨z, hz, clamps⟩
    obtain ⟨k, hk, rfl⟩ := List.getElem_of_mem hz
    exact ⟨k, hk, by rw [at0_of_lt hk]; exact (logClamps_iff ..).1 clamps⟩
  · rintro ⟨k, hk, zero⟩
    rw [at0_of_lt hk] at zero
    exact ⟨_, List.getElem_mem hk, (logClamps_iff ..).2 zero⟩

/-! ## The stage commands in order -/

/-- A state on the way from `s`: two buffers of `n` values, the notice, `TW_N` and `CP`; nothing else but `DM` has changed. -/
structure Working (s : State) (n a b : Nat) (x y : List Cx) (given : Bool) (size cp : Word) (u : State) : Prop where
  first : u.cxBuffer a n = x
  second : u.cxBuffer b n = y
  frame : u = { s with dm := u.dm, loglim := given, twN := size, cp := cp }

namespace Working

variable {s u : State} {n a b : Nat} {x y : List Cx} {given : Bool} {size cp : Word}

theorem symm (h : Working s n a b x y given size cp u) : Working s n b a y x given size cp u :=
  ⟨h.second, h.first, h.frame⟩

theorem cfg (h : Working s n a b x y given size cp u) : u.cfg = s.cfg :=
  Eq.trans (congrArg State.cfg h.frame) rfl

/-- Storing values of the format in the first buffer leaves the second. -/
theorem store (h : Working s n a b x y given size cp u) (apart : a + 2 * n ≤ b ∨ b + 2 * n ≤ a) {zs : List Cx}
    (length : zs.length = n) (inFormat : NarrowAll s.cfg.fmt zs) (given' : Bool) (size' : Word) :
    Working s n a b zs y given' size' (cp + 4)
      { u.putCx a zs with loglim := given', twN := size', cp := cp + 4 } := by
  refine ⟨?_, ?_, ?_⟩
  · subst length
    exact u.cxBuffer_putCx_same a zs (h.cfg ▸ inFormat)
  · exact (u.cxBuffer_putCx_other a b n zs (length.symm ▸ apart)).trans h.second
  · exact congrArg (fun v : State => { v with
      dm := (u.putCx a zs).dm, loglim := given', twN := size', cp := cp + 4 }) h.frame

end Working

/-- One command of a pipeline takes a state on the way to another. -/
def Leads (i : Instr) (u : State) (P : State → Prop) : Prop := ∃ v, exec i u = .next v ∧ v.cp = u.cp + 4 ∧ P v

section Pipeline

variable {s u : State} {n a b : Word} {x y : List Cx} {given : Bool} {size cp : Word}

theorem Working.loglim (h : Working s n.toNat a.toNat b.toNat x y given size cp u) : u.loglim = given :=
  Eq.trans (congrArg State.loglim h.frame) rfl

theorem Working.twN (h : Working s n.toNat a.toNat b.toNat x y given size cp u) : u.twN = size :=
  Eq.trans (congrArg State.twN h.frame) rfl

theorem Working.cp_eq (h : Working s n.toNat a.toNat b.toNat x y given size cp u) : u.cp = cp :=
  Eq.trans (congrArg State.cp h.frame) rfl

/-- A command that stores `zs` in the first buffer, with the notice `given'`, and sets `TW_N` to `size'`. -/
theorem Working.leads (h : Working s n.toNat a.toNat b.toNat x y given size cp u)
    (apart : a.toNat + 2 * n.toNat ≤ b.toNat ∨ b.toNat + 2 * n.toNat ≤ a.toNat)
    {i : Instr} {v : State} {zs : List Cx} {given' : Bool} {size' : Word} (runs : exec i u = .next v.advance)
    (stored : v = { u.putCx a.toNat zs with loglim := given', twN := size' })
    (length : zs.length = n.toNat) (inFormat : NarrowAll s.cfg.fmt zs) :
    Leads i u (Working s n.toNat a.toNat b.toNat zs y given' size' (cp + 4)) := by
  subst stored
  refine ⟨_, runs, rfl, ?_⟩
  obtain rfl := h.cp_eq
  exact h.store apart length inFormat given' size'

variable (pos : n ≠ 0) (evenA : a.toNat % 2 = 0) (insideA : a.toNat + 2 * n.toNat ≤ s.cfg.dmSize)
  (apart : a.toNat + 2 * n.toNat ≤ b.toNat ∨ b.toNat + 2 * n.toNat ≤ a.toNat)
  (h : Working s n.toNat a.toNat b.toNat x y given size cp u)
include pos evenA insideA apart h

/-- A transform command on the first buffer. -/
theorem Working.transform {i : Instr} {w : Wreck} {tr : Fmt → Nat → List Cx → List Cx}
    (runs : exec i u = u.command (fftTrap false u.cfg n.toNat a.toNat) w fun u => u.transform tr n.toNat a.toNat)
    (radix : lpf n.toNat ≤ s.cfg.rmax) (length : (tr s.cfg.fmt n.toNat x).length = n.toNat)
    (inFormat : NarrowAll s.cfg.fmt (tr s.cfg.fmt n.toNat x)) :
    Leads i u (Working s n.toNat a.toNat b.toNat (tr s.cfg.fmt n.toNat x) y given n (cp + 4)) := by
  have nonzero : n.toNat ≠ 0 := fun h => pos (BitVec.eq_of_toNat_eq h)
  have passed : fftTrap false u.cfg n.toNat a.toNat = none := by
    rw [h.cfg]
    exact fftTrap_eq_none.2 ⟨nonzero, nofun, evenA, insideA, fun _ => radix⟩
  have word : BitVec.ofNat 32 n.toNat = n := by rw [BitVec.ofNat_toNat, BitVec.setWidth_eq]
  refine h.leads apart (by rw [runs, passed, State.command_none]) ?_ length inFormat
  rw [State.transform, h.first, h.cfg, State.cacheSize, word, ← h.loglim]
  rfl

/-- `FFT.FWD` on the first buffer. -/
theorem Working.fftFwd (radix : lpf n.toNat ≤ s.cfg.rmax) : Leads (.fftFwd n a) u
    (Working s n.toNat a.toNat b.toNat (fwd s.cfg.fmt n.toNat x) y given n (cp + 4)) :=
  h.transform pos evenA insideA apart rfl radix (length_fwd ..)
    (NarrowAll_fwd (h.first ▸ h.cfg ▸ u.NarrowAll_cxBuffer a.toNat n.toNat))

/-- `FFT.INV` on the first buffer. -/
theorem Working.fftInv (radix : lpf n.toNat ≤ s.cfg.rmax) : Leads (.fftInv n a) u
    (Working s n.toNat a.toNat b.toNat (inv s.cfg.fmt n.toNat x) y given n (cp + 4)) :=
  h.transform pos evenA insideA apart rfl radix (length_inv ..) (NarrowAll_inv _ _ _)

/-- A stage command on the first buffer alone. -/
theorem Working.oneBuffer {i : Instr} {effect : State → State} {zs : List Cx} {g : Bool}
    (runs : exec i u = u.command (bufferTrap u.cfg n.toNat a.toNat) Wreck.none effect)
    (stored : effect u = (u.putCx a.toNat zs).notice g)
    (length : zs.length = n.toNat) (inFormat : NarrowAll s.cfg.fmt zs) :
    Leads i u (Working s n.toNat a.toNat b.toNat zs y (given || g) size (cp + 4)) := by
  have nonzero : n.toNat ≠ 0 := fun h => pos (BitVec.eq_of_toNat_eq h)
  have passed : bufferTrap u.cfg n.toNat a.toNat = none := by
    rw [h.cfg]
    exact bufferTrap_eq_none.2 ⟨nonzero, evenA, insideA⟩
  refine h.leads apart (by rw [runs, passed, State.command_none]) ?_ length inFormat
  rw [stored, ← h.loglim, ← h.twN]
  rfl

theorem Working.cepLog : Leads (.cepLog n a) u (Working s n.toNat a.toNat b.toNat (x.map (logBin s.cfg.fmt)) y
    (given || x.any (logClamps s.cfg.fmt)) size (cp + 4)) := by
  have length : x.length = n.toNat := h.first ▸ u.length_cxBuffer ..
  refine h.oneBuffer pos evenA insideA apart (by rw [exec, execCepLog]) ?_ (by simp [length]) ?_
  · rw [State.stage, h.first, h.cfg]
  · exact List.forall_mem_map.2 fun z _ => NarrowCx_logBin s.cfg.fmt z

theorem Working.cepFold : Leads (.cepFold n a) u (Working s n.toNat a.toNat b.toNat (fold s.cfg.fmt n.toNat x) y
    (given || false) size (cp + 4)) := by
  have length : x.length = n.toNat := h.first ▸ u.length_cxBuffer ..
  refine h.oneBuffer pos evenA insideA apart (by rw [exec, execCepFold]) ?_ (by simp [length])
    (NarrowAll_fold (h.first ▸ h.cfg ▸ u.NarrowAll_cxBuffer a.toNat n.toNat))
  rw [h.first, h.cfg, State.notice, Bool.or_false]

theorem Working.cepExp : Leads (.cepExp n a) u (Working s n.toNat a.toNat b.toNat (x.map (cexp s.cfg.fmt)) y
    (given || false) size (cp + 4)) := by
  have length : x.length = n.toNat := h.first ▸ u.length_cxBuffer ..
  refine h.oneBuffer pos evenA insideA apart (by rw [exec, execCepExp]) ?_ (by simp [length]) ?_
  · rw [h.first, h.cfg, State.notice, Bool.or_false]
  · exact List.forall_mem_map.2 fun z _ => NarrowCx_cexp s.cfg.fmt z

variable (evenB : b.toNat % 2 = 0) (insideB : b.toNat + 2 * n.toNat ≤ s.cfg.dmSize)
include evenB insideB

/-- A stage command on the first buffer that reads both. -/
theorem Working.twoBuffers {i : Instr} {effect : State → State} {zs : List Cx}
    (runs : exec i u = u.command (twoBufferTrap u.cfg n.toNat a.toNat b.toNat) Wreck.none effect)
    (stored : effect u = u.putCx a.toNat zs) (length : zs.length = n.toNat) (inFormat : NarrowAll s.cfg.fmt zs) :
    Leads i u (Working s n.toNat a.toNat b.toNat zs y given size (cp + 4)) := by
  have nonzero : n.toNat ≠ 0 := fun h => pos (BitVec.eq_of_toNat_eq h)
  have passed : twoBufferTrap u.cfg n.toNat a.toNat b.toNat = none := by
    rw [h.cfg]
    exact twoBufferTrap_eq_none.2 ⟨nonzero, evenA, insideA, ⟨evenB, insideB⟩, apart⟩
  refine h.leads apart (by rw [runs, passed, State.command_none]) ?_ length inFormat
  rw [stored, ← h.loglim, ← h.twN]
  rfl

theorem Working.cepPol : Leads (.cepPol n a b) u
    (Working s n.toNat a.toNat b.toNat (List.zipWith (polBin s.cfg.fmt) x y) y given size (cp + 4)) := by
  have lengthX : x.length = n.toNat := h.first ▸ u.length_cxBuffer ..
  have lengthY : y.length = n.toNat := h.second ▸ u.length_cxBuffer ..
  refine h.twoBuffers pos evenA insideA apart evenB insideB (by rw [exec, execCepPol]) ?_ (by simp [lengthX, lengthY]) fun z hz => ?_
  · rw [h.first, h.second, h.cfg]
  · obtain ⟨k, hk, rfl⟩ := List.getElem_of_mem hz
    rw [List.getElem_zipWith]
    exact NarrowCx_polBin ..

theorem Working.cepXph : Leads (.cepXph n a b) u
    (Working s n.toNat a.toNat b.toNat (List.zipWith (xphBin s.cfg.fmt) x y) y given size (cp + 4)) := by
  have lengthX : x.length = n.toNat := h.first ▸ u.length_cxBuffer ..
  have lengthY : y.length = n.toNat := h.second ▸ u.length_cxBuffer ..
  refine h.twoBuffers pos evenA insideA apart evenB insideB (by rw [exec, execCepXph]) ?_ (by simp [lengthX, lengthY]) fun z hz => ?_
  · rw [h.first, h.second, h.cfg]
  · obtain ⟨k, hk, rfl⟩ := List.getElem_of_mem hz
    rw [List.getElem_zipWith]
    exact NarrowCx_xphBin ..

end Pipeline

/-- The ten commands of R215 on two buffers that hold the padded Signal. -/
theorem Working.pipeline {s u : State} {n a b : Word} {x : List Cx} {size cp : Word} (hilbert : Bool)
    (pos : n ≠ 0) (radix : lpf n.toNat ≤ s.cfg.rmax) (evenA : a.toNat % 2 = 0)
    (evenB : b.toNat % 2 = 0) (insideA : a.toNat + 2 * n.toNat ≤ s.cfg.dmSize)
    (insideB : b.toNat + 2 * n.toNat ≤ s.cfg.dmSize)
    (apart : a.toNat + 2 * n.toNat ≤ b.toNat ∨ b.toNat + 2 * n.toNat ≤ a.toNat)
    (h0 : Working s n.toNat a.toNat b.toNat x x s.loglim size cp u) :
    let f := s.cfg.fmt
    let h := fwd f n.toNat x
    let hmin := minPhaseSpectrum f n.toNat hilbert h
    ∃ t, RunsThrough [.fftFwd n a, .fftFwd n b, .cepLog n b, .fftInv n b, .cepFold n b, .fftFwd n b,
        if hilbert then .cepPol n b a else .cepExp n b, .cepXph n a b, .fftInv n b, .fftInv n a] u t ∧
      Working s n.toNat a.toNat b.toNat (inv f n.toNat (List.zipWith (xphBin f) h hmin)) (inv f n.toNat hmin)
        (s.loglim || h.any (logClamps f)) n (cp + 40) t := by
  intro f h hmin
  obtain ⟨u1, run1, cp1, h1⟩ := h0.fftFwd pos evenA insideA apart radix
  obtain ⟨u2, run2, cp2, h2⟩ := h1.symm.fftFwd pos evenB insideB apart.symm radix
  obtain ⟨u3, run3, cp3, h3⟩ := h2.cepLog pos evenB insideB apart.symm
  obtain ⟨u4, run4, cp4, h4⟩ := h3.fftInv pos evenB insideB apart.symm radix
  obtain ⟨u5, run5, cp5, h5⟩ := h4.cepFold pos evenB insideB apart.symm
  obtain ⟨u6, run6, cp6, h6⟩ := h5.fftFwd pos evenB insideB apart.symm radix
  have seventh : Leads (if hilbert then .cepPol n b a else .cepExp n b) u6 (Working s n.toNat b.toNat a.toNat hmin h
      (s.loglim || h.any (logClamps f)) n (cp + 28)) := by
    have place : cp + 4 + 4 + 4 + 4 + 4 + 4 + 4 = cp + 28 := by bv_omega
    rw [← place, ← Bool.or_false (s.loglim || h.any (logClamps f))]
    cases hilbert
    · have last := h6.cepExp pos evenB insideB apart.symm
      rwa [Bool.or_false (_ || false)] at last
    · exact h6.cepPol pos evenB insideB apart.symm evenA insideA
  obtain ⟨u7, run7, cp7, h7⟩ := seventh
  obtain ⟨u8, run8, cp8, h8⟩ := h7.symm.cepXph pos evenA insideA apart evenB insideB
  obtain ⟨u9, run9, cp9, h9⟩ := h8.symm.fftInv pos evenB insideB apart.symm radix
  obtain ⟨u10, run10, cp10, h10⟩ := h9.symm.fftInv pos evenA insideA apart radix
  have place : cp + 28 + 4 + 4 + 4 = cp + 40 := by bv_omega
  exact ⟨u10, ⟨u1, run1, cp1, u2, run2, cp2, u3, run3, cp3, u4, run4, cp4, u5, run5, cp5, u6, run6, cp6, u7, run7, cp7,
    u8, run8, cp8, u9, run9, cp9, u10, run10, cp10, rfl⟩, place ▸ h10⟩

end Sys2Proof.Machine

namespace Sys2Proof.Proofs

open Sys2Proof.Machine Sys2Proof.Safety

/-- Settles O18: the outputs are written from the whole input; the ten commands keep two buffers. -/
theorem hdCommands : Obligations.HdCommands := by
  unfold Obligations.HdCommands
  refine ⟨fun s o n a b hilbert => ?_, fun s x n a b hilbert => ?_⟩
  · intro f fs h pos size insideA minimum excess space radix
    have nonzero : n.toNat ≠ 0 := fun h => pos (BitVec.eq_of_toNat_eq h)
    have passed : hdTrap s.cfg o n.toNat a.toNat b.toNat = none :=
      hdTrap_eq_none.2 ⟨nonzero, size, insideA, ⟨minimum, excess⟩, space, radix⟩
    have runs : exec (if hilbert then .hdDech o n a b else .hdDec o n a b) s =
        .next (s.decompose o hilbert n.toNat a.toNat b.toNat).advance := by
      cases hilbert
      · rw [if_neg (by simp), exec, execHdDec, passed, State.command_none]
      · rw [if_pos rfl, exec, execHdDech, passed, State.command_none]
    obtain ⟨wroteMin, wroteExcess, kept⟩ := s.decompose_spec (hilbert := hilbert) (b := b.toNat) (h := h) rfl
    refine ⟨_, runs, wroteMin, wroteExcess, kept, ?_, ?_⟩
    · rw [State.advance_loglim, State.decompose_loglim, Bool.or_eq_true]
      exact or_congr_right (any_logClamps_iff.trans (by rw [spectrumOf, length_fwd]; rfl))
    · exact State.decompose_frame ..
  · intro f fs h pos radix evenA evenB insideA insideB apart loaded
    have bufferA : s.cxBuffer a.toNat n.toNat = padded fs x :=
      List.map_congr_left fun k hk => (loaded k (List.mem_range.1 hk)).1
    have bufferB : s.cxBuffer b.toNat n.toNat = padded fs x :=
      List.map_congr_left fun k hk => (loaded k (List.mem_range.1 hk)).2
    obtain ⟨t, runs, done⟩ := Working.pipeline (cp := s.cp) (size := s.twN) hilbert pos radix evenA evenB insideA insideB apart
      ⟨bufferA, bufferB, rfl⟩
    refine ⟨t, runs, done.second, done.first, ?_, ?_⟩
    · rw [done.loglim, Bool.or_eq_true]
      exact or_congr_right (any_logClamps_iff.trans (by rw [length_fwd]; rfl))
    · rw [done.loglim]
      exact done.frame

end Sys2Proof.Proofs
end

section
/-! PROOFS. Buffers of zeros, of one impulse and of ones through the transforms (R172 to R176), where the roots of unity are
finite (log 9): every value is exact, up to the sign of a zero. -/

namespace Sys2Proof.Machine

open Sys2Proof.Safety

/-! ## Complex values -/

/-- Both parts are zeros. -/
def ZeroCx (f : Fmt) (z : Cx) : Prop := isZero f z.re = true ∧ isZero f z.im = true

/-- Both parts are finite. -/
def FiniteCx (f : Fmt) (z : Cx) : Prop := isFinite f z.re = true ∧ isFinite f z.im = true

/-- The real part has `v` quanta and the imaginary part is a zero. -/
def RealCx (f : Fmt) (v : Int) (z : Cx) : Prop := IsVal f z.re v ∧ isZero f z.im = true

theorem realCx_zero_iff {f : Fmt} {z : Cx} : RealCx f 0 z ↔ ZeroCx f z := and_congr_left' isVal_zero_iff

theorem zeroCx_czero (f : Fmt) : ZeroCx f czero := ⟨isZero_fzero f, isZero_fzero f⟩

theorem RealCx.finite {f : Fmt} {v : Int} {z : Cx} (h : RealCx f v z) : FiniteCx f z := ⟨h.1.1, isFinite_of_isZero h.2⟩

theorem zeroCx_cmul {f : Fmt} {z w : Cx} (hz : ZeroCx f z) (hw : FiniteCx f w) : ZeroCx f (cmul f z w) :=
  ⟨isZero_fsub (isZero_fmul_left hz.1 hw.1) (isZero_fmul_left hz.2 hw.2),
    isZero_fadd (isZero_fmul_left hz.1 hw.2) (isZero_fmul_left hz.2 hw.1)⟩

/-- The sum of real values whose sum is a value of the format. -/
theorem RealCx.cadd {f : Fmt} {z w : Cx} {u v : Int} (hz : RealCx f u z) (hw : RealCx f v w)
    (fits : Representable f (u + v)) : RealCx f (u + v) (cadd f z w) :=
  ⟨hz.1.add hw.1 fits, isZero_fadd hz.2 hw.2⟩

/-- A zero added on the left. -/
theorem RealCx.zero_cadd {f : Fmt} {z w : Cx} {v : Int} (hz : ZeroCx f z) (hw : RealCx f v w) :
    RealCx f v (Machine.cadd f z w) := by
  have sum := (realCx_zero_iff.2 hz).cadd hw (by rw [zero_add]; exact ⟨_, hw.1⟩)
  rwa [zero_add] at sum

theorem zeroCx_cadd {f : Fmt} {z w : Cx} (hz : ZeroCx f z) (hw : ZeroCx f w) : ZeroCx f (cadd f z w) :=
  ⟨isZero_fadd hz.1 hw.1, isZero_fadd hz.2 hw.2⟩

/-- The product of real values whose product is a value of the format. -/
theorem RealCx.cmul {f : Fmt} {z w : Cx} {u v r : Int} (hz : RealCx f u z) (hw : RealCx f v w) (fits : Representable f r)
    (product : u * v = r * 2 ^ quantumExp f) : RealCx f r (cmul f z w) := by
  have cross : isZero f (fneg f (fmul f z.im w.im)) = true :=
    (isZero_fneg ..).trans (isZero_fmul_left hz.2 hw.finite.2)
  exact ⟨(hz.1.mul hw.1 fits product).addAs_isZero cross,
    isZero_fadd (isZero_fmul_right hz.finite.1 hw.2) (isZero_fmul_left hz.2 hw.finite.1)⟩

theorem RealCx.cmul_one {f : Fmt} {z w : Cx} {v : Int} (hz : RealCx f v z) (hw : RealCx f (ofInt f 1) w) :
    RealCx f v (Machine.cmul f z w) :=
  hz.cmul hw ⟨_, hz.1⟩ (by rw [ofInt, one_mul])

theorem RealCx.cmul_neg_one {f : Fmt} {z w : Cx} {v : Int} (hz : RealCx f v z) (hw : RealCx f (-ofInt f 1) w) :
    RealCx f (-v) (Machine.cmul f z w) :=
  hz.cmul hw ⟨_, hz.1.neg⟩ (by rw [ofInt]; ring)

/-! ## The roots of unity (R145, R146; log 9) -/

theorem finiteCx_twiddle (f : Fmt) (n j : Nat) : FiniteCx f (twiddle f n j) := by
  have one := (isVal_fone f).1
  have zero := (isVal_fzero f).1
  have negOne := (isFinite_fneg f (fone f)).trans one
  unfold twiddle
  split_ifs
  · exact ⟨one, zero⟩
  · exact ⟨zero, one⟩
  · exact ⟨negOne, zero⟩
  · exact ⟨zero, negOne⟩
  · exact ⟨isFinite_openFinite .., isFinite_openFinite ..⟩

theorem finiteCx_om (f : Fmt) (dir : Dir) (n j : Nat) : FiniteCx f (om f dir n j) := by
  obtain ⟨re, im⟩ := finiteCx_twiddle f n (j % n)
  cases dir
  · exact ⟨re, (isFinite_fneg ..).trans im⟩
  · exact ⟨re, im⟩

theorem realCx_om_zero (f : Fmt) (dir : Dir) (n : Nat) : RealCx f (ofInt f 1) (om f dir n 0) := by
  have root : twiddle f n (0 % n) = ⟨fone f, fzero⟩ := by rw [Nat.zero_mod, twiddle, if_pos rfl]
  cases dir
  · exact ⟨by rw [om, root]; exact isVal_fone f, by rw [om, root]; exact (isZero_fneg ..).trans (isZero_fzero f)⟩
  · exact ⟨by rw [om, root]; exact isVal_fone f, by rw [om, root]; exact isZero_fzero f⟩

theorem realCx_om_half (f : Fmt) (dir : Dir) {n : Nat} (pos : 0 < n) (even : n % 2 = 0) :
    RealCx f (-ofInt f 1) (om f dir n (n / 2)) := by
  have root : twiddle f n (n / 2 % n) = ⟨fneg f (fone f), fzero⟩ := by
    rw [Nat.mod_eq_of_lt (by omega), twiddle, if_neg (by omega), if_neg (by omega), if_pos (by omega)]
  cases dir
  · exact ⟨by rw [om, root]; exact (isVal_fone f).neg, by rw [om, root]; exact (isZero_fneg ..).trans (isZero_fzero f)⟩
  · exact ⟨by rw [om, root]; exact (isVal_fone f).neg, by rw [om, root]; exact isZero_fzero f⟩

/-! ## Horner's rule -/

theorem zeroCx_horner {f : Fmt} {w : Cx} (hw : FiniteCx f w) {t : List Cx} (zeros : ∀ z ∈ t, ZeroCx f z) :
    ZeroCx f (horner f w t) := by
  induction t with
  | nil => exact zeroCx_czero f
  | cons x t ih =>
    rw [List.forall_mem_cons] at zeros
    cases t with
    | nil => exact zeros.1
    | cons y t =>
      rw [horner_cons_cons]
      exact zeroCx_cadd (zeroCx_cmul (ih zeros.2) hw) zeros.1

/-- A polynomial with a constant coefficient alone. -/
theorem realCx_horner {f : Fmt} {w : Cx} (hw : FiniteCx f w) {v : Int} {x : Cx} {t : List Cx} (hx : RealCx f v x)
    (zeros : ∀ z ∈ t, ZeroCx f z) : RealCx f v (horner f w (x :: t)) := by
  cases t with
  | nil => exact hx
  | cons y t =>
    rw [horner_cons_cons]
    exact RealCx.zero_cadd (zeroCx_cmul (zeroCx_horner hw zeros) hw) hx

/-! ## A buffer of zeros -/

/-- Every value of a buffer, and so every place, is a zero. -/
def ZeroBuffer (f : Fmt) (zs : List Cx) : Prop := ∀ z ∈ zs, ZeroCx f z

theorem ZeroBuffer.at0 {f : Fmt} {zs : List Cx} (h : ZeroBuffer f zs) (k : Nat) : ZeroCx f (at0 zs k) := by
  rcases Nat.lt_or_ge k zs.length with inside | outside
  · rw [at0_of_lt inside]
    exact h _ (List.getElem_mem inside)
  · rw [Machine.at0, List.getD_eq_default _ _ outside]
    exact zeroCx_czero f

theorem zeroBuffer_map_range {f : Fmt} {n : Nat} {g : Nat → Cx} (h : ∀ k < n, ZeroCx f (g k)) :
    ZeroBuffer f ((List.range n).map g) :=
  List.forall_mem_map.2 fun k hk => h k (List.mem_range.1 hk)

theorem ZeroBuffer.group {f : Fmt} {zs : List Cx} (h : ZeroBuffer f zs) (p m j0 : Nat) : ZeroBuffer f (group zs p m j0) :=
  zeroBuffer_map_range fun _ _ => h.at0 _

theorem ZeroBuffer.recBlock {f : Fmt} {zs : List Cx} (h : ZeroBuffer f zs) (dir : Dir) (n fuel size : Nat) :
    ZeroBuffer f (recBlock f dir n fuel size zs) := by
  induction fuel generalizing size zs with
  | zero => exact h
  | succ fuel ih =>
    unfold Machine.recBlock
    split_ifs
    · exact h
    · intro z hz
      obtain ⟨k0, -, hz⟩ := List.mem_flatMap.1 hz
      exact ih (zeroBuffer_map_range fun j0 _ =>
        zeroCx_cmul (zeroCx_horner (finiteCx_om ..) (h.group _ _ _)) (finiteCx_om ..)) _ z hz

theorem ZeroBuffer.xform {f : Fmt} {zs : List Cx} (h : ZeroBuffer f zs) (dir : Dir) (n : Nat) :
    ZeroBuffer f (xform f dir n zs) :=
  zeroBuffer_map_range fun _ _ => (h.recBlock dir n n n).at0 _

theorem ZeroBuffer.fwd {f : Fmt} {zs : List Cx} (h : ZeroBuffer f zs) (n : Nat) : ZeroBuffer f (fwd f n zs) :=
  h.xform .forward n

/-- The size of a transform converts to a finite value that is not a zero. -/
theorem isFinite_i2f {f : Fmt} {n : Nat} (pos : 0 < n) (small : n < 2 ^ 32) :
    isFinite f (i2f f n) = true ∧ isZero f (i2f f n) = false := by
  have rounds := rounds_i2f f small
  have inside : ¬ ((overflowBound f : ℚ) : ℝ) ≤ |(n : ℝ)| := by
    have bound : ((2 ^ 32 : ℚ) : ℝ) ≤ (overflowBound f : ℝ) := Rat.cast_le.2 (two_pow_le_overflowBound f)
    have size : (n : ℝ) < 2 ^ 32 := by exact_mod_cast small
    rw [Nat.abs_cast, not_le]
    push_cast at bound
    linarith
  rw [Rounds, if_neg inside] at rounds
  have one : 0 < orderKey f (i2f f 1) := by cases f <;> decide +kernel
  exact ⟨rounds.1, (orderKey_pos_iff.1 (one.trans_le (orderKey_i2f_mono f pos))).1⟩

theorem ZeroBuffer.inv {f : Fmt} {zs : List Cx} (h : ZeroBuffer f zs) {n : Nat} (pos : 0 < n) (small : n < 2 ^ 32) :
    ZeroBuffer f (inv f n zs) := by
  obtain ⟨finite, nonzero⟩ := isFinite_i2f (f := f) pos small
  exact List.forall_mem_map.2 fun z hz => ⟨isZero_fdiv (h.xform .inverse n z hz).1 finite nonzero,
    isZero_fdiv (h.xform .inverse n z hz).2 finite nonzero⟩

theorem ZeroBuffer.fold {f : Fmt} {zs : List Cx} (h : ZeroBuffer f zs) (n : Nat) : ZeroBuffer f (fold f n zs) := by
  intro z hz
  obtain ⟨k, hk, rfl⟩ := List.getElem_of_mem hz
  rw [getElem_fold]
  have inside : k < zs.length := by simpa using hk
  have part := (h _ (List.getElem_mem inside)).1
  refine ⟨?_, isZero_fzero f⟩
  rw [foldBin, foldValue_eq]
  split_ifs
  · exact part
  · exact isZero_fadd part part
  · exact isZero_fzero f

/-! ## An impulse -/

/-- A real value at place 0, and zeros elsewhere. -/
def Impulse (f : Fmt) (v : Int) (zs : List Cx) : Prop := RealCx f v (at0 zs 0) ∧ ∀ k, k ≠ 0 → ZeroCx f (at0 zs k)

theorem group_succ (zs : List Cx) (p m j0 : Nat) :
    group zs (p + 1) m j0 = at0 zs j0 :: (List.range p).map fun j => at0 zs ((j + 1) * m + j0) := by
  simp [group, List.range_succ_eq_map]

theorem length_recAll (f : Fmt) (dir : Dir) (n : Nat) {size : Nat} (pos : 1 ≤ size) {zs : List Cx}
    (length : zs.length = size) : (recAll f dir n size zs).length = size := by
  induction size using Nat.strong_induction_on generalizing zs with
  | _ size ih =>
    rcases Nat.eq_or_lt_of_le pos with rfl | two
    · rwa [recAll_one]
    · rw [recAll_of_two_le f dir n two, List.length_flatMap]
      have blocks (k0 : Nat) := ih _ (div_spf_lt two) (one_le_div_spf two)
        (zs := (List.range (size / spf size)).map fun j0 => twiddled f dir n size (spf size) (size / spf size) zs k0 j0)
        (by simp)
      simp [blocks, spf_mul_div two]

/-- Every butterfly spreads an impulse over its outputs, so `rec` leaves its value at every place. -/
theorem Impulse.recAll {f : Fmt} {v : Int} {zs : List Cx} (h : Impulse f v zs) (dir : Dir) (n : Nat) {size : Nat}
    (pos : 1 ≤ size) (length : zs.length = size) : ∀ z ∈ recAll f dir n size zs, RealCx f v z := by
  induction size using Nat.strong_induction_on generalizing zs with
  | _ size ih =>
    rcases Nat.eq_or_lt_of_le pos with rfl | two
    · rw [recAll_one]
      intro z hz
      obtain ⟨x, rfl⟩ := List.length_eq_one_iff.1 length
      rw [List.mem_singleton.1 hz]
      exact h.1
    · rw [recAll_of_two_le f dir n two]
      intro z hz
      obtain ⟨k0, -, hz⟩ := List.mem_flatMap.1 hz
      have block := one_le_div_spf two
      obtain ⟨p, hp⟩ : ∃ p, spf size = p + 1 := ⟨spf size - 1, (Nat.sub_add_cancel (spf_prime two).pos).symm⟩
      have zeros (j0 : Nat) : ∀ z ∈ (List.range p).map fun j => at0 zs ((j + 1) * (size / spf size) + j0), ZeroCx f z :=
        zeroBuffer_map_range fun j _ => h.2 _ (by
          have : 0 < (j + 1) * (size / spf size) := Nat.mul_pos j.succ_pos block
          omega)
      refine ih _ (div_spf_lt two) ⟨?_, fun j0 other => ?_⟩ block (by simp) z hz
      · rw [at0_map_range (by omega), twiddled, bfly, hp, group_succ, ← hp, Nat.zero_mul, Nat.zero_mod, Nat.zero_mul]
        exact (realCx_horner (finiteCx_om ..) h.1 (zeros 0)).cmul_one (realCx_om_zero ..)
      · rcases Nat.lt_or_ge j0 (size / spf size) with inside | outside
        · rw [at0_map_range inside]
          exact zeroCx_cmul (zeroCx_horner (finiteCx_om ..) (zeroBuffer_map_range fun j1 _ => h.2 _ (by omega)))
            (finiteCx_om ..)
        · rw [at0, List.getD_eq_default _ _ (by simpa using outside)]
          exact zeroCx_czero f

/-- The forward transform of an impulse is its value in every bin. -/
theorem Impulse.fwd {f : Fmt} {v : Int} {zs : List Cx} (h : Impulse f v zs) {n : Nat} (length : zs.length = n) :
    ∀ z ∈ fwd f n zs, RealCx f v z := by
  refine List.forall_mem_map.2 fun k hk => ?_
  have pos : 1 ≤ n := by have := List.mem_range.1 hk; omega
  have inside : rev k n < (Machine.recAll f .forward n n zs).length := by
    rw [length_recAll f .forward n pos length]
    exact rev_lt pos k
  refine h.recAll .forward n pos length _ ?_
  show at0 (Machine.recAll f .forward n n zs) (rev k n) ∈ _
  rw [at0_of_lt inside]
  exact List.getElem_mem inside

/-- A unit in every bin: exactly 1, with a zero imaginary part. -/
def UnitBuffer (f : Fmt) (zs : List Cx) : Prop := ∀ z ∈ zs, z.re = fone f ∧ isZero f z.im = true

theorem realCx_one_iff {f : Fmt} {z : Cx} (inFormat : NarrowCx f z) :
    RealCx f (ofInt f 1) z ↔ z.re = fone f ∧ isZero f z.im = true :=
  and_congr_left' (isVal_fone_iff inFormat.1)

/-- The unit impulse of `n` values. -/
def unitImpulse (f : Fmt) (n : Nat) : List Cx := (List.range n).map fun j => if j = 0 then ⟨fone f, fzero⟩ else czero

theorem impulse_unitImpulse (f : Fmt) {n : Nat} (pos : 0 < n) : Impulse f (ofInt f 1) (unitImpulse f n) := by
  refine ⟨?_, fun k other => ?_⟩
  · rw [unitImpulse, at0_map_range pos, if_pos rfl]
    exact ⟨isVal_fone f, isZero_fzero f⟩
  · rcases Nat.lt_or_ge k n with inside | outside
    · rw [unitImpulse, at0_map_range inside, if_neg other]
      exact zeroCx_czero f
    · rw [at0, List.getD_eq_default _ _ (by simpa [unitImpulse] using outside)]
      exact zeroCx_czero f

theorem unitBuffer_fwd_unitImpulse (f : Fmt) (n : Nat) : UnitBuffer f (fwd f n (unitImpulse f n)) := by
  intro z hz
  have pos : 0 < n := by simpa using List.length_pos_of_mem hz
  have narrow : NarrowAll f (unitImpulse f n) := by
    refine List.forall_mem_map.2 fun k _ => ?_
    split_ifs
    · exact ⟨Narrow_fone f, Narrow_fzero f⟩
    · exact NarrowCx_czero f
  exact (realCx_one_iff (NarrowAll_fwd narrow z hz)).1
    ((impulse_unitImpulse f pos).fwd (by simp [unitImpulse]) z hz)

end Sys2Proof.Machine

namespace Sys2Proof.Proofs

open Sys2Proof.Machine Sys2Proof.Safety

/-- Settles O12: each level turns an impulse into one impulse in every block. -/
theorem forwardOfImpulse : Obligations.ForwardOfImpulse := by
  unfold Obligations.ForwardOfImpulse
  intro f n k hk
  have inside : k < (fwd f n (unitImpulse f n)).length := by simpa using hk
  have unit := unitBuffer_fwd_unitImpulse f n _ (List.getElem_mem inside)
  rwa [← at0_of_lt inside] at unit

end Sys2Proof.Proofs
end

section
/-! PROOFS. The decomposition of a unit impulse (R212): the inverse transform of ones for a power-of-two size, and the stages
on a spectrum of ones. -/

namespace Sys2Proof.Machine

open Sys2Proof.Safety

/-! ## The inverse transform of ones -/

/-- A real value at every place. -/
def ConstBuffer (f : Fmt) (v : Int) (zs : List Cx) : Prop := ∀ z ∈ zs, RealCx f v z

theorem ConstBuffer.at0 {f : Fmt} {v : Int} {zs : List Cx} (h : ConstBuffer f v zs) {k : Nat} (hk : k < zs.length) :
    RealCx f v (at0 zs k) := by
  rw [at0_of_lt hk]
  exact h _ (List.getElem_mem hk)

theorem at0_append_left {xs ys : List Cx} {k : Nat} (h : k < xs.length) : at0 (xs ++ ys) k = at0 xs k := by
  rw [at0_of_lt h, at0_of_lt (by rw [List.length_append]; omega), List.getElem_append_left h]

theorem ofInt_two_pow_add (f : Fmt) (c : Nat) : ofInt f (2 ^ c) + ofInt f (2 ^ c) = ofInt f (2 ^ (c + 1)) := by
  rw [ofInt, ofInt]
  ring

section Radix2

variable {f : Fmt} {dir : Dir} {n size m c : Nat} {zs : List Cx}

/-- The sum of a butterfly on equal values doubles them. -/
theorem realCx_twiddled_zero (h : ConstBuffer f (ofInt f (2 ^ c)) zs) (length : zs.length = 2 * m) (room : c < 64)
    {j0 : Nat} (hj : j0 < m) : RealCx f (ofInt f (2 ^ (c + 1))) (twiddled f dir n size 2 m zs 0 j0) := by
  have root := realCx_om_zero f dir n
  have lower := h.at0 (k := j0) (by omega)
  have upper := h.at0 (k := m + j0) (by omega)
  have fits : Representable f (ofInt f (2 ^ c) + ofInt f (2 ^ c)) := by
    rw [ofInt_two_pow_add]
    exact (shortInt_two_pow f room).representable
  rw [twiddled, bfly, group_two, horner_pair, Nat.zero_mul, Nat.zero_mod, Nat.mul_zero, Nat.zero_mod, Nat.zero_mul,
    ← ofInt_two_pow_add]
  exact ((upper.cmul_one root).cadd lower fits).cmul_one root

/-- The difference of a butterfly on equal values is zero. -/
theorem zeroCx_twiddled_one (h : ConstBuffer f (ofInt f (2 ^ c)) zs) (length : zs.length = 2 * m)
    (even : 0 < n ∧ n % 2 = 0) {j0 : Nat} (hj : j0 < m) : ZeroCx f (twiddled f dir n size 2 m zs 1 j0) := by
  have lower := h.at0 (k := j0) (by omega)
  have upper := h.at0 (k := m + j0) (by omega)
  rw [twiddled, bfly, group_two, horner_pair, Nat.one_mul, om_mod]
  have difference := (upper.cmul_neg_one (realCx_om_half f dir even.1 even.2)).cadd lower
    ⟨fzero, by rw [neg_add_cancel]; exact isVal_fzero f⟩
  rw [neg_add_cancel] at difference
  exact zeroCx_cmul (realCx_zero_iff.1 difference) (finiteCx_om ..)

end Radix2

/-- Each level doubles the values of the first half of a block and zeroes the second. -/
theorem impulse_recAll (f : Fmt) (dir : Dir) {n q c : Nat} (even : q ≠ 0 → 0 < n ∧ n % 2 = 0) (room : c + q ≤ 64)
    {zs : List Cx} (h : ConstBuffer f (ofInt f (2 ^ c)) zs) (length : zs.length = 2 ^ q) :
    Impulse f (ofInt f (2 ^ (c + q))) (recAll f dir n (2 ^ q) zs) := by
  induction q generalizing c zs with
  | zero =>
    refine ⟨h.at0 (by omega), fun k other => ?_⟩
    rw [pow_zero, recAll_one, at0, List.getD_eq_default _ _ (by omega)]
    exact zeroCx_czero f
  | succ q ih =>
    have half : 2 ^ (q + 1) / 2 = 2 ^ q := by omega
    have pos : 1 ≤ 2 ^ q := Nat.one_le_two_pow
    rw [recAll_of_two_le f dir n (Nat.le_self_pow (by omega) 2), spf_two_pow_succ, half, List.range_succ, List.range_one]
    simp only [List.singleton_append, List.flatMap_cons, List.flatMap_nil, List.append_nil]
    have sums : ConstBuffer f (ofInt f (2 ^ (c + 1)))
        ((List.range (2 ^ q)).map fun j0 => twiddled f dir n (2 ^ (q + 1)) 2 (2 ^ q) zs 0 j0) :=
      List.forall_mem_map.2 fun j0 hj => realCx_twiddled_zero h (by omega) (by omega) (List.mem_range.1 hj)
    have differences : ZeroBuffer f
        ((List.range (2 ^ q)).map fun j0 => twiddled f dir n (2 ^ (q + 1)) 2 (2 ^ q) zs 1 j0) :=
      zeroBuffer_map_range fun j0 hj => zeroCx_twiddled_one h (by omega) (even (by omega)) hj
    have lengthSums := length_recAll f dir n pos (zs := (List.range (2 ^ q)).map fun j0 =>
      twiddled f dir n (2 ^ (q + 1)) 2 (2 ^ q) zs 0 j0) (by simp)
    obtain ⟨first, rest⟩ := ih (fun _ => even (by omega)) (by omega) sums (by simp)
    have lower := differences.recBlock dir n (2 ^ q) (2 ^ q)
    refine ⟨?_, fun k other => ?_⟩
    · rw [at0_append_left (by omega), show c + (q + 1) = c + 1 + q by omega]
      exact first
    · rcases Nat.lt_or_ge k (2 ^ q) with inside | outside
      · rw [at0_append_left (by omega)]
        exact rest k other
      · rw [at0, List.getD_append_right _ _ _ _ (by omega)]
        exact ZeroBuffer.at0 lower _

theorem rev_zero_two_pow (q : Nat) : rev 0 (2 ^ q) = 0 := by
  induction q with
  | zero => rfl
  | succ q ih => rw [rev_two_pow_succ, Nat.zero_mod, Nat.zero_div, ih, Nat.mul_zero]

/-- The inverse transform of ones is the unit impulse. -/
theorem inv_of_ones {f : Fmt} {q : Nat} (room : q < 32) {zs : List Cx} (h : ConstBuffer f (ofInt f 1) zs)
    (length : zs.length = 2 ^ q) : (at0 (inv f (2 ^ q) zs) 0).re = fone f ∧
      ∀ k, 0 < k → k < 2 ^ q → isZero f (at0 (inv f (2 ^ q) zs) k).re = true := by
  have pos : 0 < 2 ^ q := by positivity
  obtain ⟨first, rest⟩ := impulse_recAll f .inverse (n := 2 ^ q) (q := q) (c := 0)
    (fun high => ⟨pos, by obtain ⟨p, rfl⟩ := Nat.exists_eq_succ_of_ne_zero high; omega⟩) (by omega) h length
  have size : IsVal f (i2f f (2 ^ q)) (ofInt f (2 ^ q)) := by
    have value := isVal_i2f (f := f) (k := 2 ^ q) (by rw [Nat.cast_pow]; exact shortInt_two_pow f (by omega))
    rwa [Nat.cast_pow] at value
  have nonzero : ofInt f (2 ^ q) ≠ 0 := by rw [ofInt]; positivity
  refine ⟨?_, fun k other hk => ?_⟩
  · rw [at0_inv f pos, at0_xform f .inverse pos, rev_zero_two_pow]
    rw [Nat.zero_add] at first
    have quotient := first.1.div size nonzero ⟨_, isVal_fone f⟩ (by rw [ofInt, ofInt]; ring)
    exact (isVal_fone_iff (Narrow_fdiv ..)).1 quotient
  · have place : rev k (2 ^ q) ≠ 0 := fun same =>
      other.ne' (rev_injOn hk pos (same.trans (rev_zero_two_pow q).symm))
    rw [at0_inv f hk, at0_xform f .inverse hk]
    refine isZero_fdiv (rest _ place).1 size.1 ?_
    rw [← Bool.not_eq_true, ← quanta_eq_zero_iff size.1, size.2]
    exact nonzero

/-! ## The stages on ones -/

theorem isZero_fone (f : Fmt) : isZero f (fone f) = false := by cases f <;> decide

theorem cabs_of_one {f : Fmt} {z : Cx} (re : z.re = fone f) (im : isZero f z.im = true) : cabs f z = fone f := by
  rw [cabs, re, square_of_isZero im]
  cases f <;> decide +kernel

theorem logBin_of_one {f : Fmt} {z : Cx} (re : z.re = fone f) (im : isZero f z.im = true) : ZeroCx f (logBin f z) := by
  have positive : fle f (fone f) fzero = false := by cases f <;> decide
  rw [logBin, cabs_of_one re im, logc, positive, if_neg (by simp), flog_fone]
  exact zeroCx_czero f

theorem carg_of_one {f : Fmt} {z : Cx} (re : z.re = fone f) (im : isZero f z.im = true) : isZero f (carg f z) = true := by
  have positive : flt f fzero (fone f) = true := by cases f <;> decide
  have number : isNaN f (fone f) = false := by cases f <;> decide
  rw [carg, re, fatan2]
  cases sign : signOf f z.im <;> simp [number, im, positive]

/-- A unit at a zero angle. -/
theorem polar_fone {f : Fmt} {t : Elem} (h : isZero f t = true) :
    (polar f (fone f) t).re = fone f ∧ isZero f (polar f (fone f) t).im = true := by
  rw [polar, fcos_of_isZero h, fsin_of_isZero h, fmul_fone_fone]
  exact ⟨rfl, isZero_fmul_right (isVal_fone f).1 (isZero_pack_zero ..)⟩

theorem exists_of_mem_zipWith {α β γ : Type} {g : α → β → γ} {xs : List α} {ys : List β} {z : γ} (h : z ∈ List.zipWith g xs ys) :
    ∃ x ∈ xs, ∃ y ∈ ys, z = g x y := by
  obtain ⟨k, hk, rfl⟩ := List.getElem_of_mem h
  rw [List.getElem_zipWith]
  exact ⟨_, List.getElem_mem _, _, List.getElem_mem _, rfl⟩

section Stages

variable {f : Fmt} {fs : Nat} {h : List Cx} (ones : UnitBuffer f h)
include ones

theorem UnitBuffer.constBuffer : ConstBuffer f (ofInt f 1) h :=
  fun z hz => ⟨(ones z hz).1 ▸ isVal_fone f, (ones z hz).2⟩

theorem UnitBuffer.causalSpectrum (pos : 0 < fs) (small : fs < 2 ^ 32) :
    ZeroBuffer f (causalSpectrum f fs (h.map (logBin f))) := by
  have logs : ZeroBuffer f (h.map (logBin f)) := List.forall_mem_map.2 fun z hz => logBin_of_one (ones z hz).1 (ones z hz).2
  exact ((logs.inv pos small).fold fs).fwd fs

/-- The minimum-phase spectrum of ones is ones. -/
theorem UnitBuffer.minPhaseSpectrum (hilbert : Bool) (pos : 0 < fs) (small : fs < 2 ^ 32) :
    UnitBuffer f (minPhaseSpectrum f fs hilbert h) := by
  have zeros := ones.causalSpectrum pos small
  cases hilbert
  · refine List.forall_mem_map.2 fun z hz => ?_
    rw [cexp, fexp_of_isZero (zeros z hz).1]
    exact polar_fone (zeros z hz).2
  · intro z hz
    obtain ⟨c, hc, x, hx, rfl⟩ := exists_of_mem_zipWith hz
    rw [polBin, cabs_of_one (ones x hx).1 (ones x hx).2]
    exact polar_fone (zeros c hc).2

/-- The excess phase of two spectra of ones is ones. -/
theorem UnitBuffer.xphBin {w : List Cx} (other : UnitBuffer f w) : UnitBuffer f (List.zipWith (xphBin f) h w) := by
  intro z hz
  obtain ⟨x, hx, y, hy, rfl⟩ := exists_of_mem_zipWith hz
  have angle : isZero f (fsub f (carg f x) (carg f y)) = true :=
    isZero_fsub (carg_of_one (ones x hx).1 (ones x hx).2) (carg_of_one (other y hy).1 (other y hy).2)
  rw [Machine.xphBin, fcos_of_isZero angle, fsin_of_isZero angle]
  exact ⟨rfl, isZero_pack_zero ..⟩

end Stages

/-- A power of two has no larger prime factor than 2. -/
theorem lpf_two_pow_le (q : Nat) : lpf (2 ^ q) ≤ 2 := by
  rcases q with _ | q
  · rw [pow_zero, lpf_one]
    omega
  · obtain ⟨prime, divides, -⟩ := lpf_spec (Nat.le_self_pow (n := q + 1) (by omega) 2)
    exact Nat.le_of_dvd (by omega) (prime.dvd_of_dvd_pow divides)

/-- An output taken from the inverse transform of ones holds a unit impulse. -/
theorem impulse_of_wroteSignal {t : State} {f : Fmt} {n fs q c : Nat} {zs : List Cx} (size : fs = 2 ^ q) (room : q < 32)
    (ones : UnitBuffer f zs) (length : zs.length = fs) (pos : n ≠ 0) (fits : n ≤ fs)
    (wrote : WroteSignal t c n fun i => (at0 (inv f fs zs) i).re) :
    t.dmElem c = fone f ∧ ∀ i, 0 < i → i < n → isZero f (t.dmElem (c + i)) = true := by
  subst size
  obtain ⟨first, rest⟩ := inv_of_ones room ones.constBuffer length
  refine ⟨(wrote 0 (by omega)).trans first, fun i high inside => ?_⟩
  rw [wrote i inside]
  exact rest i high (by omega)

theorem State.getD_signal (s : State) (a n k : Nat) :
    (s.signal a n).getD k fzero = if k < n then s.dmElem (a + k) else fzero := by
  split_ifs with inside
  · rw [List.getD_eq_getElem _ _ (by simpa using inside)]
    simp [State.signal]
  · exact List.getD_eq_default _ _ (by simpa using inside)

theorem padded_signal_of_impulse {s : State} {a n fs : Nat} (pos : n ≠ 0)
    (first : s.dmElem a = fone s.cfg.fmt) (rest : ∀ i, 0 < i → i < n → s.dmElem (a + i) = fzero) :
    padded fs (s.signal a n) = unitImpulse s.cfg.fmt fs := by
  refine List.map_congr_left fun k _ => ?_
  rw [State.getD_signal]
  rcases Nat.eq_zero_or_pos k with rfl | high
  · rw [if_pos (Nat.pos_of_ne_zero pos), if_pos rfl, add_zero, first]
  · rw [if_neg high.ne']
    split_ifs with inside
    · rw [rest k high inside]
      rfl
    · rfl

theorem length_minPhaseSpectrum {f : Fmt} {fs : Nat} (hilbert : Bool) {h : List Cx} (length : h.length = fs) :
    (minPhaseSpectrum f fs hilbert h).length = fs := by
  cases hilbert
  · exact (List.length_map ..).trans (length_causalSpectrum ..)
  · exact (List.length_zipWith ..).trans (by rw [length_causalSpectrum, length, min_self])

end Sys2Proof.Machine

namespace Sys2Proof.Proofs

open Sys2Proof.Machine Sys2Proof.Safety

/-- Settles O20: the spectrum of the impulse is ones, and so are those of both components. -/
theorem hdOfImpulse : Obligations.HdOfImpulse := by
  unfold Obligations.HdOfImpulse
  intro s o n a b hilbert f fs pos size pow2 insideA minimum excess space radix first rest
  obtain ⟨q, hq⟩ := ispow2_iff.1 pow2
  have small : fs < 2 ^ 32 := by omega
  have room : q < 32 := (Nat.pow_lt_pow_iff_right (by omega)).1 (hq ▸ small)
  have posFs : 0 < fs := by rw [hq]; positivity
  have nonzero : n.toNat ≠ 0 := fun h => pos (BitVec.eq_of_toNat_eq h)
  obtain ⟨t, runs, outMin, outExcess, -, notice, -⟩ := hdCommands.1 s o n a b hilbert pos size insideA minimum excess space
    ((congrArg lpf hq).trans_le (lpf_two_pow_le q) |>.trans radix)
  have spectrum : spectrumOf f fs (s.signal a.toNat n.toNat) = fwd f fs (unitImpulse f fs) := by
    rw [spectrumOf, padded_signal_of_impulse nonzero first rest]
  have ones : UnitBuffer f (spectrumOf f fs (s.signal a.toNat n.toNat)) := by
    rw [spectrum]
    exact unitBuffer_fwd_unitImpulse f fs
  have length : (spectrumOf f fs (s.signal a.toNat n.toNat)).length = fs := length_fwd ..
  have onesMin := ones.minPhaseSpectrum (fs := fs) hilbert posFs small
  have lengthMin := length_minPhaseSpectrum (f := f) hilbert length
  have silent : t.loglim = s.loglim := by
    refine Bool.eq_iff_iff.2 (notice.trans (or_iff_left ?_))
    rintro ⟨k, hk, zero⟩
    have inside : k < (spectrumOf f fs (s.signal a.toNat n.toNat)).length := hk.trans_eq length.symm
    obtain ⟨re, im⟩ := ones _ (List.getElem_mem inside)
    rw [at0_of_lt inside, cabs_of_one re im] at zero
    exact Bool.false_ne_true ((isZero_fone f).symm.trans zero)
  refine ⟨t, runs, silent, ?_⟩
  rintro c (⟨selected, rfl⟩ | ⟨selected, rfl⟩)
  · exact impulse_of_wroteSignal hq room onesMin lengthMin nonzero (le_fsize ..) (outMin selected)
  · exact impulse_of_wroteSignal hq room (ones.xphBin onesMin)
      (by rw [List.length_zipWith, length, lengthMin, min_self]) nonzero (le_fsize ..) (outExcess selected)

end Sys2Proof.Proofs
end

section
/-! PROOFS. `MS.DIP` of an all-zero Signal (R244): the level is a zero or a NaN, no bin is reshaped, and the back ends keep
zeros. -/

namespace Sys2Proof.Machine

open Sys2Proof.Safety

/-! ## Zeros and NaNs -/

/-- A zero, of either sign, or a NaN. -/
def ZeroOrNaN (f : Fmt) (x : Elem) : Prop := isNaN f x = true ∨ isZero f x = true

theorem isFinite_of_number {f : Fmt} {x : Elem} (number : isNaN f x = false) (noInf : isInf f x = false) :
    isFinite f x = true := by
  simp only [isNaN, isInf, isFinite, decide_eq_false_iff_not, beq_eq_false_iff_ne, decide_eq_true_eq] at *
  omega

theorem ZeroOrNaN.fmul_right {f : Fmt} {x : Elem} (a : Elem) (h : ZeroOrNaN f x) : ZeroOrNaN f (fmul f a x) := by
  rcases h with nan | zero
  · exact .inl (isNaN_fmul (.inr nan))
  · cases number : isNaN f a
    · cases noInf : isInf f a
      · exact .inr (isZero_fmul_right (isFinite_of_number number noInf) zero)
      · exact .inl (isNaN_fmul_inf_zero (.inl noInf) (.inr zero))
    · exact .inl (isNaN_fmul (.inl number))

theorem ZeroOrNaN.fmul_left {f : Fmt} {x : Elem} (a : Elem) (h : ZeroOrNaN f x) : ZeroOrNaN f (fmul f x a) := by
  rcases h with nan | zero
  · exact .inl (isNaN_fmul (.inl nan))
  · cases number : isNaN f a
    · cases noInf : isInf f a
      · exact .inr (isZero_fmul_left zero (isFinite_of_number number noInf))
      · exact .inl (isNaN_fmul_inf_zero (.inr noInf) (.inl zero))
    · exact .inl (isNaN_fmul (.inr number))

theorem ZeroOrNaN.fadd {f : Fmt} {x y : Elem} (hx : ZeroOrNaN f x) (hy : ZeroOrNaN f y) : ZeroOrNaN f (fadd f x y) := by
  by_cases nan : isNaN f x = true ∨ isNaN f y = true
  · exact .inl (isNaN_fadd nan)
  · rw [not_or] at nan
    exact .inr (isZero_fadd (hx.resolve_left nan.1) (hy.resolve_left nan.2))

theorem ZeroOrNaN.fsub {f : Fmt} {x y : Elem} (hx : ZeroOrNaN f x) (hy : ZeroOrNaN f y) : ZeroOrNaN f (fsub f x y) := by
  by_cases nan : isNaN f x = true ∨ isNaN f y = true
  · exact .inl (isNaN_fsub nan)
  · rw [not_or] at nan
    exact .inr (isZero_fsub (hx.resolve_left nan.1) (hy.resolve_left nan.2))

theorem ZeroOrNaN.fdiv {f : Fmt} {x : Elem} (h : ZeroOrNaN f x) (a : Elem) : ZeroOrNaN f (fdiv f x a) := by
  by_cases nan : isNaN f x = true ∨ isNaN f a = true
  · exact .inl (isNaN_fdiv nan)
  rw [not_or, Bool.not_eq_true, Bool.not_eq_true] at nan
  have zero := h.resolve_left (by simp [nan.1])
  have finite := isInf_eq_false_of_isFinite (isFinite_of_isZero zero)
  cases noInf : isInf f a
  · cases nonzero : isZero f a
    · exact .inr (isZero_fdiv zero (isFinite_of_number nan.2 noInf) nonzero)
    · exact .inl (by simp [Machine.fdiv, finite, noInf, nonzero, zero, isNaN_nanOf])
  · exact .inr (by simp [Machine.fdiv, nan, finite, noInf])

theorem ZeroOrNaN.fsqrt {f : Fmt} {x : Elem} (h : ZeroOrNaN f x) : ZeroOrNaN f (fsqrt f x) := by
  rcases h with nan | zero
  · exact .inl (fsqrt_of_isNaN nan)
  · exact .inr (by simp [Machine.fsqrt, zero])

theorem ZeroOrNaN.flt_eq_false {f : Fmt} {x : Elem} (h : ZeroOrNaN f x) : flt f fzero x = false := by
  rw [← Bool.not_eq_true, fzero_flt_iff]
  rintro ⟨number, nonzero, -⟩
  rcases h with nan | zero
  · simp [nan] at number
  · simp [zero] at nonzero

theorem zeroOrNaN_fzero (f : Fmt) : ZeroOrNaN f fzero := .inr (isZero_fzero f)

theorem zeroOrNaN_ksum {f : Fmt} {vs : List Elem} (h : ∀ v ∈ vs, ZeroOrNaN f v) : ZeroOrNaN f (ksum f vs) := by
  have both : ∀ sc : Elem × Elem, ZeroOrNaN f sc.1 ∧ ZeroOrNaN f sc.2 → ZeroOrNaN f (vs.foldl (ksumStep f) sc).1 := by
    induction vs with
    | nil => exact fun sc hsc => hsc.1
    | cons v vs ih =>
      rintro sc ⟨sum, compensation⟩
      rw [List.forall_mem_cons] at h
      have y := h.1.fsub compensation
      exact ih h.2 _ ⟨sum.fadd y, ((sum.fadd y).fsub sum).fsub y⟩
  exact both _ ⟨zeroOrNaN_fzero f, zeroOrNaN_fzero f⟩

/-! ## The level and the curve -/

/-- The level of a spectrum of zeros, whatever the parameters. -/
theorem zeroOrNaN_blrms {f : Fmt} {x : List Cx} (zeros : ZeroBuffer f x) (direct fs : Nat) (p : BandParams) :
    ZeroOrNaN f (blrms f direct fs p x) := by
  by_cases band : bins (bandLow f fs p) (bandHigh f fs p) = []
  · rw [blrms_of_empty x band]
    exact zeroOrNaN_fzero f
  obtain ⟨k, hk⟩ := List.exists_mem_of_ne_nil _ band
  obtain ⟨-, kHi, high, -⟩ := mem_bins.1 hk
  rw [blrms_of_band x high band]
  split_ifs
  · refine ZeroOrNaN.fsqrt (ZeroOrNaN.fdiv (zeroOrNaN_ksum (List.forall_mem_map.2 fun k _ => ?_)) _)
    obtain ⟨re, im⟩ := zeros.at0 k
    have zero : power f (x.getD k czero) = fzero := by
      rw [power, ← at0, square_of_isZero re, square_of_isZero im, fadd_fzero_fzero]
    rw [zero]
    exact (zeroOrNaN_fzero f).fmul_right _
  · exact zeroOrNaN_fzero f

/-- With such a target the dip curve keeps `+0`. -/
theorem dipCurve_fzero {f : Fmt} {t : Elem} (h : ZeroOrNaN f t) (x : Elem) : dipCurve f t x fzero = fzero := by
  rw [dipCurve_hard fun soft => by simpa [((h.fdiv x).fsub h).flt_eq_false] using soft.2, dipHard, h.flt_eq_false,
    if_neg (by simp)]

/-- A bin of zero magnitude that its curve keeps. -/
def keptBin (z : Cx) : ShapedBin := ⟨z, fzero, fzero, false⟩

theorem limitBin_of_zero {f : Fmt} {curve : Elem → Elem} (kept : curve fzero = fzero) {z : Cx} (zero : ZeroCx f z) :
    limitBin f curve z = keptBin z := by
  have equal : feq f fzero fzero = true := by cases f <;> decide
  rw [limitBin, cabs_of_isZero zero.1 zero.2]
  simp [kept, equal, keptBin]

/-! ## The back ends -/

theorem isFinite_of_fle_abs {f : Fmt} {v : Elem} (h : fle f (fneg f (fpi f)) v = true ∧ fle f v (fpi f) = true) :
    isFinite f v = true := by
  obtain ⟨-, -, low⟩ := fle_iff.1 h.1
  obtain ⟨-, -, high⟩ := fle_iff.1 h.2
  have bound : bodyOf f (fpi f) < infBody f ∧ signOf f (fpi f) = false := by cases f <;> decide
  simp only [orderKey, bodyOf_fneg, signOf_fneg, bound.2, Bool.not_false, if_true, Bool.false_eq_true, if_false] at low high
  simp only [isFinite, decide_eq_true_eq]
  split_ifs at low high <;> omega

theorem isFinite_atan2Open (f : Fmt) (y x : Elem) : isFinite f (atan2Open f y x) = true := by
  unfold atan2Open
  dsimp only
  split_ifs with inside
  · exact isFinite_of_fle_abs (by simpa using inside)
  · exact (isVal_fzero f).1

/-- The phase of a number is finite (log 10). -/
theorem isFinite_fatan2 {f : Fmt} {y x : Elem} (hy : isNaN f y = false) (hx : isNaN f x = false) :
    isFinite f (fatan2 f y x) = true := by
  unfold fatan2
  rw [hy, hx, Bool.or_self, if_neg (by simp)]
  split_ifs
  · exact (isVal_fzero f).1
  · exact isFinite_of_isZero (isZero_pack_zero ..)
  · exact isFinite_fpi f
  · exact isFinite_atan2Open ..

theorem isFinite_fcos {f : Fmt} {x : Elem} (h : isFinite f x = true) : isFinite f (fcos f x) = true := by
  unfold fcos
  rw [isNaN_eq_false_of_isFinite h, isInf_eq_false_of_isFinite h, if_neg (by simp), if_neg (c := false = true) (by simp)]
  split_ifs
  · exact (isVal_fone f).1
  · exact isFinite_openFinite ..

theorem isFinite_fsin {f : Fmt} {x : Elem} (h : isFinite f x = true) : isFinite f (fsin f x) = true := by
  unfold fsin
  rw [isNaN_eq_false_of_isFinite h, isInf_eq_false_of_isFinite h, if_neg (by simp), if_neg (c := false = true) (by simp)]
  split_ifs
  · exact isFinite_of_isZero (isZero_pack_zero ..)
  · exact isFinite_openFinite ..

theorem zeroCx_rotate_keptBin {f : Fmt} {z w : Cx} (hz : ZeroCx f z) (hw : ZeroCx f w) :
    ZeroCx f ((keptBin z).rotate f w) := by
  have phase : isFinite f (carg f z) = true :=
    isFinite_fatan2 (isNaN_eq_false_of_isZero hz.2) (isNaN_eq_false_of_isZero hz.1)
  have angle : isFinite f (fadd f (carg f z) w.im) = true := (IsVal.addAs_isZero ⟨phase, rfl⟩ hw.2).1
  exact ⟨isZero_fmul_left (isZero_fzero f) (isFinite_fcos angle), isZero_fmul_left (isZero_fzero f) (isFinite_fsin angle)⟩

theorem zeroCx_convolve_keptBin {f : Fmt} {z w : Cx} (hz : ZeroCx f z) (hw : ZeroCx f w) :
    ZeroCx f ((keptBin z).convolve f w) := by
  have factor : FiniteCx f (cexp f w) := by
    rw [cexp, fexp_of_isZero hw.1]
    obtain ⟨re, im⟩ := polar_fone (f := f) hw.2
    exact ⟨(congrArg (isFinite f) re).trans (isVal_fone f).1, isFinite_of_isZero im⟩
  exact zeroCx_cmul hz factor

/-- Neither back end makes anything of zeros. -/
theorem zeroBuffer_reshape {f : Fmt} {fs : Nat} (pos : 0 < fs) (small : fs < 2 ^ 32) (o : MsOpts) {zs : List Cx}
    (zeros : ZeroBuffer f zs) : ZeroBuffer f (reshape f fs o (zs.map keptBin)) := by
  have gains : ZeroBuffer f ((zs.map keptBin).map (ShapedBin.logGain f)) :=
    List.forall_mem_map.2 fun b hb => by
      obtain ⟨z, -, rfl⟩ := List.mem_map.1 hb
      exact zeroCx_czero f
  have spectrum : ZeroBuffer f (causalSpectrum f fs ((zs.map keptBin).map (ShapedBin.logGain f))) :=
    ((gains.inv pos small).fold fs).fwd fs
  unfold reshape
  split_ifs with minimum rotation
  · intro v hv
    obtain ⟨b, hb, w, hw, rfl⟩ := exists_of_mem_zipWith hv
    obtain ⟨z, hz, rfl⟩ := List.mem_map.1 hb
    exact zeroCx_rotate_keptBin (zeros z hz) (spectrum w hw)
  · intro v hv
    obtain ⟨b, hb, w, hw, rfl⟩ := exists_of_mem_zipWith hv
    obtain ⟨z, hz, rfl⟩ := List.mem_map.1 hb
    exact zeroCx_convolve_keptBin (zeros z hz) (spectrum w hw)
  · intro v hv
    obtain ⟨b, hb, rfl⟩ := List.mem_map.1 hv
    obtain ⟨z, hz, rfl⟩ := List.mem_map.1 hb
    exact zeros z hz

theorem zeroBuffer_padded_signal {s : State} {a n : Nat} (h : ∀ i < n, isZero s.cfg.fmt (s.dmElem (a + i)) = true) (fs : Nat) :
    ZeroBuffer s.cfg.fmt (padded fs (s.signal a n)) := by
  refine zeroBuffer_map_range fun k _ => ⟨?_, isZero_fzero _⟩
  rw [State.getD_signal]
  split_ifs with inside
  · exact h k inside
  · exact isZero_fzero _

end Sys2Proof.Machine

namespace Sys2Proof.Proofs

open Sys2Proof.Machine Sys2Proof.Safety

/-- Settles O25: no bin of the spectrum of zeros is reshaped. -/
theorem dipOfZeros : Obligations.DipOfZeros := by
  unfold Obligations.DipOfZeros
  intro s o n a b f fs pos size insideA insideB space radix silence
  obtain ⟨t, runs, wrote, -, notice, -⟩ := shaperCommands.1 s o n a b pos size insideA insideB space radix _
    List.mem_cons_self
  have posFs : 0 < fs := by
    have nonzero : n.toNat ≠ 0 := fun h => pos (BitVec.eq_of_toNat_eq h)
    have fits := le_fsize n.toNat o.nopad o.mexp
    exact (Nat.pos_of_ne_zero nonzero).trans_le fits
  have zeros : ZeroBuffer f (spectrumOf f fs (s.signal a.toNat n.toNat)) := (zeroBuffer_padded_signal silence fs).fwd fs
  have level := zeroOrNaN_blrms zeros s.cfg.hnDirectMax fs ⟨s.regs[0], s.regs[1], s.regs[2], s.regs[3]⟩
  have bins : (spectrumOf f fs (s.signal a.toNat n.toNat)).map (limitBin f (dipCurve f (fmul f (blrms f s.cfg.hnDirectMax fs
      ⟨s.regs[0], s.regs[1], s.regs[2], s.regs[3]⟩ (spectrumOf f fs (s.signal a.toNat n.toNat))) s.regs[4]) s.regs[5])) =
      (spectrumOf f fs (s.signal a.toNat n.toNat)).map keptBin :=
    List.map_congr_left fun z hz => limitBin_of_zero (dipCurve_fzero (level.fmul_left _) _) (zeros z hz)
  have output := (zeroBuffer_reshape posFs (by omega) o zeros).inv posFs (by omega)
  refine ⟨t, runs, Bool.eq_iff_iff.2 (notice.trans (or_iff_left ?_)), fun i hi => ?_⟩
  · rintro ⟨-, c, hc, changed, -⟩
    have kept : c ∈ (spectrumOf f fs (s.signal a.toNat n.toNat)).map keptBin := by
      rw [← bins]
      exact hc
    obtain ⟨z, -, rfl⟩ := List.mem_map.1 kept
    exact Bool.false_ne_true changed
  · have value : t.dmElem (b.toNat + i) = (at0 (inv f fs (reshape f fs o
        ((spectrumOf f fs (s.signal a.toNat n.toNat)).map keptBin))) i).re := by
      rw [← bins]
      exact wrote i hi
    rw [value]
    exact (output.at0 i).1

end Sys2Proof.Proofs
end

section
/-! PROOFS. The transforms of 1, 2 and 4 values (R170, R172): on Gaussian integers every operation is exact, since the roots of
unity are the powers of the imaginary unit. -/

namespace Sys2Proof.Machine

open Sys2Proof.Safety

/-! ## Gaussian integers -/

/-- A machine value that is a Gaussian integer, of parts up to `N`. -/
def IsGauss (f : Fmt) (N : Int) (z : Cx) (c : ℂ) : Prop :=
  ∃ u v : Int, |u| ≤ N ∧ |v| ≤ N ∧ c = ⟨(u : ℝ), (v : ℝ)⟩ ∧ IsVal f z.re (ofInt f u) ∧ IsVal f z.im (ofInt f v)

/-- A machine value that is a unit of the Gaussian integers. -/
def IsGaussUnit (f : Fmt) (w : Cx) (d : ℂ) : Prop :=
  ∃ a b : Int, |a| + |b| = 1 ∧ d = ⟨(a : ℝ), (b : ℝ)⟩ ∧ IsVal f w.re (ofInt f a) ∧ IsVal f w.im (ofInt f b)

theorem cast_toRat_of_isVal {f : Fmt} {x : Elem} {k : Int} (h : IsVal f x (ofInt f k)) : ((toRat f x : ℚ) : ℝ) = k := by
  rw [cast_toRat, h.2, ofInt]
  push_cast
  field_simp

theorem isVal_of_toRat {f : Fmt} {x : Elem} {k : Int} (finite : isFinite f x = true) (value : (k : ℝ) = (toRat f x : ℝ)) :
    IsVal f x (ofInt f k) := by
  refine ⟨finite, ?_⟩
  rw [cast_toRat, eq_div_iff (by positivity)] at value
  rw [ofInt]
  exact_mod_cast value.symm

theorem IsGauss.represents {f : Fmt} {N : Int} {z : Cx} {c : ℂ} (h : IsGauss f N z c) : Represents f z c := by
  obtain ⟨u, v, -, -, rfl, re, im⟩ := h
  exact ⟨re.1, im.1, (cast_toRat_of_isVal re).symm, (cast_toRat_of_isVal im).symm⟩

theorem IsGauss.nonneg {f : Fmt} {N : Int} {z : Cx} {c : ℂ} (h : IsGauss f N z c) : 0 ≤ N := by
  obtain ⟨u, -, bound, -⟩ := h
  exact (abs_nonneg u).trans bound

theorem IsGauss.mono {f : Fmt} {M N : Int} {z : Cx} {c : ℂ} (h : IsGauss f M z c) (le : M ≤ N) : IsGauss f N z c := by
  obtain ⟨u, v, hu, hv, rest⟩ := h
  exact ⟨u, v, hu.trans le, hv.trans le, rest⟩

theorem isGauss_of_represents {f : Fmt} {N : Int} {z : Cx} {c : ℂ} (h : Represents f z c)
    (integer : ∃ u v : Int, |u| ≤ N ∧ |v| ≤ N ∧ c = ⟨(u : ℝ), (v : ℝ)⟩) : IsGauss f N z c := by
  obtain ⟨u, v, hu, hv, rfl⟩ := integer
  obtain ⟨finite_re, finite_im, re, im⟩ := h
  exact ⟨u, v, hu, hv, rfl, isVal_of_toRat finite_re re, isVal_of_toRat finite_im im⟩

theorem IsVal.addInt {f : Fmt} {x y : Elem} {p q : Int} (hx : IsVal f x (ofInt f p)) (hy : IsVal f y (ofInt f q))
    (small : |p + q| ≤ 2 ^ 24) : IsVal f (fadd f x y) (ofInt f (p + q)) := by
  have sum : ofInt f p + ofInt f q = ofInt f (p + q) := by rw [ofInt, ofInt, ofInt, add_mul]
  rw [← sum]
  exact hx.add hy (by rw [sum]; exact (shortInt_of_le small).representable)

theorem IsVal.subInt {f : Fmt} {x y : Elem} {p q : Int} (hx : IsVal f x (ofInt f p)) (hy : IsVal f y (ofInt f q))
    (small : |p - q| ≤ 2 ^ 24) : IsVal f (fsub f x y) (ofInt f (p - q)) := by
  have difference : ofInt f p - ofInt f q = ofInt f (p - q) := by rw [ofInt, ofInt, ofInt, sub_mul]
  rw [← difference]
  exact hx.sub hy (by rw [difference]; exact (shortInt_of_le small).representable)

theorem IsVal.mulInt {f : Fmt} {x y : Elem} {p q : Int} (hx : IsVal f x (ofInt f p)) (hy : IsVal f y (ofInt f q))
    (small : |p * q| ≤ 2 ^ 24) : IsVal f (fmul f x y) (ofInt f (p * q)) :=
  hx.mul hy (shortInt_of_le small).representable (by rw [ofInt, ofInt, ofInt]; ring)

theorem IsGauss.cadd {f : Fmt} {M N : Int} {z w : Cx} {c d : ℂ} (hz : IsGauss f M z c) (hw : IsGauss f N w d)
    (room : M + N ≤ 2 ^ 24) : IsGauss f (M + N) (cadd f z w) (c + d) := by
  obtain ⟨u, v, hu, hv, rfl, re, im⟩ := hz
  obtain ⟨u', v', hu', hv', rfl, re', im'⟩ := hw
  have bound_re := (abs_add_le u u').trans (add_le_add hu hu')
  have bound_im := (abs_add_le v v').trans (add_le_add hv hv')
  refine ⟨u + u', v + v', bound_re, bound_im, ?_, re.addInt re' (bound_re.trans room), im.addInt im' (bound_im.trans room)⟩
  apply Complex.ext <;> simp

/-- The product by a unit keeps the bound. -/
theorem IsGauss.cmul {f : Fmt} {N : Int} {z w : Cx} {c d : ℂ} (hz : IsGauss f N z c) (hw : IsGaussUnit f w d)
    (room : N ≤ 2 ^ 24) : IsGauss f N (cmul f z w) (c * d) := by
  obtain ⟨u, v, hu, hv, rfl, re, im⟩ := hz
  obtain ⟨a, b, unit, rfl, re', im'⟩ := hw
  have bound (p q : Int) (hp : |p| ≤ N) (hq : |q| ≤ N) : |p| * |a| + |q| * |b| ≤ N := by
    calc |p| * |a| + |q| * |b| ≤ N * |a| + N * |b| :=
          add_le_add (mul_le_mul_of_nonneg_right hp (abs_nonneg a)) (mul_le_mul_of_nonneg_right hq (abs_nonneg b))
      _ = N := by rw [← mul_add, unit, mul_one]
  have nonneg (p q : Int) : 0 ≤ |p| * |q| := mul_nonneg (abs_nonneg p) (abs_nonneg q)
  have product (p q : Int) (hp : |p| ≤ N) (hq : |q| ≤ N) : |p * a| ≤ 2 ^ 24 ∧ |q * b| ≤ 2 ^ 24 := by
    have := bound p q hp hq
    have := nonneg p a
    have := nonneg q b
    rw [abs_mul, abs_mul]
    constructor <;> linarith
  have bound_re : |u * a - v * b| ≤ N := (abs_sub (u * a) (v * b)).trans (by rw [abs_mul, abs_mul]; exact bound u v hu hv)
  have bound_im : |u * b + v * a| ≤ N := (abs_add_le _ _).trans (by
    rw [abs_mul, abs_mul, add_comm]; exact bound v u hv hu)
  refine ⟨u * a - v * b, u * b + v * a, bound_re, bound_im, ?_,
    (re.mulInt re' (product u v hu hv).1).subInt (im.mulInt im' (product u v hu hv).2) (bound_re.trans room),
    (re.mulInt im' (product v u hv hu).2).addInt (im.mulInt re' (product v u hv hu).1) (bound_im.trans room)⟩
  apply Complex.ext <;> simp

/-- The division of a multiple of a small power of two. -/
theorem IsGauss.cdivr {f : Fmt} {M N : Int} {z : Cx} {c : ℂ} {n : Nat} (pos : 0 < n) (small : n ≤ 2 ^ 24)
    (h : IsGauss f M z (n * c)) (integer : ∃ u v : Int, |u| ≤ N ∧ |v| ≤ N ∧ c = ⟨(u : ℝ), (v : ℝ)⟩) (room : N ≤ 2 ^ 24) :
    IsGauss f N (cdivr f z (i2f f n)) c := by
  obtain ⟨u, v, hu, hv, rfl⟩ := integer
  obtain ⟨u', v', -, -, same, re, im⟩ := h
  have parts : u' = n * u ∧ v' = n * v := by
    have hre := congrArg Complex.re same
    have him := congrArg Complex.im same
    simp at hre him
    exact ⟨by exact_mod_cast hre.symm, by exact_mod_cast him.symm⟩
  have size : IsVal f (i2f f n) (ofInt f n) := isVal_i2f (shortInt_of_le (by rw [Nat.abs_cast]; exact_mod_cast small))
  have nonzero : ofInt f n ≠ 0 := by
    rw [ofInt]
    have : (n : Int) ≠ 0 := by omega
    positivity
  have quotient {x : Elem} {k : Int} (hx : IsVal f x (ofInt f (n * k))) (hk : |k| ≤ N) :
      IsVal f (fdiv f x (i2f f n)) (ofInt f k) :=
    hx.div size nonzero (shortInt_of_le (hk.trans room)).representable (by rw [ofInt, ofInt, ofInt]; ring)
  exact ⟨u, v, hu, hv, rfl, quotient (parts.1 ▸ re) hu, quotient (parts.2 ▸ im) hv⟩

/-! ## The roots of unity (R145, R146) -/

/-- The quarter turn of a direction. -/
def quarter : Dir → ℂ
  | .forward => -Complex.I
  | .inverse => Complex.I

theorem quarter_sq (dir : Dir) : quarter dir ^ 2 = -1 := by cases dir <;> simp [quarter]

theorem quarter_powers (dir : Dir) : quarter dir ^ 3 = -quarter dir ∧ quarter dir ^ 4 = 1 ∧ quarter dir ^ 6 = -1 ∧
    quarter dir ^ 9 = quarter dir := by
  have square := quarter_sq dir
  have fourth : quarter dir ^ 4 = 1 := by rw [show 4 = 2 * 2 from rfl, pow_mul, square]; norm_num
  refine ⟨by rw [pow_succ, square]; ring, fourth, ?_, ?_⟩
  · rw [show 6 = 2 * 3 from rfl, pow_mul, square]
    norm_num
  · rw [show 9 = 4 * 2 + 1 from rfl, pow_succ, pow_mul, fourth]
    norm_num

theorem quarter_pow_mod (dir : Dir) (k : Nat) : quarter dir ^ (k % 4) = quarter dir ^ k := by
  obtain ⟨-, fourth, -⟩ := quarter_powers dir
  conv_rhs => rw [← Nat.div_add_mod k 4, pow_add, pow_mul, fourth, one_pow, one_mul]

theorem isGaussUnit_one (f : Fmt) : IsGaussUnit f ⟨fone f, fzero⟩ 1 :=
  ⟨1, 0, by simp, by apply Complex.ext <;> simp, isVal_fone f, by simpa [ofInt] using isVal_fzero f⟩

theorem isGaussUnit_i (f : Fmt) : IsGaussUnit f ⟨fzero, fone f⟩ Complex.I :=
  ⟨0, 1, by simp, by apply Complex.ext <;> simp, by simpa [ofInt] using isVal_fzero f, isVal_fone f⟩

theorem isGaussUnit_neg_one (f : Fmt) : IsGaussUnit f ⟨fneg f (fone f), fzero⟩ (-1) :=
  ⟨-1, 0, by simp, by apply Complex.ext <;> simp, by simpa [ofInt] using (isVal_fone f).neg,
    by simpa [ofInt] using isVal_fzero f⟩

theorem isGaussUnit_neg_i (f : Fmt) : IsGaussUnit f ⟨fzero, fneg f (fone f)⟩ (-Complex.I) :=
  ⟨0, -1, by simp, by apply Complex.ext <;> simp, by simpa [ofInt] using isVal_fzero f,
    by simpa [ofInt] using (isVal_fone f).neg⟩

theorem isGaussUnit_twiddle (f : Fmt) {n : Nat} (hn : n ∈ [1, 2, 4]) {j : Nat} (hj : j < n) :
    IsGaussUnit f (twiddle f n j) (Complex.I ^ (4 / n * j)) := by
  obtain ⟨zero, quarterTurn, half, threeQuarters⟩ := twiddle_quarters f hj
  have cases : j = 0 ∨ 4 * j = n ∧ 4 / n * j = 1 ∨ 2 * j = n ∧ 4 / n * j = 2 ∨ 4 * j = 3 * n ∧ 4 / n * j = 3 := by
    simp only [List.mem_cons, List.not_mem_nil, or_false] at hn
    rcases hn with rfl | rfl | rfl <;> interval_cases j <;> decide
  rcases cases with rfl | ⟨place, power⟩ | ⟨place, power⟩ | ⟨place, power⟩
  · rw [zero rfl, Nat.mul_zero, pow_zero]
    exact isGaussUnit_one f
  · rw [quarterTurn place, power, pow_one]
    exact isGaussUnit_i f
  · rw [half place, power, Complex.I_sq]
    exact isGaussUnit_neg_one f
  · rw [threeQuarters place, power, Complex.I_pow_three]
    exact isGaussUnit_neg_i f

theorem IsGaussUnit.conj {f : Fmt} {w : Cx} {d : ℂ} (h : IsGaussUnit f w d) :
    IsGaussUnit f ⟨w.re, fneg f w.im⟩ ((starRingEnd ℂ) d) := by
  obtain ⟨a, b, unit, rfl, re, im⟩ := h
  refine ⟨a, -b, by rwa [abs_neg], by apply Complex.ext <;> simp, re, ?_⟩
  have negated := im.neg
  rwa [ofInt, ← neg_mul] at negated

theorem isGaussUnit_om (f : Fmt) (dir : Dir) {n : Nat} (hn : n ∈ [1, 2, 4]) (j : Nat) :
    IsGaussUnit f (om f dir n j) (quarter dir ^ (4 / n * j)) := by
  have divides : 4 / n * n = 4 ∧ 0 < n := by
    simp only [List.mem_cons, List.not_mem_nil, or_false] at hn
    rcases hn with rfl | rfl | rfl <;> decide
  have unit := isGaussUnit_twiddle f hn (Nat.mod_lt j divides.2)
  have reduced : quarter dir ^ (4 / n * (j % n)) = quarter dir ^ (4 / n * j) := by
    rw [← Nat.mul_mod_mul_left, divides.1, quarter_pow_mod]
  rw [← reduced]
  cases dir
  · have conjugated := unit.conj
    rwa [map_pow, Complex.conj_I] at conjugated
  · exact unit

/-! ## The butterflies -/

theorem isGauss_twiddled {f : Fmt} {dir : Dir} {n size m k0 j0 : Nat} {N : Int} {zs : List Cx} {c0 c1 : ℂ}
    (hn : n ∈ [1, 2, 4]) (h0 : IsGauss f N (at0 zs j0) c0) (h1 : IsGauss f N (at0 zs (m + j0)) c1) (room : N + N ≤ 2 ^ 24) :
    IsGauss f (N + N) (twiddled f dir n size 2 m zs k0 j0) ((c1 * quarter dir ^ (4 / n * (k0 * (n / 2))) + c0) *
      quarter dir ^ (4 / n * (j0 * k0 % size * (n / size)))) := by
  have nonneg := h0.nonneg
  rw [twiddled, bfly, group_two, horner_pair, om_mod]
  exact ((h1.cmul (isGaussUnit_om f dir hn _) (by linarith)).cadd h0 room).cmul (isGaussUnit_om f dir hn _) room

theorem recAll_two (f : Fmt) (dir : Dir) (n : Nat) (zs : List Cx) :
    recAll f dir n 2 zs = [twiddled f dir n 2 2 1 zs 0 0, twiddled f dir n 2 2 1 zs 1 0] := by
  have range : List.range 2 = [0, 1] := rfl
  rw [recAll_of_two_le f dir n (le_refl 2), show spf 2 = 2 from rfl, range]
  rfl

theorem recAll_four (f : Fmt) (dir : Dir) (n : Nat) (zs : List Cx) : recAll f dir n 4 zs =
    recAll f dir n 2 [twiddled f dir n 4 2 2 zs 0 0, twiddled f dir n 4 2 2 zs 0 1] ++
      recAll f dir n 2 [twiddled f dir n 4 2 2 zs 1 0, twiddled f dir n 4 2 2 zs 1 1] := by
  have range : List.range 2 = [0, 1] := rfl
  rw [recAll_of_two_le f dir n (by omega), show spf 4 = 2 from rfl, range]
  simp only [Nat.reduceDiv, List.flatMap_cons, List.flatMap_nil, List.append_nil, List.map_cons, List.map_nil]

/-- Two levels of butterflies. -/
theorem isGauss_xform_four {f : Fmt} {dir : Dir} {N : Int} {zs : List Cx} {x : Nat → ℂ} (room : 4 * N ≤ 2 ^ 24)
    (h : ∀ j < 4, IsGauss f N (at0 zs j) (x j)) : ∀ k < 4, IsGauss f (4 * N) (at0 (xform f dir 4 zs) k)
      (∑ j ∈ Finset.range 4, x j * quarter dir ^ (j * k)) := by
  have four : (4 : Nat) ∈ [1, 2, 4] := by decide
  have nonneg := (h 0 (by omega)).nonneg
  have first (k0 j0 : Nat) (hj : j0 < 2) := isGauss_twiddled (size := 4) (k0 := k0) (dir := dir) four
    (h j0 (by omega)) (h (2 + j0) (by omega)) (by linarith)
  have second (k0 k1 : Nat) := isGauss_twiddled (size := 2) (m := 1) (k0 := k1) (j0 := 0) (dir := dir) (f := f)
    (zs := [twiddled f dir 4 4 2 2 zs k0 0, twiddled f dir 4 4 2 2 zs k0 1]) four (first k0 0 (by omega))
    (first k0 1 (by omega)) (by linarith)
  have square := quarter_sq dir
  intro k hk
  rw [at0_xform f dir hk, recAll_four]
  rw [show N + N + (N + N) = 4 * N by ring] at second
  rw [recAll_two, recAll_two]
  obtain ⟨cube, fourth, sixth, ninth⟩ := quarter_powers dir
  interval_cases k
  · refine Eq.subst (motive := IsGauss f (4 * N) _) ?_ (second 0 0)
    simp [Finset.sum_range_succ]
    ring
  · refine Eq.subst (motive := IsGauss f (4 * N) _) ?_ (second 1 0)
    simp [Finset.sum_range_succ, square, cube]
    ring
  · refine Eq.subst (motive := IsGauss f (4 * N) _) ?_ (second 0 1)
    simp [Finset.sum_range_succ, square, fourth, sixth]
    ring
  · refine Eq.subst (motive := IsGauss f (4 * N) _) ?_ (second 1 1)
    simp [Finset.sum_range_succ, square, cube, sixth, ninth]
    ring

/-- The transforms of Gaussian integers, in both directions. -/
theorem isGauss_xform {f : Fmt} {dir : Dir} {n : Nat} {N : Int} {zs : List Cx} {x : Nat → ℂ} (hn : n ∈ [1, 2, 4])
    (length : zs.length = n) (room : 4 * N ≤ 2 ^ 24) (h : ∀ j < n, IsGauss f N (at0 zs j) (x j)) :
    ∀ k < n, IsGauss f (4 * N) (at0 (xform f dir n zs) k)
      (∑ j ∈ Finset.range n, x j * quarter dir ^ (4 / n * (j * k))) := by
  have mem := hn
  simp only [List.mem_cons, List.not_mem_nil, or_false] at hn
  intro k hk
  have nonneg := (h k hk).nonneg
  rcases hn with rfl | rfl | rfl
  · obtain ⟨z, rfl⟩ := List.length_eq_one_iff.1 length
    obtain rfl : k = 0 := by omega
    rw [xform_one]
    simpa using (h 0 hk).mono (by linarith)
  · have value (k0 : Nat) := (isGauss_twiddled (size := 2) (m := 1) (k0 := k0) (j0 := 0) (dir := dir) mem
      (h 0 (by omega)) (h 1 (by omega)) (by linarith)).mono (N := 4 * N) (by linarith)
    rw [at0_xform f dir hk, recAll_two]
    interval_cases k
    · refine Eq.subst (motive := IsGauss f (4 * N) _) ?_ (value 0)
      simp [Finset.sum_range_succ]
      ring
    · refine Eq.subst (motive := IsGauss f (4 * N) _) ?_ (value 1)
      simp [Finset.sum_range_succ]
      ring
  · simpa using isGauss_xform_four room h k hk

/-! ## The ideal transforms (R170) -/

theorem exp_quarter (dir : Dir) :
    Complex.exp ((match dir with | .forward => -1 | .inverse => 1) * (Real.pi / 2 * Complex.I)) = quarter dir := by
  cases dir
  · rw [neg_one_mul, Complex.exp_neg, Complex.exp_mul_I, Complex.cos_pi_div_two, Complex.sin_pi_div_two]
    simp [quarter]
  · rw [one_mul, Complex.exp_mul_I, Complex.cos_pi_div_two, Complex.sin_pi_div_two]
    simp [quarter]

/-- The quotient by a divisor of 4. -/
theorem cast_four_div {n : Nat} (hn : n ∈ [1, 2, 4]) : ((4 / n : Nat) : ℂ) = 4 / n ∧ (n : ℂ) ≠ 0 := by
  simp only [List.mem_cons, List.not_mem_nil, or_false] at hn
  rcases hn with rfl | rfl | rfl <;> norm_num

/-- The roots of the ideal forward transform. -/
theorem exp_forward {n : Nat} (hn : n ∈ [1, 2, 4]) (j k : Nat) :
    Complex.exp (-2 * Real.pi * Complex.I * j * k / n) = quarter .forward ^ (4 / n * (j * k)) := by
  obtain ⟨quotient, nonzero⟩ := cast_four_div hn
  rw [← exp_quarter, ← Complex.exp_nat_mul]
  congr 1
  push_cast [quotient]
  field_simp
  ring

theorem exp_inverse {n : Nat} (hn : n ∈ [1, 2, 4]) (j k : Nat) :
    Complex.exp (2 * Real.pi * Complex.I * j * k / n) = quarter .inverse ^ (4 / n * (j * k)) := by
  obtain ⟨quotient, nonzero⟩ := cast_four_div hn
  rw [← exp_quarter, ← Complex.exp_nat_mul]
  congr 1
  push_cast [quotient]
  field_simp
  ring

/-- The ideal inverse transform takes the ideal forward one back. -/
theorem inverse_sum {n : Nat} (hn : n ∈ [1, 2, 4]) (x : Nat → ℂ) {k : Nat} (hk : k < n) :
    ∑ i ∈ Finset.range n, (∑ j ∈ Finset.range n, x j * quarter .forward ^ (4 / n * (j * i))) *
      quarter .inverse ^ (4 / n * (i * k)) = n * x k := by
  have opposite : quarter .forward = -quarter .inverse := rfl
  have square := quarter_sq .inverse
  simp only [List.mem_cons, List.not_mem_nil, or_false] at hn
  rcases hn with rfl | rfl | rfl <;> interval_cases k <;>
    simp [Finset.sum_range_succ, quarter_sq, quarter_powers, opposite] <;> grind

end Sys2Proof.Machine

namespace Sys2Proof.Proofs

open Sys2Proof.Machine Sys2Proof.Safety

/-- Settles O10: forward from parts up to `2 ^ 16`, and back from parts up to `2 ^ 18`. -/
theorem smallTransformsExact : Obligations.SmallTransformsExact := by
  unfold Obligations.SmallTransformsExact
  intro f n zs x y hn integers represents ideal
  obtain ⟨length, values⟩ := represents
  have input : ∀ j < n, IsGauss f (2 ^ 16) (at0 zs j) (x j) := fun j hj =>
    isGauss_of_represents (values j hj) (by exact_mod_cast integers j hj)
  have spectrum : ∀ k < n, y k = ∑ j ∈ Finset.range n, x j * quarter .forward ^ (4 / n * (j * k)) := by
    intro k hk
    simp only [ideal k hk, exp_forward hn]
  have forward : ∀ k < n, IsGauss f (2 ^ 18) (at0 (fwd f n zs) k) (y k) := fun k hk =>
    spectrum k hk ▸ isGauss_xform (dir := .forward) hn length (by norm_num) input k hk
  have back : ∀ k < n, ∑ j ∈ Finset.range n, y j * quarter .inverse ^ (4 / n * (j * k)) = n * x k := by
    intro k hk
    rw [← inverse_sum hn x hk]
    exact Finset.sum_congr rfl fun j hj => by rw [spectrum j (Finset.mem_range.1 hj)]
  have pos : 0 < n ∧ n ≤ 2 ^ 24 := by
    simp only [List.mem_cons, List.not_mem_nil, or_false] at hn
    omega
  refine ⟨⟨length_fwd .., fun k hk => (forward k hk).represents⟩, fun j hj => ?_, ⟨length_inv .., fun k hk => ?_⟩⟩
  · have cast : (n : ℂ) ≠ 0 := by exact_mod_cast pos.1.ne'
    rw [eq_div_iff cast, mul_comm, ← back j hj]
    exact Finset.sum_congr rfl fun k _ => by rw [exp_inverse hn, Nat.mul_comm k j]
  · have inverse := isGauss_xform (dir := .inverse) hn (length_fwd f n zs) (by norm_num) forward k hk
    rw [back k hk] at inverse
    rw [at0_inv f hk]
    exact (inverse.cdivr pos.1 pos.2 (N := 2 ^ 16) (by exact_mod_cast integers k hk) (by norm_num)).represents

end Sys2Proof.Proofs
end

section
/-! PROOFS. The limiter curves against the ideal ones (R238, R239, R247, R248): the error of one rounded operation, the error
of the six of a curve, and the ideal curves. -/

namespace Sys2Proof.Machine

open Sys2Proof.Safety

/-! ## The error of one rounding (R131) -/

/-- Half of a unit in the last place of 1. -/
noncomputable def roundoff (f : Fmt) : ℝ := 1 / 2 ^ (fracBits f + 1)

/-- Half of the quantum. -/
noncomputable def halfQuantum (f : Fmt) : ℝ := 1 / 2 ^ (quantumExp f + 1)

/-- A nearest body lies within half of the gap around it: within a relative error, or within half a quantum, and then it is
exact on a whole number of quanta. -/
theorem exists_nearestTo (f : Fmt) {s : ℝ} (hs : 0 ≤ s) : ∃ b, NearestTo f s b ∧
    (|s - bodyMag f b| ≤ s * roundoff f ∨ |s - bodyMag f b| ≤ 1 / 2 ∧ ((⌊s⌋₊ : ℝ) = s → (bodyMag f b : ℝ) = s)) := by
  obtain ⟨low, high⟩ := truncated_significand f ⌊s⌋₊ 1
  rw [Nat.one_mul] at low high
  generalize dropBits f ⌊s⌋₊ 1 = k at *
  have split := Nat.div_add_mod ⌊s⌋₊ (2 ^ k)
  have rest := Nat.mod_lt ⌊s⌋₊ (show 0 < 2 ^ k by positivity)
  obtain ⟨n, hn⟩ : ∃ n, ⌊s⌋₊ / 2 ^ k = n := ⟨_, rfl⟩
  rw [hn] at low high split
  have floor := Nat.floor_le hs
  have above : (n * 2 ^ k : ℝ) ≤ s := by
    have : n * 2 ^ k ≤ ⌊s⌋₊ := by rw [Nat.mul_comm]; omega
    exact le_trans (by exact_mod_cast this) floor
  have below : s < (n + 1) * 2 ^ k := by
    have : ⌊s⌋₊ + 1 ≤ (n + 1) * 2 ^ k := by rw [Nat.add_mul, Nat.mul_comm]; omega
    exact (Nat.lt_floor_add_one s).trans_le (by exact_mod_cast this)
  obtain ⟨down, up⟩ := nearestTo_of_truncated low high above below
  obtain ⟨lower, upper⟩ := bodyMag_around low high
  have scale (e : ℝ) (he : e ≤ 2 ^ k / 2) (exact : k = 0 → (⌊s⌋₊ : ℝ) = s → e = 0) :
      e ≤ s * roundoff f ∨ e ≤ 1 / 2 ∧ ((⌊s⌋₊ : ℝ) = s → e = 0) := by
    rcases Nat.eq_zero_or_pos k with rfl | pos
    · exact .inr ⟨by simpa using he, exact rfl⟩
    · left
      have normal : (2 : ℝ) ^ fracBits f ≤ n := by exact_mod_cast low.resolve_left pos.ne'
      have size : (2 : ℝ) ^ fracBits f * 2 ^ k ≤ s := (mul_le_mul_of_nonneg_right normal (by positivity)).trans above
      rw [roundoff, mul_one_div, le_div_iff₀ (by positivity), pow_succ]
      nlinarith [pow_pos (two_pos (α := ℝ)) (fracBits f)]
  have settle {b : Nat} (nearest : NearestTo f s b) (he : |s - bodyMag f b| ≤ 2 ^ k / 2)
      (exact : k = 0 → (⌊s⌋₊ : ℝ) = s → (bodyMag f b : ℝ) = s) : ∃ b, NearestTo f s b ∧
      (|s - bodyMag f b| ≤ s * roundoff f ∨ |s - bodyMag f b| ≤ 1 / 2 ∧ ((⌊s⌋₊ : ℝ) = s → (bodyMag f b : ℝ) = s)) := by
    refine ⟨b, nearest, (scale _ he fun zero whole => ?_).imp_right (And.imp_right fun h whole => ?_)⟩
    · rw [exact zero whole, sub_self, abs_zero]
    · linarith [abs_eq_zero.1 (h whole)]
  have whole (zero : k = 0) (h : (⌊s⌋₊ : ℝ) = s) : (n : ℝ) = s := by
    rw [← h, ← split, zero]
    simp [Nat.mod_one]
  have lowerReal : (bodyMag f (k * 2 ^ fracBits f + n) : ℝ) = n * 2 ^ k := by exact_mod_cast lower
  have upperReal : (bodyMag f (k * 2 ^ fracBits f + (n + 1)) : ℝ) = (n + 1) * 2 ^ k := by exact_mod_cast upper
  have fromBelow (half : 2 * s ≤ (2 * n + 1) * 2 ^ k) (nearest : NearestTo f s (k * 2 ^ fracBits f + n)) := by
    refine settle nearest ?_ fun zero h => ?_
    · rw [lowerReal, abs_of_nonneg (by linarith)]
      linarith
    · rw [lowerReal, ← whole zero h, zero, pow_zero, mul_one]
  have fromAbove (half : (2 * n + 1) * 2 ^ k ≤ 2 * s) (nearest : NearestTo f s (k * 2 ^ fracBits f + (n + 1))) := by
    refine settle nearest ?_ fun zero h => ?_
    · rw [upperReal, abs_of_nonpos (by linarith)]
      linarith
    · rw [← whole zero h, zero] at half
      linarith
  rcases lt_trichotomy (2 * s) ((2 * n + 1) * 2 ^ k) with less | middle | more
  · exact fromBelow less.le (down (.inl less))
  · rcases Nat.mod_two_eq_zero_or_one n with even | odd
    · exact fromBelow middle.le (down (.inr ⟨middle, even⟩))
    · exact fromAbove middle.ge (up (.inr ⟨middle, odd⟩))
  · exact fromAbove more.le (up (.inl more))

/-- The error of a rounded result: relative, or within half a quantum, and then none on a whole number of quanta. -/
theorem rounds_error {f : Fmt} {q : ℝ} {r : Elem} (h : Rounds f q r) (finite : isFinite f r = true) :
    |(toRat f r : ℝ) - q| ≤ |q| * roundoff f ∨
      |(toRat f r : ℝ) - q| ≤ halfQuantum f ∧ ((∃ N : Int, q * 2 ^ quantumExp f = N) → (toRat f r : ℝ) = q) := by
  have scale : (0 : ℝ) < 2 ^ quantumExp f := by positivity
  obtain ⟨b, nearest, error⟩ := exists_nearestTo f (s := |q| * 2 ^ quantumExp f) (by positivity)
  have inside : ¬ ((overflowBound f : ℚ) : ℝ) ≤ |q| := fun beyond => by
    rw [Rounds, if_pos beyond] at h
    exact absurd h.1 (by simp [isInf_eq_false_of_isFinite finite])
  rw [Rounds, if_neg inside] at h
  have body : b < infBody f := by
    have bound := overflowBound_le_iff nearest
    rw [mul_div_cancel_right₀ _ scale.ne'] at bound
    exact not_le.1 (bound.not.1 inside)
  obtain ⟨close, -⟩ := h.2 (pack f (decide (q < 0)) b) (isFinite_pack _ body)
  have distance : |q - (toRat f (pack f (decide (q < 0)) b) : ℝ)| =
      |(|q| * 2 ^ quantumExp f) - bodyMag f b| / 2 ^ quantumExp f := by
    have common (v : ℝ) : |q - v / 2 ^ quantumExp f| = |q * 2 ^ quantumExp f - v| / 2 ^ quantumExp f := by
      rw [sub_div' scale.ne', abs_div, abs_of_pos scale]
    rw [cast_toRat, quanta_pack _ body.le, common]
    rcases lt_or_ge q 0 with neg | pos
    · rw [abs_of_neg neg, ← abs_neg]
      simp [neg, sub_eq_add_neg, add_comm]
    · rw [abs_of_nonneg pos]
      simp [not_lt.2 pos]
  rw [distance, abs_sub_comm] at close
  refine error.imp (fun relative => close.trans ?_) fun ⟨half, whole⟩ => ⟨close.trans ?_, fun ⟨N, hN⟩ => ?_⟩
  · rw [div_le_iff₀ scale]
    linarith
  · rw [div_le_iff₀ scale, halfQuantum, pow_succ]
    field_simp
    linarith
  · have quanta : |q| * 2 ^ quantumExp f = (N.natAbs : ℝ) := by
      rw [← abs_of_pos scale, ← abs_mul, hN, Nat.cast_natAbs, Int.cast_abs]
    rw [quanta, Nat.floor_natCast] at whole
    rw [quanta, whole rfl, sub_self, abs_zero, zero_div] at close
    exact sub_eq_zero.1 (abs_eq_zero.1 (le_antisymm close (abs_nonneg _)))

theorem roundoff_pos (f : Fmt) : 0 < roundoff f := by unfold roundoff; positivity

theorem halfQuantum_pos (f : Fmt) : 0 < halfQuantum f := by unfold halfQuantum; positivity

theorem rounds_near {f : Fmt} {q : ℝ} {r : Elem} (h : Rounds f q r) (finite : isFinite f r = true) :
    |(toRat f r : ℝ) - q| ≤ |q| * roundoff f + halfQuantum f := by
  have relative := mul_nonneg (abs_nonneg q) (roundoff_pos f).le
  rcases rounds_error h finite with error | ⟨error, -⟩
  · linarith [halfQuantum_pos f]
  · linarith

/-- A sum or difference of values has a relative error alone. -/
theorem rounds_near_of_whole {f : Fmt} {q : ℝ} {r : Elem} (h : Rounds f q r) (finite : isFinite f r = true)
    (whole : ∃ N : Int, q * 2 ^ quantumExp f = N) : |(toRat f r : ℝ) - q| ≤ |q| * roundoff f := by
  rcases rounds_error h finite with error | ⟨-, exact⟩
  · exact error
  · rw [exact whole, sub_self, abs_zero]
    exact mul_nonneg (abs_nonneg q) (roundoff_pos f).le

/-! ## Rounding and order -/

theorem toRat_lt_iff {f : Fmt} {x y : Elem} : (toRat f x : ℝ) < toRat f y ↔ quanta f x < quanta f y := by
  rw [cast_toRat, cast_toRat, div_lt_div_iff_of_pos_right (by positivity)]
  exact_mod_cast Iff.rfl

theorem flt_iff_toRat {f : Fmt} {x y : Elem} (hx : isFinite f x = true) (hy : isFinite f y = true) :
    flt f x y = true ↔ (toRat f x : ℝ) < toRat f y := by rw [flt_iff_quanta hx hy, toRat_lt_iff]

theorem abs_toRat_lt_overflowBound {f : Fmt} {x : Elem} (finite : isFinite f x = true) :
    |(toRat f x : ℝ)| < ((overflowBound f : ℚ) : ℝ) := by
  have size : |(toRat f x : ℝ)| = (bodyMag f (bodyOf f x) : ℝ) / 2 ^ quantumExp f := by
    rw [cast_toRat_mag, abs_div, abs_of_pos (show (0 : ℝ) < 2 ^ quantumExp f by positivity), mag_eq]
    split <;> simp
  have self : NearestTo f (bodyMag f (bodyOf f x)) (bodyOf f x) := fun y => by
    rw [sub_self, abs_zero]
    exact ⟨abs_nonneg _, fun tie other => absurd (sub_eq_zero.1 (abs_eq_zero.1 tie.symm)).symm other⟩
  rw [size, ← not_le, overflowBound_le_iff self, not_le]
  simpa [isFinite] using finite

/-- A number no larger than a value of the format does not overflow. -/
theorem rounds_isFinite_of_abs {f : Fmt} {q : ℝ} {r v : Elem} (h : Rounds f q r) (hv : isFinite f v = true)
    (bound : |q| ≤ |(toRat f v : ℝ)|) : isFinite f r = true := by
  have inside : ¬ ((overflowBound f : ℚ) : ℝ) ≤ |q| := not_le.2 (bound.trans_lt (abs_toRat_lt_overflowBound hv))
  rw [Rounds, if_neg inside] at h
  exact h.1

theorem rounds_isFinite {f : Fmt} {q : ℝ} {r v : Elem} (h : Rounds f q r) (hv : isFinite f v = true)
    (bound : |q| ≤ (toRat f v : ℝ)) : isFinite f r = true :=
  rounds_isFinite_of_abs h hv (bound.trans (le_abs_self _))

theorem rounds_nearest {f : Fmt} {q : ℝ} {r : Elem} (h : Rounds f q r) (finite : isFinite f r = true) {v : Elem}
    (hv : isFinite f v = true) : |q - (toRat f r : ℝ)| ≤ |q - (toRat f v : ℝ)| := by
  unfold Rounds at h
  split_ifs at h with beyond
  · exact absurd h.1 (by simp [isInf_eq_false_of_isFinite finite])
  · exact (h.2 v hv).1

/-- Rounding keeps order with the values of the format. -/
theorem rounds_le {f : Fmt} {q : ℝ} {r v : Elem} (h : Rounds f q r) (finite : isFinite f r = true)
    (hv : isFinite f v = true) (le : q ≤ (toRat f v : ℝ)) : (toRat f r : ℝ) ≤ toRat f v := by
  by_contra! above
  have near := rounds_nearest h finite hv
  rw [abs_of_nonpos (by linarith), abs_of_nonpos (by linarith)] at near
  linarith

theorem rounds_ge {f : Fmt} {q : ℝ} {r v : Elem} (h : Rounds f q r) (finite : isFinite f r = true)
    (hv : isFinite f v = true) (ge : (toRat f v : ℝ) ≤ q) : (toRat f v : ℝ) ≤ toRat f r := by
  by_contra! below
  have near := rounds_nearest h finite hv
  rw [abs_of_nonneg (by linarith), abs_of_nonneg (by linarith)] at near
  linarith

theorem toRat_fzero (f : Fmt) : ((toRat f fzero : ℚ) : ℝ) = 0 := by
  rw [cast_toRat, (isVal_fzero f).2, Int.cast_zero, zero_div]

theorem toRat_fone (f : Fmt) : ((toRat f (fone f) : ℚ) : ℝ) = 1 := by
  rw [cast_toRat_of_isVal (isVal_fone f), Int.cast_one]

/-- A number between 0 and 1 is finite. -/
theorem isFinite_of_inside {f : Fmt} {x : Elem} (pos : flt f fzero x = true) (below : flt f x (fone f) = true) :
    isFinite f x = true := by
  obtain ⟨number, -, sign⟩ := fzero_flt_iff.1 pos
  have one : orderKey f (fone f) < infBody f := by cases f <;> decide
  simp only [flt, orderKey, sign, Bool.and_eq_true, decide_eq_true_eq, Bool.false_eq_true, if_false] at below
  simp only [isFinite, decide_eq_true_eq]
  unfold orderKey at one
  omega

/-! ## Sums and differences -/

theorem whole_add (f : Fmt) (x y : Elem) : ∃ N : Int, ((toRat f x : ℝ) + toRat f y) * 2 ^ quantumExp f = N := by
  refine ⟨quanta f x + quanta f y, ?_⟩
  rw [cast_toRat, cast_toRat]
  push_cast
  field_simp

theorem whole_sub (f : Fmt) (x y : Elem) : ∃ N : Int, ((toRat f x : ℝ) - toRat f y) * 2 ^ quantumExp f = N := by
  refine ⟨quanta f x - quanta f y, ?_⟩
  rw [cast_toRat, cast_toRat]
  push_cast
  field_simp

/-! ## The blend (R238, R239) -/

/-- The ideal blend. -/
noncomputable def idealBlend (z : ℝ) : ℝ := z / (1 + z)

/-- The blend shrinks distances. -/
theorem idealBlend_near {u z e : ℝ} (hu : 0 ≤ u) (hz : 0 ≤ z) (he : |u - z| ≤ e) : |idealBlend u - idealBlend z| ≤ e / (1 + z) := by
  have posU : 0 < 1 + u := by linarith
  have posZ : 0 < 1 + z := by linarith
  have difference : idealBlend u - idealBlend z = (u - z) / ((1 + u) * (1 + z)) := by
    rw [idealBlend, idealBlend, div_sub_div _ _ posU.ne' posZ.ne']
    ring
  rw [difference, abs_div, abs_of_pos (mul_pos posU posZ), div_le_div_iff₀ (mul_pos posU posZ) posZ]
  have wide : (1 + z) ≤ (1 + u) * (1 + z) := le_mul_of_one_le_left posZ.le (by linarith)
  exact mul_le_mul he wide posZ.le ((abs_nonneg _).trans he)

/-- The error of the four roundings from a gap to its blend, times the range. -/
theorem blend_error {a d g u v w p e h : ℝ} (pos : 0 < d) (hg : 0 ≤ g) (he : 0 ≤ e) (hh : 0 ≤ h)
    (hu : 0 ≤ u) (gap : |a - g| ≤ g * e) (ratio : |u - a / d| ≤ a / d * e + h) (denominator : |v - (1 + u)| ≤ (1 + u) * e)
    (below : u ≤ v) (one : 1 ≤ v) (quotient : |w - u / v| ≤ u / v * e + h) (unit : w ≤ 1)
    (product : |p - d * w| ≤ d * w * e + h) :
    |p - d * idealBlend (g / d)| ≤ d * (5 * e + e ^ 2 + 2 * h) + h := by
  obtain ⟨z, hz⟩ : ∃ z, g / d = z := ⟨_, rfl⟩
  have nonneg : 0 ≤ z := hz ▸ div_nonneg hg pos.le
  have scaled : |a / d - z| ≤ z * e := by
    rw [← hz, ← sub_div, abs_div, abs_of_pos pos, div_mul_eq_mul_div]
    exact div_le_div_of_nonneg_right gap pos.le
  have near : |u - z| ≤ z * (2 * e + e ^ 2) + h := by
    have bound : a / d ≤ z + z * e := by linarith [(abs_le.1 scaled).2]
    have grown := mul_le_mul_of_nonneg_right bound he
    have triangle := abs_sub_le u (a / d) z
    linarith
  have blends : |idealBlend u - idealBlend z| ≤ 2 * e + e ^ 2 + h := by
    refine (idealBlend_near hu nonneg near).trans ?_
    rw [div_le_iff₀ (by linarith)]
    have := mul_nonneg hh nonneg
    nlinarith [sq_nonneg e]
  have ratioUnit : u / v ≤ 1 := div_le_one_of_le₀ below (by linarith)
  have division : |u / v - idealBlend u| ≤ e := by
    have posV : 0 < v := by linarith
    have posU : 0 < 1 + u := by linarith
    have difference : u / v - idealBlend u = u / v * (1 + u - v) / (1 + u) := by
      rw [idealBlend]
      field_simp
    rw [difference, abs_div, abs_mul, abs_of_pos posU, abs_of_nonneg (div_nonneg hu posV.le), abs_sub_comm,
      div_le_iff₀ posU]
    calc u / v * |v - (1 + u)| ≤ 1 * ((1 + u) * e) := mul_le_mul ratioUnit denominator (abs_nonneg _) zero_le_one
      _ = e * (1 + u) := by ring
  have weight : |w - idealBlend z| ≤ 4 * e + e ^ 2 + 2 * h := by
    have first := abs_sub_le w (u / v) (idealBlend z)
    have second := abs_sub_le (u / v) (idealBlend u) (idealBlend z)
    have rounded : u / v * e ≤ e := mul_le_of_le_one_left he ratioUnit
    linarith
  have last := abs_sub_le p (d * w) (d * idealBlend z)
  rw [← mul_sub, abs_mul, abs_of_pos pos] at last
  have scaledWeight := mul_le_mul_of_nonneg_left weight pos.le
  have scaledUnit : d * w * e ≤ d * e := mul_le_mul_of_nonneg_right (mul_le_of_le_one_right pos.le unit) he
  rw [hz]
  linarith

/-- The largest finite value lies more than 1 below the overflow bound. -/
theorem one_add_lt_overflowBound {f : Fmt} {u : Elem} (finite : isFinite f u = true) :
    1 + (toRat f u : ℝ) < ((overflowBound f : ℚ) : ℝ) := by
  obtain ⟨-, last, -⟩ := bodyMag_top f
  have body : bodyOf f u ≤ infBody f - 1 := by simp [isFinite] at finite; omega
  have width : 2 ≤ 4 * 2 ^ fracBits f := by have := Nat.one_le_two_pow (n := fracBits f); omega
  have magnitude : (mag f u : ℝ) ≤ (4 * 2 ^ fracBits f - 2) * 2 ^ (expOnes f - 3) := by
    have size : mag f u ≤ (4 * 2 ^ fracBits f - 2) * 2 ^ (expOnes f - 3) := by
      rw [mag_eq, ← last]
      exact (bodyMag_strictMono f).monotone body
    have cast : ((mag f u : Nat) : ℝ) ≤ ((4 * 2 ^ fracBits f - 2) * 2 ^ (expOnes f - 3) : Nat) := by exact_mod_cast size
    push_cast [width] at cast
    exact cast
  have scale : (2 : ℝ) ^ quantumExp f < 2 ^ (expOnes f - 3) := pow_lt_pow_right₀ one_lt_two (by cases f <;> decide)
  have value : (toRat f u : ℝ) ≤ mag f u / 2 ^ quantumExp f := by
    rw [cast_toRat_mag]
    refine div_le_div_of_nonneg_right ?_ (by positivity)
    split
    · linarith [Nat.cast_nonneg (α := ℝ) (mag f u)]
    · exact le_refl _
  refine (add_le_add_right value 1).trans_lt ?_
  rw [overflowBound]
  push_cast
  rw [lt_div_iff₀ (by positivity), add_mul, div_mul_cancel₀ _ (by positivity), pow_add]
  linarith

theorem isFinite_one_add {f : Fmt} {u : Elem} (finite : isFinite f u = true) (nonneg : 0 ≤ (toRat f u : ℝ)) :
    isFinite f (fadd f (fone f) u) = true := by
  have sum := rounds_addAs (src := .add) (isVal_fone f).1 finite
  have bound := one_add_lt_overflowBound finite
  rw [toRat_fone, Rounds, abs_of_nonneg (by linarith), if_neg (not_le.2 bound)] at sum
  exact sum.1

theorem isZero_eq_false_of_pos {f : Fmt} {x : Elem} (h : 0 < (toRat f x : ℝ)) : isZero f x = false := by
  rw [← Bool.not_eq_true]
  intro zero
  rw [cast_toRat, quanta_of_isZero zero] at h
  simp at h

/-- The steps of a curve up to the product: the ratio of a rounded gap and the range, its blend, and the product with the
range. -/
theorem blend_near {f : Fmt} {a d : Elem} {g : ℝ} (finite_a : isFinite f a = true) (finite_d : isFinite f d = true)
    (pos : 0 < (toRat f d : ℝ)) (hg : 0 ≤ g) (ha : 0 ≤ (toRat f a : ℝ)) (gap : |(toRat f a : ℝ) - g| ≤ g * roundoff f)
    (finite_u : isFinite f (fdiv f a d) = true) :
    isFinite f (fmul f d (blend f (fdiv f a d))) = true ∧ 0 ≤ (toRat f (fmul f d (blend f (fdiv f a d))) : ℝ) ∧
      (toRat f (fmul f d (blend f (fdiv f a d))) : ℝ) ≤ toRat f d ∧
      |(toRat f (fmul f d (blend f (fdiv f a d))) : ℝ) - toRat f d * idealBlend (g / toRat f d)| ≤
        toRat f d * (5 * roundoff f + roundoff f ^ 2 + 2 * halfQuantum f) + halfQuantum f := by
  have zero := toRat_fzero f
  have one := toRat_fone f
  have finiteZero := (isVal_fzero f).1
  have finiteOne := (isVal_fone f).1
  have ratio := rounds_fdiv finite_a finite_d (isZero_eq_false_of_pos pos)
  generalize fdiv f a d = u at *
  have ratioNonneg : 0 ≤ (toRat f a : ℝ) / toRat f d := div_nonneg ha pos.le
  have nonneg_u : 0 ≤ (toRat f u : ℝ) := by
    rw [← zero]
    exact rounds_ge ratio finite_u finiteZero (zero.trans_le ratioNonneg)
  have near_u := rounds_near ratio finite_u
  have sum := rounds_addAs (src := .add) finiteOne finite_u
  have finite_v := isFinite_one_add finite_u nonneg_u
  rw [blend]
  rw [fadd] at finite_v ⊢
  have one_le : 1 ≤ (toRat f (addAs .add f (fone f) u) : ℝ) := by
    rw [← one]
    exact rounds_ge sum finite_v finiteOne (by linarith)
  have below := rounds_ge sum finite_v finite_u (by linarith)
  have near_v := rounds_near_of_whole sum finite_v (whole_add f (fone f) u)
  have quotient := rounds_fdiv finite_u finite_v (isZero_eq_false_of_pos (by linarith))
  generalize addAs .add f (fone f) u = v at *
  have inUnit : 0 ≤ (toRat f u : ℝ) / toRat f v ∧ (toRat f u : ℝ) / toRat f v ≤ 1 :=
    ⟨div_nonneg nonneg_u (by linarith), div_le_one_of_le₀ below (by linarith)⟩
  have finite_w := rounds_isFinite quotient finiteOne (by rw [one, abs_of_nonneg inUnit.1]; exact inUnit.2)
  have nonneg_w : 0 ≤ (toRat f (fdiv f u v) : ℝ) := by
    rw [← zero]
    exact rounds_ge quotient finite_w finiteZero (zero.trans_le inUnit.1)
  have unit : (toRat f (fdiv f u v) : ℝ) ≤ 1 := by
    rw [← one]
    exact rounds_le quotient finite_w finiteOne (inUnit.2.trans_eq one.symm)
  have near_w := rounds_near quotient finite_w
  have product := rounds_fmul finite_d finite_w
  generalize fdiv f u v = w at *
  have inRange : 0 ≤ (toRat f d : ℝ) * toRat f w ∧ (toRat f d : ℝ) * toRat f w ≤ toRat f d :=
    ⟨mul_nonneg pos.le nonneg_w, mul_le_of_le_one_right pos.le unit⟩
  have finite_p := rounds_isFinite product finite_d (by rw [abs_of_nonneg inRange.1]; exact inRange.2)
  have near_p := rounds_near product finite_p
  rw [abs_of_nonneg ratioNonneg] at near_u
  rw [one, abs_of_nonneg (by linarith : (0 : ℝ) ≤ 1 + toRat f u)] at near_v
  rw [abs_of_nonneg inUnit.1] at near_w
  rw [abs_of_nonneg inRange.1] at near_p
  refine ⟨finite_p, ?_, rounds_le product finite_p finite_d inRange.2,
    blend_error pos hg (roundoff_pos f).le (halfQuantum_pos f).le nonneg_u gap near_u near_v below one_le near_w unit near_p⟩
  rw [← zero]
  exact rounds_ge product finite_p finiteZero (zero.trans_le inRange.1)

/-! ## The blend range of a curve -/

/-- A result above zero rounds a number above zero. -/
theorem rounds_pos {f : Fmt} {q : ℝ} {r : Elem} (h : Rounds f q r) (pos : flt f fzero r = true) : 0 < q := by
  by_contra! nonpos
  have sign := fzero_flt_iff.1 pos
  by_cases finite : isFinite f r = true
  · have below := rounds_le h finite (isVal_fzero f).1 (nonpos.trans_eq (toRat_fzero f).symm)
    exact absurd ((flt_iff_toRat (isVal_fzero f).1 finite).1 pos) (not_lt.2 below)
  · rw [Rounds] at h
    split_ifs at h with beyond
    · have bound : (0 : ℝ) < ((overflowBound f : ℚ) : ℝ) := (abs_nonneg _).trans_lt (abs_toRat_lt_overflowBound (isVal_fzero f).1)
      have neg : q < 0 := lt_of_le_of_ne nonpos fun zero => absurd beyond (by simpa [zero] using bound)
      exact absurd (h.2.2 neg) (by simp [sign.2.2])
    · exact finite h.1

/-- The difference of two values, neither negative, is at most the larger one. -/
theorem range_near {f : Fmt} {hi lo : Elem} (finite_hi : isFinite f hi = true) (finite_lo : isFinite f lo = true)
    (nonneg : 0 ≤ (toRat f lo : ℝ)) (order : (toRat f lo : ℝ) ≤ toRat f hi) :
    isFinite f (fsub f hi lo) = true ∧ 0 ≤ (toRat f (fsub f hi lo) : ℝ) ∧ (toRat f (fsub f hi lo) : ℝ) ≤ toRat f hi ∧
      |(toRat f (fsub f hi lo) : ℝ) - (toRat f hi - toRat f lo)| ≤ (toRat f hi - toRat f lo) * roundoff f := by
  have difference := rounds_fsub finite_hi finite_lo
  have size : |(toRat f hi : ℝ) - toRat f lo| = toRat f hi - toRat f lo := abs_of_nonneg (by linarith)
  have finite := rounds_isFinite difference finite_hi (by linarith)
  have near := rounds_near_of_whole difference finite (whole_sub f hi lo)
  have below := rounds_le difference finite finite_hi (by linarith)
  have above := rounds_ge difference finite (isVal_fzero f).1 (by rw [toRat_fzero]; linarith)
  rw [toRat_fzero] at above
  rw [size] at near
  exact ⟨finite, above, below, near⟩

theorem roundoff_le (f : Fmt) : roundoff f ≤ 1 / 4 := by
  cases f <;> norm_num [roundoff, fracBits]

theorem two_mul_halfQuantum (f : Fmt) : 2 * halfQuantum f = 1 / 2 ^ quantumExp f := by
  rw [halfQuantum, pow_succ]
  field_simp

theorem halfQuantum_le (f : Fmt) : 2 * halfQuantum f ≤ roundoff f ^ 2 := by
  have exponents : (fracBits f + 1) * 2 ≤ quantumExp f := by cases f <;> decide
  rw [two_mul_halfQuantum, roundoff, one_div_pow, ← pow_mul]
  exact one_div_le_one_div_of_le (by positivity) (pow_le_pow_right₀ one_le_two exponents)

/-- Two values differ by a unit in the last place of the larger one at least. -/
theorem le_mul_gap {f : Fmt} {hi lo : Elem} (pos : 0 < (toRat f hi : ℝ)) (order : (toRat f lo : ℝ) < toRat f hi) :
    (toRat f hi : ℝ) ≤ 2 ^ (fracBits f + 1) * (toRat f hi - toRat f lo) := by
  have scale : (0 : ℝ) < 2 ^ quantumExp f := by positivity
  have inQuanta : (quanta f hi : ℝ) ≤ 2 ^ (fracBits f + 1) * (quanta f hi - quanta f lo) := by
    have less := toRat_lt_iff.1 order
    have positive : 0 < quanta f hi := by
      rw [cast_toRat, lt_div_iff₀ scale, zero_mul] at pos
      exact_mod_cast pos
    have size : quanta f hi = bodyMag f (bodyOf f hi) := by
      rw [quanta_eq] at positive ⊢
      split_ifs at positive ⊢ <;> omega
    obtain ⟨b, hb⟩ : ∃ b, bodyOf f hi = b + 1 := Nat.exists_eq_succ_of_ne_zero fun zero => by
      simp [zero] at size
      omega
    obtain ⟨k, n, rfl, low, high⟩ := exists_significand f b
    obtain ⟨at_n, at_next⟩ := bodyMag_around low high
    have gap := (quanta_not_between f (k * 2 ^ fracBits f + n) lo).resolve_right (by rw [← hb, ← size]; omega)
    rw [at_n] at gap
    rw [hb, at_next] at size
    have gapReal : (quanta f lo : ℝ) ≤ n * 2 ^ k := by exact_mod_cast gap
    have sizeReal : (quanta f hi : ℝ) = (n + 1) * 2 ^ k := by exact_mod_cast size
    have bound : (n : ℝ) + 1 ≤ 2 ^ (fracBits f + 1) := by exact_mod_cast high
    rw [sizeReal]
    exact mul_le_mul bound (by linarith) (by positivity) (by positivity)
  rw [cast_toRat, cast_toRat, ← sub_div, ← mul_div_assoc]
  exact div_le_div_of_nonneg_right inQuanta scale.le

/-- The errors of the last two operations of a curve and of its blend. -/
theorem nearCurve_of_steps {f : Fmt} {r y w c : ℝ} (nonneg : 0 ≤ r) (last : |y - w| ≤ r * (2 * roundoff f))
    (blended : |w - c| ≤ r * (5 * roundoff f + roundoff f ^ 2 + 2 * halfQuantum f) + halfQuantum f) : NearCurve f r y c := by
  have units : 4 * r / 2 ^ fracBits f = r * (8 * roundoff f) := by
    rw [roundoff, pow_succ]
    field_simp
    ring
  rw [NearCurve, units, ← two_mul_halfQuantum]
  have small : 5 * roundoff f + roundoff f ^ 2 + 2 * halfQuantum f ≤ 6 * roundoff f := by
    nlinarith [halfQuantum_le f, roundoff_le f, roundoff_pos f]
  linarith [abs_sub_le y w c, mul_le_mul_of_nonneg_left small nonneg, halfQuantum_pos f]

/-! ## The dip curve (R238) -/

/-- The threshold of a soft dip is not negative and lies below its start level. -/
theorem dip_levels {f : Fmt} {t x : Elem} (finite_t : isFinite f t = true) (finite_s : isFinite f (fdiv f t x) = true)
    (pos : flt f fzero x = true) (below : flt f x (fone f) = true) (range : flt f fzero (fsub f (fdiv f t x) t) = true) :
    0 ≤ (toRat f t : ℝ) ∧ (toRat f t : ℝ) < toRat f (fdiv f t x) := by
  have finite_x := isFinite_of_inside pos below
  rw [flt_iff_toRat (isVal_fzero f).1 finite_x, toRat_fzero] at pos
  rw [flt_iff_toRat finite_x (isVal_fone f).1, toRat_fone] at below
  have order := rounds_pos (rounds_fsub finite_s finite_t) range
  refine ⟨?_, by linarith⟩
  by_contra! negative
  have quotient : (toRat f t : ℝ) / toRat f x ≤ toRat f t := by
    rw [div_le_iff₀ pos]
    nlinarith
  linarith [rounds_le (rounds_fdiv finite_t finite_x (isZero_eq_false_of_pos pos)) finite_s finite_t quotient]

/-- The ratio of a gap below the start level and the range does not overflow. -/
theorem isFinite_dip_ratio {f : Fmt} {a d s t : Elem} (finite_a : isFinite f a = true) (finite_d : isFinite f d = true)
    (pos : 0 < (toRat f s : ℝ)) (order : (toRat f t : ℝ) < toRat f s) (nonneg : 0 ≤ (toRat f a : ℝ))
    (bound : (toRat f a : ℝ) ≤ toRat f s)
    (near : |(toRat f d : ℝ) - (toRat f s - toRat f t)| ≤ (toRat f s - toRat f t) * roundoff f) :
    isFinite f (fdiv f a d) = true := by
  have half : (toRat f s - toRat f t : ℝ) ≤ 2 * toRat f d := by
    nlinarith [(abs_le.1 near).1, roundoff_le f]
  have pos_d : 0 < (toRat f d : ℝ) := by linarith
  have power := isVal_i2f (shortInt_two_pow f (j := fracBits f + 2) (by cases f <;> decide))
  refine rounds_isFinite (rounds_fdiv finite_a finite_d (isZero_eq_false_of_pos pos_d)) power.1 ?_
  rw [abs_of_nonneg (div_nonneg nonneg pos_d.le), cast_toRat_of_isVal power, div_le_iff₀ pos_d]
  push_cast
  calc (toRat f a : ℝ) ≤ 2 ^ (fracBits f + 1) * (toRat f s - toRat f t) := bound.trans (le_mul_gap pos order)
    _ ≤ 2 ^ (fracBits f + 1) * (2 * toRat f d) := by gcongr
    _ = 2 ^ (fracBits f + 2) * toRat f d := by ring

theorem dipCurve_near {f : Fmt} {t x m : Elem} {c : ℝ → ℝ} (finite_t : isFinite f t = true)
    (finite_s : isFinite f (fdiv f t x) = true) (pos : flt f fzero x = true) (below : flt f x (fone f) = true)
    (range : flt f fzero (fsub f (fdiv f t x) t) = true) (finite_m : isFinite f m = true) (nonneg : 0 ≤ (toRat f m : ℝ))
    (near : flt f m (fdiv f t x) = true) (ideal : IdealDip (toRat f (fdiv f t x)) (toRat f (fsub f (fdiv f t x) t)) c) :
    isFinite f (dipCurve f t x m) = true ∧
      NearCurve f (toRat f (fdiv f t x)) (toRat f (dipCurve f t x m)) (c (toRat f m)) := by
  obtain ⟨nonneg_t, order⟩ := dip_levels finite_t finite_s pos below range
  rw [dipCurve_soft ⟨pos, below⟩ range, if_pos near]
  rw [flt_iff_toRat finite_m finite_s] at near
  rw [ideal, if_pos near]
  generalize fdiv f t x = s at *
  obtain ⟨finite_d, -, le_d, near_d⟩ := range_near finite_s finite_t nonneg_t order.le
  rw [flt_iff_toRat (isVal_fzero f).1 finite_d, toRat_fzero] at range
  obtain ⟨finite_a, nonneg_a, le_a, near_a⟩ := range_near finite_s finite_m nonneg near.le
  have finite_u := isFinite_dip_ratio finite_a finite_d (by linarith) order nonneg_a le_a near_d
  obtain ⟨finite_p, nonneg_p, le_p, near_p⟩ := blend_near finite_a finite_d range (by linarith) nonneg_a near_a finite_u
  obtain ⟨finite_y, -, -, near_y⟩ := range_near finite_s finite_p nonneg_p (le_p.trans le_d)
  refine ⟨finite_y, nearCurve_of_steps (by linarith) (near_y.trans ?_) ?_⟩
  · nlinarith [roundoff_pos f]
  · rw [sub_sub_sub_cancel_left, abs_sub_comm]
    refine near_p.trans ?_
    gcongr
    exact add_nonneg (by nlinarith [roundoff_pos f]) (by linarith [halfQuantum_pos f])

/-! ## The peak curve (R239) -/

/-- The start level of a soft peak is a value below its maximum, and not negative. -/
theorem peak_levels {f : Fmt} {top x : Elem} (finite_top : isFinite f top = true) (pos : flt f fzero x = true)
    (below : flt f x (fone f) = true) (range : flt f fzero (fsub f top (fmul f x top)) = true) :
    isFinite f (fmul f x top) = true ∧ 0 ≤ (toRat f (fmul f x top) : ℝ) ∧ (toRat f (fmul f x top) : ℝ) < toRat f top := by
  have finite_x := isFinite_of_inside pos below
  rw [flt_iff_toRat (isVal_fzero f).1 finite_x, toRat_fzero] at pos
  rw [flt_iff_toRat finite_x (isVal_fone f).1, toRat_fone] at below
  have product := rounds_fmul finite_x finite_top
  have finite_s : isFinite f (fmul f x top) = true := rounds_isFinite_of_abs product finite_top (by
    rw [abs_mul, abs_of_pos pos]
    exact mul_le_of_le_one_left (abs_nonneg _) below.le)
  have order := rounds_pos (rounds_fsub finite_top finite_s) range
  have nonneg : 0 ≤ (toRat f top : ℝ) := by
    by_contra! negative
    linarith [rounds_ge product finite_s finite_top (by nlinarith)]
  have above := rounds_ge product finite_s (isVal_fzero f).1 (by rw [toRat_fzero]; positivity)
  exact ⟨finite_s, (toRat_fzero f).symm.trans_le above, by linarith⟩

theorem peakCurve_near {f : Fmt} {top x m : Elem} {c : ℝ → ℝ} (finite_top : isFinite f top = true)
    (pos : flt f fzero x = true) (below : flt f x (fone f) = true) (range : flt f fzero (fsub f top (fmul f x top)) = true)
    (finite_m : isFinite f m = true) (near : flt f (fmul f x top) m = true)
    (finite_u : isFinite f (fdiv f (fsub f m (fmul f x top)) (fsub f top (fmul f x top))) = true)
    (finite_y : isFinite f (peakCurve f top x m) = true)
    (ideal : IdealPeak (toRat f (fmul f x top)) (toRat f (fsub f top (fmul f x top))) c) :
    NearCurve f (toRat f top) (toRat f (peakCurve f top x m)) (c (toRat f m)) := by
  obtain ⟨finite_s, nonneg_s, order⟩ := peak_levels finite_top pos below range
  rw [peakCurve_soft ⟨pos, below⟩ range, if_pos near] at finite_y ⊢
  rw [flt_iff_toRat finite_s finite_m] at near
  rw [ideal, if_pos near]
  generalize fmul f x top = s at *
  obtain ⟨finite_d, -, le_d, near_d⟩ := range_near finite_top finite_s nonneg_s order.le
  rw [flt_iff_toRat (isVal_fzero f).1 finite_d, toRat_fzero] at range
  obtain ⟨finite_a, nonneg_a, -, near_a⟩ := range_near finite_m finite_s nonneg_s near.le
  obtain ⟨finite_p, nonneg_p, le_p, near_p⟩ := blend_near finite_a finite_d range (by linarith) nonneg_a near_a finite_u
  have sum := rounds_addAs (src := .add) finite_s finite_p
  have near_y := rounds_near_of_whole sum finite_y (whole_add f _ _)
  rw [abs_of_nonneg (add_nonneg nonneg_s nonneg_p)] at near_y
  refine nearCurve_of_steps (by linarith) (near_y.trans ?_) ?_
  · have top_bound : (toRat f s : ℝ) + toRat f (fmul f (fsub f top s) (blend f (fdiv f (fsub f m s) (fsub f top s)))) ≤
        2 * toRat f top := by
      nlinarith [(abs_le.1 near_d).2, roundoff_le f, roundoff_pos f]
    nlinarith [roundoff_pos f]
  · rw [add_sub_add_left_eq_sub]
    refine near_p.trans ?_
    gcongr
    exact add_nonneg (by nlinarith [roundoff_pos f]) (by linarith [halfQuantum_pos f])

/-! ## The ideal curves (R248) -/

theorem hasDerivAt_idealBlend_zero : HasDerivAt idealBlend 1 0 := by
  have quotient := (hasDerivAt_id (0 : ℝ)).div ((hasDerivAt_id (0 : ℝ)).const_add 1) (by simp)
  have same : id / (fun z : ℝ => 1 + z) = idealBlend := rfl
  rw [← same]
  simpa using quotient

theorem idealBlend_lt {z : ℝ} (h : 0 < z) : idealBlend z < 1 ∧ idealBlend z < z :=
  ⟨(div_lt_one (by linarith)).2 (by linarith), div_lt_self h (by linarith)⟩

end Sys2Proof.Machine

namespace Sys2Proof.Safety

open Sys2Proof.Machine

theorem IdealDip.eq_blend {s d : ℝ} {c : ℝ → ℝ} (h : IdealDip s d c) {m : ℝ} (le : m ≤ s) :
    c m = s - d * idealBlend ((s - m) / d) := by
  rcases le.lt_or_eq with near | rfl
  · rw [h, if_pos near, idealBlend]
  · simp [h m, idealBlend]

theorem IdealDip.eq_self {s d : ℝ} {c : ℝ → ℝ} (h : IdealDip s d c) {m : ℝ} (ge : s ≤ m) : c m = m := by
  rw [h, if_neg (not_lt.2 ge)]

/-- The curve has slope 1 on both sides of its start level. -/
theorem IdealDip.hasDerivAt {s d : ℝ} {c : ℝ → ℝ} (h : IdealDip s d c) (pos : 0 < d) : HasDerivAt c 1 s := by
  have inner : HasDerivAt (fun m => (s - m) / d) (-1 / d) s := ((hasDerivAt_id s).const_sub s).div_const d
  have outer : HasDerivAt idealBlend 1 ((s - s) / d) := by
    rw [sub_self, zero_div]
    exact hasDerivAt_idealBlend_zero
  have blended : HasDerivAt (fun m => s - d * idealBlend ((s - m) / d)) 1 s := by
    have chain := ((outer.comp s inner).const_mul d).const_sub s
    rwa [one_mul, mul_div_cancel₀ _ pos.ne', neg_neg] at chain
  have left : HasDerivWithinAt c 1 (Set.Iic s) s :=
    blended.hasDerivWithinAt.congr (fun _ below => h.eq_blend below) (h.eq_blend le_rfl)
  have right : HasDerivWithinAt c 1 (Set.Ici s) s :=
    (hasDerivAt_id s).hasDerivWithinAt.congr (fun _ above => h.eq_self above) (h.eq_self le_rfl)
  have both := left.union right
  rwa [Set.Iic_union_Ici, hasDerivWithinAt_univ] at both

theorem IdealDip.lt_of_lt {s d : ℝ} {c : ℝ → ℝ} (h : IdealDip s d c) (pos : 0 < d) {m : ℝ} (near : m < s) :
    s - d < c m ∧ m < c m := by
  have gap : 0 < (s - m) / d := div_pos (by linarith) pos
  obtain ⟨unit, small⟩ := idealBlend_lt gap
  have range := mul_lt_mul_of_pos_left unit pos
  have moved := mul_lt_mul_of_pos_left small pos
  rw [mul_div_cancel₀ _ pos.ne'] at moved
  rw [h.eq_blend near.le]
  constructor <;> linarith

theorem IdealDip.bound_lt {s d : ℝ} {c : ℝ → ℝ} (h : IdealDip s d c) (pos : 0 < d) (m : ℝ) : s - d < c m := by
  rcases lt_or_ge m s with near | far
  · exact (h.lt_of_lt pos near).1
  · rw [h.eq_self far]
    linarith

/-- The peak curve is the dip curve turned about the origin. -/
theorem IdealPeak.reflected {s d : ℝ} {c : ℝ → ℝ} (h : IdealPeak s d c) : IdealDip (-s) d (fun m => -c (-m)) := by
  intro m
  have side : s < -m ↔ m < -s := lt_neg
  simp only [h (-m), side]
  split_ifs
  · rw [show -m - s = -s - m by ring]
    ring
  · exact neg_neg m

theorem IdealPeak.hasDerivAt {s d : ℝ} {c : ℝ → ℝ} (h : IdealPeak s d c) (pos : 0 < d) : HasDerivAt c 1 s := by
  have turned := ((h.reflected.hasDerivAt pos).comp s (hasDerivAt_neg s)).neg
  have same : -((fun m => -c (-m)) ∘ Neg.neg) = c := by
    funext m
    simp
  rwa [same, one_mul, neg_neg] at turned

theorem IdealPeak.lt_bound {s d : ℝ} {c : ℝ → ℝ} (h : IdealPeak s d c) (pos : 0 < d) (m : ℝ) : c m < s + d := by
  have bound := h.reflected.bound_lt pos (-m)
  rw [neg_neg] at bound
  linarith

theorem IdealPeak.eq_self {s d : ℝ} {c : ℝ → ℝ} (h : IdealPeak s d c) {m : ℝ} (le : m ≤ s) : c m = m := by
  rw [h, if_neg (not_lt.2 le)]

theorem IdealPeak.lt_of_lt {s d : ℝ} {c : ℝ → ℝ} (h : IdealPeak s d c) (pos : 0 < d) {m : ℝ} (near : s < m) : c m < m := by
  obtain ⟨-, moved⟩ := h.reflected.lt_of_lt pos (neg_lt_neg near)
  rw [neg_neg] at moved
  linarith

end Sys2Proof.Safety

namespace Sys2Proof.Proofs

open Sys2Proof.Machine Sys2Proof.Safety

/-- Settles O27: the operands of every operation of a soft curve are values between 0 and its level, so each rounding has a
relative error, and the blend shrinks the error of the ratio. -/
theorem curvesFollowIdeal : Obligations.CurvesFollowIdeal := by
  unfold Obligations.CurvesFollowIdeal
  refine ⟨?dip, ?peak, ?ideal⟩
  case dip =>
    intro f t x m c s d finite_t finite_s pos below range finite_m nonneg near ideal
    exact dipCurve_near finite_t finite_s pos below range finite_m (by exact_mod_cast nonneg) near ideal
  case peak =>
    intro f top x m c s d finite_top pos below range finite_m near finite_u finite_y ideal
    exact peakCurve_near finite_top pos below range finite_m near finite_u finite_y ideal
  case ideal =>
    exact fun s d c pos =>
      ⟨fun dip => ⟨dip.hasDerivAt pos, dip.bound_lt pos, fun _ far => dip.eq_self far, fun _ near => (dip.lt_of_lt pos near).2⟩,
        fun peak => ⟨peak.hasDerivAt pos, peak.lt_bound pos, fun _ far => peak.eq_self far, fun _ near => peak.lt_of_lt pos near⟩⟩

end Sys2Proof.Proofs
end
